-- ==== Sys2Proof/Word.lean ====
section
/-! DEFINITION. The word types of the station: bytes, tram tags, pixels, counters, and the small index types of
addresses, inputs, channels, streams and slots (spec/00 section 0.8, spec/02 R22, spec/03 R40). -/
namespace Sys2Proof

/-- One byte on the trunk, the service line or in the configuration memory. -/
abbrev Byte := BitVec 8

/-- A 16-bit number: a tram tag (spec/00 section 0.2), a counter (R21) or a number of two bytes (R175). -/
abbrev Word := BitVec 16

/-- One pixel at the camera port, 16 bits (R63). -/
abbrev Pixel := BitVec 16

/-- A trunk address, 0..15 (R22). -/
abbrev Addr := Fin 16

/-- A camera input, 0..3 (spec/00 section 0.8). -/
abbrev Input := Fin 4

/-- A door channel, 0..3 (spec/00 section 0.8). -/
abbrev Chan := Fin 4

/-- A stream number, 0..5 (R58). -/
abbrev StreamNo := Fin 6

/-- A data slot, 0..23 (R40). -/
abbrev Slot := Fin 24

/-- A position of the want table, 0..3 (R46). -/
abbrev WantPos := Fin 4

/-- The full-size lines of one camera frame, top line first, each line left to right (R70, R75). -/
abbrev FrameLines := List (List Pixel)

/-- Every address in ascending order. -/
def allAddrs : List Addr := [0, 1, 2, 3, 4, 5, 6, 7, 8, 9, 10, 11, 12, 13, 14, 15]

/-- Every camera input in ascending order. -/
def allInputs : List Input := [0, 1, 2, 3]

/-- Every door channel in ascending order. -/
def allChans : List Chan := [0, 1, 2, 3]

/-- Every stream number in ascending order. -/
def allStreams : List StreamNo := [0, 1, 2, 3, 4, 5]

/-- Every want-table position in ascending order. -/
def allPositions : List WantPos := [0, 1, 2, 3]

/-- Every data slot in ascending order. -/
def allSlots : List Slot :=
  [0, 1, 2, 3, 4, 5, 6, 7, 8, 9, 10, 11, 12, 13, 14, 15, 16, 17, 18, 19, 20, 21, 22, 23]

/-- A number as one byte, its low 8 bits. -/
def byte (n : Nat) : Byte := BitVec.ofNat 8 n

end Sys2Proof
end

