-- ==== Sys2Proof/Config.lean ====
section
/-! DEFINITION. The names the manual uses (classes, grades, phases, sides, selectors, view kinds), the settings that a
station takes from its configuration image (R179), the fixed numbers of spec/00 section 0.8, and the free values of
what the manual leaves open. -/
namespace Sys2Proof

/-- The three size classes (spec/00 section 0.6). -/
inductive SizeClass where
  | full
  | half
  | quarter
deriving DecidableEq, Repr

/-- FULL > HALF > QUARTER (spec/00 section 0.6). -/
def SizeClass.rank : SizeClass → Nat
  | .full => 2
  | .half => 1
  | .quarter => 0

/-- Slots a stream of the class needs (R41). -/
def SizeClass.need : SizeClass → Nat
  | .full => 6
  | .half => 3
  | .quarter => 1

/-- Bands per picture (R71). -/
def SizeClass.bands : SizeClass → Nat
  | .full => 48
  | .half => 24
  | .quarter => 12

/-- Lines per band (R71). -/
def SizeClass.bandLines : SizeClass → Nat
  | .full => 6
  | .half => 12
  | .quarter => 12

/-- Pixels per line of a picture (R71). -/
def SizeClass.width : SizeClass → Nat
  | .full => 480
  | .half => 240
  | .quarter => 240

/-- Lines of a picture (R71). -/
def SizeClass.height : SizeClass → Nat
  | .full => 288
  | .half => 288
  | .quarter => 144

/-- The higher of two classes. -/
def SizeClass.max (a b : SizeClass) : SizeClass := if a.rank < b.rank then b else a

/-- A lens grade (R94). -/
inductive Grade where
  | clean
  | watch
  | soiled
  | obscured
deriving DecidableEq, Repr

/-- CLEAN < WATCH < SOILED < OBSCURED (R102). -/
def Grade.rank : Grade → Nat
  | .clean => 0
  | .watch => 1
  | .soiled => 2
  | .obscured => 3

/-- One step down (R102). -/
def Grade.stepDown : Grade → Grade
  | .clean => .clean
  | .watch => .clean
  | .soiled => .watch
  | .obscured => .soiled

/-- A door phase (R77). -/
inductive DoorPhase where
  | unknown
  | locked
  | released
  | opened
  | closing
  | obstructed
  | fault
deriving DecidableEq, Repr

/-- End A or end B of a tram (spec/00 section 0.2). -/
inductive TramEnd where
  | a
  | b
deriving DecidableEq, Repr

/-- The end opposite to an end. -/
def TramEnd.opposite : TramEnd → TramEnd
  | .a => .b
  | .b => .a

/-- An A-side of a descriptor (R27). -/
inductive ASide where
  | left
  | right
  | centre
deriving DecidableEq, Repr

/-- A driver side, which is also the name of a screen (R135). -/
inductive Side where
  | left
  | right
deriving DecidableEq, Repr

/-- The other side. -/
def Side.other : Side → Side
  | .left => .right
  | .right => .left

/-- The driver side of a descriptor (R129). -/
inductive DriverSide where
  | left
  | right
  | both
  | none
deriving DecidableEq, Repr

/-- "A door is on side S when its driver side is S or BOTH" (spec/09 section 9.4). -/
def DriverSide.isOn : DriverSide → Side → Bool
  | .left, .left => true
  | .right, .right => true
  | .both, _ => true
  | _, _ => false

/-- The four kinds of camera (spec/00 section 0.2). -/
inductive CamKind where
  | doorOut
  | doorIn
  | rear
  | mirror
deriving DecidableEq, Repr

/-- A camera's kind with the data that belongs to it: a door number 1..15 or an end (R27). -/
inductive CamView where
  | doorOut (door : Nat)
  | doorIn (door : Nat)
  | rear (e : TramEnd)
  | mirror (e : TramEnd)
deriving DecidableEq, Repr

/-- The kind of a camera view. -/
def CamView.kind : CamView → CamKind
  | .doorOut _ => .doorOut
  | .doorIn _ => .doorIn
  | .rear _ => .rear
  | .mirror _ => .mirror

/-- The door number of a camera view, for the kinds that carry one (R130). -/
def CamView.door? : CamView → Option Nat
  | .doorOut d => some d
  | .doorIn d => some d
  | .rear _ => none
  | .mirror _ => none

/-- A camera descriptor of the configuration (R179). -/
structure CamConf where
  view : CamView
  side : ASide
deriving DecidableEq, Repr

/-- A door descriptor of the configuration (R77, R179). -/
structure DoorConf where
  door : Nat
  side : ASide
  exterior : Option Input
deriving DecidableEq, Repr

/-- The role of a station; UNANNOUNCED is the role of a roster entry whose ROSTER has not been applied (R27). -/
inductive Role where
  | unannounced
  | cab
  | body
deriving DecidableEq, Repr

/-- A pane selector (R134). FIXED carries a kind (DOOR_OUT or DOOR_IN), OTHER or SAME, and an ordinal 1..16. -/
inductive Selector where
  | blank
  | fixed (kind : CamKind) (other : Bool) (ordinal : Nat)
  | rear
  | mirror
  | sweep (k : Nat)
deriving DecidableEq, Repr

/-- A layout's pane: its selector and floor class (R134). -/
structure PaneConf where
  selector : Selector
  floor : SizeClass
deriving DecidableEq, Repr

/-- The grid of a usable layout (R134). -/
inductive Grid where
  | single
  | duo
  | trio
  | quad
deriving DecidableEq, Repr

/-- The pane classes of a grid, pane 0 first (R134). -/
def Grid.classes : Grid → List SizeClass
  | .single => [.full]
  | .duo => [.half, .half]
  | .trio => [.half, .quarter, .quarter]
  | .quad => [.quarter, .quarter, .quarter, .quarter]

/-- A usable entry of the layout table (R134, R135). -/
structure Layout where
  grid : Grid
  selectable : Bool
  onLeft : Bool
  onRight : Bool
  panes : List PaneConf
deriving DecidableEq, Repr

/-- The five kinds of view request (R136). -/
inductive ViewKind where
  | spotlight
  | closing
  | release
  | reverse
  | driver
deriving DecidableEq, Repr

/-- The kinds in kind order (R175). -/
def ViewKind.all : List ViewKind := [.spotlight, .closing, .release, .reverse, .driver]

/-- The code of a kind, which is also its bit in a mask (R175). -/
def ViewKind.code : ViewKind → Nat
  | .spotlight => 0
  | .closing => 1
  | .release => 2
  | .reverse => 3
  | .driver => 4

/-- The settings of one view kind, as the image lays them out (R136, R179): the preempt mask and the layout indexes
keep their bytes, since STATUS reports them so (R173). -/
structure ViewSetting where
  rank : Nat
  mask : Byte
  linger : Nat
  layouts : Byte
deriving DecidableEq, Repr

/-- The reverse screen choice (R136). -/
inductive ReverseChoice where
  | left
  | right
  | both
deriving DecidableEq, Repr

/-- Does the reverse screen choice name the screen (R141)? -/
def ReverseChoice.names : ReverseChoice → Side → Bool
  | .left, .left => true
  | .right, .right => true
  | .both, _ => true
  | _, _ => false

/-- The view kind table in use (R136). -/
structure ViewTable where
  spotlight : ViewSetting
  closing : ViewSetting
  release : ViewSetting
  reverse : ViewSetting
  driver : ViewSetting
  choice : ReverseChoice
deriving DecidableEq, Repr

/-- The settings of one kind. -/
def ViewTable.get (t : ViewTable) : ViewKind → ViewSetting
  | .spotlight => t.spotlight
  | .closing => t.closing
  | .release => t.release
  | .reverse => t.reverse
  | .driver => t.driver

/-- The factory view kind table (R136). The layout byte of SPOTLIGHT, which is not read (R179), is 0 here;
STATUS reports a free value for it (log 28). -/
def ViewTable.factory : ViewTable where
  spotlight := { rank := 1, mask := 0x00#8, linger := 3, layouts := 0x00#8 }
  closing := { rank := 2, mask := 0x01#8, linger := 5, layouts := 0x11#8 }
  release := { rank := 3, mask := 0x03#8, linger := 2, layouts := 0x22#8 }
  reverse := { rank := 4, mask := 0x03#8, linger := 4, layouts := 0x33#8 }
  driver := { rank := 5, mask := 0x0F#8, linger := 0, layouts := 0x00#8 }
  choice := .both

/-- The soiling parameters (R95). The measurement period is in us. -/
structure Soiling where
  period : Nat
  riseConfirm : Nat
  fallConfirm : Nat
  suspect : Nat
  darkFloor : Nat
  disturbance : Nat
  collapse : Nat
  baseline : Vector Nat 16
deriving DecidableEq, Repr

/-- Everything the blocks take from a configuration image that passes its checks (R168, R179). Times are in us. -/
structure Settings where
  tag : Word
  localNo : Fin 8
  role : Role
  endStation : Option TramEnd
  screen0 : Side
  filterTime : Nat
  closingLimit : Nat
  frameRate : Nat
  lineCount : Nat
  pixelCount : Nat
  cams : Vector (Option CamConf) 4
  doors : Vector (Option DoorConf) 4
  soiling : Soiling
  layouts : Vector (Option Layout) 16
  views : ViewTable
  factoryViews : Bool
deriving DecidableEq, Repr

/-- The settings of a station that has taken none from an image (DESIGN CHOICE, unsafe: log 7). Nothing reads them
while the station is held, reading or INERT. -/
def Settings.blank : Settings where
  tag := 0#16
  localNo := 0
  role := .body
  endStation := none
  screen0 := .left
  filterTime := 10000
  closingLimit := 2000000
  frameRate := 25
  lineCount := 288
  pixelCount := 480
  cams := Vector.replicate 4 none
  doors := Vector.replicate 4 none
  soiling := { period := 500000, riseConfirm := 2, fallConfirm := 5, suspect := 2, darkFloor := 0, disturbance := 1,
               collapse := 0, baseline := Vector.replicate 16 1 }
  layouts := Vector.replicate 16 none
  views := ViewTable.factory
  factoryViews := true

/-- Is the input populated (R63)? -/
def Settings.populated (c : Settings) (i : Input) : Bool := c.cams[i].isSome

/-- Fixed times of the manual, in us. -/
def Config.tailStart : Nat := 4928
/-- Start of control position 0 (R1). -/
def Config.positionStart (k : Nat) : Nat := 40 + 70 * k
/-- Start of data slot n (R1). -/
def Config.slotStart (n : Nat) : Nat := 320 + 192 * n
/-- The start read ends within 5 ms (R167). -/
def Config.startReadLimit : Nat := 5000
/-- Camera stall timer, 200 ms (R66). -/
def Config.stallTime : Nat := 200000
/-- Camera absence time, 2 s (R67). -/
def Config.absenceTime : Nat := 2000000
/-- Unlock step timer, 2 s (R113). -/
def Config.stepTime : Nat := 2000000
/-- Unlocked life, 30 s (R112). -/
def Config.lifeTime : Nat := 30000000
/-- Baseline record write limit, 50 ms (R118). -/
def Config.writeLimit : Nat := 50000
/-- A gap of more than 20 ms ends a service frame (R170). -/
def Config.byteGap : Nat := 20001
/-- Does an offset lie within the start pattern and the arbitration field of a control position, 1 + 22 us (R1, R175)? -/
def Config.inField (off : Nat) : Bool :=
  [0, 1, 2, 3].any (fun k => decide (Config.positionStart k ≤ off) && decide (off < Config.positionStart k + 23))
/-- The interval of the round timer at an address (R2). -/
def Config.interval (a : Addr) : Nat := 5000 + 20 * a.val

/-- FREE VALUE (R118, R120; log 26): which bits of a record whose write was cut hold the new value. The first argument
counts the cut writes, the second is the byte's place in the record. -/
opaque Config.tornMask : Nat → Nat → Byte

/-- FREE VALUE (R71; log 25): whether the average of pixels that is not whole is rounded up. -/
opaque Config.roundPixelUp : List Pixel → Bool

/-- FREE VALUE (R152; log 47): the pixels of a display picture of the first class, given as its bands, at the size of a pane
of the second class, where the classes differ. -/
opaque Config.paneScaled : SizeClass → SizeClass → List (List Byte) → List (List Byte)

/-- FREE VALUE (R173; log 28): whether a linger time remaining of so many us, which is no whole number of 0.1 s, is
rounded up. -/
opaque Config.roundTenthUp : Nat → Bool

/-- FREE VALUE (R173; log 28): how the screen and the pane index stand in the one byte that a pane record of STATUS has
for them. -/
opaque Config.paneByte : Side → Nat → Byte

/-- FREE VALUE (R173; log 28): bytes of STATUS whose value the manual does not state: 0 to 2 the tag and end of a cab
record of NONE, 3 the layout byte of SPOTLIGHT in the factory view kind table. -/
opaque Config.replyByte : Nat → Byte

/-- FREE VALUE (R63, R173; log 70): the malformed frames that STATUS gives for an input without a record. -/
opaque Config.noInputFrames : Input → Word

/-- FREE VALUE (R77, R173; log 70): the closing faults that STATUS gives for a channel without a record. -/
opaque Config.noChannelFaults : Chan → Word

/-- FREE VALUE (R151, R173; log 70): the stale count that STATUS gives for a pane without a bound stream. -/
opaque Config.noStreamStale : Side → Nat → Byte

end Sys2Proof
end

