-- ==== Sys2Proof/Syntax.lean ====
section
/-! DEFINITION. The commands of the station: one constructor per row of spec/opcode_table.json, with what the step
needs to know from outside as operands (log 9). -/
namespace Sys2Proof

/-- A MARK as it stood on the line after its start pattern: the arbitration field of address and tag, then the bytes
of body and check value (R1, R176). -/
structure MarkRx where
  addr : Addr
  tag : Word
  bytes : List Byte
deriving DecidableEq, Repr

/-- A control frame as it stood on the line after its start pattern: the field of class, address and tag, then the
bytes from the kind byte to the check value (R1, R176). -/
structure ControlRx where
  cls : Fin 4
  addr : Addr
  tag : Word
  bytes : List Byte
deriving DecidableEq, Repr

/-- A tile as it stood on the line after its start pattern: the field of the owner address, then header, payload and
check value (R1, R178). -/
structure TileRx where
  addr : Addr
  bytes : List Byte
deriving DecidableEq, Repr

/-- What stood on the line during a data slot (R18): nothing, a signal in which no tile was recognised, a tile, or a tile
that the start of a MARK out of turn cuts, which is told before that MARK start (log 52). -/
inductive SlotLine where
  | silent
  | signal
  | tile (rx : TileRx)
  | cut
deriving DecidableEq, Repr

/-- One of the three lines of a door channel (R77). -/
inductive DoorLine where
  | rel
  | shut
  | edge
deriving DecidableEq, Repr

/-- One of the three driver keys (R148). -/
inductive Key where
  | nextL
  | nextR
  | ack
deriving DecidableEq, Repr

/-- A vehicle line. SERVICE has no filter (R114); it stands here because the table has no row for its assertion
(DESIGN CHOICE, safe: log 10). -/
inductive VehicleLine where
  | door (ch : Chan) (line : DoorLine)
  | coupler
  | cabOn
  | reverse
  | key (k : Key)
  | service
deriving DecidableEq, Repr

/-- A sync pulse of a camera port (R65). -/
inductive SyncKind where
  | frame
  | line
deriving DecidableEq, Repr

/-- A frame as a camera delivered it: its lines and its length from opening to closing frame sync in us (R64). -/
structure CameraFrame where
  lines : FrameLines
  length : Nat
deriving DecidableEq, Repr

/-- The commands, one per row of spec/opcode_table.json. -/
inductive Instr where
  | powerOnReset
  | resetLine
  | startReadEnd
  | roundTimerExpiry (signal : Bool)
  | markStartHeard
  | markBodyReceived (rx : MarkRx)
  | markReadbackEnd (readBack : List Byte)
  | controlPositionStart (k : Nat)
  | arbitrationWin
  | controlFrameSent (readBack : List Byte)
  | clashLimit
  | rosterFrameReceived (rx : ControlRx)
  | doorFrameReceived (rx : ControlRx)
  | lensFrameReceived (rx : ControlRx)
  | cabFrameReceived (rx : ControlRx)
  | wantFrameReceived (rx : ControlRx)
  | claimFrameReceived (rx : ControlRx)
  | releaseFrameReceived (rx : ControlRx)
  | denyFrameReceived (rx : ControlRx)
  | dataSlotStart (n : Slot)
  | slotObservation (n : Slot) (line : SlotLine)
  | slotReclaim (n : Slot)
  | stationGone (a : Addr)
  | foreignTagAgedOut (tag : Word)
  | foreignTramPurge (tag : Word)
  | rosterRefreshDue
  | wantRecordExpiry (p : WantPos)
  | holdLimit (n : StreamNo)
  | vehicleLineEdge (line : VehicleLine) (level : Bool)
  | doorLineAccepted (ch : Chan) (line : DoorLine)
  | doorChannelSettled (ch : Chan)
  | closingLimit (ch : Chan)
  | couplerLineAccepted
  | cabOnAccepted
  | reverseAccepted
  | lingerExpiry (side : Side)
  | ackPress
  | nextKeyPress (side : Side)
  | carryEntryExpiry
  | wantRefreshDue
  | paneStale (side : Side) (pane : Nat)
  | cameraSyncPulse (i : Input) (kind : SyncKind)
  | cameraFrameCompleted (i : Input) (frame : CameraFrame)
  | cameraSynced (i : Input)
  | cameraStall (i : Input)
  | cameraAbsence (i : Input)
  | measurementPeriodTick
  | quietCountFull (i : Input)
  | rotaPass
  | gradeRise (i : Input)
  | gradeFall (i : Input)
  | probePass
  | captureFrame
  | baselineWriteComplete
  | baselineWriteTimeout
  | unlockStepTimeout
  | unlockedLifeExpiry
  | serviceLineDeassert
  | serviceByte (b : Byte) (stopBit : Bool)
  | serviceByteTimeout
  | status
  | roster
  | lens (input : Byte)
  | probe (input : Byte)
  | unlock (step : Byte)
  | capture (input : Byte)
  | clear (input : Byte)
  | replySent
  | resetReleased
  | driverKeyReleaseAccepted (key : Key)
deriving DecidableEq, Repr

end Sys2Proof
end

