-- ==== Sys2Proof/WellFormed.lean ====
section
/-! DEFINITION. Which commands are well formed: the bounds that the operand types do not carry by themselves
(R1 control positions, R176 and R178 lengths, R11 pane numbers), and that a control frame that names a kind
comes with the command of that kind (log 9). -/
namespace Sys2Proof

/-- The longest control frame after the field that a length byte allows: kind, length, address, tag, 255 bytes of kind
part, check value (R176). -/
def maxControlBytes : Nat := 264

/-- The longest tile after the field: header, payload, check value (R178). -/
def maxTileBytes : Nat := 5775

/-- A control frame fits its command: its length is bounded, and its kind byte is not the code of another kind. -/
def wellFormedControl (code : Byte) (rx : ControlRx) : Bool :=
  decide (rx.bytes.length ≤ maxControlBytes) &&
    match rx.bytes with
    | [] => true
    | k :: _ => k == code || k == 0x00#8 || decide (8 < k.toNat)

/-- Is the command well formed? -/
def WellFormed : Instr → Bool
  | .markBodyReceived rx => decide (rx.bytes.length ≤ 8)
  | .controlPositionStart k => decide (k < 4)
  | .rosterFrameReceived rx => wellFormedControl 0x01#8 rx
  | .doorFrameReceived rx => wellFormedControl 0x02#8 rx
  | .lensFrameReceived rx => wellFormedControl 0x03#8 rx
  | .cabFrameReceived rx => wellFormedControl 0x04#8 rx
  | .wantFrameReceived rx => wellFormedControl 0x05#8 rx
  | .claimFrameReceived rx => wellFormedControl 0x06#8 rx
  | .releaseFrameReceived rx => wellFormedControl 0x07#8 rx
  | .denyFrameReceived rx => wellFormedControl 0x08#8 rx
  | .slotObservation _ (.tile rx) => decide (rx.bytes.length ≤ maxTileBytes)
  | .paneStale _ pane => decide (pane < 4)
  | .powerOnReset | .resetLine | .startReadEnd | .roundTimerExpiry _ | .markStartHeard | .markReadbackEnd _
  | .arbitrationWin | .controlFrameSent _ | .clashLimit | .dataSlotStart _ | .slotObservation _ .silent
  | .slotObservation _ .signal | .slotObservation _ .cut | .slotReclaim _ | .stationGone _ | .foreignTagAgedOut _ | .foreignTramPurge _
  | .rosterRefreshDue | .wantRecordExpiry _ | .holdLimit _ | .vehicleLineEdge _ _ | .doorLineAccepted _ _
  | .doorChannelSettled _ | .closingLimit _ | .couplerLineAccepted | .cabOnAccepted | .reverseAccepted
  | .lingerExpiry _ | .ackPress | .nextKeyPress _ | .carryEntryExpiry | .wantRefreshDue | .cameraSyncPulse _ _
  | .cameraFrameCompleted _ _ | .cameraSynced _ | .cameraStall _ | .cameraAbsence _ | .measurementPeriodTick
  | .quietCountFull _ | .rotaPass | .gradeRise _ | .gradeFall _ | .probePass | .captureFrame
  | .baselineWriteComplete | .baselineWriteTimeout | .unlockStepTimeout | .unlockedLifeExpiry | .serviceLineDeassert
  | .serviceByte _ _ | .serviceByteTimeout | .status | .roster | .lens _ | .probe _ | .unlock _ | .capture _ | .clear _
  | .replySent | .resetReleased | .driverKeyReleaseAccepted _ => true

end Sys2Proof
end

