-- ==== Sys2Proof/Machine/State.lean ====
section
/-! DEFINITION. The state of the station, as plain data: every register, table, queue, counter, timer and pin that the
manual gives it (INVENTORY.md lists each with its rule), the reasons a step could stop, and State.reset. -/
namespace Sys2Proof.Machine

/-! ### Frames as they are built and read (R176, R177): numbers are raw, since a heard frame may carry any code. -/

/-- Four bytes of a WANT or DENY entry (R177). -/
structure Quad where
  b0 : Byte
  b1 : Byte
  b2 : Byte
  b3 : Byte
deriving DecidableEq, Repr

/-- A camera descriptor of a ROSTER frame (R177). -/
structure CamRaw where
  input : Byte
  kind : Byte
  side : Byte
  place : Byte
  grade : Byte
  flags : Byte
deriving DecidableEq, Repr

/-- A door descriptor of a ROSTER frame (R177). -/
structure DoorRaw where
  chan : Byte
  door : Byte
  side : Byte
  exterior : Byte
  phase : Byte
deriving DecidableEq, Repr

/-- The kind part of a control frame (R177). -/
inductive FrameBody where
  | roster (localNo role coupler cabFlag : Byte) (cams : List CamRaw) (doors : List DoorRaw)
  | door (chan phase : Byte)
  | lens (input grade flags : Byte)
  | cab (kind cabEnd : Byte)
  | want (entries : List Quad)
  | claim (owner : Byte) (ownerTag : Word) (stream input cls : Byte) (slots : List Byte)
  | release (owner : Byte) (ownerTag : Word) (stream : Byte) (slots : List Byte)
  | deny (addressee : Byte) (entries : List Quad)
deriving DecidableEq, Repr

/-- The eight kinds of control frame (R177). -/
inductive FrameKind where
  | roster
  | door
  | lens
  | cab
  | want
  | claim
  | release
  | deny
deriving DecidableEq, Repr

/-- A control frame: its sender and its kind part (R176). -/
structure ControlFrame where
  addr : Addr
  tag : Word
  body : FrameBody
deriving DecidableEq, Repr

/-- A tile header (R178). -/
structure TileHeader where
  picture : Bool
  addr : Addr
  tag : Word
  stream : StreamNo
  slot : Byte
  input : Input
  cls : SizeClass
  seq : Byte
  band : Nat
  last : Bool
deriving DecidableEq, Repr

/-! ### Names shared by the tables -/

/-- A camera id, address.input (spec/00 section 0.6). -/
structure CamId where
  addr : Addr
  input : Input
deriving DecidableEq, Repr

/-- A door id, address/channel (spec/00 section 0.6). -/
structure DoorId where
  addr : Addr
  chan : Chan
deriving DecidableEq, Repr

/-- A stream as the slot map and the Composer name it: owner address, stream number, camera input, class (R40, R156). -/
structure StreamId where
  addr : Addr
  num : StreamNo
  input : Input
  cls : SizeClass
deriving DecidableEq, Repr

/-! ### Start and reset -/

/-- Held by a reset, in the start read, or started (R167). -/
inductive BootPhase where
  | held
  | reading
  | started
deriving DecidableEq, Repr

/-- POWER or LINE (R167). -/
inductive StartCause where
  | power
  | line
deriving DecidableEq, Repr

/-- The inert cause (R168). -/
inductive InertCause where
  | none
  | imageCheck
  | stationBlock
  | descriptors
  | soiling
deriving DecidableEq, Repr

/-- The reset inputs and the start (R167, R168). -/
structure Boot where
  phase : BootPhase
  powerOn : Bool
  resetLine : Bool
  powerSinceRead : Bool
  startCause : StartCause
  inertCause : InertCause
  readTimer : Nat
deriving DecidableEq, Repr

/-! ### Input pins -/

/-- The levels of one door channel's lines (R77). -/
structure DoorLevels where
  rel : Bool
  shut : Bool
  edge : Bool
deriving DecidableEq, Repr

/-- The levels of the input pins (spec/00 section 0.5). -/
structure Levels where
  door : Vector DoorLevels 4
  coupler : Bool
  cabOn : Bool
  reverse : Bool
  nextL : Bool
  nextR : Bool
  ack : Bool
  service : Bool
deriving DecidableEq, Repr

/-- A filter of one line (R79): its accepted value, its filter state, and for how long the level has stood still
(R84), both in us and held at the door filter time. -/
structure LineFilter where
  accepted : Bool
  differ : Nat
  still : Nat
deriving DecidableEq, Repr

/-! ### Trunk Port -/

/-- The reason of exclusion (R25). -/
inductive ExclReason where
  | clash
  | consist
deriving DecidableEq, Repr

/-- The trunk states (R22). -/
inductive TrunkState where
  | listen
  | joined
  | excluded (r : ExclReason)
  | inert
deriving DecidableEq, Repr

/-- The subjects of the outbound control queue (R11). -/
inductive Subject where
  | door (c : Chan)
  | lens (i : Input)
  | cab
  | stream (n : StreamNo)
  | want
  | deny (p : WantPos)
  | roster
deriving DecidableEq, Repr

/-- The kinds of the subjects that have two (R11); PLAIN for a subject that has one. -/
inductive SendKind where
  | plain
  | take
  | leave
  | claim
  | release
deriving DecidableEq, Repr

/-- An entry of the outbound control queue: subject, kind, time of entry (R11). -/
structure QueueEntry where
  subject : Subject
  kind : SendKind
  time : Nat
deriving DecidableEq, Repr

/-- A control frame being sent: the won entry's subject and kind, the frame fixed at the win, its bytes after the
field, and the kind and time of an offer for the subject made since the win (DEDUCED, safe: log 12). -/
structure Sending where
  subject : Subject
  kind : SendKind
  frame : ControlFrame
  bytes : List Byte
  again : Option (SendKind × Nat)
deriving DecidableEq, Repr

/-- The transmission the station is making. -/
inductive TrunkOut where
  | idle
  | mark (bytes : List Byte)
  | control (c : Sending)
  | voidEnding (bytes : List Byte)
  | tile (n : Slot) (header : TileHeader) (bytes : List Byte)
deriving DecidableEq, Repr

/-- How the current round opened (R5). -/
inductive Opening where
  | none
  | intact
  | damaged
deriving DecidableEq, Repr

/-- The receive filter for the payload of the tile in a data slot: the station's set of bound streams as it stood at the
slot's start (R20; DEDUCED, unsafe: log 46). -/
structure TileFilter where
  slot : Slot
  streams : List StreamId
deriving DecidableEq, Repr

/-- The Trunk Port and the trunk state (chapters 1 and 2). `rival` is the offset of the own round at which another MARK
start was heard that contends with the own MARK (R4). `overrun` says that the round timer has run out without a MARK since the
last MARK: a MARK has been missed, also where the timer stays synchronised (R3, R18; log 84). -/
structure Trunk where
  state : TrunkState
  renumbered : Bool
  half : Fin 2
  timer : Nat
  synced : Bool
  offset : Nat
  overrun : Bool
  heardSince : Bool
  roundCount : Byte
  opening : Opening
  markInTurn : Bool
  markInListen : Bool
  candidate : Bool
  won : Bool
  clashed : Bool
  contending : Option Subject
  rival : Option Nat
  filter : Option TileFilter
  out : TrunkOut
  marksSent : Word
  framesSent : Word
  tilesSent : Word
  markErrors : Word
  missedMarks : Word
  frameErrors : Word
  tileErrors : Word
  clashes : Word
  consecClash : Nat
deriving DecidableEq, Repr

/-! ### Consist Tables -/

/-- PRESENT or GONE (R27). -/
inductive Presence where
  | present
  | gone
deriving DecidableEq, Repr

/-- A camera descriptor of a roster entry with its grade and flags (R27). -/
structure CamDesc where
  input : Input
  view : CamView
  side : ASide
  grade : Grade
  held : Bool
  unbaselined : Bool
deriving DecidableEq, Repr

/-- A door descriptor of a roster entry (R27). -/
structure DoorDesc where
  chan : Chan
  door : Nat
  side : ASide
  exterior : Option Input
deriving DecidableEq, Repr

/-- A held roster entry (R27). Coupler information is none or (end, made). -/
structure RosterEntry where
  presence : Presence
  tag : Word
  localNo : Fin 8
  role : Role
  age : Nat
  cams : List CamDesc
  doors : List DoorDesc
  coupler : Option (TramEnd × Bool)
  cabActive : Bool
deriving DecidableEq, Repr

/-- An entry of the door table (R89). -/
structure DoorEntry where
  id : DoorId
  phase : DoorPhase
deriving DecidableEq, Repr

/-- An entry of the slot map copy (R40): FREE (no owner) or OWNED, with its silent-round count. -/
structure SlotEntry where
  owner : Option StreamId
  silent : Nat
deriving DecidableEq, Repr

/-- An entry of a WANT list (R46). -/
structure WantEntry where
  cam : CamId
  cls : SizeClass
  floor : SizeClass
  carry : Bool
deriving DecidableEq, Repr

/-- A record of the want table (R46). -/
structure WantRecord where
  sender : Addr
  age : Nat
  list : List WantEntry
deriving DecidableEq, Repr

/-- The station that the cab record names (R125). -/
structure CabRecord where
  addr : Addr
  tag : Word
  cabEnd : TramEnd
deriving DecidableEq, Repr

/-- The Consist Tables (chapters 2, 3, 5, 8). -/
structure Tables where
  roster : Vector (Option RosterEntry) 16
  doors : List DoorEntry
  slots : Vector SlotEntry 24
  wants : Vector (Option WantRecord) 4
  cabRecord : Option CabRecord
  foreign : List (Word × Nat)
  departed : List Word
  refresh : Nat
  rosterRejects : Word
  demandRejects : Word
  voidClaims : Word
  wantOverflows : Word
  doorRejects : Word
  lensRejects : Word
  cabRejects : Word
deriving DecidableEq, Repr

/-! ### Stream Engine -/

/-- Why a stream drains (R58). -/
inductive DrainCause where
  | noDemand
  | holdLimit
  | lost
deriving DecidableEq, Repr

/-- The stream states (R58). -/
inductive StreamState where
  | claiming
  | live
  | holding
  | draining (c : DrainCause)
deriving DecidableEq, Repr

/-- A stream record (R58), kept in the table at its number; its slot list is read from the slot map copy. `picture` is
the open picture's own copy, scaled, or none (R70, R72). -/
structure Stream where
  state : StreamState
  input : Input
  cls : SizeClass
  wanted : SizeClass
  floor : SizeClass
  short : Bool
  upgrade : Bool
  holdCount : Nat
  seq : Byte
  nextBand : Nat
  picture : Option FrameLines
deriving DecidableEq, Repr

/-- Why an entry is refused (R57). -/
inductive RefusalReason where
  | cameraDown
  | noStream
  | noSlots
deriving DecidableEq, Repr

/-- A refused entry (R57, R162). -/
structure Refused where
  cam : CamId
  cls : SizeClass
  reason : RefusalReason
deriving DecidableEq, Repr

/-- The Stream Engine (chapter 3). -/
structure StreamEngine where
  table : Vector (Option Stream) 6
  refusals : Vector (List Refused) 4
deriving DecidableEq, Repr

/-! ### Camera Intake -/

/-- The input states (R63). -/
inductive InputState where
  | absent
  | syncing
  | live
  | stalled
deriving DecidableEq, Repr

/-- An input record (R63). `frameOpen` says that a frame sync has opened a frame (R64). -/
structure InputRecord where
  state : InputState
  frameOpen : Bool
  good : Nat
  stall : Nat
  absence : Nat
  newest : Option FrameLines
  malformed : Word
deriving DecidableEq, Repr

/-- The standing frame request (R75): SINGLE is a run of one that a malformed frame does not void. -/
structure FrameRequest where
  input : Input
  run : Bool
  size : Nat
  handed : Nat
deriving DecidableEq, Repr

/-- The Camera Intake (chapter 4). -/
structure Intake where
  inputs : Vector (Option InputRecord) 4
  request : Option FrameRequest
deriving DecidableEq, Repr

/-! ### Door Watch -/

/-- A channel record (R77); the closing timer runs while the phase is CLOSING (R82). -/
structure Channel where
  rel : LineFilter
  shut : LineFilter
  edge : LineFilter
  settled : Bool
  phase : DoorPhase
  closing : Nat
  faults : Word
deriving DecidableEq, Repr

/-! ### Lens Watch -/

/-- The cause of an INDECISIVE verdict (R100). -/
inductive Indecision where
  | noReference
  | disturbed
deriving DecidableEq, Repr

/-- The verdict of a pass (R100). -/
inductive Verdict where
  | decisive (g : Grade)
  | dark
  | indecisive (c : Indecision)
deriving DecidableEq, Repr

/-- The result of a pass (R101). -/
structure Pass where
  verdict : Verdict
  brightness : Nat
  contrast : Nat
  scored : Nat
  suspect : Nat
  fromRecord : Bool
  ratios : Vector Nat 16
  disturbed : Vector Bool 16
deriving DecidableEq, Repr

/-- A lens record (R94). -/
structure LensRecord where
  grade : Grade
  rise : Nat
  fall : Nat
  peak : Option Grade
  held : Bool
  unbaselined : Bool
  quiet : Nat
  decisive : Bool
  due : Bool
  baseline : Vector Nat 16
  previous : Option FrameLines
  last : Option Pass
deriving DecidableEq, Repr

/-- The measurement engine's states (R96). -/
inductive EngineState where
  | free
  | rota (i : Input)
  | probe (i : Input)
  | capture (i : Input)
deriving DecidableEq, Repr

/-- Lens Watch (chapter 6). -/
structure LensWatch where
  records : Vector (Option LensRecord) 4
  engine : EngineState
  probeWaiting : Option Input
  handed : Option FrameLines
  periodTimer : Nat
deriving DecidableEq, Repr

/-! ### Baseline Store -/

/-- The record state of a populated input with the values of a VALID record (R111). -/
structure BaselineRecord where
  valid : Bool
  values : Vector Nat 16
deriving DecidableEq, Repr

/-- Unlock progress (R113). -/
inductive UnlockProgress where
  | none
  | step1
  | step2
deriving DecidableEq, Repr

/-- The kind of an operation (R115). -/
inductive OpKind where
  | none
  | capture
  | clear
deriving DecidableEq, Repr

/-- The phase of an operation (R115). -/
inductive OpPhase where
  | none
  | waiting
  | measuring
  | writing
deriving DecidableEq, Repr

/-- The result of an operation (R115). -/
inductive OpResult where
  | none
  | ok
  | abortedDark
  | abortedStall
  | timeout
deriving DecidableEq, Repr

/-- The Baseline Store (chapter 7). A timer that is stopped is none. -/
structure BaselineStore where
  records : Vector (Option BaselineRecord) 4
  unlocked : Bool
  progress : UnlockProgress
  stepTimer : Option Nat
  lifeTimer : Option Nat
  busy : Bool
  done : Bool
  kind : OpKind
  input : Option Input
  phase : OpPhase
  held : Nat
  sums : Vector Nat 16
  writeTimer : Option Nat
  result : OpResult
  writing : List Byte
deriving DecidableEq, Repr

/-! ### Cab Control -/

/-- The cab states (R121). -/
inductive CabState where
  | idle
  | taking
  | active
  | blocked
deriving DecidableEq, Repr

/-- Cab Control with the filters of the cab lines (R121, R141, R148). -/
structure CabControl where
  state : CabState
  cabOn : LineFilter
  reverse : LineFilter
  nextL : LineFilter
  nextR : LineFilter
  ack : LineFilter
deriving DecidableEq, Repr

/-! ### Screen Composer -/

/-- What Cab Control finds for a pane (R131). -/
inductive PaneResult where
  | blank
  | unresolved
  | cam (c : CamId)
deriving DecidableEq, Repr

/-- The binding mark (R151). -/
inductive BindMark where
  | plain
  | carried
  | ended
deriving DecidableEq, Repr

/-- A picture under assembly: its sequence number and the bands held, each with its payload (R151). -/
structure Assembly where
  seq : Byte
  bands : List (Nat × List Byte)
deriving DecidableEq, Repr

/-- The states of a pane (R152). -/
inductive PaneState where
  | blank
  | unresolved
  | live
  | stale
  | denied
  | waiting
deriving DecidableEq, Repr

/-- A pane record (R151). The display picture is the payloads of its bands, band 0 first. `bound` holds the stream and
the mark. -/
structure Pane where
  cls : SizeClass
  floor : SizeClass
  selector : Selector
  result : PaneResult
  bound : Option (StreamId × BindMark)
  candidate : Option StreamId
  assembly : Option Assembly
  candidatePicture : Option Assembly
  display : Option (List (List Byte))
  stale : Nat
  state : PaneState
deriving DecidableEq, Repr

/-- A layout a screen can show (R138). -/
inductive ShownLayout where
  | index (i : Fin 16)
  | spotlight
  | blank
deriving DecidableEq, Repr

/-- An entry of a request list (R138). -/
structure Request where
  kind : ViewKind
  shown : Bool
deriving DecidableEq, Repr

/-- One screen: its request list, its screen record, its DRIVER layout and its panes (R137, R138, R151). -/
structure Screen where
  list : List Request
  layout : Option ShownLayout
  linger : Option ViewKind
  lingerTimer : Nat
  spotDoor : Option DoorId
  driverLayout : ShownLayout
  panes : List Pane
deriving DecidableEq, Repr

/-- A door in the spotlight queue (R146). -/
structure SpotDoor where
  door : DoorId
  acked : Bool
deriving DecidableEq, Repr

/-- A carry entry (R154). -/
structure CarryEntry where
  cam : CamId
  cls : SizeClass
  side : Side
  age : Nat
deriving DecidableEq, Repr

/-- A camera in the warning list (R164). -/
structure Warning where
  cam : CamId
  grade : Grade
deriving DecidableEq, Repr

/-- The Screen Composer (chapters 9 and 10). -/
structure Composer where
  left : Screen
  right : Screen
  spotlight : List SpotDoor
  spotlightOverflows : Word
  swaps : Word
  patched : Word
  discarded : Word
  carry : List CarryEntry
  wantList : List WantEntry
  wantRefresh : Nat
  refusals : List Refused
  warnings : List Warning
deriving DecidableEq, Repr

/-! ### Output pins -/

/-- What both screen outputs show (R166). -/
inductive ScreenPicture where
  | none
  | excluded
  | forming
  | layout
  | inUse
  | standby
deriving DecidableEq, Repr

/-- What a pane shows by its state (R152): an empty area, the "no camera" picture, the display picture at the pane's size
with or without the stale mark, the "not available" picture with its reason, or the "waiting" picture. -/
inductive PaneImage where
  | empty
  | noCamera
  | picture (bands : List (List Byte)) (frozen : Bool)
  | notAvailable (reason : RefusalReason)
  | waiting
deriving DecidableEq, Repr

/-- A pane as its screen shows it: its image, with the grade mark and the hold mark drawn over it (R152, R163). -/
structure PaneView where
  cls : SizeClass
  image : PaneImage
  mark : Option Grade
  hold : Bool
deriving DecidableEq, Repr

/-- The warning strip: the cameras shown, and how many others there are (R164). -/
structure Strip where
  shown : List Warning
  others : Nat
deriving DecidableEq, Repr

/-- What one screen output shows of a layout: its panes and the warning strip (R152, R163, R164, R166). -/
structure ScreenView where
  panes : List PaneView
  strip : Strip
deriving DecidableEq, Repr

/-- The output pins. `screen0` and `screen1` are what the two screen outputs show of a layout while `picture` is LAYOUT. -/
structure Pins where
  fault : Bool
  lensLamp : Bool
  viewOkL : Bool
  viewOkR : Bool
  picture : ScreenPicture
  screen0 : Option ScreenView
  screen1 : Option ScreenView
deriving DecidableEq, Repr

/-! ### Service Port -/

/-- The states of the Service Port (R170): RECEIVE holds the bytes after the start byte and the time since the last
byte; ANSWER holds the request's kind and the reply's bytes once the owner has answered. -/
inductive PortState where
  | hunt
  | receive (bytes : List Byte) (gap : Nat)
  | answer (kind : Byte) (reply : Option (List Byte))
deriving DecidableEq, Repr

/-- Why the station's model would stop with a fault. No step of the manual ends the machine, so no command raises one
and the type has no constructor (safe). -/
inductive Fault where
deriving DecidableEq, Repr

/-- Why a command is refused. -/
inductive Refusal where
  /-- Raised by the dispatch arm of a command that has no meaning yet; safe, since the model stops. -/
  | notModelled (mnemonic : String)
deriving DecidableEq, Repr

end Sys2Proof.Machine

namespace Sys2Proof.Machine

/-- The state of one station. `pending` is the queue of commands that wait, first in, first out; `free` counts the
uses of the torn-write free value (log 26). `clocked` says that the present moment of local time is one of the station's own
clock: no event from outside has been told in it (log 45). -/
structure State where
  cfg : Settings
  boot : Boot
  now : Nat
  clocked : Bool
  levels : Levels
  trunk : Trunk
  queue : List QueueEntry
  tables : Tables
  engine : StreamEngine
  intake : Intake
  channels : Vector (Option Channel) 4
  couplerFilter : LineFilter
  lens : LensWatch
  store : BaselineStore
  cab : CabControl
  comp : Composer
  service : PortState
  confMem : List Host.Cell
  pins : Pins
  free : Nat
  pending : List Instr
deriving DecidableEq, Repr

/-- A filter as it starts: accepted off (R34, R121, R141, R148). -/
def LineFilter.off : LineFilter := { accepted := false, differ := 0, still := 0 }

/-- A FREE slot entry with count 0 (R40). -/
def SlotEntry.free : SlotEntry := { owner := none, silent := 0 }

/-- The Trunk Port after a reset: counters, round count and clash count 0 (R5, R10, R21), no transmission (R167). The
timer, the offset and the trunk state are set at the end of the start read (log 7). -/
def Trunk.reset : Trunk where
  state := .inert
  renumbered := false
  half := 0
  timer := 0
  synced := false
  offset := 4928
  overrun := false
  heardSince := false
  roundCount := 0#8
  opening := .none
  markInTurn := false
  markInListen := false
  candidate := false
  won := false
  clashed := false
  contending := none
  rival := none
  filter := none
  out := .idle
  marksSent := 0#16
  framesSent := 0#16
  tilesSent := 0#16
  markErrors := 0#16
  missedMarks := 0#16
  frameErrors := 0#16
  tileErrors := 0#16
  clashes := 0#16
  consecClash := 0

/-- The Consist Tables after a reset (R37, R40, R46, R125); the own roster entry is made when its configuration is
read (R27). -/
def Tables.reset : Tables where
  roster := Vector.replicate 16 none
  doors := []
  slots := Vector.replicate 24 SlotEntry.free
  wants := Vector.replicate 4 none
  cabRecord := none
  foreign := []
  departed := []
  refresh := 0
  rosterRejects := 0#16
  demandRejects := 0#16
  voidClaims := 0#16
  wantOverflows := 0#16
  doorRejects := 0#16
  lensRejects := 0#16
  cabRejects := 0#16

/-- The Stream Engine after a reset (R57, R58). -/
def StreamEngine.reset : StreamEngine where
  table := Vector.replicate 6 none
  refusals := Vector.replicate 4 []

/-- The Camera Intake before the image is read: no record, no standing request (R63, R75). -/
def Intake.reset : Intake where
  inputs := Vector.replicate 4 none
  request := none

/-- Lens Watch before the image is read: no record, the engine FREE (R94, R96). -/
def LensWatch.reset : LensWatch where
  records := Vector.replicate 4 none
  engine := .free
  probeWaiting := none
  handed := none
  periodTimer := 0

/-- The Baseline Store after a reset (R112, R115). -/
def BaselineStore.reset : BaselineStore where
  records := Vector.replicate 4 none
  unlocked := false
  progress := .none
  stepTimer := none
  lifeTimer := none
  busy := false
  done := false
  kind := .none
  input := none
  phase := .none
  held := 0
  sums := Vector.replicate 16 0
  writeTimer := none
  result := .none
  writing := []

/-- Cab Control after a reset: IDLE, every accepted value off (R121, R141, R148). -/
def CabControl.reset : CabControl where
  state := .idle
  cabOn := LineFilter.off
  reverse := LineFilter.off
  nextL := LineFilter.off
  nextR := LineFilter.off
  ack := LineFilter.off

/-- A screen after a reset, and outside ACTIVE: nothing (R138, R139, R151). The DRIVER layout, which is not kept outside
ACTIVE, stands at the blank layout (DESIGN CHOICE, safe: log 51). The linger timer, which R138 and R139 only stop, holds 0
(DESIGN CHOICE, unsafe: log 83). -/
def Screen.reset : Screen where
  list := []
  layout := none
  linger := none
  lingerTimer := 0
  spotDoor := none
  driverLayout := .blank
  panes := []

/-- The Screen Composer after a reset (R138, R146, R151, R153, R159, R164). -/
def Composer.reset : Composer where
  left := Screen.reset
  right := Screen.reset
  spotlight := []
  spotlightOverflows := 0#16
  swaps := 0#16
  patched := 0#16
  discarded := 0#16
  carry := []
  wantList := []
  wantRefresh := 0
  refusals := []
  warnings := []

/-- The input pins as State.reset has them: every level off (DESIGN CHOICE, unsafe: log 7). -/
def Levels.reset : Levels where
  door := Vector.replicate 4 { rel := false, shut := false, edge := false }
  coupler := false
  cabOn := false
  reverse := false
  nextL := false
  nextR := false
  ack := false
  service := false

/-- The output pins while a reset is held (R167). -/
def Pins.held : Pins where
  fault := true
  lensLamp := false
  viewOkL := false
  viewOkR := false
  picture := .none
  screen0 := none
  screen1 := none

/-- The machine right after a power-on reset: held, with the power-on reset asserted, nothing read (R167; log 5, 7). -/
def State.reset : State where
  cfg := Settings.blank
  boot := { phase := .held, powerOn := true, resetLine := false, powerSinceRead := true, startCause := .power,
            inertCause := .none, readTimer := 0 }
  now := 0
  clocked := false
  levels := Levels.reset
  trunk := Trunk.reset
  queue := []
  tables := Tables.reset
  engine := StreamEngine.reset
  intake := Intake.reset
  channels := Vector.replicate 4 none
  couplerFilter := LineFilter.off
  lens := LensWatch.reset
  store := BaselineStore.reset
  cab := CabControl.reset
  comp := Composer.reset
  service := .hunt
  confMem := []
  pins := Pins.held
  free := 0
  pending := []

/-- The station's own trunk address: its local number plus 8 x its half (R22). -/
def State.addr (s : State) : Addr := ⟨s.cfg.localNo.val + 8 * s.trunk.half.val, by omega⟩

end Sys2Proof.Machine
end

