-- ==== Sys2Proof/Machine/Ops.lean ====
section
/-! DEFINITION. The named operations over the state that every family shares: updates of one field, the configuration
memory, the outbound control queue (R11 to R15), counters, and the free-slot count. -/
namespace Sys2Proof.Machine

/-! ### Updates of one field -/

/-- s with its cfg replaced. -/
def State.setCfg (s : State) (x : Settings) : State := { s with cfg := x }

/-- s with its boot replaced. -/
def State.setBoot (s : State) (x : Boot) : State := { s with boot := x }

/-- s with its now replaced. -/
def State.setNow (s : State) (x : Nat) : State := { s with now := x }

/-- s with its clocked flag replaced. -/
def State.setClocked (s : State) (x : Bool) : State := { s with clocked := x }

/-- s with its levels replaced. -/
def State.setLevels (s : State) (x : Levels) : State := { s with levels := x }

/-- s with its trunk replaced. -/
def State.setTrunk (s : State) (x : Trunk) : State := { s with trunk := x }

/-- s with its queue replaced. -/
def State.setQueue (s : State) (x : List QueueEntry) : State := { s with queue := x }

/-- s with its tables replaced. -/
def State.setTables (s : State) (x : Tables) : State := { s with tables := x }

/-- s with its engine replaced. -/
def State.setEngine (s : State) (x : StreamEngine) : State := { s with engine := x }

/-- s with its intake replaced. -/
def State.setIntake (s : State) (x : Intake) : State := { s with intake := x }

/-- s with its channels replaced. -/
def State.setChannels (s : State) (x : Vector (Option Channel) 4) : State := { s with channels := x }

/-- s with its couplerFilter replaced. -/
def State.setCouplerFilter (s : State) (x : LineFilter) : State := { s with couplerFilter := x }

/-- s with its lens replaced. -/
def State.setLens (s : State) (x : LensWatch) : State := { s with lens := x }

/-- s with its store replaced. -/
def State.setStore (s : State) (x : BaselineStore) : State := { s with store := x }

/-- s with its cab replaced. -/
def State.setCab (s : State) (x : CabControl) : State := { s with cab := x }

/-- s with its comp replaced. -/
def State.setComp (s : State) (x : Composer) : State := { s with comp := x }

/-- s with its service replaced. -/
def State.setService (s : State) (x : PortState) : State := { s with service := x }

/-- s with its confMem replaced. -/
def State.setConfMem (s : State) (x : List Host.Cell) : State := { s with confMem := x }

/-- s with its pins replaced. -/
def State.setPins (s : State) (x : Pins) : State := { s with pins := x }

/-- s with its free replaced. -/
def State.setFree (s : State) (x : Nat) : State := { s with free := x }

/-- s with its pending replaced. -/
def State.setPending (s : State) (x : List Instr) : State := { s with pending := x }

/-! ### Bytes and numbers -/

/-- The upper byte of a 16-bit number (R175: most significant byte first). -/
def hiByte (w : Word) : Byte := w.extractLsb' 8 8

/-- The lower byte of a 16-bit number. -/
def loByte (w : Word) : Byte := w.extractLsb' 0 8

/-- The two bytes of a 16-bit number, most significant first (R175). -/
def wordBytes (w : Word) : List Byte := [hiByte w, loByte w]

/-- The two bytes of a number below 65536, most significant first. -/
def natBytes2 (n : Nat) : List Byte := wordBytes (BitVec.ofNat 16 n)

/-- The number of two bytes, most significant first. -/
def joinBytes (hi lo : Byte) : Word := hi ++ lo

/-- The four bytes of a 32-bit number, most significant first. -/
def word32Bytes (w : BitVec 32) : List Byte :=
  [w.extractLsb' 24 8, w.extractLsb' 16 8, w.extractLsb' 8 8, w.extractLsb' 0 8]

/-- A counter's next value: it wraps from 65535 to 0 (spec/00 section 0.6). -/
def bump (w : Word) : Word := w + 1#16

/-- A byte as an index below n, if it is one. -/
def finOfByte (n : Nat) (b : Byte) : Option (Fin n) := if h : b.toNat < n then some ⟨b.toNat, h⟩ else none

/-- A number as an index below n, if it is one. -/
def finOfNat (n : Nat) (k : Nat) : Option (Fin n) := if h : k < n then some ⟨k, h⟩ else none

/-- The sum of a list of numbers. -/
def sumNat : List Nat → Nat
  | [] => 0
  | x :: xs => x + sumNat xs

/-- Put an element into a list after every element that is not behind it. -/
def insertBy {α : Type} (before : α → α → Bool) (x : α) : List α → List α
  | [] => [x]
  | y :: ys => if before x y then x :: y :: ys else y :: insertBy before x ys

/-- Order a list; elements that stand equal keep their order. -/
def sortBy {α : Type} (before : α → α → Bool) (xs : List α) : List α :=
  xs.foldl (fun acc x => insertBy before x acc) []

/-! ### The configuration memory (R111, R179): a byte at an address, in canonical form -/

/-- What an unlisted address reads as (DESIGN CHOICE, unsafe: log 6). -/
def memUnlisted : Byte := 0xFF#8

/-- The byte at an address. -/
def memRead : List Host.Cell → Nat → Byte
  | [], _ => memUnlisted
  | (a, b) :: rest, x => if a = x then b else memRead rest x

/-- Write one byte: addresses keep rising strictly, and an entry equal to an unlisted byte is removed. -/
def memWrite : List Host.Cell → Nat → Byte → List Host.Cell
  | [], x, v => if v = memUnlisted then [] else [(x, v)]
  | (a, b) :: rest, x, v =>
    if x < a then (if v = memUnlisted then (a, b) :: rest else (x, v) :: (a, b) :: rest)
    else if x = a then (if v = memUnlisted then rest else (a, v) :: rest)
    else (a, b) :: memWrite rest x v

/-- Every address of the list is above a bound, rising strictly, and no byte equals an unlisted one. -/
def memWfAbove (bound : Option Nat) : List Host.Cell → Bool
  | [] => true
  | (a, b) :: rest =>
    (match bound with
      | none => true
      | some x => decide (x < a)) && b != memUnlisted && memWfAbove (some a) rest

/-- The canonical form of the configuration memory. -/
def Memory.wf (m : List Host.Cell) : Bool := memWfAbove none m

/-- n bytes from an address on. -/
def memReadBytes (m : List Host.Cell) (a : Nat) : Nat → List Byte
  | 0 => []
  | n + 1 => memRead m a :: memReadBytes m (a + 1) n

/-- Write bytes from an address on. -/
def memWriteBytes (m : List Host.Cell) (a : Nat) : List Byte → List Host.Cell
  | [] => m
  | b :: bs => memWriteBytes (memWrite m a b) (a + 1) bs

/-! ### Own identity -/

/-- Is the station started and in a trunk state in which its blocks act (R22, R169)? -/
def State.acting (s : State) : Bool := s.boot.phase == .started && s.trunk.state != .inert

/-- Is the station of role CAB? -/
def State.isCab (s : State) : Bool := s.cfg.role == .cab

/-- Is the cab state ACTIVE? -/
def State.isActive (s : State) : Bool := s.cab.state == .active

/-- Is the input's state LIVE? A place with no record is an input that is not populated. -/
def State.inputLive (s : State) (i : Input) : Bool :=
  match s.intake.inputs[i] with
  | some r => r.state == .live
  | none => false

/-! ### The outbound control queue -/

/-- The fixed class of a subject (R11). -/
def Subject.cls : Subject → Nat
  | .door _ => 0
  | .lens _ => 1
  | .cab => 1
  | .stream _ => 2
  | .want => 2
  | .deny _ => 2
  | .roster => 3

/-- The place of a subject in the rows of R11, for entries of one instant (R12). -/
def Subject.place : Subject → Nat
  | .door c => c.val
  | .lens i => 4 + i.val
  | .cab => 8
  | .stream n => 9 + n.val
  | .want => 15
  | .deny p => 16 + p.val
  | .roster => 20

/-- The order of R12: class, then time of entry, then the place of entries of one instant (between different blocks:
DESIGN CHOICE, unsafe: log 35). -/
def QueueEntry.before (a b : QueueEntry) : Bool :=
  if a.subject.cls = b.subject.cls then
    if a.time = b.time then decide (a.subject.place < b.subject.place) else decide (a.time < b.time)
  else decide (a.subject.cls < b.subject.cls)

/-- Does an entry of the subject wait? -/
def queueHolds (q : List QueueEntry) (sub : Subject) : Bool := q.any (fun e => e.subject == sub)

/-- The entry of a subject. -/
def queueFind (q : List QueueEntry) (sub : Subject) : Option QueueEntry := q.find? (fun e => e.subject == sub)

/-- Give the entry of a subject another kind; it keeps its place (R13). -/
def queueRekind (q : List QueueEntry) (sub : Subject) (k : SendKind) : List QueueEntry :=
  q.map (fun e => if e.subject == sub then { e with kind := k } else e)

/-- Take the entry of a subject out; the order of the others is kept (R12). -/
def queueRemove (q : List QueueEntry) (sub : Subject) : List QueueEntry := q.filter (fun e => e.subject != sub)

/-- What an offer does to the queue (R13). -/
def queueOffer (q : List QueueEntry) (sub : Subject) (k : SendKind) (time : Nat) : List QueueEntry :=
  if queueHolds q sub then queueRekind q sub k
  else insertBy QueueEntry.before { subject := sub, kind := k, time := time } q

/-- Is the subject's entry the one whose frame is on the line? -/
def TrunkOut.sends (o : TrunkOut) (sub : Subject) : Bool :=
  match o with
  | .control c => c.subject == sub
  | _ => false

/-- Offer a frame for a subject (R13). In INERT, and before the start, the blocks make no offers. An offer for the
subject whose frame is on the line waits beside it for the frame's end (DEDUCED, safe: log 12). -/
def offer (sub : Subject) (k : SendKind) (s : State) : State :=
  if s.acting then
    match s.trunk.out with
    | .control c =>
      if c.subject = sub then
        s.setTrunk { s.trunk with out := .control { c with again :=
          match c.again with
          | some (_, t) => some (k, t)
          | none => some (k, s.now) } }
      else s.setQueue (queueOffer s.queue sub k s.now)
    | _ => s.setQueue (queueOffer s.queue sub k s.now)
  else s

/-- Withdraw the entry of a subject (R14). An entry that has already won is not withdrawn; an offer made since the win
is. -/
def withdraw (sub : Subject) (s : State) : State :=
  match s.trunk.out with
  | .control c =>
    if c.subject = sub then s.setTrunk { s.trunk with out := .control { c with again := none } }
    else s.setQueue (queueRemove s.queue sub)
  | _ => s.setQueue (queueRemove s.queue sub)

/-- The won entry leaves the queue when its frame has been transmitted (R9); an offer made since the win makes a new
entry with its own time (log 12). -/
def queueSent (q : List QueueEntry) (c : Sending) : List QueueEntry :=
  match c.again with
  | none => queueRemove q c.subject
  | some (k, t) => insertBy QueueEntry.before { subject := c.subject, kind := k, time := t } (queueRemove q c.subject)

/-- The entry whose frame clashed stays in its place (R10); an offer made since the win gives it its kind (R13). -/
def queueClashed (q : List QueueEntry) (c : Sending) : List QueueEntry :=
  match c.again with
  | none => q
  | some (k, _) => queueRekind q c.subject k

/-- The queue as a transmission ends that is neither sent nor clashed: the entry whose control frame it was stays in its place,
and an offer made since the win gives it its kind, as at a clash (R13, R15, R25; DEDUCED, unsafe: log 40). -/
def TrunkOut.endedQueue (o : TrunkOut) (q : List QueueEntry) : List QueueEntry :=
  match o with
  | .control c => queueClashed q c
  | _ => q

/-! ### The slot map copy -/

/-- The free-slot count (R40). -/
def freeSlots (m : Vector SlotEntry 24) : Nat := (allSlots.filter (fun n => m[n].owner.isNone)).length

/-- The FREE slots, lowest first. -/
def freeList (m : Vector SlotEntry 24) : List Slot := allSlots.filter (fun n => m[n].owner.isNone)

/-- Does a slot entry name the stream number of the owner address? -/
def SlotEntry.names (e : SlotEntry) (a : Addr) (n : StreamNo) : Bool :=
  match e.owner with
  | some id => id.addr == a && id.num == n
  | none => false

/-- The slots the copy shows owned by (a, n), lowest first; for an own stream, its slot list (R58). -/
def slotsOf (m : Vector SlotEntry 24) (a : Addr) (n : StreamNo) : List Slot :=
  allSlots.filter (fun k => m[k].names a n)

/-- Free every slot that satisfies a condition on its entry; its count returns to 0. -/
def freeWhere (m : Vector SlotEntry 24) (p : SlotEntry → Bool) : Vector SlotEntry 24 :=
  m.map (fun e => if p e then SlotEntry.free else e)

end Sys2Proof.Machine
end

