-- ==== Sys2Proof/Machine/Crc.lean ====
section
/-! DEFINITION. The two check values: the 32-bit CRC of the trunk, the image and the baseline records (R175, R179) and
the 16-bit CRC of the service line (R170). -/
namespace Sys2Proof.Machine

/-- One bit of the 32-bit CRC, polynomial 04C11DB7h, most significant bit first (R175). -/
def crc32Bit (c : BitVec 32) : BitVec 32 := if c.msb then (c <<< 1) ^^^ 0x04C11DB7#32 else c <<< 1

/-- One byte of the 32-bit CRC. -/
def crc32Byte (c : BitVec 32) (b : Byte) : BitVec 32 :=
  crc32Bit (crc32Bit (crc32Bit (crc32Bit (crc32Bit (crc32Bit (crc32Bit (crc32Bit (c ^^^ (b ++ 0#24)))))))))

/-- The 32-bit CRC with initial value FFFFFFFFh and no final inversion (R175). -/
def crc32 (bytes : List Byte) : BitVec 32 := bytes.foldl crc32Byte 0xFFFFFFFF#32

/-- One bit of the 16-bit CRC, polynomial 1021h (R170). -/
def crc16Bit (c : BitVec 16) : BitVec 16 := if c.msb then (c <<< 1) ^^^ 0x1021#16 else c <<< 1

/-- One byte of the 16-bit CRC. -/
def crc16Byte (c : BitVec 16) (b : Byte) : BitVec 16 :=
  crc16Bit (crc16Bit (crc16Bit (crc16Bit (crc16Bit (crc16Bit (crc16Bit (crc16Bit (c ^^^ (b ++ 0#8)))))))))

/-- The 16-bit CRC with initial value FFFFh (R170). -/
def crc16 (bytes : List Byte) : BitVec 16 := bytes.foldl crc16Byte 0xFFFF#16

/-- Bytes with their 32-bit check value behind them, the CRC taken over a field's bytes and then these (R175). -/
def withCheck32 (field bytes : List Byte) : List Byte := bytes ++ word32Bytes (crc32 (field ++ bytes))

/-- The bytes before a 32-bit check value, if the check matches. -/
def checked32 (field bytes : List Byte) : Option (List Byte) :=
  let body := bytes.take (bytes.length - 4)
  if 4 ≤ bytes.length ∧ bytes.drop (bytes.length - 4) = word32Bytes (crc32 (field ++ body)) then some body else none

end Sys2Proof.Machine
end

