-- ==== Sys2Proof/Machine/Codes.lean ====
section
/-! DEFINITION. The codes of the enumerations (R175), in both directions. -/
namespace Sys2Proof.Machine

/-- Code of a class. -/
def classCode : SizeClass → Byte
  | .full => 0
  | .half => 1
  | .quarter => 2

/-- Class of a code. -/
def classOf (b : Byte) : Option SizeClass :=
  if b = 0x00#8 then some .full else if b = 0x01#8 then some .half else if b = 0x02#8 then some .quarter else none

/-- Code of a door phase. -/
def phaseCode : DoorPhase → Byte
  | .unknown => 0
  | .locked => 1
  | .released => 2
  | .opened => 3
  | .closing => 4
  | .obstructed => 5
  | .fault => 6

/-- Door phase of a code. -/
def phaseOf (b : Byte) : Option DoorPhase :=
  if b = 0x00#8 then some .unknown else if b = 0x01#8 then some .locked else if b = 0x02#8 then some .released
  else if b = 0x03#8 then some .opened else if b = 0x04#8 then some .closing else if b = 0x05#8 then some .obstructed
  else if b = 0x06#8 then some .fault else none

/-- Code of a grade. -/
def gradeCode : Grade → Byte
  | .clean => 0
  | .watch => 1
  | .soiled => 2
  | .obscured => 3

/-- Grade of a code. -/
def gradeOf (b : Byte) : Option Grade :=
  if b = 0x00#8 then some .clean else if b = 0x01#8 then some .watch else if b = 0x02#8 then some .soiled
  else if b = 0x03#8 then some .obscured else none

/-- The lens flags byte: bit 0 HELD, bit 1 UNBASELINED. -/
def flagsByte (held unbaselined : Bool) : Byte :=
  (if held then 0x01#8 else 0x00#8) ||| (if unbaselined then 0x02#8 else 0x00#8)

/-- Code of a camera kind. -/
def kindCode : CamKind → Byte
  | .doorOut => 1
  | .doorIn => 2
  | .rear => 3
  | .mirror => 4

/-- Code of an A-side. -/
def sideCode : ASide → Byte
  | .left => 1
  | .right => 2
  | .centre => 3

/-- A-side of a code. -/
def sideOf (b : Byte) : Option ASide :=
  if b = 0x01#8 then some .left else if b = 0x02#8 then some .right else if b = 0x03#8 then some .centre else none

/-- Code of an end. -/
def endCode : TramEnd → Byte
  | .a => 1
  | .b => 2

/-- End of a code. -/
def endOf (b : Byte) : Option TramEnd :=
  if b = 0x01#8 then some .a else if b = 0x02#8 then some .b else none

/-- Code of a role. -/
def roleCode : Role → Byte
  | .unannounced => 0
  | .cab => 1
  | .body => 2

/-- Role of a code that a ROSTER frame or the image may carry. -/
def roleOf (b : Byte) : Option Role :=
  if b = 0x01#8 then some .cab else if b = 0x02#8 then some .body else none

/-- Code of coupler information. -/
def couplerCode : Option (TramEnd × Bool) → Byte
  | none => 0
  | some (.a, false) => 1
  | some (.a, true) => 2
  | some (.b, false) => 3
  | some (.b, true) => 4

/-- Coupler information of a code. -/
def couplerOf (b : Byte) : Option (Option (TramEnd × Bool)) :=
  if b = 0x00#8 then some none else if b = 0x01#8 then some (some (.a, false))
  else if b = 0x02#8 then some (some (.a, true)) else if b = 0x03#8 then some (some (.b, false))
  else if b = 0x04#8 then some (some (.b, true)) else none

/-- Code of a refusal reason. -/
def reasonCode : RefusalReason → Byte
  | .cameraDown => 1
  | .noStream => 2
  | .noSlots => 3

/-- Refusal reason of a code. -/
def reasonOf (b : Byte) : Option RefusalReason :=
  if b = 0x01#8 then some .cameraDown else if b = 0x02#8 then some .noStream
  else if b = 0x03#8 then some .noSlots else none

/-- An absent input, channel or stream is FFh. -/
def absentCode : Byte := 0xFF

/-- Code of an exterior camera input: the input, or FFh for NONE. -/
def exteriorCode : Option Input → Byte
  | none => absentCode
  | some i => byte i.val

/-- The last byte of a camera descriptor's place: the door number or the end. -/
def viewPlace : CamView → Byte
  | .doorOut d => byte d
  | .doorIn d => byte d
  | .rear e => endCode e
  | .mirror e => endCode e

/-- A camera view from its kind and place codes, with a door number 1..15 or an end (R33, R168). -/
def viewOf (kind place : Byte) : Option CamView :=
  if kind = 0x01#8 then (if 1 ≤ place.toNat ∧ place.toNat ≤ 15 then some (.doorOut place.toNat) else none)
  else if kind = 0x02#8 then (if 1 ≤ place.toNat ∧ place.toNat ≤ 15 then some (.doorIn place.toNat) else none)
  else if kind = 0x03#8 then (endOf place).map .rear
  else if kind = 0x04#8 then (endOf place).map .mirror
  else none

/-- Kind byte of a control frame (R177). -/
def FrameKind.code : FrameKind → Byte
  | .roster => 1
  | .door => 2
  | .lens => 3
  | .cab => 4
  | .want => 5
  | .claim => 6
  | .release => 7
  | .deny => 8

/-- Kind of a kind byte. -/
def frameKindOf (b : Byte) : Option FrameKind :=
  if b = 0x01#8 then some .roster else if b = 0x02#8 then some .door else if b = 0x03#8 then some .lens
  else if b = 0x04#8 then some .cab else if b = 0x05#8 then some .want else if b = 0x06#8 then some .claim
  else if b = 0x07#8 then some .release else if b = 0x08#8 then some .deny else none

/-- Class of a kind of control frame (R11, R177). -/
def FrameKind.cls : FrameKind → Fin 4
  | .roster => 3
  | .door => 0
  | .lens => 1
  | .cab => 1
  | .want => 2
  | .claim => 2
  | .release => 2
  | .deny => 2

/-- Kind of a frame body. -/
def FrameBody.kind : FrameBody → FrameKind
  | .roster _ _ _ _ _ _ => .roster
  | .door _ _ => .door
  | .lens _ _ _ => .lens
  | .cab _ _ => .cab
  | .want _ => .want
  | .claim _ _ _ _ _ _ => .claim
  | .release _ _ _ _ => .release
  | .deny _ _ => .deny

end Sys2Proof.Machine
end

