-- ==== Sys2Proof/Machine/Frames.lean ====
section
/-! DEFINITION. The layouts of the trunk's transmissions (R176 to R178): building the bytes of a MARK, a control frame,
a void ending and a tile, and reading them, with the tests that make a transmission fail its check (R19). -/
namespace Sys2Proof.Machine

/-! ### MARK -/

/-- The field of a MARK as whole bytes for the CRC: 20 bits right-aligned in three bytes (R175). -/
def markField (a : Addr) (tag : Word) : List Byte := byte a.val :: wordBytes tag

/-- The bytes of a MARK after its field: address, tag, round count, check value (R176). -/
def markBytes (a : Addr) (tag : Word) (count : Byte) : List Byte :=
  withCheck32 (markField a tag) (byte a.val :: (wordBytes tag ++ [count]))

/-- The round count of a MARK whose body passes its check (R176). -/
def readMark (rx : MarkRx) : Option Byte :=
  match checked32 (markField rx.addr rx.tag) rx.bytes with
  | some [a, hi, lo, count] => if a = byte rx.addr.val ∧ joinBytes hi lo = rx.tag then some count else none
  | _ => none

/-! ### Control frames -/

/-- The field of a control frame as whole bytes: class and address in one byte, then the tag (R175). -/
def controlField (c : Fin 4) (a : Addr) (tag : Word) : List Byte := byte (16 * c.val + a.val) :: wordBytes tag

/-- The bytes of four-byte entries. -/
def quadBytes : List Quad → List Byte
  | [] => []
  | q :: qs => q.b0 :: q.b1 :: q.b2 :: q.b3 :: quadBytes qs

/-- The bytes of camera descriptors. -/
def camBytes : List CamRaw → List Byte
  | [] => []
  | c :: cs => c.input :: c.kind :: c.side :: c.place :: c.grade :: c.flags :: camBytes cs

/-- The bytes of door descriptors. -/
def doorBytes : List DoorRaw → List Byte
  | [] => []
  | d :: ds => d.chan :: d.door :: d.side :: d.exterior :: d.phase :: doorBytes ds

/-- The kind part of a frame (R177). -/
def kindPart : FrameBody → List Byte
  | .roster l r cp cf cams doors =>
    l :: r :: cp :: cf :: byte cams.length :: byte doors.length :: (camBytes cams ++ doorBytes doors)
  | .door c p => [c, p]
  | .lens i g f => [i, g, f]
  | .cab k e => [k, e]
  | .want es => byte es.length :: quadBytes es
  | .claim o t n i c sl => o :: (wordBytes t ++ (n :: i :: c :: byte sl.length :: sl))
  | .release o t n sl => o :: (wordBytes t ++ (n :: byte sl.length :: sl))
  | .deny a es => a :: byte es.length :: quadBytes es

/-- The bytes from the kind byte to the end of the kind part (R176). -/
def frameBytes (f : ControlFrame) : List Byte :=
  f.body.kind.code :: byte (kindPart f.body).length :: byte f.addr.val :: (wordBytes f.tag ++ kindPart f.body)

/-- The bytes of a control frame after its field (R176). -/
def controlBytes (f : ControlFrame) : List Byte :=
  withCheck32 (controlField f.body.kind.cls f.addr f.tag) (frameBytes f)

/-- A void ending: the kind byte 00h directly after the field, then the check value (R9, R176). -/
def voidBytes (c : Fin 4) (a : Addr) (tag : Word) : List Byte := withCheck32 (controlField c a tag) [0x00#8]

/-- Read n four-byte entries that end the bytes. -/
def readQuads : Nat → List Byte → Option (List Quad)
  | 0, [] => some []
  | n + 1, a :: b :: c :: d :: rest => (readQuads n rest).map (fun qs => ⟨a, b, c, d⟩ :: qs)
  | _, _ => none

/-- Read m camera descriptors and give the rest of the bytes. -/
def readCams : Nat → List Byte → Option (List CamRaw × List Byte)
  | 0, bs => some ([], bs)
  | m + 1, a :: b :: c :: d :: e :: f :: rest =>
    (readCams m rest).map (fun r => (⟨a, b, c, d, e, f⟩ :: r.1, r.2))
  | _, _ => none

/-- Read d door descriptors that end the bytes. -/
def readDoors : Nat → List Byte → Option (List DoorRaw)
  | 0, [] => some []
  | n + 1, a :: b :: c :: d :: e :: rest => (readDoors n rest).map (fun ds => ⟨a, b, c, d, e⟩ :: ds)
  | _, _ => none

/-- Read a kind part; its length must be the one the table gives for its counts (R176, R177). -/
def readKindPart (k : FrameKind) (part : List Byte) : Option FrameBody :=
  match k, part with
  | .roster, l :: r :: cp :: cf :: m :: d :: rest =>
    match readCams m.toNat rest with
    | some (cams, rest') => (readDoors d.toNat rest').map (fun doors => .roster l r cp cf cams doors)
    | none => none
  | .door, [c, p] => some (.door c p)
  | .lens, [i, g, f] => some (.lens i g f)
  | .cab, [kd, e] => some (.cab kd e)
  | .want, n :: rest => (readQuads n.toNat rest).map .want
  | .claim, o :: th :: tl :: n :: i :: c :: cnt :: slots =>
    if slots.length = cnt.toNat then some (.claim o (joinBytes th tl) n i c slots) else none
  | .release, o :: th :: tl :: n :: cnt :: slots =>
    if slots.length = cnt.toNat then some (.release o (joinBytes th tl) n slots) else none
  | .deny, a :: n :: rest => (readQuads n.toNat rest).map (.deny a)
  | _, _ => none

/-- What a hearer makes of a control transmission (R9, R19, R176). -/
inductive HeardControl where
  | failed
  | empty
  | frame (f : ControlFrame)
deriving DecidableEq, Repr

/-- Read the bytes after a matching check: an empty position, a frame, or one that is taken as failing (R176). -/
def readFrameBytes (rx : ControlRx) (body : List Byte) : HeardControl :=
  match body with
  | [k] => if k = 0x00#8 then .empty else .failed
  | k :: len :: a :: th :: tl :: part =>
    match frameKindOf k with
    | none => .failed
    | some kind =>
      if rx.cls = kind.cls ∧ a = byte rx.addr.val ∧ joinBytes th tl = rx.tag ∧ part.length = len.toNat then
        match readKindPart kind part with
        | some b => .frame { addr := rx.addr, tag := rx.tag, body := b }
        | none => .failed
      else .failed
  | _ => .failed

/-- Read a control transmission (R19, R176). -/
def readControl (rx : ControlRx) : HeardControl :=
  match checked32 (controlField rx.cls rx.addr rx.tag) rx.bytes with
  | some body => readFrameBytes rx body
  | none => .failed

/-! ### Tiles -/

/-- The field of a tile as one byte (R175). -/
def tileField (a : Addr) : List Byte := [byte a.val]

/-- The 11 bytes of a tile header (R178). -/
def headerBytes (h : TileHeader) : List Byte :=
  (if h.picture then 0x01#8 else 0x02#8) :: byte h.addr.val :: (wordBytes h.tag ++
    [byte h.stream.val, h.slot, byte h.input.val, classCode h.cls, h.seq, byte h.band,
      if h.last then 0x01#8 else 0x00#8])

/-- The bytes of a tile after its field; a HOLD tile has no payload (R74, R178). -/
def tileBytes (h : TileHeader) (payload : List Byte) : List Byte :=
  withCheck32 (tileField h.addr) (headerBytes h ++ payload)

/-- The payload of a tile: 5,760 bytes for PICTURE, none for HOLD (R178). -/
def payloadLength (picture : Bool) : Nat := if picture then 5760 else 0

/-- A tile that passes its check: its header and payload (R178). -/
def readTile (rx : TileRx) : Option (TileHeader × List Byte) :=
  match checked32 (tileField rx.addr) rx.bytes with
  | some (k :: a :: th :: tl :: n :: sl :: i :: c :: seq :: b :: l :: payload) =>
    match finOfByte 6 n, finOfByte 4 i, classOf c with
    | some num, some input, some cls =>
      if (k = 0x01#8 ∨ k = 0x02#8) ∧ a = byte rx.addr.val ∧ b.toNat < cls.bands
          ∧ payload.length = payloadLength (k == 0x01#8) then
        some ({ picture := k == 0x01#8, addr := rx.addr, tag := joinBytes th tl, stream := num, slot := sl,
                input := input, cls := cls, seq := seq, band := b.toNat, last := l.getLsbD 0 }, payload)
      else none
    | _, _, _ => none
  | _ => none

end Sys2Proof.Machine
end

