-- ==== Sys2Proof/Machine/Image.lean ====
section
/-! DEFINITION. The configuration image and the baseline records in the configuration memory: their layout (R179), the
checks that make a station INERT (R168), the judgement of layouts and view kinds (R135, R136), and the validity of a
baseline record (R111). -/
namespace Sys2Proof.Machine

/-- A vector of four values by index. -/
def vec4 {α : Type} (f : Fin 4 → α) : Vector α 4 := #v[f 0, f 1, f 2, f 3]

/-- A vector of sixteen values by index. -/
def vec16 {α : Type} (f : Fin 16 → α) : Vector α 16 :=
  #v[f 0, f 1, f 2, f 3, f 4, f 5, f 6, f 7, f 8, f 9, f 10, f 11, f 12, f 13, f 14, f 15]

/-- The byte of the image at an offset. -/
def imgByte (img : List Byte) (off : Nat) : Byte := img.getD off 0x00#8

/-- The byte of the image at an offset as a number. -/
def imgNat (img : List Byte) (off : Nat) : Nat := (imgByte img off).toNat

/-- The number in two bytes of the image, a baseline record or a request's length: most significant byte first, as R170 says of
the length (in the configuration memory: DESIGN CHOICE, unsafe: log 79). -/
def imgWord (img : List Byte) (off : Nat) : Word := joinBytes (imgByte img off) (imgByte img (off + 1))

/-- Does a number lie in a range? -/
def inRange (lo hi n : Nat) : Bool := decide (lo ≤ n) && decide (n ≤ hi)

/-! ### The checks of R168 -/

/-- The check value at offset 385 matches bytes 0 to 384, its most significant byte first (DESIGN CHOICE, unsafe: log 79). -/
def imageCheckOk (img : List Byte) : Bool :=
  (img.drop 385).take 4 == word32Bytes (crc32 (img.take 385))

/-- The station block is within its ranges. -/
def stationBlockOk (img : List Byte) : Bool :=
  imgWord img 0 != 0xFFFF#16 && decide (imgNat img 2 ≤ 7) && inRange 1 2 (imgNat img 3) && decide (imgNat img 4 ≤ 2)
    && (imgNat img 3 != 1 || (imgNat img 4 != 0 && inRange 1 2 (imgNat img 5)))
    && inRange 1 10 (imgNat img 6) && inRange 2 20 (imgNat img 7)
    && (imgNat img 8 == 25 || imgNat img 8 == 30)
    && inRange 288 1080 (imgWord img 9).toNat && inRange 480 1920 (imgWord img 11).toNat

/-- The camera descriptor of an input is sound. -/
def camDescriptorOk (img : List Byte) (i : Fin 4) : Bool :=
  let k := imgNat img (13 + 3 * i.val)
  let side := imgNat img (14 + 3 * i.val)
  let place := imgNat img (15 + 3 * i.val)
  decide (k ≤ 4) && (k == 0 || (inRange 1 3 side && (if k ≤ 2 then inRange 1 15 place else inRange 1 2 place)))

/-- Is the input populated by the image? -/
def imgPopulated (img : List Byte) (n : Nat) : Bool := decide (n < 4) && imgNat img (13 + 3 * n) != 0

/-- The door descriptor of a channel is sound. -/
def doorDescriptorOk (img : List Byte) (c : Fin 4) : Bool :=
  let d := imgNat img (25 + 3 * c.val)
  let side := imgNat img (26 + 3 * c.val)
  let ext := imgNat img (27 + 3 * c.val)
  decide (d ≤ 15) && (d == 0 || (inRange 1 2 side && (ext == 255 || imgPopulated img ext)))

/-- The descriptors are sound. -/
def descriptorsOk (img : List Byte) : Bool :=
  allInputs.all (camDescriptorOk img) && allChans.all (doorDescriptorOk img)

/-- The soiling parameters lie in the ranges of R95. -/
def soilingOk (img : List Byte) : Bool :=
  inRange 1 8 (imgNat img 37) && inRange 2 15 (imgNat img 38) && inRange 5 60 (imgNat img 39)
    && inRange 2 14 (imgNat img 40) && inRange 1 255 (imgNat img 42)
    && allAddrs.all (fun z => inRange 1 4095 (imgWord img (44 + 2 * z.val)).toNat)

/-- The first group that fails (R168). -/
def imageCause (img : List Byte) : InertCause :=
  if !imageCheckOk img then .imageCheck
  else if !stationBlockOk img then .stationBlock
  else if !descriptorsOk img then .descriptors
  else if !soilingOk img then .soiling
  else .none

/-! ### The layout table and the view kind table -/

/-- A pane's selector from its three bytes, if its form is known (R135, R179). -/
def selectorOf (code kind num : Byte) : Option Selector :=
  if code = 0x00#8 then some .blank
  else if code = 0x01#8 then
    let k := kind.toNat / 16
    let o := kind.toNat % 16
    if (k = 1 ∨ k = 2) ∧ o ≤ 1 ∧ 1 ≤ num.toNat ∧ num.toNat ≤ 16 then
      some (.fixed (if k = 1 then .doorOut else .doorIn) (o == 1) num.toNat)
    else none
  else if code = 0x02#8 then some .rear
  else if code = 0x03#8 then some .mirror
  else if code = 0x04#8 then (if 1 ≤ num.toNat ∧ num.toNat ≤ 4 then some (.sweep num.toNat) else none)
  else none

/-- The grid of a usable layout's grid code (R135). -/
def gridOf (b : Byte) : Option Grid :=
  if b = 0x01#8 then some .single else if b = 0x02#8 then some .duo else if b = 0x03#8 then some .trio
  else if b = 0x04#8 then some .quad else none

/-- The panes of a layout from the image, against their classes; none if a pane fails its check (R135). -/
def panesOf (img : List Byte) (off : Nat) : List SizeClass → Option (List PaneConf)
  | [] => some []
  | c :: cs =>
    match selectorOf (imgByte img off) (imgByte img (off + 1)) (imgByte img (off + 2)), classOf (imgByte img (off + 3)),
        panesOf img (off + 4) cs with
    | some sel, some floor, some rest =>
      if floor.rank ≤ c.rank then some ({ selector := sel, floor := floor } :: rest) else none
    | _, _, _ => none

/-- Entry i of the layout table if it is usable (R135, R179). -/
def layoutOf (img : List Byte) (i : Fin 16) : Option Layout :=
  let off := 76 + 18 * i.val
  let flags := imgByte img (off + 1)
  match gridOf (imgByte img off) with
  | none => none
  | some g =>
    if flags.getLsbD 1 || flags.getLsbD 2 then
      (panesOf img (off + 2) g.classes).map (fun ps =>
        { grid := g, selectable := flags.getLsbD 0, onLeft := flags.getLsbD 1, onRight := flags.getLsbD 2, panes := ps })
    else none

/-- The settings of the view kind with a code, from the image (R179). -/
def viewSettingOf (img : List Byte) (code : Nat) : ViewSetting :=
  { rank := imgNat img (364 + 4 * code), mask := imgByte img (365 + 4 * code), linger := imgNat img (366 + 4 * code),
    layouts := imgByte img (367 + 4 * code) }

/-- The reverse screen choice of a code (R179). -/
def choiceOf (b : Byte) : Option ReverseChoice :=
  if b = 0x01#8 then some .left else if b = 0x02#8 then some .right else if b = 0x03#8 then some .both else none

/-- The view kind table of the image, if it is valid (R136). -/
def viewTableOf (img : List Byte) : Option ViewTable :=
  let v := [viewSettingOf img 0, viewSettingOf img 1, viewSettingOf img 2, viewSettingOf img 3, viewSettingOf img 4]
  let ranksOk := [1, 2, 3, 4, 5].all (fun r => (v.filter (fun x => x.rank == r)).length == 1)
  if ranksOk && v.all (fun x => decide (x.linger ≤ 15)) then
    (choiceOf (imgByte img 384)).map (fun ch =>
      { spotlight := viewSettingOf img 0, closing := viewSettingOf img 1, release := viewSettingOf img 2,
        reverse := viewSettingOf img 3, driver := viewSettingOf img 4, choice := ch })
  else none

/-! ### The settings -/

/-- The camera descriptor of an input (R179). -/
def camConfOf (img : List Byte) (i : Fin 4) : Option CamConf :=
  match viewOf (imgByte img (13 + 3 * i.val)) (imgByte img (15 + 3 * i.val)), sideOf (imgByte img (14 + 3 * i.val)) with
  | some v, some s => some { view := v, side := s }
  | _, _ => none

/-- The door descriptor of a channel (R179). -/
def doorConfOf (img : List Byte) (c : Fin 4) : Option DoorConf :=
  if imgNat img (25 + 3 * c.val) = 0 then none
  else
    (sideOf (imgByte img (26 + 3 * c.val))).map (fun s =>
      { door := imgNat img (25 + 3 * c.val), side := s, exterior := finOfByte 4 (imgByte img (27 + 3 * c.val)) })

/-- The soiling parameters of the image (R95, R179). -/
def soilingOf (img : List Byte) : Soiling where
  period := 500000 * imgNat img 37
  riseConfirm := imgNat img 38
  fallConfirm := imgNat img 39
  suspect := imgNat img 40
  darkFloor := imgNat img 41
  disturbance := imgNat img 42
  collapse := imgNat img 43
  baseline := vec16 (fun z => (imgWord img (44 + 2 * z.val)).toNat)

/-- The settings that an image gives (R179). A BODY station ignores the cab part (R168). -/
def settingsOf (img : List Byte) : Settings :=
  let isCab := imgNat img 3 == 1
  let views := if isCab then viewTableOf img else none
  { tag := imgWord img 0
    localNo := ⟨imgNat img 2 % 8, Nat.mod_lt _ (by decide)⟩
    role := if isCab then .cab else .body
    endStation := endOf (imgByte img 4)
    screen0 := if imgNat img 5 = 2 then .right else .left
    filterTime := 10000 * imgNat img 6
    closingLimit := 1000000 * imgNat img 7
    frameRate := imgNat img 8
    lineCount := (imgWord img 9).toNat
    pixelCount := (imgWord img 11).toNat
    cams := vec4 (camConfOf img)
    doors := vec4 (doorConfOf img)
    soiling := soilingOf img
    layouts := if isCab then vec16 (layoutOf img) else Vector.replicate 16 none
    views := views.getD ViewTable.factory
    factoryViews := views.isNone }

/-- The image in the configuration memory, bytes 0 to 388 (R167). -/
def readImage (m : List Host.Cell) : List Byte := memReadBytes m 0 389

/-! ### Baseline records -/

/-- Where the baseline record of an input lies (R179). -/
def recordAddress (i : Input) : Nat := 0x200 + 36 * i.val

/-- The bytes of 16 zone values, each most significant byte first (in a baseline record: DESIGN CHOICE, unsafe: log 79; in a
reply: DESIGN CHOICE, unsafe: log 80). -/
def valuesBytes (v : Vector Nat 16) : List Byte := (v.toList.map natBytes2).flatten

/-- The 36 bytes of a baseline record: 16 values and a check value over them, most significant byte first (R179; DESIGN CHOICE,
unsafe: log 79). -/
def recordBytes (v : Vector Nat 16) : List Byte := withCheck32 [] (valuesBytes v)

/-- The 16 values in a record's bytes. -/
def recordValues (bs : List Byte) : Vector Nat 16 := vec16 (fun z => (imgWord bs (2 * z.val)).toNat)

/-- Is a record valid: its check value matches and every value lies in 1..4095 (R111)? -/
def recordValid (bs : List Byte) : Bool :=
  bs.drop 32 == word32Bytes (crc32 (bs.take 32)) && (recordValues bs).toList.all (fun x => inRange 1 4095 x)

/-- Read a baseline record and judge it (R111). -/
def readRecord (m : List Host.Cell) (i : Input) : BaselineRecord :=
  let bs := memReadBytes m (recordAddress i) 36
  { valid := recordValid bs, values := recordValues bs }

end Sys2Proof.Machine
end

