-- ==== Sys2Proof/Machine/Orientation.lean ====
section
/-! DEFINITION. Cab Control's orientation of the consist and its resolution of pane selectors (R128 to R133): functions
of the roster, the door table and the station's own cab end, taken again at each change of those. -/
namespace Sys2Proof.Machine

/-- The held roster entries with their addresses, in address order. -/
def State.rosterList (s : State) : List (Addr × RosterEntry) :=
  allAddrs.filterMap (fun a => (s.tables.roster[a]).map (fun e => (a, e)))

/-- Is the entry PRESENT? -/
def RosterEntry.isPresent (e : RosterEntry) : Bool := e.presence == .present

/-- The lowest of some tags. -/
def lowestTag : List Word → Option Word
  | [] => none
  | t :: ts =>
    match lowestTag ts with
    | none => some t
    | some u => some (if t.toNat ≤ u.toNat then t else u)

/-- The tag of the other tram of the orientation (R128). -/
def State.otherTram (s : State) : Option Word :=
  let foreign := s.rosterList.filter (fun p => p.2.tag != s.cfg.tag)
  match lowestTag ((foreign.filter (fun p => p.2.isPresent)).map (fun p => p.2.tag)) with
  | some t => some t
  | none => lowestTag (foreign.map (fun p => p.2.tag))

/-- Is a tram present: at least one of its entries is PRESENT (R128)? -/
def State.tramPresent (s : State) (tag : Word) : Bool := s.rosterList.any (fun p => p.2.tag == tag && p.2.isPresent)

/-- The ends that PRESENT entries of a tram report as made (R128). -/
def State.madeEnds (s : State) (tag : Word) : List TramEnd :=
  s.rosterList.filterMap (fun p =>
    if p.2.tag == tag && p.2.isPresent then
      match p.2.coupler with
      | some (e, true) => some e
      | _ => none
    else none)

/-- The forward end of a tram, none while it is unresolved (R128). -/
def State.forwardEnd (s : State) (tag : Word) : Option TramEnd :=
  if tag = s.cfg.tag then s.cfg.endStation
  else if s.otherTram = some tag then
    let ends := s.madeEnds tag
    if ends.isEmpty then none
    else if ends.all (· == .a) then some .a
    else if ends.all (· == .b) then some .b
    else none
  else none

/-- The tram order of the lead tram and of the other tram (R128). -/
def State.tramOrder (s : State) (tag : Word) : Nat := if tag = s.cfg.tag then 0 else 1

/-- Driver side from A-side and forward end (R129). -/
def driverSideOf : Option TramEnd → ASide → DriverSide
  | some .a, .left => .left
  | some .a, .right => .right
  | some .b, .left => .right
  | some .b, .right => .left
  | some _, .centre => .none
  | none, _ => .both

/-- The descriptor of a door id with its roster entry. -/
def State.doorDesc (s : State) (id : DoorId) : Option (RosterEntry × DoorDesc) :=
  match s.tables.roster[id.addr] with
  | none => none
  | some e => (e.doors.find? (fun d => d.chan == id.chan)).map (fun d => (e, d))

/-- The driver side of a door table entry (R129). -/
def State.doorSide (s : State) (id : DoorId) : DriverSide :=
  match s.doorDesc id with
  | some (e, d) => driverSideOf (s.forwardEnd e.tag) d.side
  | none => .none

/-- The exterior camera of a door: its address and exterior input, unless that is NONE (R132). -/
def State.exteriorCam (s : State) (id : DoorId) : Option CamId :=
  match s.doorDesc id with
  | some (_, d) => d.exterior.map (fun i => { addr := id.addr, input := i })
  | none => none

/-- The highest door number among a tram's descriptors (R130). -/
def State.highestDoor (s : State) (tag : Word) : Nat :=
  s.rosterList.foldl (fun m p =>
    if p.2.tag = tag then
      p.2.cams.foldl (fun m c => Nat.max m (c.view.door?.getD 0)) (p.2.doors.foldl (fun m d => Nat.max m d.door) m)
    else m) 0

/-- Compare two keys, first number first. -/
def keyBefore : List Nat → List Nat → Bool
  | [], [] => false
  | [], _ :: _ => true
  | _ :: _, [] => false
  | x :: xs, y :: ys => if x = y then keyBefore xs ys else decide (x < y)

/-- The ordering key of a descriptor: those with a nearness key (tram order, forward number) first, then those of an
unresolved tram by tag and door number, and the lower id between equals (R130). -/
def State.nearness (s : State) (tag : Word) (door : Nat) (addr sub : Nat) : List Nat :=
  match s.forwardEnd tag with
  | some .a => [0, s.tramOrder tag, door, addr, sub]
  | some .b => [0, s.tramOrder tag, s.highestDoor tag + 1 - door, addr, sub]
  | none => [1, tag.toNat, door, addr, sub]

/-- The ordering key of a door (R130). -/
def State.doorKey (s : State) (id : DoorId) : List Nat :=
  match s.doorDesc id with
  | some (e, d) => s.nearness e.tag d.door id.addr.val id.chan.val
  | none => [2, id.addr.val, id.chan.val]

/-- The doors of the table ordered by nearness (R130). -/
def State.doorsByNearness (s : State) (ds : List DoorEntry) : List DoorEntry :=
  sortBy (fun x y => keyBefore (s.doorKey x.id) (s.doorKey y.id)) ds

/-- The doors on a side (spec/09 section 9.4). -/
def State.doorsOn (s : State) (side : Side) : List DoorEntry :=
  s.tables.doors.filter (fun d => (s.doorSide d.id).isOn side)

/-- The urgency of a phase in the sweep order; LOCKED and UNKNOWN are not in it (R132). -/
def sweepRank : DoorPhase → Option Nat
  | .obstructed => some 0
  | .fault => some 1
  | .closing => some 2
  | .opened => some 3
  | .released => some 4
  | .locked => none
  | .unknown => none

/-- The sweep order of a side (R132). -/
def State.sweepOrder (s : State) (side : Side) : List DoorEntry :=
  sortBy (fun x y => keyBefore ((sweepRank x.phase).getD 9 :: s.doorKey x.id) ((sweepRank y.phase).getD 9 :: s.doorKey y.id))
    ((s.doorsOn side).filter (fun d => (sweepRank d.phase).isSome))

/-- Every camera descriptor of the roster with its camera id and its entry. -/
def State.cameras (s : State) : List (CamId × RosterEntry × CamDesc) :=
  (s.rosterList.map (fun p => p.2.cams.map (fun c => ({ addr := p.1, input := c.input }, p.2, c)))).flatten

/-- The roster's descriptor of a camera. -/
def State.camDesc (s : State) (c : CamId) : Option CamDesc :=
  match s.tables.roster[c.addr] with
  | none => none
  | some e => e.cams.find? (fun d => d.input == c.input)

/-- Compare camera ids, address first. -/
def CamId.before (a b : CamId) : Bool :=
  if a.addr = b.addr then decide (a.input.val < b.input.val) else decide (a.addr.val < b.addr.val)

/-- The lowest camera id of some cameras. -/
def lowestCam (cs : List CamId) : PaneResult :=
  match sortBy CamId.before cs with
  | [] => .unresolved
  | c :: _ => .cam c

/-- The ordering key of a camera (R130). -/
def State.camKey (s : State) (p : CamId × RosterEntry × CamDesc) : List Nat :=
  s.nearness p.2.1.tag (p.2.2.view.door?.getD 0) p.1.addr.val p.1.input.val

/-- The candidates of FIXED on a driver side, ordered by nearness key (R131). -/
def State.fixedCandidates (s : State) (kind : CamKind) (side : Side) : List CamId :=
  (sortBy (fun x y => keyBefore (s.camKey x) (s.camKey y))
    (s.cameras.filter (fun p => p.2.2.view.kind == kind
      && (driverSideOf (s.forwardEnd p.2.1.tag) p.2.2.side).isOn side))).map (fun p => p.1)

/-- Resolve REAR (R131). -/
def State.resolveRear (s : State) : PaneResult :=
  let last := match s.otherTram with
    | some t => if s.tramPresent t then t else s.cfg.tag
    | none => s.cfg.tag
  match s.forwardEnd last with
  | none => .unresolved
  | some e =>
    lowestCam ((s.cameras.filter (fun p => p.2.1.tag == last && p.2.2.view == .rear e.opposite)).map (fun p => p.1))

/-- Resolve MIRROR on a screen of a side (R131). -/
def State.resolveMirror (s : State) (side : Side) : PaneResult :=
  match s.forwardEnd s.cfg.tag with
  | none => .unresolved
  | some e =>
    lowestCam ((s.cameras.filter (fun p => p.2.1.tag == s.cfg.tag && p.2.2.view == .mirror e
      && driverSideOf (some e) p.2.2.side == (match side with | .left => .left | .right => .right))).map (fun p => p.1))

/-- The result for a camera that may be missing. -/
def resultOf : Option CamId → PaneResult
  | some c => .cam c
  | none => .unresolved

/-- Resolve a selector of a pane on a screen of a driver side (R131, R132). -/
def State.resolve (s : State) (side : Side) : Selector → PaneResult
  | .blank => .blank
  | .fixed kind other j =>
    resultOf ((s.fixedCandidates kind (if other then side.other else side))[j - 1]?)
  | .rear => s.resolveRear
  | .mirror => s.resolveMirror side
  | .sweep k =>
    match (s.sweepOrder side)[k - 1]? with
    | some d => resultOf (s.exteriorCam d.id)
    | none => .unresolved

end Sys2Proof.Machine
end

