-- ==== Sys2Proof/Machine/Panes.lean ====
section
/-! DEFINITION. The pane side of the Screen Composer (chapter 10): binding and candidates, picture assembly, donors at
a layout switch, carry entries, the WANT list, the refusal set and the pane states. -/
namespace Sys2Proof.Machine

/-- The screen of a side. -/
def Composer.screen (c : Composer) : Side → Screen
  | .left => c.left
  | .right => c.right

/-- The Composer with the screen of a side replaced. -/
def Composer.setScreen (c : Composer) (side : Side) (x : Screen) : Composer :=
  match side with
  | .left => { c with left := x }
  | .right => { c with right := x }

/-- The screen of a side. -/
def State.screen (s : State) (side : Side) : Screen := s.comp.screen side

/-- The state with the screen of a side replaced. -/
def State.setScreen (s : State) (side : Side) (x : Screen) : State := s.setComp (s.comp.setScreen side x)

/-- Every pane, screen LEFT first (R153). -/
def Composer.panes (c : Composer) : List Pane := c.left.panes ++ c.right.panes

/-- Change every pane. -/
def Composer.mapPanes (c : Composer) (f : Pane → Pane) : Composer :=
  { c with left := { c.left with panes := c.left.panes.map f }, right := { c.right with panes := c.right.panes.map f } }

/-! ### Streams a pane may bind to (R156) -/

/-- The streams of which the slot map copy holds at least one entry (R156). -/
def availableStreams (m : Vector SlotEntry 24) : List StreamId :=
  allSlots.foldl (fun acc n =>
    match m[n].owner with
    | some id => if acc.contains id then acc else acc ++ [id]
    | none => acc) []

/-- Is a stream of the pane's camera at a class it accepts (R156)? -/
def Pane.accepts (p : Pane) (id : StreamId) : Bool :=
  p.result == .cam { addr := id.addr, input := id.input } && decide (id.cls.rank ≤ p.cls.rank)
    && decide (p.floor.rank ≤ id.cls.rank)

/-- Does a stream rank above another: the higher class, then the lower stream number (R156)? -/
def StreamId.above (a b : StreamId) : Bool :=
  if a.cls = b.cls then decide (a.num.val < b.num.val) else decide (b.cls.rank < a.cls.rank)

/-- The best-ranked of some streams. -/
def bestStream : List StreamId → Option StreamId
  | [] => none
  | x :: xs =>
    match bestStream xs with
    | none => some x
    | some y => some (if y.above x then y else x)

/-- The best-ranked eligible stream that ranks above the bound stream; one of the bound stream's class is not a
candidate (R156; DEDUCED, unsafe: log 21). -/
def Pane.choose (p : Pane) (eligible : List StreamId) : Option StreamId :=
  match p.bound with
  | none => bestStream eligible
  | some (b, mark) =>
    match bestStream (eligible.filter (fun x => x.cls != b.cls)) with
    | none => none
    | some x => if mark = .plain ∧ x.cls.rank ≤ b.cls.rank then none else some x

/-- Take a candidate; another one's picture is dropped (R156). -/
def Pane.setCandidate (p : Pane) (c : Option StreamId) : Pane :=
  if p.candidate = c then p else { p with candidate := c, candidatePicture := none }

/-- No stream bound: the assembly picture and the display picture become none (R158). -/
def Pane.unbind (p : Pane) : Pane := { p with bound := none, assembly := none, display := none, stale := 0 }

/-- The bound stream ceases to be available (R158). -/
def Pane.loseBound (p : Pane) (available : List StreamId) : Pane :=
  match p.bound with
  | none => p
  | some (b, mark) =>
    if mark = .ended ∨ b ∈ available then p
    else if p.candidate.isSome then { p with bound := some (b, .ended), assembly := none }
    else p.unbind

/-- Judge a pane's binding and candidate against the slot map copy (R156, R158). The loss of the bound stream is taken before
a new candidate is judged (DESIGN CHOICE, unsafe: log 61). -/
def Pane.judge (p : Pane) (available : List StreamId) : Pane :=
  match p.result with
  | .cam _ =>
    let p := match p.candidate with
      | some x => if x ∈ available then p else { p with candidate := none, candidatePicture := none }
      | none => p
    let p := p.loseBound available
    let eligible := available.filter p.accepts
    match p.bound, p.choose eligible with
    | some (_, .ended), none => p.unbind.setCandidate (p.unbind.choose eligible)
    | _, c => p.setCandidate c
  | _ => p

/-- Judge every pane (R156). -/
def judgePanes (s : State) : State :=
  s.setComp (s.comp.mapPanes (fun p => p.judge (availableStreams s.tables.slots)))

/-- The streams that a pane puts into the bound-stream set: its candidate, and its bound stream unless ENDED (R156). -/
def Pane.streams (p : Pane) : List StreamId :=
  p.candidate.toList
    ++ (match p.bound with
        | some (b, mark) => if mark = .ended then [] else [b]
        | none => [])

/-- Does a pane take the tiles of a stream (R156)? -/
def Pane.listens (p : Pane) (id : StreamId) : Bool := p.streams.contains id

/-- The set of bound streams of the station (R156). -/
def Composer.boundStreams (c : Composer) : List StreamId := (c.panes.map Pane.streams).flatten

/-- The receive filter for the tile of a slot as the panes now stand (R20). -/
def State.tileFilter (s : State) (n : Slot) : TileFilter where
  slot := n
  streams := s.comp.boundStreams

/-- The receive filter for the tile of a slot: as it stood at the slot's start if that was told, else as it stands now
(R20; DEDUCED, unsafe: log 46). -/
def State.filterOf (s : State) (n : Slot) : TileFilter :=
  match s.trunk.filter with
  | some f => if f.slot = n then f else s.tileFilter n
  | none => s.tileFilter n

/-! ### Pictures (R158 to R160) -/

/-- A pane with what its picture step adds to swaps, patched bands and discarded pictures. -/
structure PaneStep where
  pane : Pane
  swaps : Nat
  patched : Nat
  discarded : Nat
deriving DecidableEq, Repr

/-- Hold a band in a picture under assembly. -/
def Assembly.hold (a : Assembly) (band : Nat) (payload : List Byte) : Assembly :=
  { a with bands := (band, payload) :: a.bands.filter (fun x => x.1 != band) }

/-- The payload held for a band. -/
def Assembly.band (a : Assembly) (k : Nat) : Option (List Byte) := (a.bands.find? (fun x => x.1 == k)).map (fun x => x.2)

/-- The bands of a class that the assembly does not hold (R159). -/
def Assembly.missing (a : Assembly) (cls : SizeClass) : Nat :=
  ((List.range cls.bands).filter (fun k => (a.band k).isNone)).length

/-- End a bound stream's picture: swap with patching, or discard (R159). -/
def Pane.endPicture (p : Pane) (a : Assembly) (cls : SizeClass) : PaneStep :=
  let missing := a.missing cls
  if missing ≤ cls.bands / 4 ∧ (missing = 0 ∨ p.display.isSome) then
    { pane := { p with
        assembly := none
        display := some ((List.range cls.bands).map (fun k => (a.band k).getD ((p.display.getD []).getD k [])))
        stale := 0 }
      swaps := 1, patched := missing, discarded := 0 }
  else { pane := { p with assembly := none }, swaps := 0, patched := 0, discarded := 1 }

/-- Add a step's counts to those of a step before it. -/
def PaneStep.after (x y : PaneStep) : PaneStep :=
  { y with swaps := x.swaps + y.swaps, patched := x.patched + y.patched, discarded := x.discarded + y.discarded }

/-- A step that changes no counter. -/
def PaneStep.still (p : Pane) : PaneStep := { pane := p, swaps := 0, patched := 0, discarded := 0 }

/-- A PICTURE tile of the bound stream (R159). -/
def Pane.takeBand (p : Pane) (cls : SizeClass) (h : TileHeader) (payload : List Byte) : PaneStep :=
  let first : PaneStep := match p.assembly with
    | some a => if a.seq = h.seq then PaneStep.still p else p.endPicture a cls
    | none => PaneStep.still p
  let a := match first.pane.assembly with
    | some a => a.hold h.band payload
    | none => { seq := h.seq, bands := [(h.band, payload)] }
  if h.last then first.after (first.pane.endPicture a cls)
  else first.after (PaneStep.still { first.pane with assembly := some a })

/-- A HOLD tile of the bound stream (R160). -/
def Pane.takeHold (p : Pane) : PaneStep :=
  match p.assembly with
  | some _ => { pane := { p with assembly := none }, swaps := 0, patched := 0, discarded := 1 }
  | none => PaneStep.still p

/-- The candidate takes the pane over with its completed picture, and the completion counts as a swap (R158). -/
def Pane.takeOver (p : Pane) (id : StreamId) (a : Assembly) : PaneStep :=
  { pane := { p with
      display := some ((List.range id.cls.bands).map (fun k => (a.band k).getD []))
      bound := some (id, .plain), assembly := none, stale := 0, candidate := none, candidatePicture := none }
    swaps := 1, patched := 0, discarded := 0 }

/-- A PICTURE tile of the candidate (R158). A band 0 whose arrival ends another picture opens the next one (DEDUCED,
unsafe: log 23). A band 0 that opens a picture does so whatever its last flag; one that a picture takes with the last flag
is its last band, whatever the number (DESIGN CHOICE, unsafe: log 78). -/
def Pane.takeCandidateBand (p : Pane) (id : StreamId) (h : TileHeader) (payload : List Byte) : PaneStep :=
  let opened : Option Assembly := if h.band = 0 then some { seq := h.seq, bands := [(0, payload)] } else none
  match p.candidatePicture with
  | none => PaneStep.still { p with candidatePicture := opened }
  | some a =>
    if a.seq = h.seq then
      let a := a.hold h.band payload
      if a.missing id.cls = 0 then p.takeOver id a
      else if h.last then { pane := { p with candidatePicture := none }, swaps := 0, patched := 0, discarded := 1 }
      else PaneStep.still { p with candidatePicture := some a }
    else { pane := { p with candidatePicture := opened }, swaps := 0, patched := 0, discarded := 1 }

/-- A HOLD tile of the candidate (R158). -/
def Pane.takeCandidateHold (p : Pane) : PaneStep :=
  match p.candidatePicture with
  | some _ => { pane := { p with candidatePicture := none }, swaps := 0, patched := 0, discarded := 1 }
  | none => PaneStep.still p

/-- A tile of a stream in the bound-stream set, taken by one pane that listens to it. -/
def Pane.takeTile (p : Pane) (id : StreamId) (h : TileHeader) (payload : List Byte) : PaneStep :=
  if p.candidate = some id then
    (if h.picture then p.takeCandidateBand id h payload else p.takeCandidateHold)
  else if h.picture then p.takeBand id.cls h payload else p.takeHold

/-- Count a pane step in the Composer's counters (R159). -/
def Composer.count (c : Composer) (x : PaneStep) : Composer :=
  { c with swaps := c.swaps + BitVec.ofNat 16 x.swaps, patched := c.patched + BitVec.ofNat 16 x.patched,
           discarded := c.discarded + BitVec.ofNat 16 x.discarded }

/-! ### Refusals and pane states -/

/-- The refusal of a camera and class, if the set holds one (R162). -/
def refusalOf (rs : List Refused) (cam : CamId) (cls : SizeClass) : Option RefusalReason :=
  (rs.find? (fun r => r.cam == cam && r.cls == cls)).map (fun r => r.reason)

/-- The state of a pane, by the first line that applies (R152). -/
def paneStateOf (rs : List Refused) (p : Pane) : PaneState :=
  match p.result with
  | .blank => .blank
  | .unresolved => .unresolved
  | .cam c =>
    if p.bound.isSome then (if p.stale < 80 then .live else .stale)
    else if (refusalOf rs c p.cls).isSome then .denied
    else .waiting

/-- A pane that has just taken a PLAIN binding takes its entry out of the refusal set (R162). -/
def dropServed (rs : List Refused) (ps : List Pane) : List Refused :=
  rs.filter (fun r => !ps.any (fun p => p.result == .cam r.cam && p.cls == r.cls
    && (match p.bound with
        | some (_, .plain) => true
        | _ => false)))

/-! ### The WANT list (R153 to R155) -/

/-- Add a pane's non-carry entry: two that give the same camera and class make one, with the lower floor (R153). -/
def addWant (acc : List WantEntry) (p : Pane) : List WantEntry :=
  match p.result with
  | .cam c =>
    if acc.any (fun e => e.cam == c && e.cls == p.cls) then
      acc.map (fun e =>
        if e.cam == c && e.cls == p.cls && decide (p.floor.rank < e.floor.rank) then { e with floor := p.floor } else e)
    else acc ++ [{ cam := c, cls := p.cls, floor := p.floor, carry := false }]
  | _ => acc

/-- The non-carry entries of the WANT list (R153). -/
def Composer.nonCarry (c : Composer) : List WantEntry := c.panes.foldl addWant []

/-- Does a list give the non-carry entry of a camera and class? -/
def givesWant (es : List WantEntry) (cam : CamId) (cls : SizeClass) : Bool :=
  es.any (fun e => !e.carry && e.cam == cam && e.cls == cls)

/-- Is a carry entry still wanted (R154)? Its age is judged by CARRY_ENTRY_EXPIRY. -/
def Composer.keepsCarry (c : Composer) (e : CarryEntry) : Bool :=
  let showing := (c.screen e.side).panes.filter (fun p => p.result == .cam e.cam)
  !showing.isEmpty
    && !showing.all (fun p =>
      match p.bound with
      | some (b, .plain) => b.cls == p.cls
      | _ => false)
    && !givesWant c.nonCarry e.cam e.cls

/-- Add a carry entry to the WANT list, one for each distinct camera and class (R153). -/
def addCarry (acc : List WantEntry) (e : CarryEntry) : List WantEntry :=
  if acc.any (fun w => w.carry && w.cam == e.cam && w.cls == e.cls) then acc
  else acc ++ [{ cam := e.cam, cls := e.cls, floor := e.cls, carry := true }]

/-- The WANT list (R153). -/
def Composer.buildWant (c : Composer) : List WantEntry := c.carry.foldl addCarry c.nonCarry

/-- Bring the carry entries, the WANT list, the refusal set and the pane states up to date after a change of panes,
bindings, results or refusals; a changed list offers a WANT (R152 to R155, R162). -/
def settlePanes (s : State) : State :=
  if s.isActive then
    let carry := s.comp.carry.filter s.comp.keepsCarry
    let list := { s.comp with carry := carry }.buildWant
    let rs := s.comp.refusals.filter (fun r => givesWant list r.cam r.cls)
    let comp := { s.comp with carry := carry, wantList := list, refusals := rs }
    let s' := s.setComp (comp.mapPanes (fun p => { p with state := paneStateOf rs p }))
    if list = s.comp.wantList then s' else offer .want .plain s'
  else s

/-! ### Making panes (R151, R157) -/

/-- A pane with no bound stream. -/
def freshPane (cls floor : SizeClass) (sel : Selector) (r : PaneResult) : Pane where
  cls := cls
  floor := floor
  selector := sel
  result := r
  bound := none
  candidate := none
  assembly := none
  candidatePicture := none
  display := none
  stale := 0
  state := paneStateOf [] { cls := cls, floor := floor, selector := sel, result := r, bound := none, candidate := none,
                            assembly := none, candidatePicture := none, display := none, stale := 0, state := .blank }

/-- Can a pane be a donor for another: it shows the camera with a stream bound PLAIN or CARRIED (R157)? -/
def Pane.donates (d p : Pane) : Bool :=
  d.result == p.result
    && (match d.bound with
        | some (_, mark) => mark != .ended
        | none => false)

/-- Does donor x's bound stream rank above donor y's for a pane: an eligible one first, then by R156? Streams that are not
eligible are ranked by class and stream number too (DESIGN CHOICE, unsafe: log 59). -/
def Pane.prefers (p x y : Pane) : Bool :=
  match x.bound, y.bound with
  | some (a, _), some (b, _) => if p.accepts a = p.accepts b then a.above b else p.accepts a
  | some _, none => true
  | none, _ => false

/-- The donor whose bound stream ranks best for a pane. Of two with the same stream the first gives what it holds (DESIGN
CHOICE, unsafe: log 60). -/
def Pane.bestDonor (p : Pane) : List Pane → Option Pane
  | [] => none
  | d :: ds =>
    match p.bestDonor ds with
    | none => some d
    | some e => some (if p.prefers e d then e else d)

/-- A new pane takes the bound stream, the assembly picture, the display picture and the stale count of its best donor
(R157). -/
def Pane.inherit (p : Pane) (donors : List Pane) : Pane :=
  match p.result with
  | .cam _ =>
    match p.bestDonor (donors.filter (fun d => d.donates p)) with
    | some d =>
      match d.bound with
      | some (b, _) =>
        { p with bound := some (b, if p.accepts b then .plain else .carried), assembly := d.assembly,
                 display := d.display, stale := d.stale }
      | none => p
    | none => p
  | _ => p

/-- Class, floor and selector of each pane of a layout (R134, R137). The pane of the blank layout has floor FULL (DESIGN
CHOICE, safe: log 57). -/
def State.layoutPanes (s : State) : ShownLayout → List (SizeClass × SizeClass × Selector)
  | .index i =>
    match s.cfg.layouts[i] with
    | some l => (l.grid.classes.zip l.panes).map (fun x => (x.1, x.2.floor, x.2.selector))
    | none => []
  | .spotlight => [(.full, .quarter, .blank)]
  | .blank => [(.full, .full, .blank)]

/-- The result of the spotlight pane: the exterior camera of the screen's spotlight door (R137); a door whose
descriptor is gone, as during a linger, leaves the result as it stood (DESIGN CHOICE, unsafe: log 73). -/
def State.spotResult (s : State) (side : Side) (was : PaneResult) : PaneResult :=
  match (s.screen side).spotDoor with
  | some d => if (s.doorDesc d).isSome then resultOf (s.exteriorCam d) else was
  | none => was

/-- The carry entries that a layout switch of a screen makes from its old panes (R154). -/
def switchCarry (side : Side) (removed : List CarryEntry) (newPanes otherPanes : List Pane) (acc : List CarryEntry)
    (old : Pane) : List CarryEntry :=
  match old.bound with
  | some (b, mark) =>
    let cam : CamId := { addr := b.addr, input := b.input }
    if mark ≠ .ended ∧ newPanes.any (fun p => p.result == .cam cam)
        ∧ ¬ (newPanes ++ otherPanes).any (fun p => p.result == .cam cam && p.cls == b.cls)
        ∧ ¬ acc.any (fun e => e.side == side && e.cam == cam && e.cls == b.cls) then
      let age := match removed.find? (fun e => e.cam == cam && e.cls == b.cls) with
        | some e => e.age
        | none => 0
      acc ++ [{ cam := cam, cls := b.cls, side := side, age := age }]
    else acc
  | none => acc

/-- A layout switch of a screen: the panes are made anew, and the carry entries with them (R145, R151, R154, R157). -/
def layoutSwitch (side : Side) (lay : ShownLayout) (s : State) : State :=
  let scr := s.screen side
  let others := (s.screen side.other).panes
  let fresh := (s.layoutPanes lay).map (fun x =>
    let r := if lay = .spotlight then s.spotResult side .unresolved else s.resolve side x.2.2
    (freshPane x.1 x.2.1 x.2.2 r).inherit (scr.panes ++ others))
  let removed := s.comp.carry.filter (fun e => e.side == side)
  let kept := s.comp.carry.filter (fun e => e.side != side)
  let carry := scr.panes.foldl (switchCarry side removed fresh others) kept
  let comp := { s.comp with carry := carry, refusals := dropServed s.comp.refusals fresh }
  let s := s.setComp (comp.setScreen side { scr with layout := some lay, panes := fresh })
  settlePanes (judgePanes s)

/-- Make a layout the shown layout of a screen; the same layout again is not a switch (R145). -/
def showLayout (side : Side) (lay : ShownLayout) (s : State) : State :=
  if (s.screen side).layout = some lay then s else layoutSwitch side lay s

/-- The result that Cab Control or the Composer now finds for a pane (R133, R137). -/
def State.paneResult (s : State) (side : Side) (p : Pane) : PaneResult :=
  if (s.screen side).layout = some .spotlight then s.spotResult side p.result else s.resolve side p.selector

/-- A pane whose result has changed starts anew with the donors that stood before (R151, R157). -/
def State.reresolvePane (s : State) (side : Side) (donors : List Pane) (p : Pane) : Pane :=
  let r := s.paneResult side p
  if r = p.result then p else (freshPane p.cls p.floor p.selector r).inherit donors

/-- Take every pane result again and act on those that changed (R133, R151). -/
def reresolve (s : State) : State :=
  if s.isActive then
    let donors := s.comp.panes
    let l := s.comp.left.panes.map (s.reresolvePane .left donors)
    let r := s.comp.right.panes.map (s.reresolvePane .right donors)
    let changed := ((s.comp.left.panes.zip l) ++ (s.comp.right.panes.zip r)).filterMap (fun x =>
      if x.1.result = x.2.result then none else some x.2)
    s.setComp { s.comp with
      left := { s.comp.left with panes := l }, right := { s.comp.right with panes := r },
      refusals := dropServed s.comp.refusals changed }
  else s

/-- A tile passed by the receive filter, taken by each pane to which its stream is bound or whose candidate it is (R158 to
R160). -/
def takePaneTile (id : StreamId) (h : TileHeader) (payload : List Byte) (comp : Composer)
    (available : List StreamId) : List Pane → Composer × List Pane
  | [] => (comp, [])
  | p :: ps =>
    if p.listens id then
      let x := p.takeTile id h payload
      let took := x.pane.bound != p.bound
      let pane := if took then x.pane.judge available else x.pane
      let comp := comp.count x
      let comp := if took then { comp with refusals := dropServed comp.refusals [pane] } else comp
      let rest := takePaneTile id h payload comp available ps
      (rest.1, pane :: rest.2)
    else
      let rest := takePaneTile id h payload comp available ps
      (rest.1, p :: rest.2)

/-- The stream that a tile's header names (R156). -/
def TileHeader.streamId (h : TileHeader) : StreamId := { addr := h.addr, num := h.stream, input := h.input, cls := h.cls }

/-- The Composer takes an intact tile whose stream the receive filter passes (R20). -/
def composerTile (f : TileFilter) (h : TileHeader) (payload : List Byte) (s : State) : State :=
  let id := h.streamId
  if s.isActive && f.streams.contains id then
    let available := availableStreams s.tables.slots
    let l := takePaneTile id h payload s.comp available s.comp.left.panes
    let r := takePaneTile id h payload l.1 available s.comp.right.panes
    let comp := { r.1 with left := { r.1.left with panes := l.2 }, right := { r.1.right with panes := r.2 } }
    settlePanes (s.setComp comp)
  else s

end Sys2Proof.Machine
end

