-- ==== Sys2Proof/Machine/Views.lean ====
section
/-! DEFINITION. View requests (chapter 9): effective masks, screen layouts, the request lists with raising, clearing and
lingering, the spotlight queue, the driver keys, and what entering and leaving ACTIVE does to the Composer. -/
namespace Sys2Proof.Machine

/-! ### Layouts (R135 to R137) -/

/-- Is kind k in the effective mask of kind j (R136)? -/
def preempts (t : ViewTable) (j k : ViewKind) : Bool :=
  (t.get j).mask.getLsbD k.code && decide ((t.get k).rank < (t.get j).rank)

/-- The layout index of a layouts byte for a screen: LEFT in the upper four bits (R179). -/
def layoutIndex (side : Side) (b : Byte) : Fin 16 :=
  match side with
  | .left => ⟨b.toNat / 16, by have := b.isLt; omega⟩
  | .right => ⟨b.toNat % 16, by omega⟩

/-- Is a layout entry allowed on a screen (R135)? -/
def State.allowedOn (s : State) (side : Side) (i : Fin 16) : Bool :=
  match s.cfg.layouts[i] with
  | some l => (match side with | .left => l.onLeft | .right => l.onRight)
  | none => false

/-- Is a layout entry selectable and allowed on a screen (R150)? -/
def State.selectableOn (s : State) (side : Side) (i : Fin 16) : Bool :=
  s.allowedOn side i && (match s.cfg.layouts[i] with | some l => l.selectable | none => false)

/-- The DRIVER layout set on entering ACTIVE (R137). -/
def State.firstDriverLayout (s : State) (side : Side) : ShownLayout :=
  let i := layoutIndex side s.cfg.views.driver.layouts
  if s.allowedOn side i then .index i
  else
    match allAddrs.find? (s.selectableOn side) with
    | some j => .index j
    | none => .blank

/-- The layout that a kind shows on a screen (R137). -/
def State.screenLayout (s : State) (side : Side) (k : ViewKind) : ShownLayout :=
  match k with
  | .spotlight => .spotlight
  | .driver => (s.screen side).driverLayout
  | _ =>
    let i := layoutIndex side (s.cfg.views.get k).layouts
    if s.allowedOn side i then .index i else (s.screen side).driverLayout

/-! ### Conditions (R140, R141, R147) -/

/-- The first door of the spotlight queue on a side (R147). -/
def State.spotDoorOn (s : State) (side : Side) : Option DoorId :=
  (s.comp.spotlight.find? (fun d => (s.doorSide d.door).isOn side)).map (fun d => d.door)

/-- Does the condition of a kind hold for a screen (R140, R141, R147)? DRIVER stands while ACTIVE (R143). -/
def State.viewHolds (s : State) (side : Side) : ViewKind → Bool
  | .spotlight => (s.spotDoorOn side).isSome
  | .closing => (s.doorsOn side).any (fun d => d.phase == .closing || d.phase == .fault)
  | .release => (s.doorsOn side).any (fun d => d.phase == .released || d.phase == .opened)
  | .reverse => s.cab.reverse.accepted && s.cfg.views.choice.names side
  | .driver => true

/-! ### Raising, clearing, lingering (R142 to R144) -/

/-- Does a list hold an entry of a kind? -/
def listHolds (l : List Request) (k : ViewKind) : Bool := l.any (fun e => e.kind == k)

/-- The SHOWN kind of a list (R138). -/
def shownKind (l : List Request) : Option ViewKind := (l.find? (fun e => e.shown)).map (fun e => e.kind)

/-- Put an entry into a list in its place by rank, WAITING (R138, R142). -/
def placeKind (t : ViewTable) (k : ViewKind) (l : List Request) : List Request :=
  insertBy (fun a b => decide ((t.get a.kind).rank < (t.get b.kind).rank)) { kind := k, shown := false } l

/-- Make the entry of a kind SHOWN and the others WAITING; a linger ends; the shown layout becomes the kind's screen
layout, and the spotlight door is the first of the queue on the side (R142, R144, R147). The linger timer, which R144 only
stops, then holds 0 (DESIGN CHOICE, unsafe: log 83). -/
def showKind (side : Side) (k : ViewKind) (s : State) : State :=
  let scr := s.screen side
  let scr' := { scr with
    list := scr.list.map (fun e => { e with shown := e.kind == k })
    linger := none, lingerTimer := 0, spotDoor := s.spotDoorOn side }
  showLayout side (s.screenLayout side k) (s.setScreen side scr')

/-- Raise a kind on a screen; a kind already in the list is refreshed, which changes nothing (R140, R142). -/
def raise (side : Side) (k : ViewKind) (s : State) : State :=
  let scr := s.screen side
  if listHolds scr.list k then s
  else
    let s' := s.setScreen side { scr with list := placeKind s.cfg.views k scr.list }
    match shownKind scr.list with
    | some j => if preempts s.cfg.views j k then showKind side k s' else s'
    | none =>
      match scr.linger with
      | some j => if j = k ∨ preempts s.cfg.views j k = true then showKind side k s' else s'
      | none => s'

/-- The linger of a screen ends by its expiry: the best-ranked entry becomes SHOWN (R144); the stopped timer holds 0
(DESIGN CHOICE, unsafe: log 83). -/
def lingerEnd (side : Side) (s : State) : State :=
  match (s.screen side).list with
  | e :: _ => showKind side e.kind s
  | [] => s.setScreen side { s.screen side with linger := none, lingerTimer := 0 }

/-- Clear a kind on a screen: a SHOWN entry leaves a linger behind, which ends at once at 0 s (R143). SPOTLIGHT cleared while
WAITING leaves the screen without a spotlight door (DESIGN CHOICE, unsafe: log 58). -/
def clear (side : Side) (k : ViewKind) (s : State) : State :=
  let scr := s.screen side
  if listHolds scr.list k then
    let list := scr.list.filter (fun e => e.kind != k)
    if shownKind scr.list = some k then
      let secs := (s.cfg.views.get k).linger
      let s' := s.setScreen side { scr with list := list, linger := some k, lingerTimer := 1000000 * secs }
      if secs = 0 then lingerEnd side s' else s'
    else
      s.setScreen side { scr with list := list, spotDoor := if k = .spotlight then none else scr.spotDoor }
  else s

/-- The kinds that are raised and cleared, in the order in which one event raises and clears them (DESIGN CHOICE,
unsafe: log 20). -/
def judgedKinds : List ViewKind := [.spotlight, .closing, .release, .reverse]

/-- The spotlight door follows the queue while the condition holds (R147). -/
def followSpotDoor (side : Side) (s : State) : State :=
  match s.spotDoorOn side with
  | some d => s.setScreen side { s.screen side with spotDoor := some d }
  | none => s

/-- Judge every condition of a screen again: raises, then clears (R140, R141, R147; log 20). -/
def judgeSide (side : Side) (s : State) : State :=
  let s := followSpotDoor side s
  let s := judgedKinds.foldl (fun t k => if t.viewHolds side k then raise side k t else t) s
  judgedKinds.foldl (fun t k => if t.viewHolds side k then t else clear side k t) s

/-- Judge both screens (R140). -/
def judgeViews (s : State) : State := judgeSide .right (judgeSide .left s)

/-- Bring views and panes up to date after a change that the Composer judges while ACTIVE: the layout switches first, then
the changed results (DESIGN CHOICE, unsafe: log 63), then the bound streams against the copy, so that a switch makes its carry
entries from a stream that the same event has taken out of it (R30, R154; DESIGN CHOICE, unsafe: log 77). -/
def settleViews (s : State) : State :=
  if s.isActive then settlePanes (judgePanes (reresolve (judgeViews s))) else s

/-! ### The spotlight queue (R146, R147) -/

/-- The phase of a door in a door table. -/
def phaseIn (ds : List DoorEntry) (id : DoorId) : Option DoorPhase :=
  (ds.find? (fun d => d.id == id)).map (fun d => d.phase)

/-- A door joins the queue, or counts an overflow (R146). -/
def spotJoin (c : Composer) (id : DoorId) : Composer :=
  if c.spotlight.any (fun d => d.door == id) then c
  else if c.spotlight.length < 8 then { c with spotlight := c.spotlight ++ [{ door := id, acked := false }] }
  else { c with spotlightOverflows := bump c.spotlightOverflows }

/-- Does a door stay in the queue over a change of the door table (R147)? -/
def spotStays (old new : List DoorEntry) (d : SpotDoor) : Bool :=
  match phaseIn new d.door with
  | none => false
  | some p => !(d.acked && phaseIn old d.door == some .obstructed && p != .obstructed)

/-- The doors that become OBSTRUCTED over a change of the door table (R146). -/
def becomeObstructed (old new : List DoorEntry) : List DoorId :=
  (new.filter (fun d => d.phase == .obstructed && phaseIn old d.id != some .obstructed)).map (fun d => d.id)

/-- The spotlight queue over a change of the door table (R146, R147). Several door changes of one frame, GONE or removal are
taken together: the doors that leave go first, and then those that become OBSTRUCTED join in the order of door ids
(R93, R146; DESIGN CHOICE, unsafe: log 49). -/
def spotlightChange (old new : List DoorEntry) (c : Composer) : Composer :=
  (becomeObstructed old new).foldl spotJoin { c with spotlight := c.spotlight.filter (spotStays old new) }

/-! ### Entering and leaving ACTIVE (R139, R151, R155, R166) -/

/-- A screen's list on entering ACTIVE: DRIVER and every kind whose condition holds, the best-ranked SHOWN (R139). -/
def State.firstList (s : State) (side : Side) : List Request :=
  let l := (ViewKind.all.filter (s.viewHolds side)).foldl (fun l k => placeKind s.cfg.views k l) []
  match l with
  | [] => []
  | e :: rest => { e with shown := true } :: rest

/-- Fill one screen on entering ACTIVE (R139). -/
def enterScreen (side : Side) (s : State) : State :=
  let scr := { Screen.reset with
    list := s.firstList side, driverLayout := s.firstDriverLayout side, spotDoor := s.spotDoorOn side }
  let s := s.setScreen side scr
  match s.firstList side with
  | e :: _ => showLayout side (s.screenLayout side e.kind) s
  | [] => s

/-- The Composer on entering ACTIVE (R139, R155). -/
def enterActive (s : State) : State :=
  let doors := (s.doorsByNearness (s.tables.doors.filter (fun d => d.phase == .obstructed))).map (fun d => d.id)
  let comp := doors.foldl spotJoin { s.comp with spotlight := [], wantRefresh := 0 }
  settlePanes (enterScreen .right (enterScreen .left (s.setComp comp)))

/-- The Composer on leaving ACTIVE (R139, R151, R154, R162, R166); counters and warning list stay. The WANT list emptied
here offers no WANT (DESIGN CHOICE, unsafe: log 62), the stopped WANT refresh count holds 0 (DESIGN CHOICE, safe:
log 54), and so do the stopped linger timers (DESIGN CHOICE, unsafe: log 83). -/
def leaveActive (s : State) : State :=
  s.setComp { s.comp with left := Screen.reset, right := Screen.reset, spotlight := [], carry := [], wantList := [],
                          wantRefresh := 0, refusals := [] }

/-! ### The driver keys (R149, R150) -/

/-- Does a screen have SPOTLIGHT SHOWN with a door as its spotlight door (R149)? -/
def Screen.spots (scr : Screen) (id : DoorId) : Bool :=
  shownKind scr.list == some .spotlight && scr.spotDoor == some id

/-- The door that a press of ACK acts on (R149). -/
def Composer.ackDoor (c : Composer) : Option SpotDoor :=
  c.spotlight.find? (fun d => c.left.spots d.door || c.right.spots d.door)

/-- A press of ACK (R149). -/
def ackPress (s : State) : State :=
  if s.isActive then
    match s.comp.ackDoor with
    | none => s
    | some d =>
      if phaseIn s.tables.doors d.door = some .obstructed then
        s.setComp { s.comp with
          spotlight := s.comp.spotlight.map (fun x => if x.door == d.door then { x with acked := true } else x) }
      else settleViews (s.setComp { s.comp with spotlight := s.comp.spotlight.filter (fun x => x.door != d.door) })
  else s

/-- The layout indexes after one, in table order, wrapping from 15 to 0, the one itself last (R150). -/
def indexesAfter (i : Fin 16) : List (Fin 16) :=
  allAddrs.filter (fun j => decide (i < j)) ++ allAddrs.filter (fun j => decide (j ≤ i))

/-- The DRIVER layout that a NEXT press steps to (R150). -/
def State.nextDriverLayout (s : State) (side : Side) : Option ShownLayout :=
  let search := match (s.screen side).driverLayout with
    | .index i => (indexesAfter i).filter (fun j => j != i)
    | _ => allAddrs
  (search.find? (s.selectableOn side)).map ShownLayout.index

/-- A press of NEXT_L or NEXT_R (R150). -/
def nextPress (side : Side) (s : State) : State :=
  if s.isActive && shownKind (s.screen side).list == some .driver then
    match s.nextDriverLayout side with
    | none => s
    | some lay => showLayout side lay (s.setScreen side { s.screen side with driverLayout := lay })
  else s

/-! ### The warning list and the indication lines (R164, R165) -/

/-- The warnings of one grade, by camera id (R164). -/
def State.warningsOf (s : State) (g : Grade) : List Warning :=
  (sortBy CamId.before ((s.cameras.filter (fun p => p.2.2.grade == g)).map (fun p => p.1))).map
    (fun c => { cam := c, grade := g })

/-- The warning list: OBSCURED, then SOILED (R164). -/
def State.warningList (s : State) : List Warning :=
  if s.isCab then s.warningsOf .obscured ++ s.warningsOf .soiled else []

/-- Bring the warning list up to date (R164). -/
def settleWarnings (s : State) : State := s.setComp { s.comp with warnings := s.warningList }

/-- Is a camera the result of a LIVE pane of a screen, graded CLEAN or WATCH (R165)? -/
def State.viewed (s : State) (side : Side) (c : CamId) : Bool :=
  (s.screen side).panes.any (fun p => p.result == .cam c && p.state == .live)
    && (match s.camDesc c with
        | some d => d.grade == .clean || d.grade == .watch
        | none => false)

/-- Does a door leave VIEW_OK standing (R165)? -/
def State.doorViewOk (s : State) (side : Side) (d : DoorEntry) : Bool :=
  match d.phase with
  | .unknown => false
  | .fault => false
  | .locked => true
  | .released => true
  | _ =>
    match s.exteriorCam d.id with
    | some c => s.viewed side c
    | none => false

/-- The VIEW_OK line of a side (R165). -/
def State.viewOk (s : State) (side : Side) : Bool := s.isActive && (s.doorsOn side).all (s.doorViewOk side)

end Sys2Proof.Machine
end

