-- ==== Sys2Proof/Machine/Display.lean ====
section
/-! DEFINITION. What the screens show of a layout: the image of each pane (R152), the marks drawn over it (R163), the warning
strip (R164), and which screen output shows which side (R166, R179). -/
namespace Sys2Proof.Machine

/-- The mark of a grade: CLEAN has none (R163). -/
def gradeMark (g : Grade) : Option Grade := if g = .clean then none else some g

/-- The camera descriptor of the camera that a pane shows (R163). -/
def State.paneCam (s : State) (p : Pane) : Option CamDesc :=
  match p.result with
  | .cam c => s.camDesc c
  | _ => none

/-- The display picture at the pane's size: the picture itself where the stream has the pane's class, else scaled
(R152; log 47). -/
def Pane.shownPicture (p : Pane) : List (List Byte) :=
  match p.bound, p.display with
  | some (b, _), some d => if b.cls = p.cls then d else Config.paneScaled b.cls p.cls d
  | _, _ => []

/-- The reason for which a pane is DENIED (R152, R162). -/
def Pane.refusal (p : Pane) (rs : List Refused) : Option RefusalReason :=
  match p.result with
  | .cam c => refusalOf rs c p.cls
  | _ => none

/-- What a pane shows, by its state (R152). -/
def Pane.image (p : Pane) (rs : List Refused) : PaneImage :=
  match p.state with
  | .blank => .empty
  | .unresolved => .noCamera
  | .live => .picture p.shownPicture false
  | .stale => .picture p.shownPicture true
  | .denied =>
    match p.refusal rs with
    | some r => .notAvailable r
    | none => .waiting
  | .waiting => .waiting

/-- A pane as its screen shows it, with its camera's marks (R152, R163). -/
def State.paneView (s : State) (p : Pane) : PaneView where
  cls := p.cls
  image := p.image s.comp.refusals
  mark := (s.paneCam p).bind (fun d => gradeMark d.grade)
  hold := (s.paneCam p).any (fun d => d.held)

/-- The warning strip: the first 6 cameras of the warning list, and the count of the others (R164). -/
def State.strip (s : State) : Strip where
  shown := s.comp.warnings.take 6
  others := s.comp.warnings.length - 6

/-- What the screen of a side shows of its layout (R152, R163, R164). -/
def State.screenView (s : State) (side : Side) : ScreenView where
  panes := (s.screen side).panes.map s.paneView
  strip := s.strip

end Sys2Proof.Machine
end

