-- ==== Sys2Proof/Machine/Scaler.lean ====
section
/-! DEFINITION. The scaler of the Camera Intake (R71): a whole frame to the picture of a class, and the bands of a
picture as tile payloads. -/
namespace Sys2Proof.Machine

/-- The luma of a pixel, its upper 8 bits (R99). -/
def luma (p : Pixel) : Nat := (hiByte p).toNat

/-- The average of the 16-bit pixels of an area, rounded down or up as a free value says where it is not whole (R71;
log 25). -/
def averagePixel (ps : List Pixel) : Pixel :=
  let sum := sumNat (ps.map BitVec.toNat)
  let up := sum % ps.length != 0 && Config.roundPixelUp ps
  BitVec.ofNat 16 (if up then sum / ps.length + 1 else sum / ps.length)

/-- The elements from one place up to another. -/
def slice {α : Type} (lo hi : Nat) (xs : List α) : List α := (xs.drop lo).take (hi - lo)

/-- Where the area of picture place k of n begins in m places of the frame (R71; log 25). -/
def areaStart (k n m : Nat) : Nat := k * m / n

/-- One line of a picture from the frame lines that fall into it. -/
def scaleLine (rows : FrameLines) (width pixels : Nat) : List Pixel :=
  (List.range width).map (fun x =>
    averagePixel ((rows.map (slice (areaStart x width pixels) (areaStart (x + 1) width pixels))).flatten))

/-- The picture of a class from a whole frame (R71). -/
def scaleFrame (cls : SizeClass) (lines pixels : Nat) (frame : FrameLines) : FrameLines :=
  (List.range cls.height).map (fun y =>
    scaleLine (slice (areaStart y cls.height lines) (areaStart (y + 1) cls.height lines) frame) cls.width pixels)

/-- Band b of a picture as the bytes of a payload: its lines from the top, each from left to right, two bytes a pixel
(R71, R178). -/
def bandBytes (cls : SizeClass) (picture : FrameLines) (b : Nat) : List Byte :=
  ((slice (b * cls.bandLines) ((b + 1) * cls.bandLines) picture).map (fun l => (l.map wordBytes).flatten)).flatten

end Sys2Proof.Machine
end

