-- ==== Sys2Proof/Machine/Streams.lean ====
section
/-! DEFINITION. The Stream Engine (chapter 3): demand in service order, evaluation, claiming with merge, fit and
step-down, upgrades, refusals, holding, draining, lost slots, and the tiles it supplies (chapter 4). -/
namespace Sys2Proof.Machine

/-! ### Demand (R49) -/

/-- A demand entry: the want-table position that holds it, the camera input it names, and the entry. -/
structure Demand where
  pos : WantPos
  input : Input
  entry : WantEntry
deriving DecidableEq, Repr

/-- The occupied records of the want table by ascending sender address (R49). -/
def State.wantRecords (s : State) : List (WantPos × WantRecord) :=
  sortBy (fun x y => decide (x.2.sender.val < y.2.sender.val))
    (allPositions.filterMap (fun p => (s.tables.wants[p]).map (fun r => (p, r))))

/-- The demand entries that carry or do not carry, record by record, in list order (R49). -/
def State.demandOf (s : State) (carry : Bool) : List Demand :=
  (s.wantRecords.map (fun x =>
    (x.2.list.filter (fun e => e.carry == carry && e.cam.addr == s.addr)).map (fun e =>
      ({ pos := x.1, input := e.cam.input, entry := e } : Demand)))).flatten

/-- The demand of the station in service order (R49). -/
def State.demand (s : State) : List Demand := s.demandOf false ++ s.demandOf true

/-! ### Serving (R50) -/

/-- Can a stream in this state serve at all (R50)? -/
def StreamState.serves : StreamState → Bool
  | .draining .holdLimit => false
  | .draining .lost => false
  | _ => true

/-- Is a demand entry eligible for a stream (R50)? -/
def Demand.eligible (d : Demand) (x : Stream) : Bool :=
  x.input == d.input && x.state.serves
    && (x.cls == d.entry.cls
        || (decide (x.cls.rank < d.entry.cls.rank) && decide (d.entry.floor.rank ≤ x.cls.rank)
            && decide (d.entry.cls.rank ≤ x.wanted.rank)))

/-- The stream table. -/
abbrev StreamTable := Vector (Option Stream) 6

/-- The streams of a table with their numbers, lowest first. -/
def streamList (t : StreamTable) : List (StreamNo × Stream) :=
  allStreams.filterMap (fun n => (t[n]).map (fun x => (n, x)))

/-- The number of streams in a table (R58). -/
def streamCount (t : StreamTable) : Nat := (streamList t).length

/-- The preference among eligible streams (R50): those that stand before those in CLAIMING, class C before a lower one,
the higher class first, of class C one that does not drain before one that does, then the lower number
(DESIGN CHOICE, unsafe: log 18). -/
def Demand.serveKey (d : Demand) (p : StreamNo × Stream) : List Nat :=
  let exact := if p.2.cls = d.entry.cls then 0 else 1
  match p.2.state with
  | .claiming => [1, exact, 0, 0, p.1.val]
  | .draining _ => [0, exact, 2 - p.2.cls.rank, 1 - exact, p.1.val]
  | _ => [0, exact, 2 - p.2.cls.rank, 0, p.1.val]

/-- The stream that serves a demand entry (R50). -/
def Demand.servedBy (d : Demand) (t : StreamTable) : Option StreamNo :=
  match sortBy (fun x y => keyBefore (d.serveKey x) (d.serveKey y)) ((streamList t).filter (fun p => d.eligible p.2)) with
  | [] => none
  | p :: _ => some p.1

/-- Is some demand entry eligible for a stream? -/
def anyEligible (ds : List Demand) (x : Stream) : Bool := ds.any (fun d => d.eligible x)

/-- The demand entries that a stream serves. -/
def servedEntries (ds : List Demand) (t : StreamTable) (n : StreamNo) : List Demand :=
  ds.filter (fun d => d.servedBy t == some n)

/-! ### Offers and withdrawals of an evaluation -/

/-- What an evaluation does to the outbound control queue (R49). -/
inductive QueueOp where
  | offer (sub : Subject) (k : SendKind)
  | withdraw (sub : Subject)
deriving DecidableEq, Repr

/-- Take one queue operation. -/
def applyQueueOp (s : State) : QueueOp → State
  | .offer sub k => offer sub k s
  | .withdraw sub => withdraw sub s

/-- Take queue operations in order. -/
def applyQueueOps (ops : List QueueOp) (s : State) : State := ops.foldl applyQueueOp s

/-! ### One evaluation (R49 to R53, R56, R57) -/

/-- What one evaluation works on and leaves behind. -/
structure Eval where
  table : StreamTable
  refusals : Vector (List Refused) 4
  ops : List QueueOp
deriving DecidableEq, Repr

/-- The lowest stream number not in use. -/
def unusedNumber (t : StreamTable) : Option StreamNo := allStreams.find? (fun n => (t[n]).isNone)

/-- A stream as it is made (R51, R56); its sequence number, next band and hold count in CLAIMING are not stated (R58; DESIGN
CHOICE, safe: log 68). -/
def newStream (input : Input) (cls floor : SizeClass) (upgrade : Bool) : Stream where
  state := .claiming
  input := input
  cls := cls
  wanted := cls
  floor := floor
  short := false
  upgrade := upgrade
  holdCount := 0
  seq := 0xFF#8
  nextBand := 0
  picture := none

/-- Refuse a demand entry: a non-carry entry goes to the list of its position (R51). -/
def Eval.refuse (v : Eval) (d : Demand) (r : RefusalReason) : Eval :=
  if d.entry.carry then v
  else { v with refusals := v.refusals.set d.pos (v.refusals[d.pos]
    ++ [{ cam := d.entry.cam, cls := d.entry.cls, reason := r }]) }

/-- One demand entry: served, refused, or given a new stream (R50, R51). `held` is the refusal lists as they stood. -/
def Eval.take (held : Vector (List Refused) 4) (live : Input → Bool) (v : Eval) (d : Demand) : Eval :=
  if (d.servedBy v.table).isSome then v
  else if !d.entry.carry && refusalOf held[d.pos] d.entry.cam d.entry.cls == some .noSlots then v.refuse d .noSlots
  else if !live d.input then v.refuse d .cameraDown
  else
    match unusedNumber v.table with
    | none => v.refuse d .noStream
    | some n => { v with
        table := v.table.set n (some (newStream d.input d.entry.cls d.entry.floor false))
        ops := v.ops ++ [.offer (.stream n) .claim] }

/-- A stream that enters LIVE or HOLDING as its input stands, with no picture open, and so with next band 0 (R52, R72; DESIGN
CHOICE, safe: log 68). -/
def Stream.resume (x : Stream) (live : Bool) : Stream :=
  { x with state := if live then .live else .holding, holdCount := 0, nextBand := 0, picture := none }

/-- A stream that drains; a picture it had open is abandoned (R52, R74), and the next band, which nothing reads then, is 0
(DESIGN CHOICE, safe: log 68). -/
def Stream.drain (x : Stream) (c : DrainCause) : Stream :=
  { x with state := .draining c, holdCount := 0, nextBand := 0, picture := none }

/-- The end of an evaluation for one stream whose frame is not on the line (R52). `ds` is the demand, `t` the table
that says which stream serves. -/
def Eval.settleStream (ds : List Demand) (t : StreamTable) (live : Input → Bool) (v : Eval) (n : StreamNo) : Eval :=
  match v.table[n] with
  | none => v
  | some x =>
    match x.state with
    | .claiming =>
      if anyEligible ds x then v
      else { v with table := v.table.set n none, ops := v.ops ++ [.withdraw (.stream n)] }
    | .draining .noDemand =>
      if (servedEntries ds t n).isEmpty then v
      else { v with table := v.table.set n (some (x.resume (live x.input))), ops := v.ops ++ [.withdraw (.stream n)] }
    | .draining _ => v
    | _ =>
      if (servedEntries ds t n).isEmpty then
        { v with table := v.table.set n (some (x.drain .noDemand)), ops := v.ops ++ [.offer (.stream n) .release] }
      else v

/-- The wanted class and short flag of one stream at the end of an evaluation (R53). -/
def Eval.settleWanted (ds : List Demand) (t : StreamTable) (v : Eval) (n : StreamNo) : Eval :=
  match v.table[n] with
  | none => v
  | some x =>
    if x.state = .claiming then v
    else
      let w := (servedEntries ds t n).foldl (fun c d => c.max d.entry.cls) x.cls
      { v with table := v.table.set n (some { x with wanted := w, short := decide (x.cls.rank < w.rank) }) }

/-- Does a stream of the camera and class stand that does not drain (R51: never two)? -/
def standsAt (t : StreamTable) (input : Input) (cls : SizeClass) : Bool :=
  (streamList t).any (fun p => p.2.input == input && p.2.cls == cls
    && (match p.2.state with
        | .draining _ => false
        | _ => true))

/-- Can a stream be upgraded (R56)? That no second stream of the camera and class may stand is the law of R51 (log 36). -/
def upgradable (t : StreamTable) (free : Nat) (p : StreamNo × Stream) : Bool :=
  p.2.state == .live && p.2.short && decide (p.2.wanted.need ≤ free) && decide (streamCount t < 6)
    && !standsAt t p.2.input p.2.wanted

/-- Look for an upgrade (R56). -/
def Eval.seekUpgrade (free : Nat) (v : Eval) : Eval :=
  if (streamList v.table).any (fun p => p.2.upgrade && p.2.state == .claiming) then v
  else
    match (streamList v.table).find? (upgradable v.table free), unusedNumber v.table with
    | some p, some n => { v with
        table := v.table.set n (some (newStream p.2.input p.2.wanted p.2.wanted true))
        ops := v.ops ++ [.offer (.stream n) .claim] }
    | _, _ => v

/-- Does an entry join a refusal list or change its reason (R57)? -/
def refusalJoins (old new : List Refused) : Bool :=
  new.any (fun r => refusalOf old r.cam r.cls != some r.reason)

/-- The DENY offers at the end of an evaluation (R57). -/
def denyOps (applied : Option WantPos) (old new : Vector (List Refused) 4) : List QueueOp :=
  (allPositions.filter (fun p =>
    (applied == some p && !(new[p]).isEmpty) || refusalJoins old[p] new[p])).map (fun p => .offer (.deny p) .plain)

/-- A refusal list without the NO_SLOTS refusals that are lifted (R57). -/
def liftHeld (lift : WantPos → Bool) (r : Vector (List Refused) 4) : Vector (List Refused) 4 :=
  vec4 (fun p => if lift p then r[p].filter (fun x => x.reason != .noSlots) else r[p])

/-- The stream numbers whose frame is not on the line: what has won is not withdrawn (R14). -/
def State.idleStreams (s : State) : List StreamNo := allStreams.filter (fun n => !s.trunk.out.sends (.stream n))

/-- One evaluation of the demand, whole (R49). -/
def State.evaluation (s : State) (lift : WantPos → Bool) (applied : Option WantPos) : Eval :=
  let ds := s.demand
  let held := liftHeld lift s.engine.refusals
  let v : Eval := ds.foldl (Eval.take held s.inputLive)
    { table := s.engine.table, refusals := Vector.replicate 4 [], ops := [] }
  let served := v.table
  let v := s.idleStreams.foldl (Eval.settleStream ds served s.inputLive) v
  let v := allStreams.foldl (Eval.settleWanted ds served) v
  let v := v.seekUpgrade (freeSlots s.tables.slots)
  { v with ops := v.ops ++ denyOps applied s.engine.refusals v.refusals }

/-- The results of one evaluation taken together (R49). -/
def evaluateOnce (lift : WantPos → Bool) (applied : Option WantPos) (s : State) : State :=
  let v := s.evaluation lift applied
  applyQueueOps v.ops (s.setEngine { table := v.table, refusals := v.refusals })

/-- Which streams stand, and in which state. -/
def tableShape (t : StreamTable) : List (StreamNo × StreamState) := (streamList t).map (fun p => (p.1, p.2.state))

/-- Evaluate again while streams change state, are made or removed (R49), at most n times more (log 19). -/
def evaluateAgain : Nat → State → State
  | 0, s => s
  | n + 1, s =>
    let s' := evaluateOnce (fun _ => false) none s
    if tableShape s'.engine.table = tableShape s.engine.table then s' else evaluateAgain n s'

/-- Evaluate the demand (R49); `lift` says whose NO_SLOTS refusals are lifted, `applied` whose WANT was applied (R57). -/
def evaluate (lift : WantPos → Bool) (applied : Option WantPos) (s : State) : State :=
  let s' := evaluateOnce lift applied s
  if tableShape s'.engine.table = tableShape s.engine.table then s' else evaluateAgain 8 s'

/-- Evaluate with nothing lifted. -/
def evaluateDemand (s : State) : State := evaluate (fun _ => false) none s

/-! ### Changes of one stream -/

/-- s with one place of the stream table replaced. -/
def State.setStream (s : State) (n : StreamNo) (x : Option Stream) : State :=
  s.setEngine { s.engine with table := s.engine.table.set n x }

/-- Change every stream. -/
def mapStreams (f : Stream → Stream) (s : State) : State :=
  s.setEngine { s.engine with table := s.engine.table.map (fun x => x.map f) }

/-- A stream loses a slot (R62). `left` are the slots still owned by it. -/
def loseSlot (n : StreamNo) (left : List Slot) (s : State) : State :=
  match s.engine.table[n] with
  | none => s
  | some x =>
    match x.state with
    | .claiming => s
    | _ =>
      if left.isEmpty then withdraw (.stream n) (s.setStream n none)
      else if x.state = .draining .lost then s
      else offer (.stream n) .release (s.setStream n (some (x.drain .lost)))

/-- A stream's part in its input leaving LIVE (R55, R59, R68); with its picture abandoned the next band is 0 (R74; DESIGN CHOICE,
safe: log 68). -/
def streamInputLost (s : State) (i : Input) (n : StreamNo) : State :=
  match s.engine.table[n] with
  | none => s
  | some x =>
    if x.input = i then
      match x.state with
      | .live => s.setStream n (some { x with state := .holding, holdCount := 0, nextBand := 0, picture := none })
      | .claiming => if s.trunk.out.sends (.stream n) then s else withdraw (.stream n) (s.setStream n none)
      | _ => s
    else s

/-- The Stream Engine's part in an input leaving LIVE (R68). -/
def streamsInputLost (i : Input) (s : State) : State :=
  evaluateDemand (allStreams.foldl (fun t n => streamInputLost t i n) s)

/-- The Stream Engine's part in an input entering LIVE (R60, R68, R72). -/
def streamsInputLive (i : Input) (s : State) : State :=
  evaluateDemand (mapStreams (fun x => if x.input = i ∧ x.state = .holding then x.resume true else x) s)

/-- A HOLDING stream reaches the hold limit (R60). -/
def holdLimit (n : StreamNo) (s : State) : State :=
  match s.engine.table[n] with
  | none => s
  | some x =>
    if x.state = .holding ∧ 40 ≤ x.holdCount then
      evaluateDemand (offer (.stream n) .release (s.setStream n (some (x.drain .holdLimit))))
    else s

/-! ### A CLAIM or RELEASE at its win (R54, R61) -/

/-- The candidate classes of a stream's CLAIM in turn (R54); an upgrade stream has its wanted class alone. -/
def Stream.candidates (x : Stream) : List SizeClass :=
  if x.upgrade then [x.wanted]
  else [SizeClass.full, .half, .quarter].filter (fun k => decide (k.rank ≤ x.wanted.rank) && decide (x.floor.rank ≤ k.rank))

/-- What a candidate class gives (R54). -/
inductive ClaimOutcome where
  | merge (other : StreamNo)
  | fit (cls : SizeClass) (slots : List Slot)
  | none
deriving DecidableEq, Repr

/-- Another stream of the camera and class in LIVE, HOLDING or CLAIMING (R54). -/
def mergeTarget (t : StreamTable) (n : StreamNo) (x : Stream) (k : SizeClass) : Option StreamNo :=
  ((streamList t).find? (fun p => p.1 != n && p.2.input == x.input && p.2.cls == k
    && (p.2.state == .live || p.2.state == .holding || p.2.state == .claiming))).map (fun p => p.1)

/-- Try the candidates in turn (R54). -/
def claimOutcome (t : StreamTable) (m : Vector SlotEntry 24) (n : StreamNo) (x : Stream) : List SizeClass → ClaimOutcome
  | [] => .none
  | k :: ks =>
    match mergeTarget t n x k with
    | some o => .merge o
    | none => if k.need ≤ freeSlots m then .fit k ((freeList m).take k.need) else claimOutcome t m n x ks

/-- The stream that a merge leaves (R54). -/
def Stream.mergeWanted (x : Stream) (w : SizeClass) : Stream :=
  { x with wanted := x.wanted.max w, short := decide (x.cls.rank < (x.wanted.max w).rank) }

/-- Refuse NO_SLOTS the non-carry entries that a declined stream served (R54, R57). -/
def refuseServed (ds : List Demand) (r : Vector (List Refused) 4) : Vector (List Refused) 4 :=
  ds.foldl (fun acc d =>
    if d.entry.carry then acc
    else acc.set d.pos ((acc[d.pos]).filter (fun x => !(x.cam == d.entry.cam && x.cls == d.entry.cls))
      ++ [{ cam := d.entry.cam, cls := d.entry.cls, reason := .noSlots }])) r

/-- A CLAIM declined for want of slots: the stream is removed, its entries are refused unless it is an upgrade, and
DENYs are offered for positions that an entry joins (R54, R57). -/
def declineClaim (n : StreamNo) (x : Stream) (s : State) : State :=
  let served := servedEntries s.demand s.engine.table n
  let r := if x.upgrade then s.engine.refusals else refuseServed served s.engine.refusals
  let s' := s.setEngine { table := s.engine.table.set n none, refusals := r }
  evaluateDemand (applyQueueOps (denyOps none s.engine.refusals r) s')

/-- A CLAIM merged into another stream: the claiming stream is removed (R54). -/
def mergeClaim (n o : StreamNo) (x : Stream) (s : State) : State :=
  let t := s.engine.table.set n none
  let t := t.set o ((t[o]).map (fun y => y.mergeWanted x.wanted))
  evaluateDemand (s.setEngine { s.engine with table := t })

/-- The stream of a CLAIM that fits takes the class (R54). -/
def fitClaim (n : StreamNo) (k : SizeClass) (x : Stream) (s : State) : State :=
  s.setStream n (some { x with cls := k, short := decide (k.rank < x.wanted.rank) })

/-- The CLAIM of a stream has been transmitted (R55, R72). -/
def claimSent (n : StreamNo) (s : State) : State :=
  match s.engine.table[n] with
  | none => s
  | some x =>
    if x.state = .claiming then
      let y := { x with seq := 0xFF#8, nextBand := 0, picture := none, holdCount := 0 }
      if anyEligible s.demand x then
        s.setStream n (some { y with state := if s.inputLive x.input then .live else .holding })
      else offer (.stream n) .release (s.setStream n (some { y with state := .draining .noDemand }))
    else s

/-- The RELEASE of a stream has been transmitted: the stream is removed (R61). -/
def releaseSent (n : StreamNo) (s : State) : State :=
  match s.engine.table[n] with
  | some x =>
    match x.state with
    | .draining _ => s.setStream n none
    | _ => s
  | none => s

/-! ### DENY content (R57) -/

/-- The refusal list of a position in service order (R57). -/
def State.denyList (s : State) (p : WantPos) : List Refused :=
  (s.demandOf false).filterMap (fun d =>
    if d.pos = p then
      (refusalOf s.engine.refusals[p] d.entry.cam d.entry.cls).map (fun r =>
        ({ cam := d.entry.cam, cls := d.entry.cls, reason := r } : Refused))
    else none)

/-! ### Tiles (R59, R72 to R74) -/

/-- Start a picture: the next sequence number, the newest frame scaled, band 0 next (R72). Without a newest frame, which a
LIVE input of a run has, it is that of an empty frame (DESIGN CHOICE, safe: log 65). -/
def State.startPicture (s : State) (x : Stream) : Stream :=
  let frame := match s.intake.inputs[x.input] with
    | some r => r.newest.getD []
    | none => []
  { x with seq := x.seq + 1#8, nextBand := 0,
           picture := some (scaleFrame x.cls s.cfg.lineCount s.cfg.pixelCount frame) }

/-- The header of a tile of a stream. -/
def State.tileHeader (s : State) (n : StreamNo) (x : Stream) (slot : Slot) (picture : Bool) (band : Nat) (last : Bool) :
    TileHeader where
  picture := picture
  addr := s.addr
  tag := s.cfg.tag
  stream := n
  slot := byte slot.val
  input := x.input
  cls := x.cls
  seq := x.seq
  band := band
  last := last

/-- The stream of the station that may send a tile in a slot (R16). -/
def State.slotStream (s : State) (slot : Slot) : Option (StreamNo × Stream) :=
  match (s.tables.slots[slot]).owner with
  | none => none
  | some id =>
    if id.addr = s.addr then
      match s.engine.table[id.num] with
      | some x => if x.state = .claiming then none else some (id.num, x)
      | none => none
    else none

/-- The tile that a stream supplies at the start of a slot, and the stream afterwards (R73, R74). After the last band no picture
is open, and the next band, which nothing reads then, is 0 (DESIGN CHOICE, safe: log 68). -/
def State.supplyTile (s : State) (slot : Slot) (n : StreamNo) (x : Stream) : TileHeader × List Byte × Stream :=
  match x.state with
  | .live =>
    let x := if x.picture.isSome then x else s.startPicture x
    let b := x.nextBand
    let last := b + 1 == x.cls.bands
    (s.tileHeader n x slot true b last, bandBytes x.cls (x.picture.getD []) b,
      if last then { x with nextBand := 0, picture := none } else { x with nextBand := b + 1 })
  | _ => (s.tileHeader n x slot false 0 false, [], x)

end Sys2Proof.Machine
end

