-- ==== Sys2Proof/Machine/Cab.lean ====
section
/-! DEFINITION. Cab Control (chapter 8): the cab states and their changes, and what the Composer is handed with them. -/
namespace Sys2Proof.Machine

/-- Does the cab record name this station (R124)? -/
def State.namesSelf (s : State) : Bool :=
  match s.tables.cabRecord with
  | some r => r.addr == s.addr && r.tag == s.cfg.tag
  | none => false

/-- Change the cab state; the Composer takes an entry into ACTIVE and a leaving of it (R121, R139). -/
def setCabState (c : CabState) (s : State) : State :=
  let s' := s.setCab { s.cab with state := c }
  if c = .active then (if s.cab.state = .active then s' else enterActive s')
  else if s.cab.state = .active then leaveActive s'
  else s'

/-- An accepted change of CAB_ON (R122). -/
def cabOnChange (on : Bool) (s : State) : State :=
  match on, s.cab.state with
  | true, .idle => offer .cab .take (setCabState .taking s)
  | false, .taking => withdraw .cab (setCabState .idle s)
  | false, .active => offer .cab .leave (setCabState .idle s)
  | false, .blocked => setCabState .idle s
  | _, _ => s

/-- The station's own CAB frame has been transmitted and applied (R123). -/
def ownCabSent (take : Bool) (s : State) : State :=
  if take then
    match s.cab.state with
    | .taking => if s.namesSelf then setCabState .active s else setCabState .blocked s
    | .idle => if s.namesSelf then offer .cab .leave s else s
    | _ => s
  else s

/-- The cab record has changed (R124, first two rows). `named` says whether it named this station before. -/
def cabRecordChanged (old : Option CabRecord) (named : Bool) (s : State) : State :=
  if s.isCab then
    match s.cab.state with
    | .blocked =>
      if old.isSome && s.tables.cabRecord.isNone then offer .cab .take (setCabState .taking s) else s
    | .active => if named && !s.namesSelf then offer .cab .leave (setCabState .blocked s) else s
    | _ => s
  else s

/-- Clear the cab record if it names this station (R124). -/
def clearOwnRecord (s : State) : State :=
  if s.namesSelf then s.setTables { s.tables with cabRecord := none } else s

/-- The station enters EXCLUDED (R124, third row). -/
def cabExcluded (s : State) : State :=
  if s.isCab && (s.cab.state == .active || s.cab.state == .blocked) then
    offer .cab .take (clearOwnRecord (setCabState .taking s))
  else s

/-- A renumbering (R38 step 5, R124). -/
def cabRenumbered (s : State) : State :=
  if s.isCab then
    if s.cab.cabOn.accepted then offer .cab .take (setCabState .taking s) else setCabState .idle s
  else s

end Sys2Proof.Machine
end

