-- ==== Sys2Proof/Machine/Operands.lean ====
section
/-! DEFINITION. The content of heard control frames: the checks that each chapter makes before it applies a frame, and
the values that a frame that passes carries (R33, R41, R42, R46, R57, R88, R106, R126). -/
namespace Sys2Proof.Machine

/-- Do the elements of a list all differ? -/
def allDistinct {α : Type} [BEq α] : List α → Bool
  | [] => true
  | x :: xs => !xs.contains x && allDistinct xs

/-- Does a list of numbers rise strictly? -/
def rising : List Nat → Bool
  | [] => true
  | [_] => true
  | x :: y :: rest => decide (x < y) && rising (y :: rest)

/-- Read every element, or fail. -/
def readAll {α β : Type} (f : α → Option β) : List α → Option (List β)
  | [] => some []
  | x :: xs =>
    match f x, readAll f xs with
    | some y, some ys => some (y :: ys)
    | _, _ => none

/-- A camera id of two bytes: an address 0..15 and an input 0..3. -/
def camIdOf (a i : Byte) : Option CamId :=
  match finOfByte 16 a, finOfByte 4 i with
  | some x, some y => some { addr := x, input := y }
  | _, _ => none

/-! ### ROSTER (R33) -/

/-- What a ROSTER that passes its content check carries. -/
structure RosterContent where
  localNo : Nat
  role : Role
  coupler : Option (TramEnd × Bool)
  cabActive : Bool
  cams : List CamDesc
  doors : List (DoorDesc × DoorPhase)
deriving DecidableEq, Repr

/-- A camera descriptor of a ROSTER (R33); flags beyond the two of R175 are no code (log 17). -/
def camDescOf (c : CamRaw) : Option CamDesc :=
  match finOfByte 4 c.input, viewOf c.kind c.place, sideOf c.side, gradeOf c.grade with
  | some i, some v, some sd, some g =>
    if c.flags.toNat ≤ 3 then
      some { input := i, view := v, side := sd, grade := g, held := c.flags.getLsbD 0, unbaselined := c.flags.getLsbD 1 }
    else none
  | _, _, _, _ => none

/-- The exterior camera input of a door descriptor: NONE, or an input listed among the cameras (R33). -/
def exteriorOf (cams : List CamDesc) (b : Byte) : Option (Option Input) :=
  if b = absentCode then some none
  else
    match finOfByte 4 b with
    | some i => if cams.any (fun c => c.input == i) then some (some i) else none
    | none => none

/-- The A-side of a door: A_LEFT or A_RIGHT (R33). -/
def doorSideOf (b : Byte) : Option ASide :=
  match sideOf b with
  | some .centre => none
  | x => x

/-- A door descriptor of a ROSTER with its phase (R33). -/
def doorDescOf (cams : List CamDesc) (d : DoorRaw) : Option (DoorDesc × DoorPhase) :=
  match finOfByte 4 d.chan, doorSideOf d.side, exteriorOf cams d.exterior, phaseOf d.phase with
  | some c, some sd, some x, some p =>
    if 1 ≤ d.door.toNat ∧ d.door.toNat ≤ 15 then
      some ({ chan := c, door := d.door.toNat, side := sd, exterior := x }, p)
    else none
  | _, _, _, _ => none

/-- The cab flag of a ROSTER (R177). -/
def cabFlagOf (b : Byte) : Option Bool := if b = 0x00#8 then some false else if b = 0x01#8 then some true else none

/-- The content check of a ROSTER (R33 step 1). -/
def rosterContent (localNo role coupler cabFlag : Byte) (cams : List CamRaw) (doors : List DoorRaw) :
    Option RosterContent :=
  match roleOf role, couplerOf coupler, cabFlagOf cabFlag, readAll camDescOf cams with
  | some r, some cp, some cf, some cs =>
    match readAll (doorDescOf cs) doors with
    | some ds =>
      if cs.length ≤ 4 ∧ ds.length ≤ 4 ∧ allDistinct (cs.map (fun c => c.input)) = true
          ∧ allDistinct (ds.map (fun d => d.1.chan)) = true then
        some { localNo := localNo.toNat, role := r, coupler := cp, cabActive := cf, cams := cs, doors := ds }
      else none
    | none => none
  | _, _, _, _ => none

/-! ### DOOR, LENS, CAB (R88, R106, R126) -/

/-- The content check of a DOOR: a channel and a phase other than UNKNOWN (R88). -/
def doorContent (chan phase : Byte) : Option (Chan × DoorPhase) :=
  match finOfByte 4 chan, phaseOf phase with
  | some c, some p => if p = .unknown then none else some (c, p)
  | _, _ => none

/-- The content check of a LENS (R106). -/
def lensContent (input grade : Byte) : Option (Input × Grade) :=
  match finOfByte 4 input, gradeOf grade with
  | some i, some g => some (i, g)
  | _, _ => none

/-- The content check of a CAB frame: TAKE or LEAVE, and an end (R126). -/
def cabContent (kind e : Byte) : Option (Bool × TramEnd) :=
  match endOf e with
  | some x => if kind = 0x01#8 then some (true, x) else if kind = 0x02#8 then some (false, x) else none
  | none => none

/-! ### WANT (R46) -/

/-- An entry of a WANT: classes in the low four bits, the carry flag in bit 0; bits beyond these are not read (log 17). -/
def wantEntryOf (q : Quad) : Option WantEntry :=
  match camIdOf q.b0 q.b1, classOf (q.b2 &&& 0x03#8), classOf ((q.b2 >>> 2) &&& 0x03#8) with
  | some c, some k, some f =>
    if f.rank ≤ k.rank then some { cam := c, cls := k, floor := f, carry := q.b3.getLsbD 0 } else none
  | _, _, _ => none

/-- Does no carry entry stand before a non-carry entry (R46)? -/
def carryLast : List WantEntry → Bool
  | [] => true
  | e :: rest => (if e.carry then rest.all (fun x => x.carry) else true) && carryLast rest

/-- The content check of a WANT (R46). -/
def wantContent (es : List Quad) : Option (List WantEntry) :=
  match readAll wantEntryOf es with
  | some ws =>
    if ws.length ≤ 16 ∧ carryLast ws = true ∧ allDistinct (ws.map (fun e => (e.cam, e.cls, e.carry))) = true then some ws
    else none
  | none => none

/-! ### CLAIM, RELEASE (R41, R42) -/

/-- A slot list: 1 to 6 slots 0..23 in ascending order without repeats (R41, R42). -/
def slotsContent (bs : List Byte) : Option (List Slot) :=
  match readAll (finOfByte 24) bs with
  | some sl => if 1 ≤ sl.length ∧ sl.length ≤ 6 ∧ rising (sl.map Fin.val) = true then some sl else none
  | none => none

/-- The content check of a CLAIM from an address (R41). -/
def claimContent (a : Addr) (owner stream input cls : Byte) (slots : List Byte) : Option (StreamId × List Slot) :=
  match finOfByte 6 stream, finOfByte 4 input, classOf cls, slotsContent slots with
  | some n, some i, some k, some sl =>
    if owner = byte a.val ∧ sl.length = k.need then some ({ addr := a, num := n, input := i, cls := k }, sl) else none
  | _, _, _, _ => none

/-- The content check of a RELEASE from an address (R42). -/
def releaseContent (a : Addr) (owner stream : Byte) (slots : List Byte) : Option (StreamNo × List Slot) :=
  match finOfByte 6 stream, slotsContent slots with
  | some n, some sl => if owner = byte a.val then some (n, sl) else none
  | _, _ => none

/-! ### DENY (R57) -/

/-- An entry of a DENY. -/
def denyEntryOf (q : Quad) : Option Refused :=
  match camIdOf q.b0 q.b1, classOf q.b2, reasonOf q.b3 with
  | some c, some k, some r => some { cam := c, cls := k, reason := r }
  | _, _, _ => none

/-- The content check of a DENY (R57). -/
def denyContent (addressee : Byte) (es : List Quad) : Option (Addr × List Refused) :=
  match finOfByte 16 addressee, readAll denyEntryOf es with
  | some a, some rs => some (a, rs)
  | _, _ => none

end Sys2Proof.Machine
end

