-- ==== Sys2Proof/Machine/Tables.lean ====
section
/-! DEFINITION. The Consist Tables (chapters 2, 3, 5, 6, 8): presence and removal, the identity filters, the foreign-tag
set with exclusion and renumbering, the application of each control frame and slot observation, the round tick, and
the handing of what changed to the blocks that read the tables. -/
namespace Sys2Proof.Machine

/-! ### Handing a change of the tables to the other blocks (R45, R48, R49, R93, R124, R133) -/

/-- The want-table positions whose record a change has emptied (R48). -/
def wantsEmptied (old new : Vector (Option WantRecord) 4) : List WantPos :=
  allPositions.filter (fun p => (old[p]).isSome && (new[p]).isNone)

/-- The Stream Engine's part in emptied records: their refusal lists are cleared and their DENYs withdrawn (R48). -/
def dropWants (ps : List WantPos) (s : State) : State :=
  applyQueueOps (ps.map (fun p => .withdraw (.deny p)))
    (s.setEngine { s.engine with refusals := vec4 (fun p => if p ∈ ps then [] else s.engine.refusals[p]) })

/-- Has an own stream lost a slot over a change of the copy (R45)? -/
def lostSlot (a : Addr) (old new : Vector SlotEntry 24) (n : StreamNo) : Bool :=
  (slotsOf old a n).any (fun k => !(new[k]).names a n)

/-- The own streams that have lost a slot (R45, R62). -/
def loseSlots (a : Addr) (old : Vector SlotEntry 24) (s : State) : State :=
  (allStreams.filter (lostSlot a old s.tables.slots)).foldl (fun t n => loseSlot n (slotsOf t.tables.slots a n) t) s

/-- The Stream Engine's part in a change of the tables (R45, R47 to R49, R57). `applied` is the position of a WANT just
applied. A change that gives an own slot lost and a free-slot rise takes the loss first, and then evaluates once with the
NO_SLOTS refusals lifted (DESIGN CHOICE, unsafe: log 41); one that empties a record beside them empties it before both
(DESIGN CHOICE, unsafe: log 67). -/
def engineTables (applied : Option WantPos) (old : Tables) (s : State) : State :=
  let emptied := wantsEmptied old.wants s.tables.wants
  let rise := decide (freeSlots old.slots < freeSlots s.tables.slots)
  let lost := allStreams.any (lostSlot s.addr old.slots s.tables.slots)
  let s' := loseSlots s.addr old.slots (dropWants emptied s)
  if rise || lost || !emptied.isEmpty || applied.isSome then
    evaluate (fun p => rise || applied == some p) applied s'
  else s'

/-- Has the roster entry at an address gone GONE or been removed (R30, R31)? -/
def entryDropped (old new : Option RosterEntry) : Bool :=
  match old, new with
  | some _, none => true
  | some e, some f => (e.presence == .present && f.presence == .gone) || e.tag != f.tag || e.localNo != f.localNo
  | none, _ => false

/-- The Composer's part in a change of the tables: the warning list; while ACTIVE the refusal set, the spotlight queue,
views, results and panes (R133, R140, R146, R156, R162, R164). -/
def composerTables (old : Tables) (s : State) : State :=
  if s.isCab then
    let s' := settleWarnings s
    if s'.isActive then
      let comp := { s'.comp with
        refusals := s'.comp.refusals.filter (fun r => !entryDropped old.roster[r.cam.addr] s'.tables.roster[r.cam.addr]) }
      settleViews (s'.setComp (spotlightChange old.doors s'.tables.doors comp))
    else s'
  else s

/-- Hand a change of the tables to every block that reads them: Stream Engine, Cab Control, Screen Composer, in this order, so
that a cab that a change takes out of ACTIVE or brings into it is so when the Composer takes the change (R93, R127, R146;
DESIGN CHOICE, unsafe: log 76). -/
def handTables (applied : Option WantPos) (before s : State) : State :=
  composerTables before.tables
    (cabRecordChanged before.tables.cabRecord before.namesSelf (engineTables applied before.tables s))

/-- Replace the tables and hand the change. -/
def changeTables (t : Tables) (s : State) : State := handTables none s (s.setTables t)

/-! ### Presence and removal (R27 to R31) -/

/-- A roster entry as an item makes it (R29; log 16). -/
def newEntry (a : Addr) (tag : Word) : RosterEntry where
  presence := .present
  tag := tag
  localNo := ⟨a.val % 8, by omega⟩
  role := .unannounced
  age := 0
  cams := []
  doors := []
  coupler := none
  cabActive := false

/-- The want table without the record of a sender (R48). -/
def dropSender (w : Vector (Option WantRecord) 4) (a : Addr) : Vector (Option WantRecord) 4 :=
  w.map (fun r =>
    match r with
    | some x => if x.sender = a then none else some x
    | none => none)

/-- The cab record without an address (R30). -/
def dropCab (c : Option CabRecord) (a : Addr) : Option CabRecord :=
  match c with
  | some r => if r.addr = a then none else some r
  | none => none

/-- Does a slot entry belong to an owner? -/
def SlotEntry.ownedBy (e : SlotEntry) (a : Addr) : Bool :=
  match e.owner with
  | some id => id.addr == a
  | none => false

/-- What an entry going GONE does to the other tables (R30). -/
def goneEffects (a : Addr) (t : Tables) : Tables :=
  { t with
    slots := freeWhere t.slots (fun e => e.ownedBy a)
    doors := t.doors.map (fun d => if d.id.addr = a then { d with phase := .unknown } else d)
    wants := dropSender t.wants a
    cabRecord := dropCab t.cabRecord a }

/-- A roster entry goes GONE (R30). -/
def goGone (a : Addr) (t : Tables) : Tables :=
  match t.roster[a] with
  | some e => goneEffects a { t with roster := t.roster.set a (some { e with presence := .gone }) }
  | none => t

/-- A removal (R31). -/
def removeEntry (a : Addr) (t : Tables) : Tables :=
  let t' := goneEffects a t
  { t' with roster := t'.roster.set a none, doors := t'.doors.filter (fun d => d.id.addr != a) }

/-- The presence that an item gives its sender (R29). The own entry is PRESENT with age 0 in every trunk state (R27). -/
def presence (own a : Addr) (tag : Word) (t : Tables) : Tables :=
  if a = own then t
  else
    match t.roster[a] with
    | none => { t with roster := t.roster.set a (some (newEntry a tag)) }
    | some e =>
      if e.tag = tag then { t with roster := t.roster.set a (some { e with presence := .present, age := 0 }) }
      else
        let t' := removeEntry a t
        { t' with roster := t'.roster.set a (some (newEntry a tag)) }

/-! ### Identity filters (R35, R36) -/

/-- Do the identity filters hold back an item that the station did not transmit itself? -/
def State.heldBack (s : State) (a : Addr) (tag : Word) : Bool :=
  let clash := match s.tables.roster[a] with
    | some e => e.isPresent && e.tag != tag
    | none => false
  let twin := a == s.addr && tag == s.cfg.tag
  let otherHalf := tag == s.cfg.tag && a.val / 8 != s.trunk.half.val
  clash || twin || otherHalf

/-! ### Trunk states (R22 to R26, R38) -/

/-- The station enters LISTEN (R23). -/
def enterListen (renumbered : Bool) (s : State) : State :=
  s.setTrunk { s.trunk with state := .listen, renumbered := renumbered, consecClash := 0, candidate := false,
                            markInListen := false }

/-- The transmission that goes on when the station renumbers or is excluded: a MARK begun goes on as it was begun, with
the old address, and a control frame, void ending or tile ends uncounted (R38; DESIGN CHOICE, unsafe: log 40). -/
def TrunkOut.keepMark : TrunkOut → TrunkOut
  | .mark b => .mark b
  | _ => .idle

/-- The station enters EXCLUDED, or changes its reason (R25, R26). Its queue is kept; where its own control frame ends by it,
the frame's entry waits with the kind of the latest offer for its subject (R13, R25; DEDUCED, unsafe: log 40). -/
def enterExcluded (r : ExclReason) (s : State) : State :=
  match s.trunk.state with
  | .excluded _ => s.setTrunk { s.trunk with state := .excluded r }
  | _ =>
    cabExcluded ((s.setQueue (s.trunk.out.endedQueue s.queue)).setTrunk { s.trunk with
      state := .excluded r, renumbered := false, candidate := false, contending := none, out := s.trunk.out.keepMark })

/-- The tables after a renumbering from one own address to another (R38 steps 3 and 4). -/
def renumberTables (own new : Addr) (t : Tables) : Tables :=
  { t with
    roster := (Vector.replicate 16 none).set new (t.roster[own])
    doors := (t.doors.filter (fun d => d.id.addr == own)).map (fun d => { d with id := { d.id with addr := new } })
    slots := Vector.replicate 24 SlotEntry.free
    wants := Vector.replicate 4 none
    cabRecord := none
    departed := [] }

/-- A renumbering (R38). -/
def renumber (h : Fin 2) (s : State) : State :=
  let own := s.addr
  let s1 := (s.setEngine StreamEngine.reset).setQueue []
  let s2 := s1.setTrunk { s1.trunk with half := h, contending := none, out := s1.trunk.out.keepMark }
  let s3 := s2.setTables (renumberTables own s2.addr s2.tables)
  settleWarnings (enterListen true (cabRenumbered s3))

/-! ### The foreign-tag set (R37) -/

/-- k: the number of tags in the set lower than the own tag (R37). -/
def lowerTags (own : Word) (f : List (Word × Nat)) : Nat := (f.filter (fun x => decide (x.1.toNat < own.toNat))).length

/-- The required half (R37). -/
def requiredHalf (k : Nat) : Option (Fin 2) := if k = 0 then some 0 else if k = 1 then some 1 else none

/-- The station acts on a change of its foreign-tag set (R26, R37). -/
def foreignChanged (oldK : Nat) (s : State) : State :=
  let k := lowerTags s.cfg.tag s.tables.foreign
  if k = oldK then s
  else
    match s.trunk.state, requiredHalf k with
    | .listen, some h => if h = s.trunk.half then s else renumber h s
    | .joined, some h => if h = s.trunk.half then s else renumber h s
    | .listen, none => enterExcluded .consist s
    | .joined, none => enterExcluded .consist s
    | .excluded .consist, some h => if h = s.trunk.half then enterListen false s else renumber h s
    | _, _ => s

/-- The set with a tag taken in, or its age set to 0, in ascending order of tags (R37). -/
def takeTag (tag : Word) (f : List (Word × Nat)) : List (Word × Nat) :=
  insertBy (fun x y => decide (x.1.toNat < y.1.toNat)) (tag, 0) (f.filter (fun x => x.1 != tag))

/-- An item carrying a tag is heard (R37). -/
def hearTag (tag : Word) (s : State) : State :=
  if tag = s.cfg.tag then s
  else
    let k := lowerTags s.cfg.tag s.tables.foreign
    foreignChanged k (s.setTables { s.tables with foreign := takeTag tag s.tables.foreign })

/-- A tag leaves the set (R37). -/
def dropTag (tag : Word) (s : State) : State :=
  let k := lowerTags s.cfg.tag s.tables.foreign
  foreignChanged k (s.setTables { s.tables with foreign := s.tables.foreign.filter (fun x => x.1 != tag) })

/-! ### Taking an item (R29, R35 to R37) -/

/-- An item from an address with a tag: the foreign-tag set takes the tag, and then, unless the identity filters hold
the item back, presence is updated and the rest of the item is applied (R29, R35 to R37; log 15). -/
def takeItem (own : Bool) (a : Addr) (tag : Word) (apply : State → State) (s : State) : State :=
  if s.acting then
    let s1 := hearTag tag s
    if !own && s1.heldBack a tag then s1
    else apply (changeTables (presence s1.addr a tag s1.tables) s1)
  else s

/-! ### Control frames applied (R33, R41, R42, R47, R57, R88, R106, R126, R127) -/

/-- The door table with the entries of an address replaced, ordered by door id (R90). -/
def setDoors (a : Addr) (ds : List (DoorDesc × DoorPhase)) (t : List DoorEntry) : List DoorEntry :=
  sortBy (fun x y => keyBefore [x.id.addr.val, x.id.chan.val] [y.id.addr.val, y.id.chan.val])
    (t.filter (fun d => d.id.addr != a)
      ++ ds.map (fun d => ({ id := { addr := a, chan := d.1.chan }, phase := d.2 } : DoorEntry)))

/-- The repair of the cab record by a ROSTER (R127). -/
def repairCab (a : Addr) (tag : Word) (flag : Bool) (coupler : Option (TramEnd × Bool)) (c : Option CabRecord) :
    Option CabRecord :=
  match flag, coupler with
  | true, some (e, _) =>
    match c with
    | none => some { addr := a, tag := tag, cabEnd := e }
    | some r => if a.val ≤ r.addr.val then some { addr := a, tag := tag, cabEnd := e } else some r
  | true, none => c
  | false, _ => dropCab c a

/-- ROSTER step 2, the identity: another address that holds it is removed, and the sender's entry too if it has another
local number (R31, R33). -/
def rosterIdentity (own a : Addr) (tag : Word) (localNo : Nat) (t : Tables) : Tables :=
  let t1 := allAddrs.foldl (fun t b =>
    if b = a ∨ b = own then t
    else
      match t.roster[b] with
      | some e => if e.tag = tag ∧ e.localNo.val = localNo then removeEntry b t else t
      | none => t) t
  match t1.roster[a] with
  | some e =>
    if a ≠ own ∧ e.localNo.val ≠ localNo then removeEntry a t1 else t1
  | none => t1

/-- ROSTER step 2, the identity: an entry that was removed is made anew (R33; log 16). -/
def rosterRenew (a : Addr) (tag : Word) (t : Tables) : Tables :=
  if (t.roster[a]).isNone then { t with roster := t.roster.set a (some (newEntry a tag)) } else t

/-- ROSTER step 3, the fields (R33, R90, R91, R107, R127). -/
def rosterFields (a : Addr) (tag : Word) (c : RosterContent) (t : Tables) : Tables :=
  match t.roster[a] with
  | none => t
  | some e =>
    { t with
      roster := t.roster.set a (some { e with
        role := c.role, cams := c.cams, doors := c.doors.map (fun d => d.1), coupler := c.coupler,
        cabActive := c.cabActive })
      doors := setDoors a c.doors t.doors
      cabRecord := repairCab a tag c.cabActive c.coupler t.cabRecord }

/-- Apply a ROSTER (R33). The removal is handed before the entry is made anew, so that every block sees it (R31). -/
def applyRoster (a : Addr) (tag : Word) (content : Option RosterContent) (s : State) : State :=
  match content with
  | none => s.setTables { s.tables with rosterRejects := bump s.tables.rosterRejects }
  | some c =>
    if tag = s.cfg.tag ∧ c.localNo = s.cfg.localNo.val ∧ a ≠ s.addr then s
    else
      let s1 := changeTables (rosterIdentity s.addr a tag c.localNo s.tables) s
      let s2 := changeTables (rosterRenew a tag s1.tables) s1
      changeTables (rosterFields a tag c s2.tables) s2

/-- The door table with one phase set (R88). -/
def setPhase (id : DoorId) (p : DoorPhase) (ds : List DoorEntry) : List DoorEntry :=
  ds.map (fun d => if d.id = id then { d with phase := p } else d)

/-- Apply a DOOR (R88). -/
def applyDoor (a : Addr) (content : Option (Chan × DoorPhase)) (s : State) : State :=
  match content with
  | none => s.setTables { s.tables with doorRejects := bump s.tables.doorRejects }
  | some (c, p) => changeTables { s.tables with doors := setPhase { addr := a, chan := c } p s.tables.doors } s

/-- A roster entry with the grade and flags of one camera set (R106). -/
def RosterEntry.setGrade (e : RosterEntry) (i : Input) (g : Grade) (held unbaselined : Bool) : RosterEntry :=
  { e with cams := e.cams.map (fun c =>
      if c.input = i then { c with grade := g, held := held, unbaselined := unbaselined } else c) }

/-- Apply a LENS (R106). -/
def applyLens (a : Addr) (content : Option (Input × Grade)) (flags : Byte) (s : State) : State :=
  match content with
  | none => s.setTables { s.tables with lensRejects := bump s.tables.lensRejects }
  | some (i, g) =>
    let entry := (s.tables.roster[a]).map (fun e => e.setGrade i g (flags.getLsbD 0) (flags.getLsbD 1))
    changeTables { s.tables with roster := s.tables.roster.set a entry } s

/-- The cab record after a TAKE (R126). -/
def takeCab (a : Addr) (tag : Word) (e : TramEnd) (c : Option CabRecord) : Option CabRecord :=
  match c with
  | none => some { addr := a, tag := tag, cabEnd := e }
  | some r => if r.addr = a then some { addr := a, tag := tag, cabEnd := e } else some r

/-- Apply a CAB frame (R126). -/
def applyCab (a : Addr) (tag : Word) (content : Option (Bool × TramEnd)) (s : State) : State :=
  match content with
  | none => s.setTables { s.tables with cabRejects := bump s.tables.cabRejects }
  | some (true, e) => changeTables { s.tables with cabRecord := takeCab a tag e s.tables.cabRecord } s
  | some (false, _) =>
    changeTables { s.tables with cabRecord := dropCab s.tables.cabRecord a, wants := dropSender s.tables.wants a } s

/-- The position of a sender's record (R46). -/
def senderPosition (w : Vector (Option WantRecord) 4) (a : Addr) : Option WantPos :=
  allPositions.find? (fun p =>
    match w[p] with
    | some r => r.sender == a
    | none => false)

/-- The lowest-numbered free position (R47). -/
def freePosition (w : Vector (Option WantRecord) 4) : Option WantPos := allPositions.find? (fun p => (w[p]).isNone)

/-- Put a record at a position and hand the WANT as applied (R47). -/
def putWant (p : WantPos) (a : Addr) (ws : List WantEntry) (s : State) : State :=
  handTables (some p) s
    (s.setTables { s.tables with wants := s.tables.wants.set p (some { sender := a, age := 0, list := ws }) })

/-- Apply a WANT (R46, R47). -/
def applyWant (a : Addr) (content : Option (List WantEntry)) (s : State) : State :=
  match content with
  | none => s.setTables { s.tables with demandRejects := bump s.tables.demandRejects }
  | some [] => evaluateDemand (changeTables { s.tables with wants := dropSender s.tables.wants a } s)
  | some (w :: ws) =>
    match senderPosition s.tables.wants a with
    | some p => putWant p a (w :: ws) s
    | none =>
      match freePosition s.tables.wants with
      | some p => putWant p a (w :: ws) s
      | none => s.setTables { s.tables with wantOverflows := bump s.tables.wantOverflows }

/-- A well-formed CLAIM in the copy: leftovers freed, then the listed slots owned, or none if it is void (R41). -/
def claimSlots (id : StreamId) (sl : List Slot) (m : Vector SlotEntry 24) : Bool × Vector SlotEntry 24 :=
  let m1 := freeWhere m (fun e => e.names id.addr id.num)
  if sl.all (fun k => (m1[k]).owner.isNone) then
    (true, sl.foldl (fun (m : Vector SlotEntry 24) (k : Slot) => m.set k { owner := some id, silent := 0 }) m1)
  else (false, m1)

/-- Apply a CLAIM (R41). -/
def applyClaim (content : Option (StreamId × List Slot)) (s : State) : State :=
  match content with
  | none => s.setTables { s.tables with demandRejects := bump s.tables.demandRejects }
  | some (id, sl) =>
    let r := claimSlots id sl s.tables.slots
    changeTables { s.tables with
      slots := r.2, voidClaims := if r.1 then s.tables.voidClaims else bump s.tables.voidClaims } s

/-- A well-formed RELEASE in the copy (R42). -/
def releaseSlots (a : Addr) (n : StreamNo) (sl : List Slot) (m : Vector SlotEntry 24) : Vector SlotEntry 24 :=
  sl.foldl (fun (m : Vector SlotEntry 24) (k : Slot) => if (m[k]).names a n then m.set k SlotEntry.free else m) m

/-- Apply a RELEASE (R42). -/
def applyRelease (a : Addr) (content : Option (StreamNo × List Slot)) (s : State) : State :=
  match content with
  | none => s.setTables { s.tables with demandRejects := bump s.tables.demandRejects }
  | some (n, sl) => changeTables { s.tables with slots := releaseSlots a n sl s.tables.slots } s

/-- The refusal set after a DENY from an address (R162). Where the DENY names one camera and class twice, the later entry's
reason stands (DESIGN CHOICE, unsafe: log 74). -/
def denySet (a : Addr) (rs : List Refused) (want : List WantEntry) (set : List Refused) : List Refused :=
  (rs.filter (fun r => givesWant want r.cam r.cls)).foldl
    (fun acc r => acc.filter (fun x => !(x.cam == r.cam && x.cls == r.cls)) ++ [r])
    (set.filter (fun r => r.cam.addr != a))

/-- Apply a DENY (R57, R162). -/
def applyDeny (a : Addr) (content : Option (Addr × List Refused)) (s : State) : State :=
  match content with
  | none => s.setTables { s.tables with demandRejects := bump s.tables.demandRejects }
  | some (dest, rs) =>
    if dest = s.addr ∧ s.isCab = true ∧ s.isActive = true then
      settlePanes (s.setComp { s.comp with refusals := denySet a rs s.comp.wantList s.comp.refusals })
    else s

/-- Apply a control frame by its kind, after filters and presence. -/
def applyBody (a : Addr) (tag : Word) : FrameBody → State → State
  | .roster l r cp cf cams doors => applyRoster a tag (rosterContent l r cp cf cams doors)
  | .door c p => applyDoor a (doorContent c p)
  | .lens i g f => applyLens a (lensContent i g) f
  | .cab k e => applyCab a tag (cabContent k e)
  | .want es => applyWant a (wantContent es)
  | .claim o _ n i c sl => applyClaim (claimContent a o n i c sl)
  | .release o _ n sl => applyRelease a (releaseContent a o n sl)
  | .deny dest es => applyDeny a (denyContent dest es)

/-- A control frame as an item (R20, R29). -/
def takeFrame (own : Bool) (f : ControlFrame) (s : State) : State :=
  takeItem own f.addr f.tag (applyBody f.addr f.tag f.body) s

/-! ### Slot observations (R43, R44) -/

/-- A slot entry after a header naming a stream (R43). -/
def headerEntry (id : StreamId) (_e : SlotEntry) : SlotEntry := { owner := some id, silent := 0 }

/-- A slot entry after GARBLED (R43). -/
def garbledEntry (e : SlotEntry) : SlotEntry := { e with silent := 0 }

/-- A slot entry after SILENT (R43, R44): the count holds at 8, where reclaim is due. -/
def silentEntry (e : SlotEntry) : SlotEntry :=
  if e.owner.isSome then { e with silent := Nat.min 8 (e.silent + 1) } else e

/-- Apply an observation to one entry of the copy. -/
def observe (n : Slot) (f : SlotEntry → SlotEntry) (s : State) : State :=
  changeTables { s.tables with slots := s.tables.slots.set n (f s.tables.slots[n]) } s

/-- The header of an intact tile observed in its slot n: an item of its sender (R29, R43). -/
def observeHeader (own : Bool) (n : Slot) (h : TileHeader) (s : State) : State :=
  takeItem own h.addr h.tag (observe n (headerEntry h.streamId)) s

/-! ### Counts that have run out (R30, R37, R39, R44, R48) -/

/-- A slot silent for 8 rounds becomes FREE (R44). -/
def reclaimSlot (n : Slot) (s : State) : State :=
  let e := s.tables.slots[n]
  if e.owner.isSome = true ∧ 8 ≤ e.silent then observe n (fun _ => SlotEntry.free) s else s

/-- Is a PRESENT entry, other than the own one, silent for 48 ticks (R30)? -/
def State.goneDue (s : State) (a : Addr) : Bool :=
  a != s.addr && (match s.tables.roster[a] with
    | some e => e.isPresent && decide (48 ≤ e.age)
    | none => false)

/-- A station silent for 48 ticks goes GONE (R30). -/
def stationGone (a : Addr) (s : State) : State :=
  if s.goneDue a then changeTables (goGone a s.tables) s else s

/-- Is a foreign tag aged 48 (R37)? -/
def State.tagDue (s : State) (tag : Word) : Bool := s.tables.foreign.any (fun x => x.1 == tag && decide (48 ≤ x.2))

/-- A foreign tag aged 48 leaves the set (R37). -/
def tagAgedOut (tag : Word) (s : State) : State := if s.tagDue tag then dropTag tag s else s

/-- Has the last round tick found a foreign tram departed, which is not yet purged (R39)? -/
def State.purgeDue (s : State) (tag : Word) : Bool := s.tables.departed.contains tag

/-- Remove every entry of a tag (R39). -/
def removeTag (own : Addr) (tag : Word) (t : Tables) : Tables :=
  allAddrs.foldl (fun t a =>
    match t.roster[a] with
    | some e => if a ≠ own ∧ e.tag = tag then removeEntry a t else t
    | none => t) t

/-- A departed foreign tram is purged (R39). -/
def purgeTram (tag : Word) (s : State) : State :=
  if s.purgeDue tag then
    changeTables { removeTag s.addr tag s.tables with departed := s.tables.departed.filter (fun x => x != tag) } s
  else s

/-- Is a want record aged 48 (R48)? -/
def State.wantDue (s : State) (p : WantPos) : Bool :=
  match s.tables.wants[p] with
  | some r => decide (48 ≤ r.age)
  | none => false

/-- A want record aged 48 is emptied (R48). -/
def wantExpiry (p : WantPos) (s : State) : State :=
  if s.wantDue p then changeTables { s.tables with wants := s.tables.wants.set p none } s else s

/-! ### The round tick (R28) -/

/-- A count that holds at a limit. -/
def upTo (limit n : Nat) : Nat := if n < limit then n + 1 else n

/-- The roster after a tick: every age but the own one advances, holding at 255 (R28). -/
def tickRoster (own : Addr) (r : Vector (Option RosterEntry) 16) : Vector (Option RosterEntry) 16 :=
  vec16 (fun a => (r[a]).map (fun e => if a = own then e else { e with age := upTo 255 e.age }))

/-- The tags of a roster, other than the station's own, each once, the lowest address first. -/
def foreignTags (own : Word) (r : Vector (Option RosterEntry) 16) : List Word :=
  (((allAddrs.filterMap (fun a => r[a])).map (fun e => e.tag)).filter (fun x => x != own)).eraseDups

/-- Is every entry of a tag GONE with an age of 96 or more (R39)? -/
def tagDeparted (r : Vector (Option RosterEntry) 16) (tag : Word) : Bool :=
  (allAddrs.filterMap (fun a => r[a])).all (fun e => e.tag != tag || (!e.isPresent && decide (96 ≤ e.age)))

/-- The foreign trams that a round tick finds departed (R39). -/
def departedTags (own : Word) (r : Vector (Option RosterEntry) 16) : List Word :=
  (foreignTags own r).filter (tagDeparted r)

/-- The Consist Tables after a tick (R28, R37, R39, R48). -/
def tickTables (own : Addr) (ownTag : Word) (joined : Bool) (t : Tables) : Tables :=
  { t with
    roster := tickRoster own t.roster
    departed := departedTags ownTag (tickRoster own t.roster)
    foreign := t.foreign.map (fun x => (x.1, upTo 48 x.2))
    refresh := if joined then upTo 16 t.refresh else t.refresh
    wants := t.wants.map (fun r => r.map (fun x => { x with age := upTo 48 x.age })) }

/-- A stream after a tick (R60). -/
def tickStream (x : Stream) : Stream :=
  if x.state = .holding then { x with holdCount := upTo 40 x.holdCount } else x

/-- The Composer after a tick (R154, R155, R161). -/
def tickComposer (active : Bool) (c : Composer) : Composer :=
  let c' := c.mapPanes (fun p => if p.bound.isSome then { p with stale := upTo 80 p.stale } else p)
  { c' with
    carry := c.carry.map (fun e => { e with age := upTo 40 e.age })
    wantRefresh := if active then upTo 16 c.wantRefresh else c.wantRefresh }

/-- A round tick: every count that rounds measure advances (R28). -/
def roundTick (s : State) : State :=
  if s.acting then
    (mapStreams tickStream (s.setTables (tickTables s.addr s.cfg.tag (s.trunk.state == .joined) s.tables))).setComp
      (tickComposer s.isActive s.comp)
  else s

end Sys2Proof.Machine
end

