-- ==== Sys2Proof/Machine/Trunk.lean ====
section
/-! DEFINITION. The Trunk Port (chapter 1): rounds and the round timer, MARKs sent and heard, the hearing round,
contention, wins and void endings, control frames sent and heard, data slots and their observations, clashes. -/
namespace Sys2Proof.Machine

/-! ### Rounds (R1 to R3, R28) -/

/-- The interval that the round timer is loaded with (R2); in INERT that of address 15 (R169). -/
def State.interval (s : State) : Nat := if s.trunk.state = .inert then Config.interval 15 else Config.interval s.addr

/-- A signal is heard on the line: it counts from the check point on (R3). -/
def hearSignal (s : State) : State :=
  if !s.trunk.synced || decide (Config.tailStart ≤ s.trunk.offset) then
    s.setTrunk { s.trunk with heardSince := true }
  else s

/-- The round has come at least to an offset, and local time with it (R1; log 4, 45). The starts of positions and slots that a
command passes over in this way are not taken (R8, R16; DESIGN CHOICE, unsafe: log 81). -/
def reach (off : Nat) (s : State) : State :=
  if s.trunk.synced then
    (s.setNow (s.now + (off - s.trunk.offset))).setTrunk { s.trunk with offset := Nat.max s.trunk.offset off }
  else s

/-- Does the station know the round that the slots on the line belong to (R2, R18)? Its timer is synchronised, and it has missed
no MARK since: in EXCLUDED the timer stays synchronised over its expiry (R3), and the slots after it belong to a round whose MARK
the station missed (DEDUCED, unsafe: log 84). -/
def State.knowsRound (s : State) : Bool := s.trunk.synced && !s.trunk.overrun

/-- A round begins at a MARK start, heard or sent: the timer is loaded and synchronised, the once-per-round records are
cleared, and the tables take a round tick (R1, R2, R6, R28). -/
def beginRound (s : State) : State :=
  let tr := s.trunk
  roundTick (s.setTrunk { tr with
    timer := s.interval, synced := true, offset := 0, overrun := false, heardSince := false, opening := .none
    markInTurn := !tr.synced || decide (Config.tailStart ≤ tr.offset)
    markInListen := tr.state == .listen
    won := false, clashed := false, contending := none, rival := none, filter := none })

/-- The station enters JOINED (R24). -/
def join (s : State) : State :=
  let s := s.setTrunk { s.trunk with state := .joined, renumbered := false, candidate := false }
  offer .roster .plain (s.setTables { s.tables with refresh := 0 })

/-- An intact MARK in the hearing round (R24). -/
def hearingIntact (s : State) : State :=
  if s.trunk.state = .listen ∧ s.trunk.markInListen = true then
    if s.trunk.candidate && s.trunk.markInTurn then join s else s.setTrunk { s.trunk with candidate := true }
  else s

/-- A damaged MARK in the hearing round (R24). -/
def hearingDamaged (s : State) : State := s.setTrunk { s.trunk with candidate := false }

/-! ### Clashes (R6, R10, R25) -/

/-- A clash (R10). -/
def clash (s : State) : State :=
  s.setTrunk { s.trunk with
    clashes := bump s.trunk.clashes, consecClash := Nat.min 8 (s.trunk.consecClash + 1), clashed := true
    contending := none, out := .idle }

/-- The station's own control frame clashes; its entry stays (R10). -/
def clashControl (c : Sending) (s : State) : State := clash (s.setQueue (queueClashed s.queue c))

/-- The station's own tile has a read-back failure: a tile error, and GARBLED for its slot (R17). -/
def ownTileFails (n : Slot) (s : State) : State :=
  observe n garbledEntry (s.setTrunk { s.trunk with tileErrors := bump s.trunk.tileErrors, out := .idle })

/-- A MARK start damages the transmission the station is making (R6; log 30). A station that contends within the field of a
position is making a control frame (log 42). -/
def damageOut (s : State) : State :=
  match s.trunk.out with
  | .idle => if s.trunk.contending.isSome && Config.inField s.trunk.offset then clash s else s
  | .mark _ => hearingDamaged (clash s)
  | .control c => clashControl c s
  | .voidEnding _ => clash s
  | .tile n _ _ => ownTileFails n s

/-- The clash limit: EXCLUDED with reason CLASH (R10, R25). -/
def clashLimit (s : State) : State :=
  if s.acting = true ∧ 8 ≤ s.trunk.consecClash ∧ s.trunk.state ≠ .excluded .clash then enterExcluded .clash s else s

/-! ### The round timer (R3) -/

/-- Send a MARK: the new round count is adopted and the round begins (R1, R3, R4). -/
def sendMark (s : State) : State :=
  let count := s.trunk.roundCount + 1#8
  let s := beginRound s
  s.setTrunk { s.trunk with roundCount := count, out := .mark (markBytes s.addr s.cfg.tag count) }

/-- The timer runs out with the line not quiet: a missed MARK (R3). -/
def missMark (s : State) : State :=
  roundTick (s.setTrunk { s.trunk with
    missedMarks := bump s.trunk.missedMarks, timer := s.interval, synced := false, overrun := true, heardSince := false
    candidate := false, contending := none })

/-- The timer is loaded again with its state unchanged. The load is the check point of an unsynchronised timer (R3). That it has
run out without a MARK is recorded (R18; DEDUCED, unsafe: log 84). -/
def reloadTimer (s : State) : State :=
  s.setTrunk { s.trunk with
    timer := s.interval, overrun := true, heardSince := s.trunk.synced && s.trunk.heardSince }

/-- The round timer runs out (R3). `signal` says that a signal which no other command reports was on the line since the
check point. -/
def roundTimerExpiry (signal : Bool) (s : State) : State :=
  if s.boot.phase = .started ∧ s.trunk.timer = 0 then
    match s.trunk.state with
    | .inert => reloadTimer s
    | .excluded _ => roundTick (reloadTimer s)
    | _ => if s.trunk.heardSince || signal then missMark s else sendMark s
  else s

/-! ### MARKs heard and read back (R4 to R6, R24) -/

/-- Is the station's own MARK still within one arbitration bit time (R4; log 13)? -/
def State.markContends (s : State) : Bool :=
  match s.trunk.out with
  | .mark _ => decide (s.trunk.offset ≤ 1)
  | _ => false

/-- The start of a MARK is heard, in any trunk state (R1, R2, R6). One that contends with the own MARK is kept as the
rival's start (R4). A data slot that a MARK out of turn cuts with no tile in it gives no observation of its own: R6 ends the
old round where it stands (R18; DESIGN CHOICE, unsafe: log 66). -/
def markStartHeard (s : State) : State :=
  if s.boot.phase = .started then
    if s.markContends then s.setTrunk { s.trunk with rival := some s.trunk.offset }
    else beginRound (damageOut s)
  else s

/-- The loser of a MARK contention stops sending; its round and its timer count from the winner's MARK start (R4). -/
def loseMark (s : State) : State :=
  match s.trunk.out with
  | .mark _ => s.setTrunk { s.trunk with
      out := .idle, rival := none, timer := s.trunk.timer + s.trunk.rival.getD 0
      offset := s.trunk.offset - s.trunk.rival.getD 0 }
  | _ => s

/-- An intact MARK body: its count is adopted, and it is an item for the tables (R5, R24). -/
def markIntact (rx : MarkRx) (count : Byte) (s : State) : State :=
  let s := s.setTrunk { s.trunk with roundCount := count, opening := .intact }
  hearingIntact (takeItem false rx.addr rx.tag id s)

/-- A damaged MARK body: the round count advances, in any trunk state (R5). -/
def markDamaged (s : State) : State :=
  hearingDamaged (s.setTrunk { s.trunk with
    markErrors := bump s.trunk.markErrors, roundCount := s.trunk.roundCount + 1#8, opening := .damaged })

/-- The end of a heard MARK (R5). -/
def markBodyReceived (rx : MarkRx) (s : State) : State :=
  if s.boot.phase = .started then
    match readMark rx with
    | some count => markIntact rx count (loseMark s)
    | none => markDamaged (loseMark s)
  else s

/-- The end of the station's own MARK (R4, R24). -/
def markReadbackEnd (readBack : List Byte) (s : State) : State :=
  match s.trunk.out with
  | .mark b =>
    if readBack = b then
      hearingIntact (s.setTrunk { s.trunk with
        out := .idle, marksSent := bump s.trunk.marksSent, consecClash := 0, opening := .intact })
    else hearingDamaged (clash s)
  | _ => s

/-! ### Contention (R8, R9, R15) -/

/-- May the station contend at a control position (R8)? One whose own transmission has not ended does not (log 43). -/
def State.mayContend (s : State) : Bool :=
  s.boot.phase == .started && s.trunk.state == .joined && s.trunk.synced && !s.trunk.won && !s.trunk.clashed
    && s.trunk.out == .idle

/-- A control position starts (R8). -/
def positionStart (k : Nat) (s : State) : State :=
  let s := reach (Config.positionStart k) s
  if s.mayContend then
    s.setTrunk { s.trunk with contending := s.queue.head?.map (fun e => e.subject) }
  else s.setTrunk { s.trunk with contending := none }

/-- The class of a subject as a field's class (R11). -/
def Subject.cls4 : Subject → Fin 4
  | .door _ => 0
  | .lens _ => 1
  | .cab => 1
  | .stream _ => 2
  | .want => 2
  | .deny _ => 2
  | .roster => 3

/-- Send the frame of a won entry, its content fixed now (R9). -/
def beginFrame (e : QueueEntry) (body : FrameBody) (s : State) : State :=
  let f : ControlFrame := { addr := s.addr, tag := s.cfg.tag, body := body }
  let c : Sending := { subject := e.subject, kind := e.kind, frame := f, bytes := controlBytes f, again := none }
  s.setTrunk { s.trunk with out := .control c }

/-- Close a won position with a void ending (R9). -/
def beginVoid (sub : Subject) (s : State) : State :=
  s.setTrunk { s.trunk with out := .voidEnding (voidBytes sub.cls4 s.addr s.cfg.tag) }

/-- The owner declines: its entry leaves the queue and the position is closed with a void ending (R9). -/
def declineEntry (sub : Subject) (s : State) : State := beginVoid sub (s.setQueue (queueRemove s.queue sub))

/-! ### Content at the win (R9, R32, R86, R105, R126, R155) -/

/-- The phase that Door Watch holds for a channel (R86, R87). -/
def State.channelPhase (s : State) (c : Chan) : DoorPhase :=
  match s.channels[c] with
  | some ch => ch.phase
  | none => .unknown

/-- The camera descriptor of an input as a ROSTER carries it, with the lens record (R32). -/
def State.camRaw (s : State) (i : Input) : Option CamRaw :=
  match s.cfg.cams[i], s.lens.records[i] with
  | some c, some r => some
      { input := byte i.val, kind := kindCode c.view.kind, side := sideCode c.side, place := viewPlace c.view,
        grade := gradeCode r.grade, flags := flagsByte r.held r.unbaselined }
  | _, _ => none

/-- The door descriptor of a channel as a ROSTER carries it, with the phase (R32, R87). -/
def State.doorRaw (s : State) (c : Chan) : Option DoorRaw :=
  (s.cfg.doors[c]).map (fun d =>
    { chan := byte c.val, door := byte d.door, side := sideCode d.side, exterior := exteriorCode d.exterior,
      phase := phaseCode (s.channelPhase c) })

/-- The own coupler information (R34). -/
def State.ownCoupler (s : State) : Option (TramEnd × Bool) := s.cfg.endStation.map (fun e => (e, s.couplerFilter.accepted))

/-- The station's ROSTER (R32): its camera descriptors in ascending input order and its door descriptors in ascending channel
order, which no rule gives (R177; DESIGN CHOICE, unsafe: log 86). -/
def State.rosterBody (s : State) : FrameBody :=
  .roster (byte s.cfg.localNo.val) (roleCode s.cfg.role) (couplerCode s.ownCoupler)
    (if s.isActive then 0x01#8 else 0x00#8) (allInputs.filterMap s.camRaw) (allChans.filterMap s.doorRaw)

/-- An entry of a WANT as its frame carries it (R177). -/
def wantQuad (e : WantEntry) : Quad where
  b0 := byte e.cam.addr.val
  b1 := byte e.cam.input.val
  b2 := (classCode e.floor <<< 2) ||| classCode e.cls
  b3 := if e.carry then 0x01#8 else 0x00#8

/-- An entry of a DENY as its frame carries it (R177). -/
def denyQuad (r : Refused) : Quad where
  b0 := byte r.cam.addr.val
  b1 := byte r.cam.input.val
  b2 := classCode r.cls
  b3 := reasonCode r.reason

/-- The slots of a list as bytes. -/
def slotBytes (sl : List Slot) : List Byte := sl.map (fun k => byte k.val)

/-- The CLAIM of a stream at a class with its slots (R41, R177). -/
def State.claimBody (s : State) (n : StreamNo) (x : Stream) (k : SizeClass) (sl : List Slot) : FrameBody :=
  .claim (byte s.addr.val) s.cfg.tag (byte n.val) (byte x.input.val) (classCode k) (slotBytes sl)

/-- The win of a CLAIM (R54). -/
def winClaim (e : QueueEntry) (n : StreamNo) (x : Stream) (s : State) : State :=
  match claimOutcome s.engine.table s.tables.slots n x x.candidates with
  | .fit k sl => beginFrame e (s.claimBody n x k sl) (fitClaim n k x s)
  | .merge o => mergeClaim n o x (declineEntry e.subject s)
  | .none => declineClaim n x (declineEntry e.subject s)

/-- The win of a RELEASE (R61). -/
def winRelease (e : QueueEntry) (n : StreamNo) (s : State) : State :=
  let sl := slotsOf s.tables.slots s.addr n
  if sl.isEmpty then evaluateDemand ((declineEntry e.subject s).setStream n none)
  else beginFrame e (.release (byte s.addr.val) s.cfg.tag (byte n.val) (slotBytes sl)) s

/-- The win of a DENY (R57). -/
def winDeny (e : QueueEntry) (p : WantPos) (s : State) : State :=
  match s.tables.wants[p], s.denyList p with
  | some r, x :: xs => beginFrame e (.deny (byte r.sender.val) ((x :: xs).map denyQuad)) s
  | _, _ => declineEntry e.subject s

/-- The win of an entry: the owning block fixes the content, or declines (R9). -/
def winEntry (e : QueueEntry) (s : State) : State :=
  match e.subject with
  | .door c => beginFrame e (.door (byte c.val) (phaseCode (s.channelPhase c))) s
  | .lens i =>
    match s.lens.records[i] with
    | some r => beginFrame e (.lens (byte i.val) (gradeCode r.grade) (flagsByte r.held r.unbaselined)) s
    | none => declineEntry e.subject s
  | .cab =>
    match s.cfg.endStation with
    | some x => beginFrame e (.cab (if e.kind = .take then 0x01#8 else 0x02#8) (endCode x)) s
    | none => declineEntry e.subject s
  | .stream n =>
    match s.engine.table[n] with
    | some x => if e.kind = .claim then winClaim e n x s else winRelease e n s
    | none => declineEntry e.subject s
  | .want => beginFrame e (.want ((if s.isActive then s.comp.wantList else []).map wantQuad)) s
  | .deny p => winDeny e p s
  | .roster => beginFrame e s.rosterBody s

/-- The station's field has survived the arbitration field (R9). The win finds the subject's entry as the queue now holds
it: one withdrawn and offered again since the start of the position is sent, and none gives a void ending (R13, R14;
DESIGN CHOICE, unsafe: log 38). -/
def arbitrationWin (s : State) : State :=
  match s.trunk.contending with
  | none => s
  | some sub =>
    let s := s.setTrunk { s.trunk with contending := none, won := true }
    match queueFind s.queue sub with
    | some e => winEntry e s
    | none => beginVoid sub s

/-! ### Control frames sent (R9, R10) -/

/-- What a transmitted frame does to its stream before the tables take it (R55, R61). -/
def streamFrameSent (c : Sending) (s : State) : State :=
  match c.subject with
  | .stream n => if c.kind = .claim then claimSent n s else releaseSent n s
  | _ => s

/-- What a transmitted frame does to its owner after the tables have taken it (R32, R123, R155). -/
def ownerFrameSent (c : Sending) (s : State) : State :=
  match c.subject with
  | .stream _ => evaluateDemand s
  | .cab => ownCabSent (c.kind == .take) s
  | .want => s.setComp { s.comp with wantRefresh := 0 }
  | .roster => s.setTables { s.tables with refresh := 0 }
  | _ => s

/-- The station's own control frame has been transmitted (R9). -/
def frameSent (c : Sending) (s : State) : State :=
  let s := (s.setQueue (queueSent s.queue c)).setTrunk
    { s.trunk with out := .idle, framesSent := bump s.trunk.framesSent, consecClash := 0 }
  ownerFrameSent c (takeFrame true c.frame (streamFrameSent c s))

/-- The end of the station's own control frame or void ending, as read back (R9, R10; log 11). -/
def controlFrameSent (readBack : List Byte) (s : State) : State :=
  match s.trunk.out with
  | .control c => if readBack = c.bytes then frameSent c s else clashControl c s
  | .voidEnding b => if readBack = b then s.setTrunk { s.trunk with out := .idle } else clash s
  | _ => s

/-! ### Control frames heard (R9, R19, R20) -/

/-- A control frame of a kind is heard (R19, R20). An intact frame of another kind belongs to another command, and
leaves the state as it is (log 9). -/
def frameHeard (k : FrameKind) (rx : ControlRx) (s : State) : State :=
  if s.boot.phase = .started then
    match readControl rx with
    | .frame f =>
      if f.body.kind = k then takeFrame false f (hearSignal (s.setTrunk { s.trunk with contending := none })) else s
    | .empty => hearSignal (s.setTrunk { s.trunk with contending := none })
    | .failed =>
      hearSignal (s.setTrunk { s.trunk with contending := none, frameErrors := bump s.trunk.frameErrors })
  else s

/-! ### Data slots (R16 to R18, R20) -/

/-- May the station start a tile (R16)? One whose own MARK, control frame or void ending has not ended starts none; a tile of
its own that has not ended is replaced (DESIGN CHOICE, unsafe: log 69). -/
def State.maySendTile (s : State) : Bool :=
  s.boot.phase == .started && s.trunk.state == .joined && s.trunk.synced
    && (match s.trunk.out with
        | .idle => true
        | .tile _ _ _ => true
        | _ => false)

/-- The receive filter for the tile of a slot is taken as the slot starts (R20; DEDUCED, unsafe: log 46). -/
def noteFilter (n : Slot) (s : State) : State := s.setTrunk { s.trunk with filter := some (s.tileFilter n) }

/-- A data slot starts (R16, R20, R73). -/
def slotStart (n : Slot) (s : State) : State :=
  let s := noteFilter n (reach (Config.slotStart n.val) s)
  if s.maySendTile then
    match s.slotStream n with
    | some (k, x) =>
      let t := s.supplyTile n k x
      (s.setStream k (some t.2.2)).setTrunk { s.trunk with out := .tile n t.1 (tileBytes t.1 t.2.1) }
    | none => s
  else s

/-- An intact tile in a slot: its header is observed and its payload goes to the Composer. A header of another slot is
taken as GARBLED: it is no item, gives no tag, and its payload is not passed (R43, R178; DEDUCED, unsafe: log 39). -/
def takeTile (own : Bool) (n : Slot) (h : TileHeader) (payload : List Byte) (s : State) : State :=
  if h.slot = byte n.val then composerTile (s.filterOf n) h payload (observeHeader own n h s)
  else observe n garbledEntry s

/-- The station's own tile, sent with a matching read-back (R17, R18, R20). -/
def ownTileSent (n : Slot) (h : TileHeader) (payload : List Byte) (s : State) : State :=
  takeTile true n h payload (s.setTrunk { s.trunk with out := .idle, tilesSent := bump s.trunk.tilesSent })

/-- A tile heard in a slot (R17 to R20). -/
def tileHeard (n : Slot) (rx : TileRx) (s : State) : State :=
  let observed := s.acting && s.knowsRound
  match readTile rx with
  | some (h, payload) => if observed then takeTile false n h payload s else s
  | none =>
    let s := s.setTrunk { s.trunk with tileErrors := bump s.trunk.tileErrors }
    if observed then observe n garbledEntry s else s

/-- A tile that a MARK out of turn cuts: its reception ends without a check value that matches, so it is counted, and its
slot is GARBLED (R18, R19; DEDUCED, unsafe: log 52). -/
def tileCut (n : Slot) (s : State) : State :=
  let s' := s.setTrunk { s.trunk with tileErrors := bump s.trunk.tileErrors }
  if s.acting && s.knowsRound then observe n garbledEntry s' else s'

/-- What stands in a slot when the station sends nothing in it: an observation only in a round that it knows (R18). -/
def slotHeard (n : Slot) (line : SlotLine) (s : State) : State :=
  match line with
  | .silent => if s.acting && s.knowsRound then observe n silentEntry s else s
  | .signal => if s.acting && s.knowsRound then observe n garbledEntry s else s
  | .tile rx => tileHeard n rx s
  | .cut => tileCut n s

/-- The payload in the bytes of a tile: what stands between the 11 header bytes and the check value (R178). -/
def tilePayload (bytes : List Byte) : List Byte := (bytes.drop 11).take (bytes.length - 15)

/-- The end of a slot in which the station sent a tile (R17). -/
def ownSlotEnd (n : Slot) (h : TileHeader) (bytes : List Byte) (line : SlotLine) (s : State) : State :=
  match line with
  | .tile rx =>
    if rx.addr.val < s.addr.val then tileHeard n rx (s.setTrunk { s.trunk with out := .idle })
    else if rx.addr = s.addr ∧ rx.bytes = bytes then ownTileSent n h (tilePayload bytes) s
    else ownTileFails n s
  | _ => ownTileFails n s

/-- Does a slot line carry a signal (R3)? -/
def lineSignal : SlotLine → Bool
  | .silent => false
  | _ => true

/-- The round at an observation of a slot: it has come to the slot's end (R18), or, at a tile that a MARK out of turn cuts,
it stands where it stood (R6; log 52). The end of a slot is the start of the next, which the observation itself does not
start: DATA_SLOT_START or the step on an empty queue does (R16; DESIGN CHOICE, unsafe: log 81). -/
def reachSlotEnd (n : Slot) (line : SlotLine) (s : State) : State :=
  match line with
  | .cut => s
  | _ => if s.knowsRound then reach (Config.slotStart (n.val + 1)) s else s

/-- The end of a data slot, or of a tile cut within it (R17 to R20, R43). A slot of a round that the station knows lies before
the check point; one of a round whose MARK it missed lies after it (R3). -/
def slotObservation (n : Slot) (line : SlotLine) (s : State) : State :=
  if s.boot.phase = .started then
    let s := if lineSignal line && !s.knowsRound then hearSignal s else s
    let s := reachSlotEnd n line s
    match s.trunk.out with
    | .tile m h b => if m = n then ownSlotEnd n h b line s else slotHeard n line s
    | _ => slotHeard n line s
  else s

end Sys2Proof.Machine
end

