-- ==== Sys2Proof/Machine/Doors.lean ====
section
/-! DEFINITION. Door Watch (chapter 5) and every filtered line: levels and filters (R79), the door phase machine
(R80 to R84), the coupler line (R34), CAB_ON, REVERSE and the driver keys (R121, R141, R148). -/
namespace Sys2Proof.Machine

/-! ### Filters (R79) -/

/-- A filter at a change of its line's level: the time of standing still starts anew, and with it the filter state
(R79, R84). -/
def LineFilter.edge (f : LineFilter) : LineFilter := { f with differ := 0, still := 0 }

/-- Has the filter state reached the filter time, the level differing from the accepted value (R79)? -/
def LineFilter.due (f : LineFilter) (level : Bool) (time : Nat) : Bool := level != f.accepted && decide (time ≤ f.differ)

/-- The accepted value takes the line's level (R79). -/
def LineFilter.accept (f : LineFilter) : LineFilter := { f with accepted := !f.accepted, differ := 0 }

/-- A filter one us later (R79, R84); both times hold at the filter time. -/
def LineFilter.tick (f : LineFilter) (level : Bool) (time : Nat) : LineFilter :=
  { f with differ := if level = f.accepted then 0 else Nat.min time (f.differ + 1), still := Nat.min time (f.still + 1) }

/-! ### The phase machine (R80 to R84) -/

/-- The line phase; none is CLOSED-OUT (R80). -/
def linePhase (rel shut edge : Bool) : Option DoorPhase :=
  if shut then (if rel then some .released else some .locked)
  else if edge then some .obstructed
  else if rel then some .opened
  else none

/-- The line phase of a channel's accepted values (R80). -/
def Channel.linePhase (c : Channel) : Option DoorPhase :=
  Machine.linePhase c.rel.accepted c.shut.accepted c.edge.accepted

/-- The phase after an accepted change, from the line phase and the phase held (R81). -/
def phaseAfter (line : Option DoorPhase) (held : DoorPhase) : DoorPhase :=
  match line with
  | some p => p
  | none => if held = .fault then .fault else .closing

/-- A channel with its phase set; the closing timer runs on within CLOSING, starts at 0 on an entry into it and is
stopped at 0 elsewhere (R81, R82; that it stands at 0 in FAULT: DESIGN CHOICE, safe: log 48). -/
def Channel.setPhase (c : Channel) (p : DoorPhase) : Channel :=
  { c with phase := p, settled := true, closing := if p = .closing ∧ c.phase = .closing then c.closing else 0 }

/-- Put a channel back; a change of its phase offers its DOOR (R86). -/
def putChannel (ch : Chan) (old new : Channel) (s : State) : State :=
  let s' := s.setChannels (s.channels.set ch (some new))
  if new.phase = old.phase then s' else offer (.door ch) .plain s'

/-- An accepted change of a channel whose filters stand in c: phases follow in a settled channel (R81, R84). -/
def Channel.follow (c : Channel) : Channel :=
  if c.settled then c.setPhase (phaseAfter c.linePhase c.phase) else c

/-- One filter of a channel. -/
def Channel.filter (c : Channel) : DoorLine → LineFilter
  | .rel => c.rel
  | .shut => c.shut
  | .edge => c.edge

/-- A channel with one filter replaced. -/
def Channel.setFilter (c : Channel) (l : DoorLine) (f : LineFilter) : Channel :=
  match l with
  | .rel => { c with rel := f }
  | .shut => { c with shut := f }
  | .edge => { c with edge := f }

/-- The level of one line of a channel. -/
def DoorLevels.level (d : DoorLevels) : DoorLine → Bool
  | .rel => d.rel
  | .shut => d.shut
  | .edge => d.edge

/-- The levels with one line of a channel set. -/
def DoorLevels.setLevel (d : DoorLevels) (l : DoorLine) (b : Bool) : DoorLevels :=
  match l with
  | .rel => { d with rel := b }
  | .shut => { d with shut := b }
  | .edge => { d with edge := b }

/-- A line of a door channel is accepted, if its filter has run out (R79, R81; log 3). -/
def doorAccepted (ch : Chan) (l : DoorLine) (s : State) : State :=
  match s.channels[ch] with
  | none => s
  | some c =>
    if (c.filter l).due ((s.levels.door[ch]).level l) s.cfg.filterTime then
      putChannel ch c (c.setFilter l (c.filter l).accept).follow s
    else s

/-- Have all lines of a channel equalled their accepted values for a filter time (R84)? -/
def Channel.steady (c : Channel) (d : DoorLevels) (time : Nat) : Bool :=
  [DoorLine.rel, .shut, .edge].all (fun l => d.level l == (c.filter l).accepted && decide (time ≤ (c.filter l).still))

/-- Is the channel to settle (R84)? -/
def State.settleDue (s : State) (ch : Chan) : Bool :=
  match s.channels[ch] with
  | none => false
  | some c => !c.settled && c.steady s.levels.door[ch] s.cfg.filterTime

/-- A channel settles (R84). -/
def channelSettled (ch : Chan) (s : State) : State :=
  match s.channels[ch] with
  | none => s
  | some c => if s.settleDue ch then putChannel ch c (c.setPhase (phaseAfter c.linePhase c.phase)) s else s

/-- The closing timer of a channel reaches the closing limit (R83). -/
def closingLimit (ch : Chan) (s : State) : State :=
  match s.channels[ch] with
  | none => s
  | some c =>
    if c.phase = .closing ∧ s.cfg.closingLimit ≤ c.closing then
      putChannel ch c { c.setPhase .fault with faults := bump c.faults } s
    else s

/-! ### Coupler, CAB_ON, REVERSE, keys -/

/-- The coupler line is accepted (R34). -/
def couplerAccepted (s : State) : State :=
  if s.acting = true ∧ s.cfg.endStation.isSome = true
      ∧ s.couplerFilter.due s.levels.coupler s.cfg.filterTime = true then
    let s1 := s.setCouplerFilter s.couplerFilter.accept
    let entry := (s1.tables.roster[s1.addr]).map (fun e => { e with coupler := s1.ownCoupler })
    offer .roster .plain (s1.setTables { s1.tables with roster := s1.tables.roster.set s1.addr entry })
  else s

/-- Does the station read its cab lines: role CAB, started (R121; spec/00 section 0.5)? -/
def State.readsCab (s : State) : Bool := s.acting && s.isCab

/-- CAB_ON is accepted (R121, R122). -/
def cabOnAccepted (s : State) : State :=
  if s.readsCab = true ∧ s.cab.cabOn.due s.levels.cabOn s.cfg.filterTime = true then
    let f := s.cab.cabOn.accept
    cabOnChange f.accepted (s.setCab { s.cab with cabOn := f })
  else s

/-- REVERSE is accepted (R141). -/
def reverseAccepted (s : State) : State :=
  if s.readsCab = true ∧ s.cab.reverse.due s.levels.reverse s.cfg.filterTime = true then
    settleViews (s.setCab { s.cab with reverse := s.cab.reverse.accept })
  else s

/-- The filter of a key. -/
def CabControl.key (c : CabControl) : Key → LineFilter
  | .nextL => c.nextL
  | .nextR => c.nextR
  | .ack => c.ack

/-- Cab Control with the filter of a key replaced. -/
def CabControl.setKey (c : CabControl) (k : Key) (f : LineFilter) : CabControl :=
  match k with
  | .nextL => { c with nextL := f }
  | .nextR => { c with nextR := f }
  | .ack => { c with ack := f }

/-- The level of a key. -/
def Levels.key (l : Levels) : Key → Bool
  | .nextL => l.nextL
  | .nextR => l.nextR
  | .ack => l.ack

/-- Is a change of a key to a value accepted now (R148)? -/
def State.keyDue (s : State) (k : Key) (on : Bool) : Bool :=
  s.readsCab && s.levels.key k == on && (s.cab.key k).due (s.levels.key k) s.cfg.filterTime

/-- A key is accepted on, a press with its effect, or off, without one (R148). -/
def keyAccepted (k : Key) (on : Bool) (effect : State → State) (s : State) : State :=
  if s.keyDue k on then
    let s' := s.setCab (s.cab.setKey k (s.cab.key k).accept)
    if on then effect s' else s'
  else s

/-- A press of ACK is accepted (R148, R149). -/
def ackAccepted (s : State) : State := keyAccepted .ack true ackPress s

/-- The key of a side. -/
def nextKey : Side → Key
  | .left => .nextL
  | .right => .nextR

/-- A press of NEXT_L or NEXT_R is accepted (R148, R150). -/
def nextAccepted (side : Side) (s : State) : State := keyAccepted (nextKey side) true (nextPress side) s

/-- A key held off for the filter time is accepted off (R148). -/
def keyReleaseAccepted (k : Key) (s : State) : State := keyAccepted k false id s

/-- The linger timer of a screen runs out (R144; log 3). -/
def lingerExpiry (side : Side) (s : State) : State :=
  if s.isActive = true ∧ (s.screen side).linger.isSome = true ∧ (s.screen side).lingerTimer = 0 then
    settlePanes (lingerEnd side s)
  else s

/-! ### Edges (R79, R114) -/

/-- The acceptance that a line's filter owes by now is taken (R79; log 3). A channel that settles at that acceptance, its other
lines having stood for the filter time, settles then, before the edge (R84; DESIGN CHOICE, unsafe: log 82). -/
def lineAccepted (l : VehicleLine) (s : State) : State :=
  match l with
  | .door ch x => channelSettled ch (doorAccepted ch x s)
  | .coupler => couplerAccepted s
  | .cabOn => cabOnAccepted s
  | .reverse => reverseAccepted s
  | .key .ack => keyReleaseAccepted .ack (ackAccepted s)
  | .key .nextL => keyReleaseAccepted .nextL (nextAccepted .left s)
  | .key .nextR => keyReleaseAccepted .nextR (nextAccepted .right s)
  | .service => s

/-- The level of a line. -/
def Levels.get (l : Levels) : VehicleLine → Bool
  | .door ch x => (l.door[ch]).level x
  | .coupler => l.coupler
  | .cabOn => l.cabOn
  | .reverse => l.reverse
  | .key k => l.key k
  | .service => l.service

/-- The levels with one line set. -/
def Levels.set (l : Levels) (line : VehicleLine) (b : Bool) : Levels :=
  match line with
  | .door ch x => { l with door := l.door.set ch ((l.door[ch]).setLevel x b) }
  | .coupler => { l with coupler := b }
  | .cabOn => { l with cabOn := b }
  | .reverse => { l with reverse := b }
  | .key .nextL => { l with nextL := b }
  | .key .nextR => { l with nextR := b }
  | .key .ack => { l with ack := b }
  | .service => { l with service := b }

/-- The filter of a line starts or is reset at an edge (R79). -/
def filterEdge (line : VehicleLine) (s : State) : State :=
  match line with
  | .door ch x =>
    s.setChannels (s.channels.set ch ((s.channels[ch]).map (fun c => c.setFilter x (c.filter x).edge)))
  | .coupler => s.setCouplerFilter s.couplerFilter.edge
  | .cabOn => s.setCab { s.cab with cabOn := s.cab.cabOn.edge }
  | .reverse => s.setCab { s.cab with reverse := s.cab.reverse.edge }
  | .key k => s.setCab (s.cab.setKey k (s.cab.key k).edge)
  | .service => s

/-- The SERVICE line is deasserted (R114). -/
def serviceDeasserted (s : State) : State :=
  let s' := s.setLevels { s.levels with service := false }
  if s.acting = true ∧ s.store.progress ≠ .none then
    s'.setStore { s'.store with progress := .none, stepTimer := none }
  else s'

/-- A line changes its level (R79); SERVICE has no filter (R114; log 10). An edge to the level that stands is none. At the moment
at which the line's filter runs out, the acceptance comes before the edge, and so does the settling that it brings to the
channel (R79, R84; DESIGN CHOICE, unsafe: log 82). -/
def lineEdge (line : VehicleLine) (level : Bool) (s : State) : State :=
  if s.levels.get line = level then s
  else
    match line with
    | .service => if level then s.setLevels { s.levels with service := true } else serviceDeasserted s
    | _ =>
      let s' := lineAccepted line s
      filterEdge line (s'.setLevels (s'.levels.set line level))

end Sys2Proof.Machine
end

