-- ==== Sys2Proof/Machine/Lens.lean ====
section
/-! DEFINITION. Lens Watch's measurement (chapter 6): zone statistics, zone ratios, verdicts, and what a decisive pass,
a rise, a fall and a measurement period do to a lens record. -/
namespace Sys2Proof.Machine

/-! ### Statistics of a frame (R99) -/

/-- The absolute difference of two numbers. -/
def absDiff (a b : Nat) : Nat := if a ≤ b then b - a else a - b

/-- The lumas of zone z of a frame of L lines of P pixels, line by line (R99). -/
def zoneLumas (lines pixels : Nat) (frame : FrameLines) (z : Nat) : List (List Nat) :=
  let r := z / 4
  let c := z % 4
  (slice (r * lines / 4) ((r + 1) * lines / 4) frame).map (fun l =>
    (slice (c * pixels / 4) ((c + 1) * pixels / 4) l).map luma)

/-- The differences between the elements of two lists, place by place. -/
def diffs (xs ys : List Nat) : List Nat := List.zipWith absDiff xs ys

/-- The differences of each pixel of a line with its right-hand neighbour. -/
def rightDiffs (line : List Nat) : List Nat := diffs line line.tail

/-- The differences of each pixel of a zone with its neighbours to the right and below, inside the zone (R99). -/
def edgeDiffs (zone : List (List Nat)) : List Nat :=
  (zone.map rightDiffs).flatten ++ (List.zipWith diffs zone zone.tail).flatten

/-- Mean brightness of a zone (R99). -/
def zoneMean (zone : List (List Nat)) : Nat := sumNat zone.flatten / zone.flatten.length

/-- Edge energy of a zone (R99). -/
def zoneEnergy (zone : List (List Nat)) : Nat := 16 * sumNat (edgeDiffs zone) / (edgeDiffs zone).length

/-- Temporal difference of a zone against the same zone of the previous pass frame (R99). -/
def zoneTemporal (zone before : List (List Nat)) : Nat :=
  sumNat (diffs zone.flatten before.flatten) / zone.flatten.length

/-- The zone mean brightnesses of a frame. -/
def State.zoneMeans (s : State) (frame : FrameLines) : Vector Nat 16 :=
  vec16 (fun z => zoneMean (zoneLumas s.cfg.lineCount s.cfg.pixelCount frame z.val))

/-- The zone edge energies of a frame. -/
def State.zoneEnergies (s : State) (frame : FrameLines) : Vector Nat 16 :=
  vec16 (fun z => zoneEnergy (zoneLumas s.cfg.lineCount s.cfg.pixelCount frame z.val))

/-- The frame brightness: the mean of the 16 zone means (R99). -/
def brightnessOf (means : Vector Nat 16) : Nat := sumNat means.toList / 16

/-- The highest of some numbers. -/
def highest (xs : List Nat) : Nat := xs.foldl Nat.max 0

/-- The lowest of some numbers. -/
def lowest : List Nat → Nat
  | [] => 0
  | x :: xs => xs.foldl Nat.min x

/-- The global contrast (R99). -/
def contrastOf (means : Vector Nat 16) : Nat := highest means.toList - lowest means.toList

/-- A zone ratio: 16 x edge energy by baseline, rounded down and held at 255 (R99). -/
def zoneRatio (energy baseline : Nat) : Nat := Nat.min 255 (16 * energy / baseline)

/-! ### The verdict (R100, R101) -/

/-- The verdict by the number of suspect zones (R100 step 6). -/
def gradeOfCount (n : Nat) : Grade :=
  if n ≤ 1 then .clean else if n ≤ 4 then .watch else if n ≤ 9 then .soiled else .obscured

/-- The zones whose temporal difference exceeds the disturbance limit (R100 step 3). -/
def State.disturbedZones (s : State) (frame before : FrameLines) : Vector Bool 16 :=
  vec16 (fun z => decide (s.cfg.soiling.disturbance <
    zoneTemporal (zoneLumas s.cfg.lineCount s.cfg.pixelCount frame z.val)
      (zoneLumas s.cfg.lineCount s.cfg.pixelCount before z.val)))

/-- How many of 16 zones satisfy a condition. -/
def countZones (p : Fin 16 → Bool) : Nat := (allAddrs.filter p).length

/-- The verdict of steps 4 to 6 from the numbers of scored and suspect zones and the contrast (R100). -/
def scoredVerdict (collapse contrast scored suspect : Nat) : Verdict :=
  if scored < 8 then .indecisive .disturbed
  else if contrast < collapse then .decisive .obscured
  else .decisive (gradeOfCount suspect)

/-- A pass computed on a frame against an in-use baseline and a previous pass frame (R99 to R101; DEDUCED, unsafe: log 27). A
frame below the dark floor is DARK also where there is no previous pass frame (R100, R101, R109; DEDUCED, unsafe: log 71). -/
def State.passOf (s : State) (r : LensRecord) (frame : FrameLines) : Pass :=
  let means := s.zoneMeans frame
  let energies := s.zoneEnergies frame
  let ratios := vec16 (fun z => zoneRatio energies[z] r.baseline[z])
  let undecided (v : Verdict) : Pass :=
    { verdict := v, brightness := brightnessOf means, contrast := contrastOf means, scored := 0, suspect := 0,
      fromRecord := !r.unbaselined, ratios := ratios, disturbed := Vector.replicate 16 false }
  if brightnessOf means < s.cfg.soiling.darkFloor then undecided .dark
  else
    match r.previous with
    | none => undecided (.indecisive .noReference)
    | some before =>
      let disturbed := s.disturbedZones frame before
      let scored := countZones (fun z => !disturbed[z])
      let suspect := countZones (fun z => !disturbed[z] && decide (ratios[z] < s.cfg.soiling.suspect))
      { undecided (scoredVerdict s.cfg.soiling.collapse (contrastOf means) scored suspect) with
        scored := scored, suspect := suspect, disturbed := disturbed }

/-! ### The lens record (R97, R102 to R105) -/

/-- The run peak after a raw grade above the grade (R102). -/
def peakAfter (peak : Option Grade) (g : Grade) : Option Grade :=
  match peak with
  | none => some g
  | some p => if p.rank < g.rank then some g else some p

/-- The counts after a decisive pass of raw grade g (R102); they hold at the confirm settings until GRADE_RISE or
GRADE_FALL takes them. -/
def LensRecord.judge (r : LensRecord) (c : Soiling) (g : Grade) : LensRecord :=
  let r' := { r with quiet := 0, decisive := true, held := false }
  if r.grade.rank < g.rank then
    { r' with rise := Nat.min c.riseConfirm (r.rise + 1), fall := 0, peak := peakAfter r.peak g }
  else if g.rank < r.grade.rank then
    { r' with rise := 0, fall := Nat.min c.fallConfirm (r.fall + 1), peak := none }
  else { r' with rise := 0, fall := 0, peak := none }

/-- A lens record after a rota pass (R98, R101, R102). -/
def LensRecord.pass (r : LensRecord) (c : Soiling) (p : Pass) (frame : FrameLines) : LensRecord :=
  let r' := match p.verdict with
    | .decisive g => r.judge c g
    | _ => r
  { r' with due := false, previous := some frame, last := some p }

/-- Has the rise count reached rise confirm (R102)? -/
def LensRecord.riseDue (r : LensRecord) (c : Soiling) : Bool := decide (c.riseConfirm ≤ r.rise)

/-- The grade becomes the run peak (R102). -/
def LensRecord.riseGrade (r : LensRecord) : LensRecord :=
  { r with grade := r.peak.getD r.grade, rise := 0, fall := 0, peak := none }

/-- Has the fall count reached fall confirm (R102)? -/
def LensRecord.fallDue (r : LensRecord) (c : Soiling) : Bool := decide (c.fallConfirm ≤ r.fall)

/-- The grade falls one step (R102). -/
def LensRecord.fallGrade (r : LensRecord) : LensRecord := { r with grade := r.grade.stepDown, fall := 0 }

/-- Is HELD to be set (R97, R103)? -/
def LensRecord.quietDue (r : LensRecord) : Bool := decide (10 ≤ r.quiet) && !r.held

/-- A lens record at a measurement period tick; `live` says whether the input is LIVE (R97). -/
def LensRecord.period (r : LensRecord) (live : Bool) : LensRecord :=
  { r with
    quiet := if !r.decisive && !r.due then upTo 10 r.quiet else r.quiet
    decisive := false
    due := r.due || live }

/-- Put a lens record back; a change of grade, HELD or UNBASELINED offers the input's LENS (R105). -/
def putLens (i : Input) (old new : LensRecord) (s : State) : State :=
  let s' := s.setLens { s.lens with records := s.lens.records.set i (some new) }
  if new.grade = old.grade ∧ new.held = old.held ∧ new.unbaselined = old.unbaselined then s'
  else offer (.lens i) .plain s'

/-- Change the lens record of an input, if there is one. -/
def changeLens (i : Input) (f : LensRecord → LensRecord) (s : State) : State :=
  match s.lens.records[i] with
  | none => s
  | some r => putLens i r (f r) s

/-- A grade rises (R102). -/
def gradeRise (i : Input) (s : State) : State :=
  changeLens i (fun r => if r.riseDue s.cfg.soiling then r.riseGrade else r) s

/-- A grade falls (R102). -/
def gradeFall (i : Input) (s : State) : State :=
  changeLens i (fun r => if r.fallDue s.cfg.soiling then r.fallGrade else r) s

/-- A quiet count that has reached 10 sets HELD (R97, R103). -/
def quietFull (i : Input) (s : State) : State :=
  changeLens i (fun r => if r.quietDue then { r with held := true } else r) s

/-- Set the in-use baseline of an input: the record's values, or the default baseline (R104). -/
def LensRecord.rebase (r : LensRecord) (values : Vector Nat 16) (unbaselined : Bool) : LensRecord :=
  { r with baseline := values, unbaselined := unbaselined }

end Sys2Proof.Machine
end

