-- ==== Sys2Proof/Machine/Port.lean ====
section
/-! DEFINITION. The frames of the service line and the answering of a request (R170, R172), and the bytes of a pass
(R174). -/
namespace Sys2Proof.Machine

/-- The status bytes of a reply (R172). -/
inductive ReplyStatus where
  | accepted
  | restarted
  | locked
  | busy
  | notLive
  | badCamera
  | badRequest
deriving DecidableEq, Repr

/-- Code of a status (R172). -/
def statusCode : ReplyStatus → Byte
  | .accepted => 0
  | .restarted => 1
  | .locked => 2
  | .busy => 3
  | .notLive => 4
  | .badCamera => 5
  | .badRequest => 6

/-- A frame of the service line: start byte, kind, length, payload, check value (R170). The check value goes most
significant byte first (DESIGN CHOICE, unsafe: log 64). -/
def serviceFrame (kind : Byte) (payload : List Byte) : List Byte :=
  let body := kind :: (natBytes2 payload.length ++ payload)
  0x5A#8 :: (body ++ wordBytes (crc16 body))

/-- A reply to a request: its kind is the request's kind plus 80h; BAD_REQUEST has kind 80h (R172). -/
def replyFrame (kind : Byte) (st : ReplyStatus) (content : List Byte) : List Byte :=
  serviceFrame (if st = .badRequest then 0x80#8 else kind + 0x80#8) (statusCode st :: content)

/-- Answer the request of a kind: the reply is fixed now and is being sent (R170, R171). -/
def answerWith (kind : Byte) (st : ReplyStatus) (content : List Byte) (s : State) : State :=
  s.setService (.answer kind (some (replyFrame kind st content)))

/-- Kind of a PROBE request (R171). -/
def probeKind : Byte := 0x04#8

/-- Answer the waiting PROBE (R109). -/
def answerProbe (st : ReplyStatus) (content : List Byte) (s : State) : State :=
  match s.service with
  | .answer k none => answerWith k st content s
  | _ => s

/-- The verdict byte of a pass (R174). -/
def verdictCode : Verdict → Byte
  | .decisive g => gradeCode g
  | .dark => 4
  | .indecisive _ => 5

/-- The cause byte of a pass (R174). -/
def causeCode : Verdict → Byte
  | .indecisive .noReference => 1
  | .indecisive .disturbed => 2
  | _ => 0

/-- The source of a baseline: 1 record, 2 default (R174). -/
def sourceCode (fromRecord : Bool) : Byte := if fromRecord then 1 else 2

/-- Two bytes with bit z set for each set zone z, most significant byte first (R174; DESIGN CHOICE, unsafe: log 80). -/
def zoneBits (v : Vector Bool 16) : List Byte :=
  natBytes2 (sumNat (allAddrs.map (fun z => if v[z] then 2 ^ z.val else 0)))

/-- The 25 bytes of a pass (R174). -/
def passBytes (p : Pass) : List Byte :=
  [verdictCode p.verdict, causeCode p.verdict, byte p.brightness, byte p.contrast, byte p.scored, byte p.suspect,
    sourceCode p.fromRecord] ++ p.ratios.toList.map byte ++ zoneBits p.disturbed

end Sys2Proof.Machine
end

