-- ==== Sys2Proof/Machine/Store.lean ====
section
/-! DEFINITION. The Baseline Store (chapter 7): the lock and its unlock sequence, the operation record, capture and
clear, the write of a record into the configuration memory, and a write that is cut. -/
namespace Sys2Proof.Machine

/-! ### The lock (R112 to R114) -/

/-- What an UNLOCK step gives (R113): the reply status and the store afterwards. A step that is taken while SERVICE is not
asserted acts by the first row of the table, step 1 too, also at the moment of the deassertion (R114; DEDUCED, unsafe:
log 72). -/
def unlockStep (service : Bool) (step : Byte) (b : BaselineStore) : ReplyStatus × BaselineStore :=
  if !service then (.restarted, { b with progress := .none, stepTimer := none })
  else if step = 0x01#8 then (.accepted, { b with progress := .step1, stepTimer := some Config.stepTime })
  else if step = 0x02#8 ∧ b.progress = .step1 then
    (.accepted, { b with progress := .step2, stepTimer := some Config.stepTime })
  else if step = 0x03#8 ∧ b.progress = .step2 then
    (.accepted, { b with progress := .none, stepTimer := none, unlocked := true, lifeTimer := some Config.lifeTime })
  else (.restarted, { b with progress := .none, stepTimer := none })

/-- The step timer runs out (R114; log 3). -/
def stepTimeout (s : State) : State :=
  if s.store.stepTimer = some 0 then s.setStore { s.store with progress := .none, stepTimer := none } else s

/-- The unlocked life runs out (R112; log 3). -/
def lifeExpiry (s : State) : State :=
  if s.store.lifeTimer = some 0 then s.setStore { s.store with unlocked := false, lifeTimer := none } else s

/-! ### Operations (R115 to R119) -/

/-- The store as an operation is accepted: LOCKED, BUSY, DONE clear, no result (R112, R115); frames held and zone sums 0,
as R116 says of CAPTURE (for CLEAR: DESIGN CHOICE, safe: log 44). -/
def BaselineStore.accept (b : BaselineStore) (k : OpKind) (i : Input) (ph : OpPhase) : BaselineStore :=
  { b with unlocked := false, lifeTimer := none, busy := true, done := false, kind := k, input := some i, phase := ph,
           held := 0, sums := Vector.replicate 16 0, writeTimer := none, result := .none }

/-- The store as an operation ends (R115). -/
def BaselineStore.finish (b : BaselineStore) (r : OpResult) : BaselineStore :=
  { b with busy := false, done := true, phase := .none, writeTimer := none, result := r, writing := [] }

/-- The operation ends with a result. -/
def finishOp (r : OpResult) (s : State) : State := s.setStore (s.store.finish r)

/-- The store starts a write of a record's bytes (R118, R119). -/
def BaselineStore.startWrite (b : BaselineStore) (bytes : List Byte) : BaselineStore :=
  { b with phase := .writing, writeTimer := some 0, writing := bytes }

/-- One zone's value from its sum of 8 frames (R118). -/
def zoneValue (sum : Nat) : Nat := if sum / 8 = 0 then 1 else sum / 8

/-- A frame of the run is added (R117). -/
def BaselineStore.addFrame (b : BaselineStore) (energies : Vector Nat 16) : BaselineStore :=
  { b with held := b.held + 1, sums := vec16 (fun z => b.sums[z] + energies[z]) }

/-- The run frames held are void (R117). -/
def BaselineStore.voidRun (b : BaselineStore) : BaselineStore :=
  { b with held := 0, sums := Vector.replicate 16 0 }

/-- The eighth frame has been added: WRITING begins (R118). -/
def BaselineStore.beginWriting (b : BaselineStore) : BaselineStore := b.startWrite (recordBytes (b.sums.map zoneValue))

/-- The store with the record state of an input set (R111). -/
def BaselineStore.setRecord (b : BaselineStore) (i : Input) (valid : Bool) (values : Vector Nat 16) : BaselineStore :=
  { b with records := b.records.set i (some { valid := valid, values := values }) }

/-! ### The configuration memory (R118, R120) -/

/-- Mixed bytes of a cut write: each bit is the new one or the old one, as a free mask says (R118, R120; log 26). -/
def tornBytes (m : List Host.Cell) (addr count : Nat) : Nat → List Byte → List Byte
  | _, [] => []
  | k, b :: bs =>
    ((b &&& Config.tornMask count k) ||| (memRead m (addr + k) &&& ~~~ Config.tornMask count k))
      :: tornBytes m addr count (k + 1) bs

/-- The record after a cut write: the new bytes, the old ones, or a mixture that does not pass as a record. Where the
mixture would pass, the old bytes stand: a start takes no values as valid that were never written as one record (R120;
log 26). -/
def tornRecord (m : List Host.Cell) (addr count : Nat) (new : List Byte) : List Byte :=
  let mixed := tornBytes m addr count 0 new
  if mixed = new ∨ recordValid mixed = false then mixed else memReadBytes m addr new.length

/-- The write in progress is cut (R118, R120). -/
def tearWrite (s : State) : State :=
  match s.store.phase, s.store.input with
  | .writing, some i =>
    (s.setConfMem (memWriteBytes s.confMem (recordAddress i)
      (tornRecord s.confMem (recordAddress i) s.free s.store.writing))).setFree (s.free + 1)
  | _, _ => s

/-- The lens record of an input goes back to the default baseline (R104, R118, R119). -/
def useDefault (i : Input) (s : State) : State := changeLens i (fun r => r.rebase s.cfg.soiling.baseline true) s

/-- The lens record of an input takes new values after a capture: counts 0, run peak none (R104, R118). -/
def useCaptured (i : Input) (values : Vector Nat 16) (s : State) : State :=
  changeLens i (fun r => { r.rebase values false with rise := 0, fall := 0, peak := none }) s

/-- The memory reports completion of the write (R118, R119). A completion in WRITING is taken as that of the write in
progress, also where it is the late one of a write before (DESIGN CHOICE, unsafe: log 55). -/
def writeComplete (s : State) : State :=
  match s.store.phase, s.store.input with
  | .writing, some i =>
    let values := recordValues s.store.writing
    let capture := s.store.kind == .capture
    let s := s.setConfMem (memWriteBytes s.confMem (recordAddress i) s.store.writing)
    let s := finishOp .ok s
    if capture then
      offer (.lens i) .plain (useCaptured i values (s.setStore (s.store.setRecord i true values)))
    else s
  | _, _ => s

/-- The write timer reaches 50 ms (R118, R119; log 3). -/
def writeTimeout (s : State) : State :=
  match s.store.phase, s.store.input, s.store.writeTimer with
  | .writing, some i, some t =>
    if Config.writeLimit ≤ t then
      let capture := s.store.kind == .capture
      let s := finishOp .timeout (tearWrite s)
      if capture then useDefault i (s.setStore (s.store.setRecord i false (Vector.replicate 16 0))) else s
    else s
  | _, _, _ => s

/-! ### The requests (R116, R119) -/

/-- The populated input that a request byte names (R116, R119). -/
def State.populatedInput (s : State) (b : Byte) : Option Input :=
  match finOfByte 4 b with
  | some i => if s.cfg.populated i then some i else none
  | none => none

/-- How a CAPTURE or CLEAR is judged: a refusal, or the input (R116, R119). -/
def State.judgeOp (s : State) (b : Byte) (needsLive : Bool) : ReplyStatus × Option Input :=
  match s.populatedInput b with
  | none => (.badCamera, none)
  | some i =>
    if !s.store.unlocked then (.locked, none)
    else if s.store.busy then (.busy, none)
    else if needsLive && !s.inputLive i then (.notLive, none)
    else (.accepted, some i)

/-- A CLEAR at its acceptance: INVALID, default baseline, and the write of a record of zeros (R119). -/
def acceptClear (i : Input) (s : State) : State :=
  let zeros : Vector Nat 16 := Vector.replicate 16 0
  let b := ((s.store.accept .clear i .writing).setRecord i false zeros).startWrite (recordBytes zeros)
  useDefault i (s.setStore b)

end Sys2Proof.Machine
end

