-- ==== Sys2Proof/Machine/Engine.lean ====
section
/-! DEFINITION. The measurement engine (R96, R98, R108, R109): the choice of its work at a pass boundary, its frame
requests, and what it does with a frame that the Camera Intake hands. -/
namespace Sys2Proof.Machine

/-- The engine's state set; no frame waits to be worked on. -/
def setEngineState (e : EngineState) (s : State) : State := s.setLens { s.lens with engine := e, handed := none }

/-- A standing frame request is withdrawn or replaced (R75). -/
def setRequest (r : Option FrameRequest) (s : State) : State := s.setIntake { s.intake with request := r }

/-- A SINGLE request (R75). -/
def singleRequest (i : Input) : FrameRequest := { input := i, run := false, size := 1, handed := 0 }

/-- A RUN of 8 (R75, R108). -/
def runRequest (i : Input) : FrameRequest := { input := i, run := true, size := 8, handed := 0 }

/-- Change a lens record without an offer of its own: no grade or flag changes. -/
def setLensRecord (i : Input) (f : LensRecord → LensRecord) (s : State) : State :=
  s.setLens { s.lens with records := s.lens.records.set i ((s.lens.records[i]).map f) }

/-- The lowest-numbered input whose lens record has due set (R96). -/
def State.dueInput (s : State) : Option Input :=
  allInputs.find? (fun i =>
    match s.lens.records[i] with
    | some r => r.due
    | none => false)

/-- The engine takes its next work once; `none` when it stays as it is, else the state and whether the work ended at
once with NOT_LIVE (R96). -/
def engineTake (s : State) : Option (State × Bool) :=
  if s.lens.engine = .free then
    match s.store.phase, s.store.input with
    | .waiting, some i =>
      if s.inputLive i then
        some (setRequest (some (runRequest i)) (setEngineState (.capture i)
          (s.setStore { s.store with phase := .measuring })), false)
      else some (finishOp .abortedStall s, true)
    | _, _ =>
      match s.lens.probeWaiting with
      | some i =>
        let s := s.setLens { s.lens with probeWaiting := none }
        if s.inputLive i then some (setRequest (some (singleRequest i)) (setEngineState (.probe i) s), false)
        else some (answerProbe .notLive [] s, true)
      | none =>
        match s.dueInput with
        | some i =>
          if s.inputLive i then some (setRequest (some (singleRequest i)) (setEngineState (.rota i) s), false)
          else some (setLensRecord i (fun r => { r with due := false }) s, true)
        | none => none
  else none

/-- The engine chooses until it is at work or nothing waits: at most one capture, one probe and four rota passes can
end at once (R96). -/
def engineChoose : Nat → State → State
  | 0, s => s
  | n + 1, s =>
    match engineTake s with
    | none => s
    | some (s', false) => s'
    | some (s', true) => engineChoose n s'

/-- A pass boundary, or an event at which a FREE engine chooses again (R96). -/
def passBoundary (s : State) : State := engineChoose 6 s

/-- The engine is FREE from here on, and chooses (R96). -/
def engineFree (s : State) : State := passBoundary (setEngineState .free s)

/-- A frame handed for a rota pass (R98). -/
def rotaPass (s : State) : State :=
  match s.lens.engine, s.lens.handed with
  | .rota i, some frame =>
    engineFree (changeLens i (fun r => r.pass s.cfg.soiling (s.passOf r frame) frame) s)
  | _, _ => s

/-- A frame handed for a probe (R109). -/
def probePass (s : State) : State :=
  match s.lens.engine, s.lens.handed with
  | .probe i, some frame =>
    match s.lens.records[i] with
    | some r => engineFree (answerProbe .accepted (passBytes (s.passOf r frame)) s)
    | none => engineFree (answerProbe .notLive [] s)
  | _, _ => s

/-- A run frame handed to the Baseline Store (R108, R117). -/
def captureFrame (s : State) : State :=
  match s.lens.engine, s.lens.handed with
  | .capture _, some frame =>
    if brightnessOf (s.zoneMeans frame) < s.cfg.soiling.darkFloor then
      engineFree (setRequest none (finishOp .abortedDark s))
    else
      let b := s.store.addFrame (s.zoneEnergies frame)
      if b.held = 8 then engineFree (s.setStore b.beginWriting)
      else (s.setStore b).setLens { s.lens with handed := none }
  | _, _ => s

/-- The Intake answers NOT_LIVE to the standing request of the engine's input (R76, R98, R108, R109, R117). -/
def engineNotLive (s : State) : State :=
  match s.lens.engine with
  | .free => s
  | .rota i => engineFree (setLensRecord i (fun r => { r with due := false }) s)
  | .probe _ => engineFree (answerProbe .notLive [] s)
  | .capture _ => engineFree (finishOp .abortedStall s)

/-- A capture that still waits for the engine ends as its input leaves LIVE (R116). -/
def captureInputLost (i : Input) (s : State) : State :=
  if s.store.phase = .waiting ∧ s.store.input = some i then finishOp .abortedStall s else s

/-- A measurement period ticks (R97; log 3). -/
def periodTick (s : State) : State :=
  if s.acting = true ∧ s.lens.periodTimer = 0 then
    let records := vec4 (fun i => (s.lens.records[i]).map (fun r => r.period (s.inputLive i)))
    passBoundary (s.setLens { s.lens with records := records, periodTimer := s.cfg.soiling.period })
  else s

end Sys2Proof.Machine
end

