-- ==== Sys2Proof/Machine/Cameras.lean ====
section
/-! DEFINITION. The Camera Intake (chapter 4): sync pulses, completed frames, the input states, the newest frame, the
standing frame request, and the handing of an input's change of state (R64 to R68, R70, R75, R76). -/
namespace Sys2Proof.Machine

/-- s with one input record replaced. -/
def setInput (i : Input) (r : InputRecord) (s : State) : State :=
  s.setIntake { s.intake with inputs := s.intake.inputs.set i (some r) }

/-- Does a frame's length lie within 10 % of the nominal frame time (R64; log 32)? Length in us. -/
def lengthOk (rate length : Nat) : Bool := decide (900000 ≤ rate * length) && decide (rate * length ≤ 1100000)

/-- Is a completed frame well-formed (R64)? -/
def State.frameOk (s : State) (f : CameraFrame) : Bool :=
  f.lines.length == s.cfg.lineCount && f.lines.all (fun l => l.length == s.cfg.pixelCount)
    && lengthOk s.cfg.frameRate f.length

/-- A sync pulse at an input record (R64, R65). A frame sync that closes an open frame comes with the frame it completes, as
CAMERA_FRAME_COMPLETED; told as a pulse it completes and counts none (DESIGN CHOICE, safe: log 53). -/
def InputRecord.pulse (r : InputRecord) (kind : SyncKind) : InputRecord :=
  let r' := { r with absence := 0, frameOpen := r.frameOpen || kind == .frame }
  if r.state = .absent then { r' with state := .syncing, good := 0 } else r'

/-- A sync pulse (R65). -/
def syncPulse (i : Input) (kind : SyncKind) (s : State) : State :=
  if s.acting then
    match s.intake.inputs[i] with
    | some r => setInput i (r.pulse kind) s
    | none => s
  else s

/-- An input record as a well-formed frame completes (R64 to R67, R70). The third of SYNCING is kept as the newest
frame; CAMERA_SYNCED then takes the input to LIVE. -/
def InputRecord.goodFrame (r : InputRecord) (f : FrameLines) : InputRecord :=
  match r.state with
  | .syncing =>
    if r.good + 1 < 3 then { r with absence := 0, good := r.good + 1 }
    else { r with absence := 0, good := 3, newest := some f }
  | .live => { r with absence := 0, stall := Config.stallTime, newest := some f }
  | .stalled => { r with absence := 0, state := .syncing, good := 1 }
  | .absent => { r with absence := 0 }

/-- An input record as a malformed frame completes (R64 to R67). -/
def InputRecord.badFrame (r : InputRecord) : InputRecord :=
  match r.state with
  | .syncing => { r with absence := 0, good := 0, malformed := bump r.malformed }
  | .live => { r with absence := 0, malformed := bump r.malformed }
  | .stalled => { r with absence := 0, state := .syncing, good := 0, malformed := bump r.malformed }
  | .absent => { r with absence := 0 }

/-- A well-formed frame serves the standing request of its input (R75). -/
def serveRequest (i : Input) (f : FrameLines) (s : State) : State :=
  match s.intake.request with
  | none => s
  | some q =>
    if q.input = i then
      let s' := s.setLens { s.lens with handed := some f }
      if q.size ≤ q.handed + 1 then setRequest none s' else setRequest (some { q with handed := q.handed + 1 }) s'
    else s

/-- A malformed frame breaks a standing RUN of its input: the frames handed are void (R76, R117). -/
def breakRequest (i : Input) (s : State) : State :=
  match s.intake.request with
  | none => s
  | some q =>
    if q.input = i ∧ q.run = true then (setRequest (some { q with handed := 0 }) s).setStore s.store.voidRun else s

/-- A frame completes at its closing frame sync (R64 to R67, R75, R76). A closing pulse with no frame open opens one. -/
def frameCompleted (i : Input) (f : CameraFrame) (s : State) : State :=
  if s.acting then
    match s.intake.inputs[i] with
    | none => s
    | some r =>
      if r.frameOpen then
        if s.frameOk f then
          let s' := setInput i (r.goodFrame f.lines) s
          if r.state = .live then serveRequest i f.lines s' else s'
        else breakRequest i (setInput i r.badFrame s)
      else setInput i (r.pulse .frame) s
  else s

/-- Is the third well-formed frame of SYNCING complete (R65)? -/
def State.syncedDue (s : State) (i : Input) : Bool :=
  match s.intake.inputs[i] with
  | some r => r.state == .syncing && decide (3 ≤ r.good)
  | none => false

/-- A SYNCING input with three well-formed frames enters LIVE (R65, R68). -/
def cameraSynced (i : Input) (s : State) : State :=
  match s.intake.inputs[i] with
  | none => s
  | some r =>
    if s.syncedDue i then
      streamsInputLive i (setInput i { r with state := .live, stall := Config.stallTime } s)
    else s

/-- Lens Watch's part in an input leaving LIVE: due is cleared, and the previous pass frame is none (R97). -/
def lensInputLost (i : Input) (s : State) : State :=
  setLensRecord i (fun r => { r with due := false, previous := none }) s

/-- The standing request of an input that leaves LIVE ends with NOT_LIVE (R76). -/
def requestInputLost (i : Input) (s : State) : State :=
  match s.intake.request with
  | some q => if q.input = i then engineNotLive (setRequest none s) else s
  | none => s

/-- An input's leaving LIVE is handed to every block that acts on it (R68). -/
def inputLost (i : Input) (s : State) : State :=
  requestInputLost i (captureInputLost i (lensInputLost i (streamsInputLost i s)))

/-- The stall timer of a LIVE input reaches 0 (R66; log 3). -/
def cameraStall (i : Input) (s : State) : State :=
  match s.intake.inputs[i] with
  | none => s
  | some r =>
    if r.state = .live ∧ r.stall = 0 then
      inputLost i (setInput i { r with state := .stalled, newest := none } s)
    else s

/-- The absence timer of an input reaches 2 s: ABSENT (R65, R67; log 3). A LIVE input stalls before that. -/
def cameraAbsence (i : Input) (s : State) : State :=
  match s.intake.inputs[i] with
  | none => s
  | some r =>
    if (r.state = .syncing ∨ r.state = .stalled) ∧ Config.absenceTime ≤ r.absence then
      setInput i { r with state := .absent, good := 0, frameOpen := false, newest := none } s
    else s

end Sys2Proof.Machine
end

