-- ==== Sys2Proof/Machine/Service.lean ====
section
/-! DEFINITION. The Service Port (chapter 11): the replies of each request (R172 to R174), the judging of a taken
request (R171), and the port's states as characters arrive (R170). -/
namespace Sys2Proof.Machine

/-! ### STATUS, parts 1 to 8 (R173) -/

/-- Code of the trunk state. -/
def trunkStateCode : TrunkState → Byte
  | .listen => 1
  | .joined => 2
  | .excluded _ => 3
  | .inert => 4

/-- Code of the exclusion reason. -/
def exclusionCode : TrunkState → Byte
  | .excluded .clash => 1
  | .excluded .consist => 2
  | _ => 0

/-- Code of the start cause. -/
def startCauseCode : StartCause → Byte
  | .power => 1
  | .line => 2

/-- Code of the inert cause. -/
def inertCauseCode : InertCause → Byte
  | .none => 0
  | .imageCheck => 1
  | .stationBlock => 2
  | .descriptors => 3
  | .soiling => 4

/-- Part 1, the station; an INERT one has address FFh, role 0 and half 0. -/
def State.statusStation (s : State) : List Byte :=
  let inert := s.trunk.state == .inert
  [trunkStateCode s.trunk.state, exclusionCode s.trunk.state, if inert then 0 else byte s.trunk.half.val,
    if inert then absentCode else byte s.addr.val, if inert then 0 else roleCode s.cfg.role,
    startCauseCode s.boot.startCause, inertCauseCode s.boot.inertCause, s.trunk.roundCount]

/-- Part 2, the counters of R21 and the consecutive clash count. -/
def Trunk.statusBytes (t : Trunk) : List Byte :=
  ([t.marksSent, t.framesSent, t.tilesSent, t.markErrors, t.missedMarks, t.frameErrors, t.tileErrors, t.clashes].map
    wordBytes).flatten ++ [byte t.consecClash]

/-- Part 3, the counters of the Consist Tables. -/
def Tables.statusBytes (t : Tables) : List Byte :=
  ([t.rosterRejects, t.demandRejects, t.voidClaims, t.wantOverflows, t.doorRejects, t.lensRejects, t.cabRejects].map
    wordBytes).flatten

/-- Part 4, the foreign-tag set; each tag most significant byte first (DESIGN CHOICE, unsafe: log 80). -/
def foreignBytes (f : List (Word × Nat)) : List Byte :=
  byte (Nat.min 255 f.length) :: ((f.take 8).map (fun x => wordBytes x.1 ++ [byte x.2])).flatten

/-- Part 5, the cab record; tag and end of NONE are free values (log 28), and a tag goes most significant byte first (DESIGN
CHOICE, unsafe: log 80). -/
def cabRecordBytes : Option CabRecord → List Byte
  | none => [absentCode, Config.replyByte 0, Config.replyByte 1, Config.replyByte 2]
  | some r => byte r.addr.val :: (wordBytes r.tag ++ [endCode r.cabEnd])

/-- Code of an input state; 0 for an input that is not populated. -/
def inputStateCode : Option InputRecord → Byte
  | none => 0
  | some r =>
    match r.state with
    | .absent => 1
    | .syncing => 2
    | .live => 3
    | .stalled => 4

/-- Code of a baseline record's state. -/
def recordStateCode : Option BaselineRecord → Byte
  | none => 0
  | some r => if r.valid then 1 else 2

/-- The source of an input's in-use baseline. -/
def baselineSourceCode : Option LensRecord → Byte
  | none => 0
  | some r => sourceCode (!r.unbaselined)

/-- Part 6, one input; the malformed frames of an input without a record are a free value (DESIGN CHOICE, safe: log 70). -/
def State.statusInput (s : State) (i : Input) : List Byte :=
  let malformed := match s.intake.inputs[i] with
    | some r => r.malformed
    | none => Config.noInputFrames i
  inputStateCode s.intake.inputs[i] :: (wordBytes malformed
    ++ [recordStateCode s.store.records[i], baselineSourceCode s.lens.records[i]])

/-- Part 7, one channel; the closing faults of a channel without a record are a free value (DESIGN CHOICE, safe: log 70). -/
def State.statusChannel (s : State) (c : Chan) : List Byte :=
  match s.channels[c] with
  | some ch => wordBytes ch.faults
  | none => wordBytes (Config.noChannelFaults c)

/-- Code of the unlock progress. -/
def progressCode : UnlockProgress → Byte
  | .none => 0
  | .step1 => 1
  | .step2 => 2

/-- Code of an operation's kind. -/
def opKindCode : OpKind → Byte
  | .none => 0
  | .capture => 1
  | .clear => 2

/-- Code of an operation's result. -/
def opResultCode : OpResult → Byte
  | .none => 0
  | .ok => 1
  | .abortedDark => 2
  | .abortedStall => 3
  | .timeout => 4

/-- Part 8, the Baseline Store. -/
def BaselineStore.statusBytes (b : BaselineStore) : List Byte :=
  [if b.unlocked then 2 else 1, progressCode b.progress,
    (if b.busy then 0x01#8 else 0x00#8) ||| (if b.done then 0x02#8 else 0x00#8), opKindCode b.kind,
    match b.input with
    | some i => byte i.val
    | none => absentCode,
    opResultCode b.result]

/-! ### STATUS, part 9 (R173) -/

/-- Code of the cab state. -/
def cabStateCode : CabState → Byte
  | .idle => 1
  | .taking => 2
  | .active => 3
  | .blocked => 4

/-- Two bytes with bit i set for each usable layout entry i, most significant byte first (R173; DESIGN CHOICE, unsafe:
log 80). -/
def usableBytes (c : Settings) : List Byte :=
  natBytes2 (sumNat (allAddrs.map (fun i => if (c.layouts[i]).isSome then 2 ^ i.val else 0)))

/-- A view kind's settings as the image lays them out. -/
def viewBytes (v : ViewSetting) : List Byte := [byte v.rank, v.mask, byte v.linger, v.layouts]

/-- Code of the reverse screen choice. -/
def choiceCode : ReverseChoice → Byte
  | .left => 1
  | .right => 2
  | .both => 3

/-- The settings of a kind as STATUS reports them; the layout byte of SPOTLIGHT in the factory table is a free value
(log 28). -/
def reportedView (c : Settings) (k : ViewKind) : ViewSetting :=
  if c.factoryViews = true ∧ k = .spotlight then { c.views.get k with layouts := Config.replyByte 3 } else c.views.get k

/-- The view kind table and the reverse screen choice as the image lays them out. -/
def viewTableBytes (c : Settings) : List Byte :=
  (ViewKind.all.map (fun k => viewBytes (reportedView c k))).flatten ++ [choiceCode c.views.choice]

/-- The role of a kind in a request list: 0 absent, 1 WAITING, 2 SHOWN. -/
def requestRole (l : List Request) (k : ViewKind) : Byte :=
  match l.find? (fun e => e.kind == k) with
  | none => 0
  | some e => if e.shown then 2 else 1

/-- The byte of a shown layout. -/
def shownCode : Option ShownLayout → Byte
  | none => 0xFF
  | some (.index i) => byte i.val
  | some .spotlight => 0x10
  | some .blank => 0x11

/-- The bytes of a door id. -/
def doorIdBytes (d : DoorId) : List Byte := [byte d.addr.val, byte d.chan.val]

/-- The linger time remaining in units of 0.1 s; how a part of a unit is rounded is a free value (log 28). Where nothing lingers
it is the 0 of the stopped timer (log 83). -/
def lingerTenths (us : Nat) : Byte :=
  if us % 100000 ≠ 0 ∧ Config.roundTenthUp us = true then byte (us / 100000 + 1) else byte (us / 100000)

/-- One screen. -/
def Screen.statusBytes (x : Screen) : List Byte :=
  ViewKind.all.map (requestRole x.list)
    ++ [shownCode x.layout,
        match x.linger with
        | some k => byte k.code
        | none => absentCode,
        lingerTenths x.lingerTimer]
    ++ (match x.spotDoor with
        | some d => doorIdBytes d
        | none => [0xFF, 0xFF])

/-- The spotlight queue: a count and 8 entries. -/
def spotlightBytes (q : List SpotDoor) : List Byte :=
  byte q.length :: ((q.map (fun d => doorIdBytes d.door ++ [if d.acked then 1 else 0])).flatten
    ++ List.replicate (3 * (8 - q.length)) 0xFF)

/-- Code of a pane state. -/
def paneStateCode : PaneState → Byte
  | .blank => 1
  | .unresolved => 2
  | .live => 3
  | .stale => 4
  | .denied => 5
  | .waiting => 6

/-- Code of a binding mark. -/
def markCode : BindMark → Byte
  | .plain => 1
  | .carried => 2
  | .ended => 3

/-- The bytes of a pane's result: address and input. For BLANK and UNRESOLVED the input byte is FFh (DEDUCED, safe:
log 28: an absent input is FFh). -/
def paneResultBytes : PaneResult → List Byte
  | .blank => [0xFE, 0xFF]
  | .unresolved => [0xFF, 0xFF]
  | .cam c => [byte c.addr.val, byte c.input.val]

/-- The 9 bytes of one pane record; how the first one holds screen and pane index is a free value (log 28), and so is the stale
count of a pane with no bound stream (R151; DESIGN CHOICE, safe: log 70). -/
def Pane.statusBytes (p : Pane) (place stale : Byte) : List Byte :=
  place :: paneStateCode p.state :: (paneResultBytes p.result
    ++ (match p.bound with
        | some (b, m) => [byte b.addr.val, byte b.num.val, classCode b.cls, markCode m]
        | none => [0xFF, 0xFF, 0xFF, 0])
    ++ [if p.bound.isSome then byte p.stale else stale])

/-- The pane records of a screen. -/
def Screen.paneBytes (x : Screen) (side : Side) : List Byte :=
  (x.panes.mapIdx (fun k p => p.statusBytes (Config.paneByte side k) (Config.noStreamStale side k))).flatten

/-- The warning list. -/
def warningBytes (ws : List Warning) : List Byte :=
  byte ws.length :: (ws.map (fun w => [byte w.cam.addr.val, byte w.cam.input.val, gradeCode w.grade])).flatten

/-- Part 9, the cab. The pane records, each with its screen and pane index, stand in an order that no rule gives: LEFT's panes,
then RIGHT's, in pane order (R173; DESIGN CHOICE, unsafe: log 85). -/
def State.statusCab (s : State) : List Byte :=
  cabStateCode s.cab.state :: (usableBytes s.cfg ++ [if s.cfg.factoryViews then 1 else 0] ++ viewTableBytes s.cfg
    ++ s.comp.left.statusBytes ++ s.comp.right.statusBytes ++ spotlightBytes s.comp.spotlight
    ++ wordBytes s.comp.spotlightOverflows ++ [byte s.comp.panes.length]
    ++ s.comp.left.paneBytes .left ++ s.comp.right.paneBytes .right
    ++ wordBytes s.comp.swaps ++ wordBytes s.comp.patched ++ wordBytes s.comp.discarded
    ++ warningBytes s.comp.warnings)

/-- The content of a STATUS reply: parts 1 and 2 in INERT, else all, part 9 for a CAB station (R173). -/
def State.statusContent (s : State) : List Byte :=
  let head := s.statusStation ++ s.trunk.statusBytes
  if s.trunk.state = .inert then head
  else
    head ++ s.tables.statusBytes ++ foreignBytes s.tables.foreign ++ cabRecordBytes s.tables.cabRecord
      ++ (allInputs.map s.statusInput).flatten ++ (allChans.map s.statusChannel).flatten ++ s.store.statusBytes
      ++ (if s.isCab then s.statusCab else [])

/-! ### ROSTER and LENS (R174) -/

/-- A camera descriptor of a roster entry as bytes, with its roster grade and flags. -/
def CamDesc.raw (c : CamDesc) : CamRaw where
  input := byte c.input.val
  kind := kindCode c.view.kind
  side := sideCode c.side
  place := viewPlace c.view
  grade := gradeCode c.grade
  flags := flagsByte c.held c.unbaselined

/-- The phase that the door table holds for a descriptor. -/
def State.tablePhase (s : State) (a : Addr) (c : Chan) : DoorPhase :=
  (phaseIn s.tables.doors { addr := a, chan := c }).getD .unknown

/-- A door descriptor of a roster entry as bytes, with its door table phase. -/
def State.doorDescRaw (s : State) (a : Addr) (d : DoorDesc) : DoorRaw where
  chan := byte d.chan.val
  door := byte d.door
  side := sideCode d.side
  exterior := exteriorCode d.exterior
  phase := phaseCode (s.tablePhase a d.chan)

/-- One roster entry of the ROSTER reply; its tag most significant byte first (R174; DESIGN CHOICE, unsafe: log 80), its
descriptors in the order in which the entry holds them (DESIGN CHOICE, unsafe: log 86). -/
def State.entryBytes (s : State) (a : Addr) : List Byte :=
  match s.tables.roster[a] with
  | none => [0]
  | some e =>
    (if e.isPresent then 1 else 2) :: (wordBytes e.tag ++ [byte e.localNo.val, roleCode e.role, byte e.age,
      couplerCode e.coupler, if e.cabActive then 1 else 0, byte e.cams.length, byte e.doors.length]
      ++ camBytes (e.cams.map CamDesc.raw) ++ doorBytes (e.doors.map (s.doorDescRaw a)))

/-- The content of a ROSTER reply. -/
def State.rosterContent (s : State) : List Byte := (allAddrs.map s.entryBytes).flatten

/-- The run peak byte (R175). -/
def peakCode : Option Grade → Byte
  | none => absentCode
  | some g => gradeCode g

/-- The content of a LENS reply; the baseline values most significant byte first (R174; DESIGN CHOICE, unsafe: log 80). -/
def LensRecord.bytes (r : LensRecord) : List Byte :=
  [gradeCode r.grade, byte r.rise, byte r.fall, peakCode r.peak, flagsByte r.held r.unbaselined, byte r.quiet,
    sourceCode (!r.unbaselined)] ++ valuesBytes r.baseline
    ++ (match r.last with
        | none => [0]
        | some p => 1 :: passBytes p)

/-! ### Taking a request (R171) -/

/-- The seven requests (R171). -/
inductive RequestKind where
  | status
  | roster
  | lens
  | probe
  | unlock
  | capture
  | clear
deriving DecidableEq, Repr

/-- Code of a request (R171). -/
def RequestKind.code : RequestKind → Byte
  | .status => 0x01
  | .roster => 0x02
  | .lens => 0x03
  | .probe => 0x04
  | .unlock => 0x05
  | .capture => 0x06
  | .clear => 0x07

/-- Request of a kind byte. -/
def requestOf (b : Byte) : Option RequestKind :=
  if b = 0x01#8 then some .status else if b = 0x02#8 then some .roster else if b = 0x03#8 then some .lens
  else if b = 0x04#8 then some .probe else if b = 0x05#8 then some .unlock else if b = 0x06#8 then some .capture
  else if b = 0x07#8 then some .clear else none

/-- Payload length of a request (R171). -/
def RequestKind.length : RequestKind → Nat
  | .status => 0
  | .roster => 0
  | _ => 1

/-- LENS: the record of a populated input (R110). -/
def answerLens (b : Byte) (s : State) : State :=
  let record := match finOfByte 4 b with
    | some i => s.lens.records[i]
    | none => none
  match record with
  | some r => answerWith (RequestKind.code .lens) .accepted r.bytes s
  | none => answerWith (RequestKind.code .lens) .badCamera [] s

/-- PROBE: BUSY, NOT_LIVE, or it waits for the engine (R109). -/
def answerProbeRequest (b : Byte) (s : State) : State :=
  if s.store.busy then answerWith probeKind .busy [] s
  else
    match s.populatedInput b with
    | some i =>
      if s.inputLive i then
        passBoundary ((s.setService (.answer probeKind none)).setLens { s.lens with probeWaiting := some i })
      else answerWith probeKind .notLive [] s
    | none => answerWith probeKind .notLive [] s

/-- UNLOCK (R113). -/
def answerUnlock (step : Byte) (s : State) : State :=
  let r := unlockStep s.levels.service step s.store
  answerWith (RequestKind.code .unlock) r.1 [] (s.setStore r.2)

/-- CAPTURE (R116): at acceptance the capture begins waiting for the engine. -/
def answerCapture (b : Byte) (s : State) : State :=
  let kind := RequestKind.code .capture
  match s.judgeOp b true with
  | (_, some i) => answerWith kind .accepted [] (passBoundary (s.setStore (s.store.accept .capture i .waiting)))
  | (st, none) => answerWith kind st [] s

/-- CLEAR (R119). -/
def answerClear (b : Byte) (s : State) : State :=
  let kind := RequestKind.code .clear
  match s.judgeOp b false with
  | (_, some i) => answerWith kind .accepted [] (acceptClear i s)
  | (st, none) => answerWith kind st [] s

/-- The owner of a request answers it (R171); `b` is the payload byte of those that have one. -/
def handRequest (k : RequestKind) (b : Byte) (s : State) : State :=
  match k with
  | .status => answerWith (RequestKind.code .status) .accepted s.statusContent s
  | .roster => answerWith (RequestKind.code .roster) .accepted s.rosterContent s
  | .lens => answerLens b s
  | .probe => answerProbeRequest b s
  | .unlock => answerUnlock b s
  | .capture => answerCapture b s
  | .clear => answerClear b s

/-- BAD_REQUEST (R171, R172). -/
def answerBad (s : State) : State := answerWith 0x00#8 .badRequest [] s

/-- A request of a known kind and length: an INERT station answers STATUS alone (R169, R171). -/
def takeRequest (k : RequestKind) (b : Byte) (s : State) : State :=
  if s.trunk.state = .inert ∧ k ≠ .status then answerBad s else handRequest k b s

/-- A request taken as a command of its own, its framing left out: it is lost while a reply is pending, and nothing is
received before the end of the start read (R167, R170; log 33). -/
def requestCommand (k : RequestKind) (b : Byte) (s : State) : State :=
  if s.boot.phase = .started then
    match s.service with
    | .answer _ _ => s
    | _ => takeRequest k b s
  else s

/-! ### Characters (R170) -/

/-- The payload length of a frame whose kind and length bytes are in. -/
def frameLength (bytes : List Byte) : Nat := (imgWord bytes 1).toNat

/-- Judge a whole frame: the bytes from the kind to the check value (R171). The check value comes most significant byte first
(DESIGN CHOICE, unsafe: log 64). -/
def judgeFrame (bytes : List Byte) (s : State) : State :=
  let n := frameLength bytes
  if bytes.drop (3 + n) ≠ wordBytes (crc16 (bytes.take (3 + n))) then answerBad s
  else
    match requestOf (imgByte bytes 0) with
    | none => answerBad s
    | some k => if n = k.length then takeRequest k (imgByte bytes 3) s else answerBad s

/-- A byte in HUNT (R170). -/
def huntByte (b : Byte) (s : State) : State := if b = 0x5A#8 then s.setService (.receive [] 0) else s

/-- A byte in RECEIVE (R170). -/
def receiveByte (bytes : List Byte) (b : Byte) (s : State) : State :=
  let bytes := bytes ++ [b]
  if bytes.length < 3 then s.setService (.receive bytes 0)
  else if 16 < frameLength bytes then s.setService .hunt
  else if bytes.length < frameLength bytes + 5 then s.setService (.receive bytes 0)
  else judgeFrame bytes s

/-- A character arrives (R170). One with its stop bit at 0 ends a frame, and is no byte for HUNT (DESIGN CHOICE, safe:
log 37). A frame whose gap has run out is ended first. -/
def serviceByte (b : Byte) (stopBit : Bool) (s : State) : State :=
  if s.boot.phase = .started then
    match s.service with
    | .answer _ _ => s
    | .hunt => if stopBit then huntByte b s else s
    | .receive bytes gap =>
      if Config.byteGap ≤ gap then (if stopBit then huntByte b (s.setService .hunt) else s.setService .hunt)
      else if stopBit then receiveByte bytes b s
      else s.setService .hunt
  else s

/-- The gap between two bytes of a frame has grown to more than 20 ms (R170; log 3). -/
def serviceGap (s : State) : State :=
  match s.service with
  | .receive _ gap => if Config.byteGap ≤ gap then s.setService .hunt else s
  | _ => s

/-- The last byte of a reply has been sent (R170). -/
def replySent (s : State) : State :=
  match s.service with
  | .answer _ (some _) => s.setService .hunt
  | _ => s

end Sys2Proof.Machine
end

