-- ==== Sys2Proof/Machine/Start.lean ====
section
/-! DEFINITION. Reset and start (R167 to R169): what a reset holds, the start read, and what every block holds at the
end of it. -/
namespace Sys2Proof.Machine

/-! ### Reset (R167, R120) -/

/-- The start cause (R167). -/
def startCauseOf (powerSinceRead : Bool) : StartCause := if powerSinceRead then .power else .line

/-- The station held by a reset. The configuration memory, the levels of the lines, local time and the commands that
wait stay (R120, R167). -/
def holdState (power line powerSince : Bool) (s : State) : State :=
  { State.reset with
    boot := { State.reset.boot with powerOn := power, resetLine := line, powerSinceRead := powerSince
                                    startCause := startCauseOf powerSince }
    now := s.now, levels := s.levels, confMem := s.confMem, free := s.free, pending := s.pending }

/-- A power-on reset (R120, R167). It takes no due step first (DESIGN CHOICE, unsafe: log 56). -/
def powerOnReset (s : State) : State := holdState true s.boot.resetLine true (tearWrite s)

/-- The RESET line is asserted (R120, R167). It takes no due step first (DESIGN CHOICE, unsafe: log 56). -/
def resetLineAsserted (s : State) : State := holdState s.boot.powerOn true s.boot.powerSinceRead (tearWrite s)

/-- No reset is asserted any longer: the start read begins from its first byte (R167). -/
def resetReleased (s : State) : State :=
  if s.boot.phase = .held then
    s.setBoot { s.boot with phase := .reading, powerOn := false, resetLine := false, readTimer := 0 }
  else s

/-! ### What the blocks hold at the end of the start read -/

/-- A line filter that takes the level of its line as accepted (R78). -/
def LineFilter.at (level : Bool) : LineFilter := { accepted := level, differ := 0, still := 0 }

/-- A channel as Door Watch starts it (R78). -/
def startChannel (d : DoorLevels) : Channel :=
  let locked := d.shut && !d.rel
  { rel := LineFilter.at d.rel, shut := LineFilter.at d.shut, edge := LineFilter.at d.edge, settled := locked,
    phase := if locked then .locked else .unknown, closing := 0, faults := 0#16 }

/-- An input record as it starts (R63). The stopped timers hold 0 (DESIGN CHOICE, safe: log 54). -/
def startInput : InputRecord where
  state := .absent
  frameOpen := false
  good := 0
  stall := 0
  absence := 0
  newest := none
  malformed := 0#16

/-- A lens record as it starts (R94, R111). -/
def startLens (defaults : Vector Nat 16) (b : BaselineRecord) : LensRecord where
  grade := .clean
  rise := 0
  fall := 0
  peak := none
  held := true
  unbaselined := !b.valid
  quiet := 10
  decisive := false
  due := false
  baseline := if b.valid then b.values else defaults
  previous := none
  last := none

/-- The own camera descriptor of an input, with the grade after reset (R27, R94). -/
def startCam (cams : Vector (Option CamConf) 4) (recs : Vector (Option BaselineRecord) 4) (i : Input) : Option CamDesc :=
  match cams[i], recs[i] with
  | some c, some b => some
      { input := i, view := c.view, side := c.side, grade := .clean, held := true, unbaselined := !b.valid }
  | _, _ => none

/-- The own door descriptor of a channel (R27, R77). -/
def startDoor (doors : Vector (Option DoorConf) 4) (c : Chan) : Option DoorDesc :=
  (doors[c]).map (fun d => { chan := c, door := d.door, side := d.side, exterior := d.exterior })

/-- The own roster entry (R27). -/
def startEntry (cfg : Settings) (recs : Vector (Option BaselineRecord) 4) : RosterEntry where
  presence := .present
  tag := cfg.tag
  localNo := cfg.localNo
  role := cfg.role
  age := 0
  cams := allInputs.filterMap (startCam cfg.cams recs)
  doors := allChans.filterMap (startDoor cfg.doors)
  coupler := cfg.endStation.map (fun e => (e, false))
  cabActive := false

/-- The own address at start: the local number, the half being 0 (R22). -/
def startAddr (cfg : Settings) : Addr := ⟨cfg.localNo.val, by omega⟩

/-- The Consist Tables at start (R27, R89). -/
def startTables (cfg : Settings) (recs : Vector (Option BaselineRecord) 4) : Tables :=
  { Tables.reset with
    roster := (Vector.replicate 16 none).set (startAddr cfg) (some (startEntry cfg recs))
    doors := (allChans.filterMap (startDoor cfg.doors)).map (fun d =>
      { id := { addr := startAddr cfg, chan := d.chan }, phase := .unknown }) }

/-- The baseline records of the populated inputs, read and tested (R111). -/
def startRecords (cfg : Settings) (m : List Host.Cell) : Vector (Option BaselineRecord) 4 :=
  vec4 (fun i => if cfg.populated i then some (readRecord m i) else none)

/-- The station as it enters LISTEN, before Door Watch offers the DOORs of channels that start LOCKED (R167). -/
def startState (cfg : Settings) (s : State) : State :=
  let recs := startRecords cfg s.confMem
  { s with
    cfg := cfg
    trunk := { Trunk.reset with state := .listen, timer := Config.interval (startAddr cfg) }
    tables := startTables cfg recs
    intake := { Intake.reset with inputs := vec4 (fun i => if cfg.populated i then some startInput else none) }
    channels := vec4 (fun c => if (cfg.doors[c]).isSome then some (startChannel s.levels.door[c]) else none)
    lens := { LensWatch.reset with
      records := vec4 (fun i => (recs[i]).map (startLens cfg.soiling.baseline)), periodTimer := cfg.soiling.period }
    store := { BaselineStore.reset with records := recs } }

/-- A channel that starts LOCKED has left UNKNOWN: its DOOR is offered (R78, R86). -/
def offerStartDoor (s : State) (c : Chan) : State :=
  match s.channels[c] with
  | some ch => if ch.phase = .locked then offer (.door c) .plain s else s
  | none => s

/-- The start read has ended; start and inert cause are kept (R167, R168). -/
def endRead (cause : InertCause) (s : State) : State :=
  s.setBoot { s.boot with
    phase := .started, powerSinceRead := false, startCause := startCauseOf s.boot.powerSinceRead, inertCause := cause
    readTimer := 0 }

/-- The end of the start read: LISTEN or INERT (R167 to R169). -/
def startReadEnd (s : State) : State :=
  if s.boot.phase = .reading then
    let img := readImage s.confMem
    let cause := imageCause img
    let s := endRead cause s
    if cause = .none then allChans.foldl offerStartDoor (startState (settingsOf img) s)
    else s.setTrunk { Trunk.reset with state := .inert, timer := Config.interval 15 }
  else s

end Sys2Proof.Machine
end

