-- ==== Sys2Proof/Machine/Flags.lean ====
section
/-! DEFINITION. The output lines, each a function of the rest of the state: FAULT (R22, R69, R167), LENS_LAMP (R164),
VIEW_OK_L and VIEW_OK_R (R165), and what the screen outputs show (R152, R163, R164, R166). -/
namespace Sys2Proof.Machine

/-- Is a populated input ABSENT (R69)? -/
def State.anyAbsent (s : State) : Bool :=
  allInputs.any (fun i =>
    match s.intake.inputs[i] with
    | some r => r.state == .absent
    | none => false)

/-- FAULT (R22, R69, R167); asserted in the start read too (DEDUCED, safe: log 8). -/
def State.faultLine (s : State) : Bool :=
  s.boot.phase != .started
    || (match s.trunk.state with
        | .excluded _ => true
        | .inert => true
        | _ => s.anyAbsent)

/-- The picture that both screen outputs show (R166, R167). -/
def State.screenPicture (s : State) : ScreenPicture :=
  if s.acting && s.isCab then
    match s.trunk.state with
    | .excluded _ => .excluded
    | _ =>
      if s.trunk.state = .listen ∧ s.trunk.renumbered = true then .forming
      else
        match s.cab.state with
        | .active => .layout
        | .blocked => .inUse
        | .idle => .standby
        | .taking => .standby
  else .none

/-- LENS_LAMP (R164). -/
def State.lensLampLine (s : State) : Bool := s.screenPicture == .layout && !s.comp.warnings.isEmpty

/-- VIEW_OK of a side (R165, R166). -/
def State.viewOkLine (s : State) (side : Side) : Bool := s.screenPicture == .layout && s.viewOk side

/-- What the screen output of a side shows of its layout, while it shows one (R166). -/
def State.layoutView (s : State) (side : Side) : Option ScreenView :=
  if s.screenPicture = .layout then some (s.screenView side) else none

/-- The output pins. Screen output 0 shows the configured side, output 1 the other (R179). -/
def State.outputs (s : State) : Pins where
  fault := s.faultLine
  lensLamp := s.lensLampLine
  viewOkL := s.viewOkLine .left
  viewOkR := s.viewOkLine .right
  picture := s.screenPicture
  screen0 := s.layoutView s.cfg.screen0
  screen1 := s.layoutView s.cfg.screen0.other

/-- Drive the output pins. -/
def refreshPins (s : State) : State := s.setPins s.outputs

end Sys2Proof.Machine
end

