-- ==== Sys2Proof/Machine/Due.lean ====
section
/-! DEFINITION. The steps that a count or a handed item makes due at once: which one is due next, what each does, and
the taking of all of them before a later command (log 2). -/
namespace Sys2Proof.Machine

/-! ### The refreshes and limits of this file's own (R28, R32, R154, R155, R161) -/

/-- Is the ROSTER refresh due (R28, R32)? -/
def State.rosterRefreshDue (s : State) : Bool :=
  s.trunk.state == .joined && decide (16 ≤ s.tables.refresh) && !queueHolds s.queue .roster

/-- A refresh count of 16 offers the station's ROSTER (R28, R32). -/
def rosterRefresh (s : State) : State := if s.rosterRefreshDue then offer .roster .plain s else s

/-- Has a carry entry reached age 40 (R154)? -/
def State.carryDue (s : State) : Bool := s.comp.carry.any (fun e => decide (40 ≤ e.age))

/-- The carry entries of age 40 are removed, and the WANT list is rebuilt (R154). -/
def carryExpiry (s : State) : State :=
  if s.carryDue then
    settlePanes (s.setComp { s.comp with carry := s.comp.carry.filter (fun e => decide (e.age < 40)) })
  else s

/-- Is the WANT refresh due (R155)? -/
def State.wantRefreshDue (s : State) : Bool :=
  s.isActive && decide (16 ≤ s.comp.wantRefresh) && !queueHolds s.queue .want

/-- A refresh count of 16 offers the station's WANT (R155). -/
def wantRefresh (s : State) : State := if s.wantRefreshDue then offer .want .plain s else s

/-- Is a LIVE pane's stale count at 80 (R161)? -/
def Pane.staleDue (p : Pane) : Bool := p.bound.isSome && decide (80 ≤ p.stale) && p.state == .live

/-- A pane of a list turns STALE (R152, R161). -/
def staleAt (k : Nat) (ps : List Pane) : List Pane :=
  ps.mapIdx (fun j p => if j = k ∧ p.staleDue = true then { p with state := .stale } else p)

/-- A pane of a screen turns STALE (R161). -/
def paneStale (side : Side) (k : Nat) (s : State) : State :=
  s.setScreen side { s.screen side with panes := staleAt k (s.screen side).panes }

/-- The first pane of a screen whose stale count is at 80. -/
def State.stalePane (s : State) (side : Side) : Option Nat := (s.screen side).panes.findIdx? Pane.staleDue

/-! ### Which step is due -/

/-- The clash limit is reached and not yet acted on (R10, R25). -/
def State.clashDue (s : State) : Bool :=
  s.acting && decide (8 ≤ s.trunk.consecClash) && s.trunk.state != .excluded .clash

/-- A slot has been silent for 8 rounds (R44). -/
def State.reclaimDue (s : State) (n : Slot) : Bool :=
  (s.tables.slots[n]).owner.isSome && decide (8 ≤ (s.tables.slots[n]).silent)

/-- A foreign tag has aged to 48 (R37). -/
def State.agedTag (s : State) : Option Word := (s.tables.foreign.find? (fun x => decide (48 ≤ x.2))).map (fun x => x.1)

/-- A foreign tram has departed (R39). -/
def State.departedTag (s : State) : Option Word := s.tables.departed.head?

/-- A HOLDING stream is at its hold limit (R60). -/
def State.holdDue (s : State) (n : StreamNo) : Bool :=
  match s.engine.table[n] with
  | some x => x.state == .holding && decide (40 ≤ x.holdCount)
  | none => false

/-- The engine's work on a frame that the Intake has handed (R98, R108, R109). -/
def State.engineDue (s : State) : Option Instr :=
  if s.lens.handed.isSome then
    match s.lens.engine with
    | .free => none
    | .rota _ => some .rotaPass
    | .probe _ => some .probePass
    | .capture _ => some .captureFrame
  else none

/-- Does a condition hold of the lens record of an input? -/
def State.lensHas (s : State) (p : LensRecord → Bool) (i : Input) : Bool :=
  match s.lens.records[i] with
  | some r => p r
  | none => false

/-- A command, if it is due. -/
def dueIf (b : Bool) (c : Instr) : Option Instr := if b then some c else none

/-- The first of some. -/
def firstSome {α : Type} : List (Option α) → Option α
  | [] => none
  | some a :: _ => some a
  | none :: rest => firstSome rest

/-- The steps that may be due, in the order in which they are taken (DESIGN CHOICE, unsafe: log 2). -/
def State.dueSteps (s : State) : List (Option Instr) :=
  [ dueIf s.clashDue .clashLimit
  , (allSlots.find? s.reclaimDue).map .slotReclaim
  , s.agedTag.map .foreignTagAgedOut
  , (allAddrs.find? s.goneDue).map .stationGone
  , s.departedTag.map .foreignTramPurge
  , (allPositions.find? s.wantDue).map .wantRecordExpiry
  , (allStreams.find? s.holdDue).map .holdLimit
  , dueIf s.rosterRefreshDue .rosterRefreshDue
  , dueIf s.carryDue .carryEntryExpiry
  , dueIf s.wantRefreshDue .wantRefreshDue
  , (s.stalePane .left).map (.paneStale .left)
  , (s.stalePane .right).map (.paneStale .right)
  , (allInputs.find? s.syncedDue).map .cameraSynced
  , s.engineDue
  , (allInputs.find? (s.lensHas (fun r => r.riseDue s.cfg.soiling))).map .gradeRise
  , (allInputs.find? (s.lensHas (fun r => r.fallDue s.cfg.soiling))).map .gradeFall
  , (allInputs.find? (s.lensHas LensRecord.quietDue)).map .quietCountFull
  , (allChans.find? s.settleDue).map .doorChannelSettled ]

/-- The step that is due next; nothing is due in a station that does not act. -/
def State.nextDue (s : State) : Option Instr := if s.acting then firstSome s.dueSteps else none

/-- The times of entry of the offers that wait: those of the outbound control queue, and one beside a frame on the line
(R11, R12; log 12). -/
def State.waitingTimes (s : State) : List Nat :=
  s.queue.map (fun e => e.time)
    ++ (match s.trunk.out with
        | .control c => (c.again.map (fun x => x.2)).toList
        | _ => [])

/-- The moment of an event from outside: local time is later than every offer that waits, so that an offer of the event goes
behind those of what was told before it (R12; DESIGN CHOICE, unsafe: log 45). -/
def State.newMoment (s : State) : State :=
  (s.setNow (s.waitingTimes.foldl (fun m t => Nat.max m (t + 1)) s.now)).setClocked false

/-- The moment of a step of the station's own clock: one instant with the other such steps of its microsecond, as long as no
event from outside is told between them; after one it is later than that event (R12, R86; DESIGN CHOICE, unsafe: log 45). -/
def State.clockMoment (s : State) : State := if s.clocked then s else s.newMoment.setClocked true

/-- Nothing is due, every offer that waits was made before the present moment, and the moment is not one of the clock. -/
def Settled (s : State) : Prop := s.nextDue = none ∧ (∀ t ∈ s.waitingTimes, t < s.now) ∧ s.clocked = false

/-- Nothing is due, and the moment is one of the station's own clock. -/
def OnClock (s : State) : Prop := s.nextDue = none ∧ s.clocked = true

/-- Take a step that is due. -/
def takeDue (c : Instr) (s : State) : State :=
  match c with
  | .clashLimit => clashLimit s
  | .slotReclaim n => reclaimSlot n s
  | .foreignTagAgedOut t => tagAgedOut t s
  | .stationGone a => stationGone a s
  | .foreignTramPurge t => purgeTram t s
  | .wantRecordExpiry p => wantExpiry p s
  | .holdLimit n => holdLimit n s
  | .rosterRefreshDue => rosterRefresh s
  | .carryEntryExpiry => carryExpiry s
  | .wantRefreshDue => wantRefresh s
  | .paneStale side k => paneStale side k s
  | .cameraSynced i => cameraSynced i s
  | .rotaPass => rotaPass s
  | .probePass => probePass s
  | .captureFrame => captureFrame s
  | .gradeRise i => gradeRise i s
  | .gradeFall i => gradeFall i s
  | .quietCountFull i => quietFull i s
  | .doorChannelSettled ch => channelSettled ch s
  | _ => s

/-- Take every step that is due, at most n of them. -/
def settleUpTo : Nat → State → State
  | 0, s => s
  | n + 1, s =>
    match s.nextDue with
    | none => s
    | some c => settleUpTo n (takeDue c s)

/-- How many due steps one settling takes at most: more than one instant can make due (log 2). -/
def settleFuel : Nat := 256

/-- Take every step that is due (log 2). -/
def settle (s : State) : State := settleUpTo settleFuel s

/-- An event from outside acts, at a moment of its own, on the state that every step due before it has left, and the output
lines follow (logs 2, 45). -/
def act (f : State → State) (s : State) : State := refreshPins (f (settle s).newMoment)

/-- A step of the station's own clock (a timer at its limit, a line's acceptance, a place of the round) acts at a moment of the
clock on the state that every step due before it has left, and the output lines follow (logs 2, 45). -/
def actClock (f : State → State) (s : State) : State := refreshPins (f (settle s).clockMoment)

/-- A due step acts by itself at the moment of what made it due, and the output lines follow (log 45). -/
def actDue (f : State → State) (s : State) : State := refreshPins (f s)

end Sys2Proof.Machine
end

