-- ==== Sys2Proof/Machine/Clock.lean ====
section
/-! DEFINITION. What the block does when no command waits (log 1): the step that a timer at its limit makes due,
the start of a slot at which the round stands, or else one microsecond of local time. -/
namespace Sys2Proof.Machine

/-! ### Timers at their limits (log 3) -/

/-- The lines of the door channels, in the order in which acceptances of one moment are taken: the lowest channel first, and
REL, SHUT, EDGE within it (R85; DESIGN CHOICE, unsafe: log 50). -/
def doorLines : List (Chan × DoorLine) :=
  (allChans.map (fun c => [(c, DoorLine.rel), (c, .shut), (c, .edge)])).flatten

/-- Has the filter of a door line run out (R79)? -/
def State.doorDue (s : State) (x : Chan × DoorLine) : Bool :=
  match s.channels[x.1] with
  | some c => (c.filter x.2).due ((s.levels.door[x.1]).level x.2) s.cfg.filterTime
  | none => false

/-- Has a channel's closing timer reached the closing limit (R83)? -/
def State.closingDue (s : State) (c : Chan) : Bool :=
  match s.channels[c] with
  | some ch => ch.phase == .closing && decide (s.cfg.closingLimit ≤ ch.closing)
  | none => false

/-- Has a screen's linger timer run out (R144)? -/
def State.lingerDue (s : State) (side : Side) : Bool :=
  s.isActive && (s.screen side).linger.isSome && (s.screen side).lingerTimer == 0

/-- Does a condition hold of the record of an input? -/
def State.inputHas (s : State) (p : InputRecord → Bool) (i : Input) : Bool :=
  match s.intake.inputs[i] with
  | some r => p r
  | none => false

/-- A LIVE input's stall timer is at 0 (R66). -/
def InputRecord.stallDue (r : InputRecord) : Bool := r.state == .live && r.stall == 0

/-- A SYNCING or STALLED input has had no pulse for 2 s (R65, R67). -/
def InputRecord.absenceDue (r : InputRecord) : Bool :=
  (r.state == .syncing || r.state == .stalled) && decide (Config.absenceTime ≤ r.absence)

/-- The write timer is at 50 ms (R118). -/
def State.writeDue (s : State) : Bool :=
  s.store.phase == .writing && s.store.input.isSome
    && (match s.store.writeTimer with
        | some t => decide (Config.writeLimit ≤ t)
        | none => false)

/-- The gap in a frame of the service line has grown to more than 20 ms (R170). -/
def State.gapDue (s : State) : Bool :=
  match s.service with
  | .receive _ gap => decide (Config.byteGap ≤ gap)
  | _ => false

/-- The steps of timers at their limits in a station that acts, in the order in which those of one moment are taken: the
acceptances of lines before the closing limits, the lowest input or channel first (R66, R67, R83, R85; DESIGN CHOICE,
unsafe: log 50). -/
def State.timerSteps (s : State) : List (Option Instr) :=
  [ (doorLines.find? s.doorDue).map (fun x => .doorLineAccepted x.1 x.2)
  , dueIf (s.cfg.endStation.isSome && s.couplerFilter.due s.levels.coupler s.cfg.filterTime) .couplerLineAccepted
  , dueIf (s.isCab && s.cab.cabOn.due s.levels.cabOn s.cfg.filterTime) .cabOnAccepted
  , dueIf (s.isCab && s.cab.reverse.due s.levels.reverse s.cfg.filterTime) .reverseAccepted
  , dueIf (s.keyDue .ack true) .ackPress
  , dueIf (s.keyDue .nextL true) (.nextKeyPress .left)
  , dueIf (s.keyDue .nextR true) (.nextKeyPress .right)
  , dueIf (s.keyDue .ack false) (.driverKeyReleaseAccepted .ack)
  , dueIf (s.keyDue .nextL false) (.driverKeyReleaseAccepted .nextL)
  , dueIf (s.keyDue .nextR false) (.driverKeyReleaseAccepted .nextR)
  , (allChans.find? s.closingDue).map .closingLimit
  , dueIf (s.lingerDue .left) (.lingerExpiry .left)
  , dueIf (s.lingerDue .right) (.lingerExpiry .right)
  , (allInputs.find? (s.inputHas InputRecord.stallDue)).map .cameraStall
  , (allInputs.find? (s.inputHas InputRecord.absenceDue)).map .cameraAbsence
  , dueIf (s.lens.periodTimer == 0) .measurementPeriodTick
  , dueIf s.writeDue .baselineWriteTimeout
  , dueIf (s.store.stepTimer == some 0) .unlockStepTimeout
  , dueIf (s.store.lifeTimer == some 0) .unlockedLifeExpiry ]

/-- The control position that starts at an offset, if one does (R1). -/
def positionAt (offset : Nat) : Option (Fin 4) := allInputs.find? (fun k => Config.positionStart k.val == offset)

/-- The data slot that starts at an offset, if one does (R1). -/
def slotAt (offset : Nat) : Option Slot := allSlots.find? (fun n => Config.slotStart n.val == offset)

/-- Has the start of a slot been taken in this round, as the receive filter kept at it shows (R20; log 46)? -/
def State.slotBegun (s : State) (n : Slot) : Bool := s.trunk.filter.any (fun f => f.slot == n)

/-- The slot at whose start the round stands, if that start has not been taken: the observation of the slot before it has moved
the round there (R16, R18; DESIGN CHOICE, unsafe: log 81). -/
def State.slotDue (s : State) : Option Slot :=
  if s.trunk.synced then (slotAt s.trunk.offset).filter (fun n => !s.slotBegun n) else none

/-- The step that the clock makes due: the round timer's before the gap's, and that before those of State.timerSteps (DESIGN
CHOICE, unsafe: log 50). The start of the slot to which an observation has moved the round comes last: a timer at its limit
was there before the command moved the round (DESIGN CHOICE, unsafe: log 81). -/
def State.expiry (s : State) : Option Instr :=
  match s.boot.phase with
  | .held => none
  | .reading => dueIf (decide (Config.startReadLimit ≤ s.boot.readTimer)) .startReadEnd
  | .started =>
    firstSome [ dueIf (s.trunk.timer == 0) (.roundTimerExpiry false), dueIf s.gapDue .serviceByteTimeout,
                if s.acting then firstSome s.timerSteps else none,
                if s.acting then s.slotDue.map .dataSlotStart else none ]

/-! ### One microsecond of local time (log 1) -/

/-- A channel one us later (R79, R82). -/
def Channel.tick (c : Channel) (d : DoorLevels) (cfg : Settings) : Channel :=
  { c with
    rel := c.rel.tick d.rel cfg.filterTime, shut := c.shut.tick d.shut cfg.filterTime
    edge := c.edge.tick d.edge cfg.filterTime
    closing := if c.phase = .closing then upTo cfg.closingLimit c.closing else 0 }

/-- An input record one us later: the stall timer runs in LIVE, the absence timer is stopped in ABSENT (R63, R65 to R67). -/
def InputRecord.tick (r : InputRecord) : InputRecord :=
  { r with stall := if r.state = .live then r.stall - 1 else r.stall
           absence := if r.state = .absent then r.absence else upTo Config.absenceTime r.absence }

/-- The Baseline Store one us later (R112, R113, R115). -/
def BaselineStore.tick (b : BaselineStore) : BaselineStore :=
  { b with
    stepTimer := b.stepTimer.map (fun t => t - 1), lifeTimer := b.lifeTimer.map (fun t => t - 1)
    writeTimer := b.writeTimer.map (upTo Config.writeLimit) }

/-- A screen one us later (R144). -/
def Screen.tick (x : Screen) : Screen := { x with lingerTimer := x.lingerTimer - 1 }

/-- Cab Control's filters one us later (R79, R121, R141, R148). -/
def CabControl.tick (c : CabControl) (l : Levels) (time : Nat) : CabControl :=
  { c with
    cabOn := c.cabOn.tick l.cabOn time, reverse := c.reverse.tick l.reverse time, nextL := c.nextL.tick l.nextL time
    nextR := c.nextR.tick l.nextR time, ack := c.ack.tick l.ack time }

/-- The Service Port one us later (R170). -/
def PortState.tick : PortState → PortState
  | .receive bytes gap => .receive bytes (upTo Config.byteGap gap)
  | p => p

/-- The timers of the blocks that act, one us later. -/
def tickBlocks (s : State) : State :=
  { s with
    channels := vec4 (fun c => (s.channels[c]).map (fun ch => ch.tick s.levels.door[c] s.cfg))
    couplerFilter := if s.cfg.endStation.isSome then s.couplerFilter.tick s.levels.coupler s.cfg.filterTime
      else s.couplerFilter
    intake := { s.intake with inputs := s.intake.inputs.map (fun x => x.map InputRecord.tick) }
    lens := { s.lens with periodTimer := s.lens.periodTimer - 1 }
    store := s.store.tick
    cab := if s.isCab then s.cab.tick s.levels s.cfg.filterTime else s.cab
    comp := { s.comp with left := s.comp.left.tick, right := s.comp.right.tick } }

/-- The Trunk Port's round timer and offset and the Service Port's gap, one us later (R1, R2, R170). -/
def tickPorts (s : State) : State :=
  { s with
    trunk := { s.trunk with
      timer := s.trunk.timer - 1
      offset := if s.trunk.synced then upTo Config.tailStart s.trunk.offset else s.trunk.offset }
    service := s.service.tick }

/-- The part of the round that the clock has just come to starts (R1, R8, R16). -/
def enterPart (s : State) : State :=
  if s.trunk.synced then
    match positionAt s.trunk.offset with
    | some k => positionStart k.val s
    | none =>
      match slotAt s.trunk.offset with
      | some n => slotStart n s
      | none => s
  else s

/-- One microsecond of local time. The place of the round that it comes to starts within it, a slot's tile supplied, before a
timer that it brings to its limit acts (R74; DESIGN CHOICE, unsafe: log 75). -/
def tick (s : State) : State :=
  let s := s.setNow (s.now + 1)
  match s.boot.phase with
  | .held => s
  | .reading => s.setBoot { s.boot with readTimer := upTo Config.startReadLimit s.boot.readTimer }
  | .started =>
    if s.acting then refreshPins (enterPart (tickPorts (tickBlocks (s.setClocked true))))
    else tickPorts s

end Sys2Proof.Machine
end

