-- ==== Sys2Proof/Machine/CommandsCab.lean ====
section
/-! DEFINITION. The meanings of the commands of the vehicle lines, the doors, the cab and the screens: each is one shared operation, and
no command ends in a fault or a refusal. -/
namespace Sys2Proof.Machine

/-- VEHICLE_LINE_EDGE (R79, R148). -/
def execVehicleLineEdge (line : VehicleLine) (level : Bool) (s : State) : Host.Outcome State Fault Refusal :=
  .next (actClock (lineEdge line level) s)

/-- DOOR_LINE_ACCEPTED (R79, R81). -/
def execDoorLineAccepted (ch : Chan) (line : DoorLine) (s : State) : Host.Outcome State Fault Refusal :=
  .next (actClock (doorAccepted ch line) s)

/-- DOOR_CHANNEL_SETTLED (R84). -/
def execDoorChannelSettled (ch : Chan) (s : State) : Host.Outcome State Fault Refusal :=
  .next (actDue (channelSettled ch) s)

/-- CLOSING_LIMIT (R83). -/
def execClosingLimit (ch : Chan) (s : State) : Host.Outcome State Fault Refusal := .next (actClock (closingLimit ch) s)

/-- COUPLER_LINE_ACCEPTED (R34). -/
def execCouplerLineAccepted (s : State) : Host.Outcome State Fault Refusal := .next (actClock couplerAccepted s)

/-- CAB_ON_ACCEPTED (R121, R122). -/
def execCabOnAccepted (s : State) : Host.Outcome State Fault Refusal := .next (actClock cabOnAccepted s)

/-- REVERSE_ACCEPTED (R141). -/
def execReverseAccepted (s : State) : Host.Outcome State Fault Refusal := .next (actClock reverseAccepted s)

/-- LINGER_EXPIRY (R144). -/
def execLingerExpiry (side : Side) (s : State) : Host.Outcome State Fault Refusal := .next (actClock (lingerExpiry side) s)

/-- ACK_PRESS (R148, R149). -/
def execAckPress (s : State) : Host.Outcome State Fault Refusal := .next (actClock ackAccepted s)

/-- NEXT_KEY_PRESS (R148, R150). -/
def execNextKeyPress (side : Side) (s : State) : Host.Outcome State Fault Refusal := .next (actClock (nextAccepted side) s)

/-- DRIVER_KEY_RELEASE_ACCEPTED (R148). -/
def execDriverKeyReleaseAccepted (key : Key) (s : State) : Host.Outcome State Fault Refusal :=
  .next (actClock (keyReleaseAccepted key) s)

/-- CARRY_ENTRY_EXPIRY (R154). -/
def execCarryEntryExpiry (s : State) : Host.Outcome State Fault Refusal := .next (actDue carryExpiry s)

/-- WANT_REFRESH_DUE (R155). -/
def execWantRefreshDue (s : State) : Host.Outcome State Fault Refusal := .next (actDue wantRefresh s)

/-- PANE_STALE (R161). -/
def execPaneStale (side : Side) (pane : Nat) (s : State) : Host.Outcome State Fault Refusal :=
  .next (actDue (paneStale side pane) s)

end Sys2Proof.Machine
end

