-- ==== Sys2Proof/Machine/CommandsCamera.lean ====
section
/-! DEFINITION. The meanings of the commands of the Camera Intake and Lens Watch: each is one shared operation, and
no command ends in a fault or a refusal. -/
namespace Sys2Proof.Machine

/-- CAMERA_SYNC_PULSE (R64, R65). -/
def execCameraSyncPulse (i : Input) (kind : SyncKind) (s : State) : Host.Outcome State Fault Refusal :=
  .next (act (syncPulse i kind) s)

/-- CAMERA_FRAME_COMPLETED (R64 to R67, R70, R75, R76). -/
def execCameraFrameCompleted (i : Input) (frame : CameraFrame) (s : State) : Host.Outcome State Fault Refusal :=
  .next (act (frameCompleted i frame) s)

/-- CAMERA_SYNCED (R65, R68). -/
def execCameraSynced (i : Input) (s : State) : Host.Outcome State Fault Refusal := .next (actDue (cameraSynced i) s)

/-- CAMERA_STALL (R66, R68). -/
def execCameraStall (i : Input) (s : State) : Host.Outcome State Fault Refusal := .next (actClock (cameraStall i) s)

/-- CAMERA_ABSENCE (R67). -/
def execCameraAbsence (i : Input) (s : State) : Host.Outcome State Fault Refusal := .next (actClock (cameraAbsence i) s)

/-- MEASUREMENT_PERIOD_TICK (R97). -/
def execMeasurementPeriodTick (s : State) : Host.Outcome State Fault Refusal := .next (actClock periodTick s)

/-- QUIET_COUNT_FULL (R97, R103). -/
def execQuietCountFull (i : Input) (s : State) : Host.Outcome State Fault Refusal := .next (actDue (quietFull i) s)

/-- ROTA_PASS (R98 to R102). -/
def execRotaPass (s : State) : Host.Outcome State Fault Refusal := .next (actDue rotaPass s)

/-- GRADE_RISE (R102). -/
def execGradeRise (i : Input) (s : State) : Host.Outcome State Fault Refusal := .next (actDue (gradeRise i) s)

/-- GRADE_FALL (R102). -/
def execGradeFall (i : Input) (s : State) : Host.Outcome State Fault Refusal := .next (actDue (gradeFall i) s)

/-- PROBE_PASS (R109). -/
def execProbePass (s : State) : Host.Outcome State Fault Refusal := .next (actDue probePass s)

/-- CAPTURE_FRAME (R108, R117, R118). -/
def execCaptureFrame (s : State) : Host.Outcome State Fault Refusal := .next (actDue captureFrame s)

end Sys2Proof.Machine
end

