-- ==== Sys2Proof/Machine/CommandsService.lean ====
section
/-! DEFINITION. The meanings of the commands of the Baseline Store and the Service Port: each is one shared operation, and
no command ends in a fault or a refusal. -/
namespace Sys2Proof.Machine

/-- BASELINE_WRITE_COMPLETE (R118, R119). -/
def execBaselineWriteComplete (s : State) : Host.Outcome State Fault Refusal := .next (act writeComplete s)

/-- BASELINE_WRITE_TIMEOUT (R118, R119). -/
def execBaselineWriteTimeout (s : State) : Host.Outcome State Fault Refusal := .next (actClock writeTimeout s)

/-- UNLOCK_STEP_TIMEOUT (R114). -/
def execUnlockStepTimeout (s : State) : Host.Outcome State Fault Refusal := .next (actClock stepTimeout s)

/-- UNLOCKED_LIFE_EXPIRY (R112). -/
def execUnlockedLifeExpiry (s : State) : Host.Outcome State Fault Refusal := .next (actClock lifeExpiry s)

/-- SERVICE_LINE_DEASSERT (R114). -/
def execServiceLineDeassert (s : State) : Host.Outcome State Fault Refusal := .next (act serviceDeasserted s)

/-- SERVICE_BYTE (R170, R171). -/
def execServiceByte (b : Byte) (stopBit : Bool) (s : State) : Host.Outcome State Fault Refusal :=
  .next (act (serviceByte b stopBit) s)

/-- SERVICE_BYTE_TIMEOUT (R170). -/
def execServiceByteTimeout (s : State) : Host.Outcome State Fault Refusal := .next (actClock serviceGap s)

/-- STATUS (R171, R173). -/
def execStatus (s : State) : Host.Outcome State Fault Refusal := .next (act (requestCommand .status 0x00#8) s)

/-- ROSTER (R171, R174). -/
def execRoster (s : State) : Host.Outcome State Fault Refusal := .next (act (requestCommand .roster 0x00#8) s)

/-- LENS (R110, R174). -/
def execLens (input : Byte) (s : State) : Host.Outcome State Fault Refusal :=
  .next (act (requestCommand .lens input) s)

/-- PROBE (R109). -/
def execProbe (input : Byte) (s : State) : Host.Outcome State Fault Refusal :=
  .next (act (requestCommand .probe input) s)

/-- UNLOCK (R113). -/
def execUnlock (step : Byte) (s : State) : Host.Outcome State Fault Refusal :=
  .next (act (requestCommand .unlock step) s)

/-- CAPTURE (R116). -/
def execCapture (input : Byte) (s : State) : Host.Outcome State Fault Refusal :=
  .next (act (requestCommand .capture input) s)

/-- CLEAR (R119). -/
def execClear (input : Byte) (s : State) : Host.Outcome State Fault Refusal :=
  .next (act (requestCommand .clear input) s)

/-- REPLY_SENT (R170). -/
def execReplySent (s : State) : Host.Outcome State Fault Refusal := .next (act replySent s)

end Sys2Proof.Machine
end

