-- ==== Sys2Proof/Machine/CommandsStart.lean ====
section
/-! DEFINITION. The meanings of the commands of reset and start: each is one shared operation, and
no command ends in a fault or a refusal. -/
namespace Sys2Proof.Machine

/-- POWER_ON_RESET (R120, R167). It takes no due step first (DESIGN CHOICE, unsafe: log 56). -/
def execPowerOnReset (s : State) : Host.Outcome State Fault Refusal := .next (refreshPins (powerOnReset s))

/-- RESET_LINE (R120, R167). It takes no due step first (DESIGN CHOICE, unsafe: log 56). -/
def execResetLine (s : State) : Host.Outcome State Fault Refusal := .next (refreshPins (resetLineAsserted s))

/-- RESET_RELEASED (R167). -/
def execResetReleased (s : State) : Host.Outcome State Fault Refusal := .next (refreshPins (resetReleased s))

/-- START_READ_END (R78, R94, R111, R167 to R169). -/
def execStartReadEnd (s : State) : Host.Outcome State Fault Refusal := .next (refreshPins (startReadEnd s))

end Sys2Proof.Machine
end

