-- ==== Sys2Proof/Machine/CommandsTables.lean ====
section
/-! DEFINITION. The meanings of the commands of the control frames that are heard, and the counts of the Consist Tables and the Stream Engine that run out: each is one shared operation, and
no command ends in a fault or a refusal. -/
namespace Sys2Proof.Machine

/-- ROSTER_FRAME_RECEIVED (R19, R20, R33). -/
def execRosterFrameReceived (rx : ControlRx) (s : State) : Host.Outcome State Fault Refusal :=
  .next (act (frameHeard .roster rx) s)

/-- DOOR_FRAME_RECEIVED (R19, R20, R88). -/
def execDoorFrameReceived (rx : ControlRx) (s : State) : Host.Outcome State Fault Refusal :=
  .next (act (frameHeard .door rx) s)

/-- LENS_FRAME_RECEIVED (R19, R20, R106). -/
def execLensFrameReceived (rx : ControlRx) (s : State) : Host.Outcome State Fault Refusal :=
  .next (act (frameHeard .lens rx) s)

/-- CAB_FRAME_RECEIVED (R19, R20, R126). -/
def execCabFrameReceived (rx : ControlRx) (s : State) : Host.Outcome State Fault Refusal :=
  .next (act (frameHeard .cab rx) s)

/-- WANT_FRAME_RECEIVED (R19, R20, R47). -/
def execWantFrameReceived (rx : ControlRx) (s : State) : Host.Outcome State Fault Refusal :=
  .next (act (frameHeard .want rx) s)

/-- CLAIM_FRAME_RECEIVED (R19, R20, R41). -/
def execClaimFrameReceived (rx : ControlRx) (s : State) : Host.Outcome State Fault Refusal :=
  .next (act (frameHeard .claim rx) s)

/-- RELEASE_FRAME_RECEIVED (R19, R20, R42). -/
def execReleaseFrameReceived (rx : ControlRx) (s : State) : Host.Outcome State Fault Refusal :=
  .next (act (frameHeard .release rx) s)

/-- DENY_FRAME_RECEIVED (R19, R20, R57, R162). -/
def execDenyFrameReceived (rx : ControlRx) (s : State) : Host.Outcome State Fault Refusal :=
  .next (act (frameHeard .deny rx) s)

/-- SLOT_RECLAIM (R44). -/
def execSlotReclaim (n : Slot) (s : State) : Host.Outcome State Fault Refusal := .next (actDue (reclaimSlot n) s)

/-- STATION_GONE (R30). -/
def execStationGone (a : Addr) (s : State) : Host.Outcome State Fault Refusal := .next (actDue (stationGone a) s)

/-- FOREIGN_TAG_AGED_OUT (R37). -/
def execForeignTagAgedOut (tag : Word) (s : State) : Host.Outcome State Fault Refusal :=
  .next (actDue (tagAgedOut tag) s)

/-- FOREIGN_TRAM_PURGE (R39). -/
def execForeignTramPurge (tag : Word) (s : State) : Host.Outcome State Fault Refusal :=
  .next (actDue (purgeTram tag) s)

/-- ROSTER_REFRESH_DUE (R28, R32). -/
def execRosterRefreshDue (s : State) : Host.Outcome State Fault Refusal := .next (actDue rosterRefresh s)

/-- WANT_RECORD_EXPIRY (R48). -/
def execWantRecordExpiry (p : WantPos) (s : State) : Host.Outcome State Fault Refusal :=
  .next (actDue (wantExpiry p) s)

/-- HOLD_LIMIT (R60). -/
def execHoldLimit (n : StreamNo) (s : State) : Host.Outcome State Fault Refusal := .next (actDue (holdLimit n) s)

end Sys2Proof.Machine
end

