-- ==== Sys2Proof/Machine/CommandsTrunk.lean ====
section
/-! DEFINITION. The meanings of the commands of the Trunk Port: rounds, MARKs, control positions, own frames, data slots: each is one shared operation, and
no command ends in a fault or a refusal. -/
namespace Sys2Proof.Machine

/-- ROUND_TIMER_EXPIRY (R3, R28). -/
def execRoundTimerExpiry (signal : Bool) (s : State) : Host.Outcome State Fault Refusal :=
  .next (actClock (roundTimerExpiry signal) s)

/-- MARK_START_HEARD (R1, R2, R6, R28). -/
def execMarkStartHeard (s : State) : Host.Outcome State Fault Refusal := .next (act markStartHeard s)

/-- MARK_BODY_RECEIVED (R5, R24, R29). -/
def execMarkBodyReceived (rx : MarkRx) (s : State) : Host.Outcome State Fault Refusal :=
  .next (act (markBodyReceived rx) s)

/-- MARK_READBACK_END (R4, R24). -/
def execMarkReadbackEnd (readBack : List Byte) (s : State) : Host.Outcome State Fault Refusal :=
  .next (act (markReadbackEnd readBack) s)

/-- CONTROL_POSITION_START (R8). -/
def execControlPositionStart (k : Nat) (s : State) : Host.Outcome State Fault Refusal :=
  .next (actClock (positionStart k) s)

/-- ARBITRATION_WIN (R9, R54, R57, R61). -/
def execArbitrationWin (s : State) : Host.Outcome State Fault Refusal := .next (act arbitrationWin s)

/-- CONTROL_FRAME_SENT (R9, R10, R55, R61, R123). -/
def execControlFrameSent (readBack : List Byte) (s : State) : Host.Outcome State Fault Refusal :=
  .next (act (controlFrameSent readBack) s)

/-- CLASH_LIMIT (R10, R25). -/
def execClashLimit (s : State) : Host.Outcome State Fault Refusal := .next (actDue clashLimit s)

/-- DATA_SLOT_START (R16, R72, R73). -/
def execDataSlotStart (n : Slot) (s : State) : Host.Outcome State Fault Refusal := .next (actClock (slotStart n) s)

/-- SLOT_OBSERVATION (R17 to R20, R43). -/
def execSlotObservation (n : Slot) (line : SlotLine) (s : State) : Host.Outcome State Fault Refusal :=
  .next (actClock (slotObservation n line) s)

end Sys2Proof.Machine
end

