-- ==== Sys2Proof/Machine/Dispatch.lean ====
section
/-! DEFINITION. What each command does: one arm per command, one call of its meaning. -/
namespace Sys2Proof.Machine

/-- The effect of a command on everything but the queue of commands. -/
def exec (i : Instr) (s : State) : Host.Outcome State Fault Refusal :=
  match i with
  | .powerOnReset => Sys2Proof.Machine.execPowerOnReset s
  | .resetLine => Sys2Proof.Machine.execResetLine s
  | .startReadEnd => Sys2Proof.Machine.execStartReadEnd s
  | .roundTimerExpiry signal => Sys2Proof.Machine.execRoundTimerExpiry signal s
  | .markStartHeard => Sys2Proof.Machine.execMarkStartHeard s
  | .markBodyReceived rx => Sys2Proof.Machine.execMarkBodyReceived rx s
  | .markReadbackEnd readBack => Sys2Proof.Machine.execMarkReadbackEnd readBack s
  | .controlPositionStart k => Sys2Proof.Machine.execControlPositionStart k s
  | .arbitrationWin => Sys2Proof.Machine.execArbitrationWin s
  | .controlFrameSent readBack => Sys2Proof.Machine.execControlFrameSent readBack s
  | .clashLimit => Sys2Proof.Machine.execClashLimit s
  | .rosterFrameReceived rx => Sys2Proof.Machine.execRosterFrameReceived rx s
  | .doorFrameReceived rx => Sys2Proof.Machine.execDoorFrameReceived rx s
  | .lensFrameReceived rx => Sys2Proof.Machine.execLensFrameReceived rx s
  | .cabFrameReceived rx => Sys2Proof.Machine.execCabFrameReceived rx s
  | .wantFrameReceived rx => Sys2Proof.Machine.execWantFrameReceived rx s
  | .claimFrameReceived rx => Sys2Proof.Machine.execClaimFrameReceived rx s
  | .releaseFrameReceived rx => Sys2Proof.Machine.execReleaseFrameReceived rx s
  | .denyFrameReceived rx => Sys2Proof.Machine.execDenyFrameReceived rx s
  | .dataSlotStart n => Sys2Proof.Machine.execDataSlotStart n s
  | .slotObservation n line => Sys2Proof.Machine.execSlotObservation n line s
  | .slotReclaim n => Sys2Proof.Machine.execSlotReclaim n s
  | .stationGone a => Sys2Proof.Machine.execStationGone a s
  | .foreignTagAgedOut tag => Sys2Proof.Machine.execForeignTagAgedOut tag s
  | .foreignTramPurge tag => Sys2Proof.Machine.execForeignTramPurge tag s
  | .rosterRefreshDue => Sys2Proof.Machine.execRosterRefreshDue s
  | .wantRecordExpiry p => Sys2Proof.Machine.execWantRecordExpiry p s
  | .holdLimit n => Sys2Proof.Machine.execHoldLimit n s
  | .vehicleLineEdge line level => Sys2Proof.Machine.execVehicleLineEdge line level s
  | .doorLineAccepted ch line => Sys2Proof.Machine.execDoorLineAccepted ch line s
  | .doorChannelSettled ch => Sys2Proof.Machine.execDoorChannelSettled ch s
  | .closingLimit ch => Sys2Proof.Machine.execClosingLimit ch s
  | .couplerLineAccepted => Sys2Proof.Machine.execCouplerLineAccepted s
  | .cabOnAccepted => Sys2Proof.Machine.execCabOnAccepted s
  | .reverseAccepted => Sys2Proof.Machine.execReverseAccepted s
  | .lingerExpiry side => Sys2Proof.Machine.execLingerExpiry side s
  | .ackPress => Sys2Proof.Machine.execAckPress s
  | .nextKeyPress side => Sys2Proof.Machine.execNextKeyPress side s
  | .carryEntryExpiry => Sys2Proof.Machine.execCarryEntryExpiry s
  | .wantRefreshDue => Sys2Proof.Machine.execWantRefreshDue s
  | .paneStale side pane => Sys2Proof.Machine.execPaneStale side pane s
  | .cameraSyncPulse n kind => Sys2Proof.Machine.execCameraSyncPulse n kind s
  | .cameraFrameCompleted n frame => Sys2Proof.Machine.execCameraFrameCompleted n frame s
  | .cameraSynced n => Sys2Proof.Machine.execCameraSynced n s
  | .cameraStall n => Sys2Proof.Machine.execCameraStall n s
  | .cameraAbsence n => Sys2Proof.Machine.execCameraAbsence n s
  | .measurementPeriodTick => Sys2Proof.Machine.execMeasurementPeriodTick s
  | .quietCountFull n => Sys2Proof.Machine.execQuietCountFull n s
  | .rotaPass => Sys2Proof.Machine.execRotaPass s
  | .gradeRise n => Sys2Proof.Machine.execGradeRise n s
  | .gradeFall n => Sys2Proof.Machine.execGradeFall n s
  | .probePass => Sys2Proof.Machine.execProbePass s
  | .captureFrame => Sys2Proof.Machine.execCaptureFrame s
  | .baselineWriteComplete => Sys2Proof.Machine.execBaselineWriteComplete s
  | .baselineWriteTimeout => Sys2Proof.Machine.execBaselineWriteTimeout s
  | .unlockStepTimeout => Sys2Proof.Machine.execUnlockStepTimeout s
  | .unlockedLifeExpiry => Sys2Proof.Machine.execUnlockedLifeExpiry s
  | .serviceLineDeassert => Sys2Proof.Machine.execServiceLineDeassert s
  | .serviceByte b stopBit => Sys2Proof.Machine.execServiceByte b stopBit s
  | .serviceByteTimeout => Sys2Proof.Machine.execServiceByteTimeout s
  | .status => Sys2Proof.Machine.execStatus s
  | .roster => Sys2Proof.Machine.execRoster s
  | .lens input => Sys2Proof.Machine.execLens input s
  | .probe input => Sys2Proof.Machine.execProbe input s
  | .unlock step => Sys2Proof.Machine.execUnlock step s
  | .capture input => Sys2Proof.Machine.execCapture input s
  | .clear input => Sys2Proof.Machine.execClear input s
  | .replySent => Sys2Proof.Machine.execReplySent s
  | .resetReleased => Sys2Proof.Machine.execResetReleased s
  | .driverKeyReleaseAccepted key => Sys2Proof.Machine.execDriverKeyReleaseAccepted key s

end Sys2Proof.Machine
end

