-- ==== Sys2Proof/Machine/Step.lean ====
section
/-! DEFINITION. One step of the block: the command at the front of the queue; with no command waiting, a step that a
count or a timer has made due, or else one microsecond of local time (log 1). -/
namespace Sys2Proof.Machine

/-- What the block does when no command waits (log 1). -/
def idleStep (s : State) : Host.Outcome State Fault Refusal :=
  match s.nextDue with
  | some c => exec c s
  | none =>
    match s.expiry with
    | some c => exec c s
    | none => .next (tick s)

/-- One step: the command at the front of the queue acts on the state with the queue's rest. -/
def step (s : State) : Host.Outcome State Fault Refusal :=
  match s.pending with
  | c :: rest => exec c (s.setPending rest)
  | [] => idleStep s

/-- s with the command that a word spells put at the front of its queue; the table gives no row any bits, so no word
spells a command and s stays as it is (log 5). -/
def State.withFetchWord (s : State) (nbits w : Nat) : State :=
  match decodeTableWord nbits w with
  | some c => s.setPending (c :: s.pending)
  | none => s

end Sys2Proof.Machine
end

