-- ==== Sys2Proof/Machine/Core.lean ====
section
/-! DEFINITION. The block as the host reads it. -/

/-- The TC416 station as a block of the host's kind. -/
def Sys2Proof.core : Host.Core :=
  { State := Sys2Proof.Machine.State, Fault := Sys2Proof.Machine.Fault, Refusal := Sys2Proof.Machine.Refusal,
    step := Sys2Proof.Machine.step, reset := Sys2Proof.Machine.State.reset }
end

