-- ==== Sys2Proof/Safety.lean ====
section
/-! DEFINITION. What safety means for this block: a step never stops the machine, and it keeps the outbound control
queue and the configuration memory in their forms; and the words in which frames and hearing are stated. -/
namespace Sys2Proof.Machine

/-- A step that ends in a next state. -/
def Completes (o : Host.Outcome State Fault Refusal) : Prop := ∃ t, o = .next t

/-- The outbound control queue holds no two entries of one subject (R11). -/
def QueueDistinct (q : List QueueEntry) : Prop := (q.map (fun e => e.subject)).Nodup

/-- The outbound control queue stands in the order of R12. -/
def QueueOrdered (q : List QueueEntry) : Prop := q.Pairwise (fun a b => b.before a = false)

/-- The configuration memory is in its canonical form. -/
def MemoryCanonical (s : State) : Prop := Memory.wf s.confMem = true

/-- A transmission without the offer that waits beside its frame (log 12). -/
def TrunkOut.base : TrunkOut → TrunkOut
  | .control c => .control { c with again := none }
  | o => o

/-- The state beside what a change of the tables lets the Stream Engine, Cab Control and the Screen Composer change:
the queue, the stream engine, the cab state, the Composer and the output lines are blanked, with the offer that waits
beside a frame on the line. Two states that are equal so differ in these parts only. -/
def State.beside (s : State) : State :=
  { s with queue := [], trunk := { s.trunk with out := s.trunk.out.base }, engine := StreamEngine.reset
           comp := Composer.reset, cab := { s.cab with state := .idle }, pins := Pins.held }

/-- The tables once an item from an address with a tag has been heard and has given its sender presence (R29, R37). -/
def State.heardTables (s : State) (a : Addr) (tag : Word) : Tables :=
  presence s.addr a tag
    (if tag = s.cfg.tag then s.tables else { s.tables with foreign := takeTag tag s.tables.foreign })

/-- An item from an address with a tag leaves the number of lower tags as it is and passes the identity filters, in a
station that acts (R35 to R37). -/
def State.admits (s : State) (a : Addr) (tag : Word) : Prop :=
  s.acting = true ∧ s.heldBack a tag = false
    ∧ (tag = s.cfg.tag
        ∨ lowerTags s.cfg.tag (takeTag tag s.tables.foreign) = lowerTags s.cfg.tag s.tables.foreign)

/-- The command that brings a control frame of a kind (spec/opcode_table.json). -/
def heardBy : FrameKind → ControlRx → Instr
  | .roster => .rosterFrameReceived
  | .door => .doorFrameReceived
  | .lens => .lensFrameReceived
  | .cab => .cabFrameReceived
  | .want => .wantFrameReceived
  | .claim => .claimFrameReceived
  | .release => .releaseFrameReceived
  | .deny => .denyFrameReceived

/-- Is a command a step of the station's own clock (log 45): a timer at its limit, the acceptance of a line, an edge, which
takes the acceptance that its line owes, or a place of the round? -/
def clockStep : Instr → Bool
  | .roundTimerExpiry _ | .controlPositionStart _ | .dataSlotStart _ | .slotObservation _ _ | .vehicleLineEdge _ _
  | .doorLineAccepted _ _ | .closingLimit _ | .couplerLineAccepted | .cabOnAccepted | .reverseAccepted | .lingerExpiry _
  | .ackPress | .nextKeyPress _ | .driverKeyReleaseAccepted _ | .cameraStall _ | .cameraAbsence _ | .measurementPeriodTick
  | .baselineWriteTimeout | .unlockStepTimeout | .unlockedLifeExpiry | .serviceByteTimeout => true
  | _ => false

/-- Is a command an event at a moment of its own (log 45)? The steps of the clock are none. The steps that a count or a
handed item makes due share the moment of what made them due, and reset and start find no offer waiting. -/
def ownMoment (c : Instr) : Bool :=
  match c with
  | .powerOnReset | .resetLine | .resetReleased | .startReadEnd => false
  | .clashLimit | .slotReclaim _ | .foreignTagAgedOut _ | .stationGone _ | .foreignTramPurge _ | .wantRecordExpiry _
  | .holdLimit _ | .rosterRefreshDue | .carryEntryExpiry | .wantRefreshDue | .paneStale _ _ | .cameraSynced _ | .rotaPass
  | .probePass | .captureFrame | .gradeRise _ | .gradeFall _ | .quietCountFull _ | .doorChannelSettled _ => false
  | c => !clockStep c

/-- The state once an item's tag has been taken into the foreign-tag set (R37). -/
def State.tagged (s : State) (tag : Word) : State :=
  if tag = s.cfg.tag then s else s.setTables { s.tables with foreign := takeTag tag s.tables.foreign }

/-- The Trunk Port once a control frame of another station has ended: the station's own contention is over, and the
signal counts from the check point on (R3, R8). -/
def State.frameEnded (s : State) : State :=
  s.setTrunk { s.trunk with
    contending := none, heardSince := s.trunk.heardSince || (!s.trunk.synced || decide (4928 ≤ s.trunk.offset)) }

end Sys2Proof.Machine
end

