-- ==== Sys2Proof/Certificates/Slice0/Obligations.lean ====
section
/-! DEFINITION. The statements for the provers: what the rules of spec/ say of the station, each as a proposition over
the model (OBLIGATIONS.json lists them). -/
section
open Sys2Proof Sys2Proof.Machine

/-- A step runs the command at the front of the queue. -/
def Obligations.StepTakesFrontCommand : Prop :=
  ∀ (c : Instr) (rest : List Instr) (s : State), s.pending = c :: rest → step s = exec c (s.setPending rest)

/-- A step on an empty queue takes a due step, a timer expiry, a slot's start, or one microsecond, and what that does (the
model's choices: logs 1, 2, 4, 43, 45, 46, 48, 50, 75, 81). -/
def Obligations.StepOnEmptyQueue : Prop :=
  (∀ s : State, s.pending = [] →
      (∀ c, s.nextDue = some c → step s = exec c s)
        ∧ (∀ c, s.nextDue = none → s.expiry = some c → step s = exec c s)
        ∧ (s.nextDue = none → s.expiry = none → step s = .next (tick s))
        ∧ (∀ n : Slot, s.nextDue = none → s.acting = true → s.trunk.timer ≠ 0 → s.gapDue = false →
          firstSome s.timerSteps = none → s.trunk.synced = true → s.trunk.offset = 320 + 192 * n.val →
          (∀ f, s.trunk.filter = some f → f.slot ≠ n) → step s = exec (.dataSlotStart n) s))
    ∧ (∀ (s t : State) (run : LineFilter → Bool → LineFilter) (tr : Trunk) (down : Option Nat → Option Nat), t = tick s →
      (∀ f level, run f level = { f with
        differ := if level = f.accepted then 0 else min s.cfg.filterTime (f.differ + 1)
        still := min s.cfg.filterTime (f.still + 1) }) →
      tr = { s.trunk with
        timer := s.trunk.timer - 1
        offset := if s.trunk.synced = true ∧ s.trunk.offset < 4928 then s.trunk.offset + 1 else s.trunk.offset } →
      (∀ x, down x = x.map (fun n => n - 1)) →
      t.now = s.now + 1 ∧ t.pending = s.pending ∧ t.queue = s.queue ∧ t.tables = s.tables ∧ t.levels = s.levels
        ∧ t.cfg = s.cfg ∧ t.confMem = s.confMem ∧ (s.acting = true → t.clocked = true)
      ∧ (s.boot.phase = .held → t = s.setNow (s.now + 1))
      ∧ (s.boot.phase = .reading → t = (s.setNow (s.now + 1)).setBoot { s.boot with
          readTimer := if s.boot.readTimer < 5000 then s.boot.readTimer + 1 else s.boot.readTimer })
      ∧ (s.boot.phase = .started →
        t.service = (match s.service with
          | .receive bytes gap => .receive bytes (if gap < 20001 then gap + 1 else gap)
          | p => p)
        ∧ (s.acting = false → t = ((s.setNow (s.now + 1)).setTrunk tr).setService t.service))
      ∧ (s.acting = true →
        (∀ (c : Chan) (ch : Channel), s.channels[c] = some ch → t.channels[c] = some { ch with
          rel := run ch.rel (s.levels.door[c]).rel, shut := run ch.shut (s.levels.door[c]).shut
          edge := run ch.edge (s.levels.door[c]).edge
          closing := if ch.phase = .closing then
              (if ch.closing < s.cfg.closingLimit then ch.closing + 1 else ch.closing) else 0 })
        ∧ (∀ c : Chan, s.channels[c] = none → t.channels[c] = none)
        ∧ t.couplerFilter = (if s.cfg.endStation = none then s.couplerFilter else run s.couplerFilter s.levels.coupler)
        ∧ (∀ (i : Input) (r : InputRecord), s.intake.inputs[i] = some r → t.intake.inputs[i] = some { r with
          stall := if r.state = .live then r.stall - 1 else r.stall
          absence := if r.state ≠ .absent ∧ r.absence < 2000000 then r.absence + 1 else r.absence })
        ∧ (∀ i : Input, s.intake.inputs[i] = none → t.intake.inputs[i] = none) ∧ t.intake.request = s.intake.request
        ∧ t.lens = { s.lens with periodTimer := s.lens.periodTimer - 1 }
        ∧ t.store = { s.store with
            stepTimer := down s.store.stepTimer, lifeTimer := down s.store.lifeTimer
            writeTimer := s.store.writeTimer.map (fun n => if n < 50000 then n + 1 else n) }
        ∧ t.cab = (if s.isCab = true then { s.cab with
            cabOn := run s.cab.cabOn s.levels.cabOn, reverse := run s.cab.reverse s.levels.reverse
            nextL := run s.cab.nextL s.levels.nextL, nextR := run s.cab.nextR s.levels.nextR
            ack := run s.cab.ack s.levels.ack } else s.cab)
        ∧ t.comp = { s.comp with
            left := { s.comp.left with lingerTimer := s.comp.left.lingerTimer - 1 }
            right := { s.comp.right with lingerTimer := s.comp.right.lingerTimer - 1 } }
        ∧ ((s.trunk.synced = false ∨ ((∀ k : Fin 4, tr.offset ≠ 40 + 70 * k.val)
            ∧ ∀ n : Slot, tr.offset ≠ 320 + 192 * n.val)) → t.trunk = tr ∧ t.engine = s.engine)
        ∧ (∀ k : Fin 4, s.trunk.synced = true → tr.offset = 40 + 70 * k.val → t.engine = s.engine
            ∧ t.trunk = { tr with contending :=
                if s.trunk.state = .joined ∧ s.trunk.won = false ∧ s.trunk.clashed = false ∧ s.trunk.out = .idle then
                  s.queue.head?.map (fun e => e.subject)
                else none })
        ∧ (∀ n : Slot, s.trunk.synced = true → tr.offset = 320 + 192 * n.val →
            t.trunk.filter = some (s.tileFilter n)
            ∧ ∀ mid : State, mid = tickPorts (tickBlocks ((s.setNow (s.now + 1)).setClocked true)) →
              mid.trunk = tr ∧ (OnClock mid → exec (.dataSlotStart n) mid = .next t))))

/-- Every command is answered with a next state and leaves the waiting commands alone. -/
def Obligations.EveryCommandAnswersNext : Prop :=
  ∀ (c : Instr) (s : State), ∃ t, exec c s = .next t ∧ t.pending = s.pending

/-- The output lines and the screens after every command (FAULT during the start read is the model's choice, log 8), and
the warning list. -/
def Obligations.OutputLinesFollowState : Prop :=
  (∀ (c : Instr) (s t : State), exec c s = .next t →
      (t.pins.fault = true ↔ t.boot.phase ≠ .started ∨ (∃ r, t.trunk.state = .excluded r) ∨ t.trunk.state = .inert
        ∨ ∃ (i : Input) (r : InputRecord), t.intake.inputs[i] = some r ∧ r.state = .absent)
      ∧ (t.pins.lensLamp = true ↔ t.pins.picture = .layout ∧ t.comp.warnings ≠ [])
      ∧ (∀ (side : Side) (line : Bool) (ds : DriverSide),
          (side = .left ∧ line = t.pins.viewOkL ∧ ds = .left) ∨ (side = .right ∧ line = t.pins.viewOkR ∧ ds = .right) →
          (line = true ↔ t.pins.picture = .layout
            ∧ ∀ d ∈ t.tables.doors, t.doorSide d.id = .both ∨ t.doorSide d.id = ds →
                d.phase ≠ .unknown ∧ d.phase ≠ .fault
                ∧ (d.phase = .opened ∨ d.phase = .closing ∨ d.phase = .obstructed →
                  ∃ e y j desc, t.doorDesc d.id = some (e, y) ∧ y.exterior = some j
                    ∧ (∃ p ∈ (t.screen side).panes, p.result = .cam { addr := d.id.addr, input := j } ∧ p.state = .live)
                    ∧ t.camDesc { addr := d.id.addr, input := j } = some desc
                    ∧ (desc.grade = .clean ∨ desc.grade = .watch))))
      ∧ (t.acting = true → t.isCab = true →
          (t.pins.picture = .excluded ↔ ∃ r, t.trunk.state = .excluded r)
          ∧ ((∀ r, t.trunk.state ≠ .excluded r) →
            (t.pins.picture = .forming ↔ t.trunk.state = .listen ∧ t.trunk.renumbered = true)
            ∧ (¬(t.trunk.state = .listen ∧ t.trunk.renumbered = true) →
              (t.cab.state = .blocked → t.pins.picture = .inUse)
              ∧ (t.cab.state = .idle ∨ t.cab.state = .taking → t.pins.picture = .standby))))
      ∧ (t.pins.picture = .layout ↔ t.boot.phase = .started ∧ t.isCab = true ∧ t.cab.state = .active
          ∧ (t.trunk.state = .joined ∨ (t.trunk.state = .listen ∧ t.trunk.renumbered = false)))
      ∧ (t.isCab = false ∨ t.acting = false → t.pins.picture = .none)
      ∧ (t.pins.picture ≠ .layout → t.pins.screen0 = none ∧ t.pins.screen1 = none)
      ∧ (t.pins.picture = .layout → ∀ side, ∃ v : ScreenView,
          (if side = t.cfg.screen0 then t.pins.screen0 else t.pins.screen1) = some v
          ∧ v.strip.shown = t.comp.warnings.take 6 ∧ v.strip.others = t.comp.warnings.length - 6
          ∧ v.panes.length = (t.screen side).panes.length
          ∧ ∀ (k : Nat) (p : Pane) (x : PaneView), (t.screen side).panes[k]? = some p → v.panes[k]? = some x →
              x.cls = p.cls
              ∧ (∀ c d, p.result = .cam c → t.camDesc c = some d →
                  x.mark = (if d.grade = .clean then none else some d.grade) ∧ x.hold = d.held)
              ∧ ((∀ c d, p.result = .cam c → t.camDesc c ≠ some d) → x.mark = none ∧ x.hold = false)
              ∧ (p.state = .blank → x.image = .empty) ∧ (p.state = .unresolved → x.image = .noCamera)
              ∧ (p.state = .waiting → x.image = .waiting)
              ∧ (∀ b m d, p.state = .live ∨ p.state = .stale → p.bound = some (b, m) → p.display = some d → b.cls = p.cls →
                  x.image = .picture d (p.state == .stale))
              ∧ (∀ c r, p.state = .denied → p.result = .cam c → refusalOf t.comp.refusals c p.cls = some r →
                  x.image = .notAvailable r)))
    ∧ (∀ (s : State) (rx : ControlRx) (f : ControlFrame) (ib gb fb : Byte), Settled s →
      readControl rx = .frame f → f.body = .lens ib gb fb → s.admits f.addr f.tag → lensContent ib gb ≠ none →
      s.isCab = true →
      ∃ t, exec (.lensFrameReceived rx) s = .next t
        ∧ (∀ w : Warning, w ∈ t.comp.warnings ↔ (w.grade = .obscured ∨ w.grade = .soiled)
            ∧ ∃ e d, t.tables.roster[w.cam.addr] = some e ∧ d ∈ e.cams ∧ d.input = w.cam.input ∧ d.grade = w.grade)
        ∧ t.comp.warnings.Pairwise (fun a b => (a.grade = .obscured ∧ b.grade = .soiled)
            ∨ (a.grade = b.grade ∧ (a.cam.addr.val < b.cam.addr.val
                ∨ (a.cam.addr = b.cam.addr ∧ a.cam.input.val ≤ b.cam.input.val)))))

/-- What the round timer does when it runs out (that it records a missed MARK in EXCLUDED and INERT too is the model's reading,
log 84). -/
def Obligations.RoundTimerExpires : Prop :=
  (∀ s : State, OnClock s → s.boot.phase = .started → s.trunk.timer = 0 →
      (s.trunk.state = .listen ∨ s.trunk.state = .joined) → s.trunk.heardSince = false →
      exec (.roundTimerExpiry false) s = .next (refreshPins ((roundTick s).setTrunk { s.trunk with
        timer := 5000 + 20 * s.addr.val, synced := true, offset := 0, overrun := false, heardSince := false, opening := .none
        markInTurn := !s.trunk.synced || decide (4928 ≤ s.trunk.offset), markInListen := s.trunk.state == .listen
        won := false, clashed := false, contending := none, rival := none, filter := none
        roundCount := s.trunk.roundCount + 1#8
        out := .mark (markBytes s.addr s.cfg.tag (s.trunk.roundCount + 1#8)) })))
    ∧ (∀ (s : State) (signal : Bool), OnClock s → s.boot.phase = .started → s.trunk.timer = 0 →
      ((s.trunk.state = .listen ∨ s.trunk.state = .joined) → (s.trunk.heardSince || signal) = true →
        exec (.roundTimerExpiry signal) s = .next (refreshPins ((roundTick s).setTrunk { s.trunk with
          missedMarks := s.trunk.missedMarks + 1#16, timer := 5000 + 20 * s.addr.val, synced := false
          overrun := true, heardSince := false, candidate := false, contending := none })))
      ∧ (∀ r, s.trunk.state = .excluded r → exec (.roundTimerExpiry signal) s =
          .next (refreshPins ((roundTick s).setTrunk { s.trunk with
            timer := 5000 + 20 * s.addr.val, overrun := true, heardSince := s.trunk.synced && s.trunk.heardSince })))
      ∧ (s.trunk.state = .inert → exec (.roundTimerExpiry signal) s =
          .next (refreshPins (s.setTrunk { s.trunk with
            timer := 5300, overrun := true, heardSince := s.trunk.synced && s.trunk.heardSince }))))

/-- What a round tick advances. -/
def Obligations.RoundTickAges : Prop :=
  ∀ s : State, s.acting = true →
    (∀ a e, a ≠ s.addr → s.tables.roster[a] = some e →
        (roundTick s).tables.roster[a] = some { e with age := if e.age < 255 then e.age + 1 else e.age })
    ∧ (roundTick s).tables.roster[s.addr] = s.tables.roster[s.addr]
    ∧ (∀ a : Addr, s.tables.roster[a] = none → (roundTick s).tables.roster[a] = none)
    ∧ (roundTick s).tables = { s.tables with
        roster := (roundTick s).tables.roster, departed := (roundTick s).tables.departed
        foreign := s.tables.foreign.map (fun x => (x.1, if x.2 < 48 then x.2 + 1 else x.2))
        wants := s.tables.wants.map (Option.map (fun x => { x with age := if x.age < 48 then x.age + 1 else x.age }))
        refresh := if s.trunk.state = .joined ∧ s.tables.refresh < 16 then s.tables.refresh + 1 else s.tables.refresh }
    ∧ (∀ tag : Word, tag ∈ (roundTick s).tables.departed ↔
        tag ≠ s.cfg.tag ∧ (∃ (a : Addr) (e : RosterEntry), (roundTick s).tables.roster[a] = some e ∧ e.tag = tag)
          ∧ ∀ (a : Addr) (e : RosterEntry), (roundTick s).tables.roster[a] = some e → e.tag = tag →
              e.presence = .gone ∧ 96 ≤ e.age)
    ∧ (∀ (n : StreamNo) (x : Stream), s.engine.table[n] = some x → (roundTick s).engine.table[n] = some { x with
        holdCount := if x.state = .holding ∧ x.holdCount < 40 then x.holdCount + 1 else x.holdCount })
    ∧ (∀ n : StreamNo, s.engine.table[n] = none → (roundTick s).engine.table[n] = none)
    ∧ (roundTick s).engine.refusals = s.engine.refusals
    ∧ (∀ panes : List Pane → List Pane, (∀ ps, panes ps = ps.map (fun p => { p with
          stale := if p.bound ≠ none ∧ p.stale < 80 then p.stale + 1 else p.stale })) →
        (roundTick s).comp = { s.comp with
          left := { s.comp.left with panes := panes s.comp.left.panes }
          right := { s.comp.right with panes := panes s.comp.right.panes }
          carry := s.comp.carry.map (fun e => { e with age := if e.age < 40 then e.age + 1 else e.age })
          wantRefresh := if s.isActive = true ∧ s.comp.wantRefresh < 16 then s.comp.wantRefresh + 1
            else s.comp.wantRefresh })
    ∧ roundTick s = (((s.setTables (roundTick s).tables).setEngine (roundTick s).engine).setComp (roundTick s).comp)

/-- The start of a MARK begins a round, in every trunk state, and damages what the station is sending (the model's
choices: logs 11, 12, 13, 30, 42, 45, 66). -/
def Obligations.MarkStartBeginsRound : Prop :=
  ∀ (s : State) (tr : Trunk), Settled s → s.boot.phase = .started →
    tr = { s.trunk with
      timer := if s.trunk.state = .inert then 5300 else 5000 + 20 * s.addr.val
      synced := true, offset := 0, overrun := false, heardSince := false, opening := .none
      markInTurn := !s.trunk.synced || decide (4928 ≤ s.trunk.offset), markInListen := s.trunk.state == .listen
      won := false, clashed := false, contending := none, rival := none, filter := none } →
    (s.trunk.out = .idle →
      (s.trunk.contending = none ∨ (∀ k : Fin 4, s.trunk.offset < 40 + 70 * k.val ∨ 63 + 70 * k.val ≤ s.trunk.offset)) →
      exec .markStartHeard s = .next (refreshPins ((roundTick s).setTrunk tr)))
    ∧ (s.trunk.out = .idle → s.trunk.contending ≠ none →
      (∃ k : Fin 4, 40 + 70 * k.val ≤ s.trunk.offset ∧ s.trunk.offset < 63 + 70 * k.val) →
      exec .markStartHeard s = .next (refreshPins ((roundTick s).setTrunk { tr with
        clashes := s.trunk.clashes + 1#16, consecClash := min 8 (s.trunk.consecClash + 1) })))
    ∧ (∀ b, s.trunk.out = .mark b →
      (s.trunk.offset ≤ 1 → exec .markStartHeard s = .next (refreshPins (s.setTrunk { s.trunk with
        rival := some s.trunk.offset })))
      ∧ (1 < s.trunk.offset → exec .markStartHeard s = .next (refreshPins ((roundTick s).setTrunk { tr with
        out := .idle, clashes := s.trunk.clashes + 1#16, consecClash := min 8 (s.trunk.consecClash + 1)
        candidate := false }))))
    ∧ (∀ c, s.trunk.out = .control c →
      exec .markStartHeard s = .next (refreshPins ((roundTick (s.setQueue (match c.again with
          | none => s.queue
          | some (k, _) => queueRekind s.queue c.subject k))).setTrunk { tr with
        out := .idle, clashes := s.trunk.clashes + 1#16, consecClash := min 8 (s.trunk.consecClash + 1) })))
    ∧ (∀ b, s.trunk.out = .voidEnding b → exec .markStartHeard s = .next (refreshPins ((roundTick s).setTrunk { tr with
        out := .idle, clashes := s.trunk.clashes + 1#16, consecClash := min 8 (s.trunk.consecClash + 1) })))
    ∧ (∀ n h b, s.trunk.out = .tile n h b → ∃ t, exec .markStartHeard s = .next t
        ∧ t.trunk = { tr with out := .idle, tileErrors := s.trunk.tileErrors + 1#16 } ∧ t.now = s.now
        ∧ t.tables.slots = s.tables.slots.set n { s.tables.slots[n] with silent := 0 })

/-- An intact MARK body (the winner's MARK start in a contention as log 13 takes it). -/
def Obligations.MarkBodyIntact : Prop :=
  ∀ (s : State) (rx : MarkRx) (count : Byte) (hearing joins : Bool) (heard : Tables) (tr : Trunk), Settled s →
    s.boot.phase = .started → readMark rx = some count →
    (s.trunk.state = .inert ∨ rx.tag = s.cfg.tag
      ∨ lowerTags s.cfg.tag (takeTag rx.tag s.tables.foreign) = lowerTags s.cfg.tag s.tables.foreign) →
    heard = (if s.trunk.state = .inert then s.tables
      else if s.heldBack rx.addr rx.tag = true then (s.tagged rx.tag).tables else s.heardTables rx.addr rx.tag) →
    hearing = (s.trunk.state == .listen && s.trunk.markInListen) →
    joins = (hearing && s.trunk.candidate && s.trunk.markInTurn) →
    tr = (match s.trunk.out, s.trunk.rival with
      | .mark _, some late => { s.trunk with
          out := .idle, rival := none, timer := s.trunk.timer + late, offset := s.trunk.offset - late }
      | .mark _, none => { s.trunk with out := .idle, rival := none }
      | _, _ => s.trunk) →
    ∃ t, exec (.markBodyReceived rx) s = .next t
      ∧ t.beside = ((s.setTrunk { tr with
          roundCount := count, opening := .intact
          state := if joins then .joined else s.trunk.state
          renumbered := if joins then false else s.trunk.renumbered
          candidate := if joins then false else if hearing then true else s.trunk.candidate }).setTables
            { heard with refresh := if joins then 0 else heard.refresh }).beside
      ∧ (joins = true → (∀ c, s.trunk.out ≠ .control c) → queueHolds t.queue .roster = true)

/-- A damaged MARK body, and the end of the station's own MARK (the winner's MARK start as log 13 takes it). -/
def Obligations.MarkDamagedOrReadBack : Prop :=
  (∀ (s : State) (rx : MarkRx) (tr : Trunk), Settled s → s.boot.phase = .started → readMark rx = none →
      tr = (match s.trunk.out, s.trunk.rival with
        | .mark _, some late => { s.trunk with
            out := .idle, rival := none, timer := s.trunk.timer + late, offset := s.trunk.offset - late }
        | .mark _, none => { s.trunk with out := .idle, rival := none }
        | _, _ => s.trunk) →
      exec (.markBodyReceived rx) s = .next (refreshPins (s.setTrunk { tr with
        markErrors := s.trunk.markErrors + 1#16, roundCount := s.trunk.roundCount + 1#8, opening := .damaged
        candidate := false })))
    ∧ (∀ (s : State) (b r : List Byte) (hearing joins : Bool), Settled s → s.acting = true → s.trunk.out = .mark b →
      hearing = (s.trunk.state == .listen && s.trunk.markInListen) →
      joins = (hearing && s.trunk.candidate && s.trunk.markInTurn) →
      (r = b → joins = false → exec (.markReadbackEnd r) s = .next (refreshPins (s.setTrunk { s.trunk with
          out := .idle, marksSent := s.trunk.marksSent + 1#16, consecClash := 0, opening := .intact
          candidate := hearing || s.trunk.candidate })))
      ∧ (r = b → joins = true → ∃ t, exec (.markReadbackEnd r) s = .next t
          ∧ t.trunk = { s.trunk with
              out := .idle, marksSent := s.trunk.marksSent + 1#16, consecClash := 0, opening := .intact
              state := .joined, renumbered := false, candidate := false }
          ∧ t.tables = { s.tables with refresh := 0 } ∧ queueHolds t.queue .roster = true)
      ∧ (r ≠ b → exec (.markReadbackEnd r) s = .next (refreshPins (s.setTrunk { s.trunk with
          out := .idle, clashes := s.trunk.clashes + 1#16, consecClash := min 8 (s.trunk.consecClash + 1)
          clashed := true, contending := none, candidate := false }))))

/-- Contention at the start of a control position (that the command moves the offset and local time, that it takes no start
it passes over, and that a station still sending does not contend, are the model's choices, logs 4, 45, 81 and 43). -/
def Obligations.PositionContention : Prop :=
  ∀ (s : State) (k : Nat), OnClock s → s.boot.phase = .started →
    exec (.controlPositionStart k) s = .next (refreshPins ((s.setNow (if s.trunk.synced then
        s.now + (40 + 70 * k - s.trunk.offset) else s.now)).setTrunk { s.trunk with
      offset := if s.trunk.synced then max s.trunk.offset (40 + 70 * k) else s.trunk.offset
      contending :=
        if s.trunk.state = .joined ∧ s.trunk.synced = true ∧ s.trunk.won = false ∧ s.trunk.clashed = false
            ∧ s.trunk.out = .idle then
          s.queue.head?.map (fun e => e.subject)
        else none }))

/-- The content of a frame is fixed at the win, or its owner declines (that an entry offered anew since the position's
start is the one that wins, and the order of the descriptors of a ROSTER, are the model's choices, logs 38, 86). -/
def Obligations.WinFixesContent : Prop :=
  (∀ (s : State) (e : QueueEntry) (b : FrameBody), Settled s → s.trunk.contending = some e.subject →
      queueFind s.queue e.subject = some e →
      ((∃ c ch, e.subject = .door c ∧ s.channels[c] = some ch ∧ b = .door (byte c.val) (phaseCode ch.phase))
        ∨ (∃ i r, e.subject = .lens i ∧ s.lens.records[i] = some r
            ∧ b = .lens (byte i.val) (gradeCode r.grade) (flagsByte r.held r.unbaselined))
        ∨ (∃ x, e.subject = .cab ∧ s.cfg.endStation = some x
            ∧ b = .cab (if e.kind = .take then 0x01#8 else 0x02#8) (endCode x))
        ∨ (e.subject = .want ∧ b = .want ((if s.cab.state = .active then s.comp.wantList else []).map wantQuad))
        ∨ (e.subject = .roster ∧ b = .roster (byte s.cfg.localNo.val) (roleCode s.cfg.role)
            (couplerCode (s.cfg.endStation.map (fun x => (x, s.couplerFilter.accepted))))
            (if s.cab.state = .active then 0x01#8 else 0x00#8)
            (([0, 1, 2, 3] : List Input).filterMap (fun i => match s.cfg.cams[i], s.lens.records[i] with
              | some c, some r => some
                  { input := byte i.val, kind := kindCode c.view.kind, side := sideCode c.side, place := viewPlace c.view
                    grade := gradeCode r.grade, flags := flagsByte r.held r.unbaselined }
              | _, _ => none))
            (([0, 1, 2, 3] : List Chan).filterMap (fun c => match s.cfg.doors[c] with
              | some d => some
                  { chan := byte c.val, door := byte d.door, side := sideCode d.side, exterior := exteriorCode d.exterior
                    phase := phaseCode (match s.channels[c] with
                      | some x => x.phase
                      | none => .unknown) }
              | none => none)))
        ∨ (∃ n x, e.subject = .stream n ∧ e.kind = .release ∧ s.engine.table[n] = some x
            ∧ slotsOf s.tables.slots s.addr n ≠ []
            ∧ b = .release (byte s.addr.val) s.cfg.tag (byte n.val) (slotBytes (slotsOf s.tables.slots s.addr n)))
        ∨ (∃ p r, e.subject = .deny p ∧ s.tables.wants[p] = some r ∧ s.denyList p ≠ []
            ∧ b = .deny (byte r.sender.val) ((s.denyList p).map denyQuad))) →
      exec .arbitrationWin s = .next (refreshPins (s.setTrunk { s.trunk with
        contending := none, won := true
        out := .control { subject := e.subject, kind := e.kind, again := none
                          frame := { addr := s.addr, tag := s.cfg.tag, body := b }
                          bytes := controlBytes { addr := s.addr, tag := s.cfg.tag, body := b } } })))
    ∧ (∀ (s : State) (sub : Subject), Settled s → s.trunk.contending = some sub → queueFind s.queue sub = none →
      exec .arbitrationWin s = .next (refreshPins (s.setTrunk { s.trunk with
        contending := none, won := true, out := .voidEnding (voidBytes sub.cls4 s.addr s.cfg.tag) })))
    ∧ (∀ (s u : State) (e : QueueEntry), Settled s → s.trunk.contending = some e.subject →
      queueFind s.queue e.subject = some e →
      u = (s.setQueue (s.queue.filter (fun q => q.subject != e.subject))).setTrunk { s.trunk with
        contending := none, won := true, out := .voidEnding (voidBytes e.subject.cls4 s.addr s.cfg.tag) } →
      (∀ (n o : StreamNo) (x y : Stream) (before after : List SizeClass) (k : SizeClass),
        e.subject = .stream n → e.kind = .claim → s.engine.table[n] = some x →
        (if x.upgrade then [x.wanted] else [SizeClass.full, .half, .quarter].filter (fun c =>
          decide (c.rank ≤ x.wanted.rank) && decide (x.floor.rank ≤ c.rank))) = before ++ k :: after →
        (∀ c ∈ before, mergeTarget s.engine.table n x c = none ∧ freeSlots s.tables.slots < c.need) →
        mergeTarget s.engine.table n x k = some o → s.engine.table[o] = some y →
        exec .arbitrationWin s = .next (refreshPins (evaluateDemand (u.setEngine { s.engine with
          table := (s.engine.table.set n none).set o (some { y with
            wanted := y.wanted.max x.wanted, short := decide (y.cls.rank < (y.wanted.max x.wanted).rank) }) }))))
      ∧ (∀ (n : StreamNo) (x : Stream), e.subject = .stream n → e.kind = .claim → s.engine.table[n] = some x →
        (∀ c ∈ (if x.upgrade then [x.wanted] else [SizeClass.full, .half, .quarter].filter (fun c =>
          decide (c.rank ≤ x.wanted.rank) && decide (x.floor.rank ≤ c.rank))),
          mergeTarget s.engine.table n x c = none ∧ freeSlots s.tables.slots < c.need) →
        ∃ r : Vector (List Refused) 4,
          exec .arbitrationWin s = .next (refreshPins (evaluateDemand (applyQueueOps
            ((allPositions.filter (fun p => refusalJoins s.engine.refusals[p] r[p])).map (fun p => .offer (.deny p) .plain))
            (u.setEngine { table := s.engine.table.set n none, refusals := r }))))
          ∧ (x.upgrade = true → r = s.engine.refusals)
          ∧ (x.upgrade = false → ∀ (p : WantPos) (cam : CamId) (cls : SizeClass),
              refusalOf r[p] cam cls = if ∃ d ∈ s.demand, d.servedBy s.engine.table = some n ∧ d.entry.carry = false
                  ∧ d.pos = p ∧ d.entry.cam = cam ∧ d.entry.cls = cls then some .noSlots
                else refusalOf s.engine.refusals[p] cam cls))
      ∧ (∀ (n : StreamNo) (x : Stream), e.subject = .stream n → e.kind = .release → s.engine.table[n] = some x →
        slotsOf s.tables.slots s.addr n = [] →
        exec .arbitrationWin s = .next (refreshPins (evaluateDemand (u.setEngine { s.engine with
          table := s.engine.table.set n none }))))
      ∧ (∀ p : WantPos, e.subject = .deny p → (s.tables.wants[p] = none ∨ s.denyList p = []) →
        exec .arbitrationWin s = .next (refreshPins u)))

/-- The end of the station's own control frame or void ending, as read back (what becomes of an offer made since the win
is the model's choice, log 12, and so is a void ending read back wrong, log 11). -/
def Obligations.ControlFrameReadBack : Prop :=
  (∀ (s : State) (c : Sending) (r : List Byte), Settled s → s.trunk.out = .control c → r ≠ c.bytes →
      exec (.controlFrameSent r) s = .next (refreshPins ((s.setQueue (match c.again with
          | none => s.queue
          | some (k, _) => queueRekind s.queue c.subject k)).setTrunk { s.trunk with
        clashes := s.trunk.clashes + 1#16, consecClash := min 8 (s.trunk.consecClash + 1), clashed := true
        contending := none, out := .idle })))
    ∧ (∀ (s : State) (c : Sending), Settled s → s.acting = true → s.trunk.out = .control c →
      c.frame.addr = s.addr → c.frame.tag = s.cfg.tag →
      (∀ cb pb ch p, c.subject = .door ch → c.frame.body = .door cb pb → doorContent cb pb = some (ch, p) →
        ∃ t, exec (.controlFrameSent c.bytes) s = .next t
          ∧ t.beside = ((s.setTrunk { s.trunk with
              out := .idle, framesSent := s.trunk.framesSent + 1#16, consecClash := 0 }).setTables { s.tables with
                doors := setPhase { addr := s.addr, chan := ch } p s.tables.doors }).beside
          ∧ (c.again = none → queueHolds t.queue c.subject = false))
      ∧ (∀ ib gb fb i g, c.subject = .lens i → c.frame.body = .lens ib gb fb → lensContent ib gb = some (i, g) →
        ∃ t, exec (.controlFrameSent c.bytes) s = .next t
          ∧ t.beside = ((s.setTrunk { s.trunk with
              out := .idle, framesSent := s.trunk.framesSent + 1#16, consecClash := 0 }).setTables { s.tables with
                roster := s.tables.roster.set s.addr
                  ((s.tables.roster[s.addr]).map (fun e => e.setGrade i g (fb.getLsbD 0) (fb.getLsbD 1))) }).beside
          ∧ (c.again = none → queueHolds t.queue c.subject = false)))
    ∧ (∀ s : State, Settled s → s.acting = true →
      (∀ (c : Sending) (tr : Trunk), s.trunk.out = .control c → c.frame.addr = s.addr → c.frame.tag = s.cfg.tag →
        tr = { s.trunk with out := .idle, framesSent := s.trunk.framesSent + 1#16, consecClash := 0 } →
        (∀ l r cp cf cs ds, c.subject = .roster → c.frame.body = .roster l r cp cf cs ds →
          ∃ t, exec (.controlFrameSent c.bytes) s = .next t ∧ t.trunk = tr ∧ t.tables.refresh = 0
            ∧ (c.again = none → queueHolds t.queue .roster = false))
        ∧ (∀ es, c.subject = .want → c.frame.body = .want es →
          ∃ t, exec (.controlFrameSent c.bytes) s = .next t ∧ t.trunk = tr ∧ t.comp.wantRefresh = 0
            ∧ (c.again = none → (∀ e ∈ t.queue, e.subject = .want → e.time = s.now)
              ∧ (s.cab.state ≠ .active → queueHolds t.queue .want = false)))
        ∧ (∀ p ab es, c.subject = .deny p → c.frame.body = .deny ab es → denyContent ab es ≠ none →
          ∃ t, exec (.controlFrameSent c.bytes) s = .next t ∧ t.trunk = tr ∧ t.tables = s.tables
            ∧ (c.again = none → queueHolds t.queue (.deny p) = false))
        ∧ (∀ kb eb e, c.subject = .cab → c.kind = .leave → c.frame.body = .cab kb eb → cabContent kb eb = some (false, e) →
          ∃ t, exec (.controlFrameSent c.bytes) s = .next t ∧ t.trunk = tr
            ∧ t.tables = { s.tables with
                cabRecord := (match s.tables.cabRecord with
                  | some r => if r.addr = s.addr then none else some r
                  | none => none)
                wants := s.tables.wants.map (fun w => match w with
                  | some r => if r.sender = s.addr then none else some r
                  | none => none) }
            ∧ (c.again = none → ∀ e ∈ t.queue, e.subject = .cab → e.time = s.now)
            ∧ (s.cab.state = .idle → t.cab.state = .idle ∧ (c.again = none → queueHolds t.queue .cab = false))))
      ∧ (∀ b r : List Byte, s.trunk.out = .voidEnding b →
        (r = b → exec (.controlFrameSent r) s = .next (refreshPins (s.setTrunk { s.trunk with out := .idle })))
        ∧ (r ≠ b → exec (.controlFrameSent r) s = .next (refreshPins (s.setTrunk { s.trunk with
            clashes := s.trunk.clashes + 1#16, consecClash := min 8 (s.trunk.consecClash + 1), clashed := true
            contending := none, out := .idle })))))
    ∧ (∀ (s sent : State) (c : Sending), Settled s → s.acting = true → s.trunk.out = .control c → c.frame.addr = s.addr →
      c.frame.tag = s.cfg.tag →
      sent = s.setTrunk { s.trunk with out := .idle, framesSent := s.trunk.framesSent + 1#16, consecClash := 0 } →
      (∀ (l r cp cf : Byte) cs ds x e, c.subject = .roster → c.frame.body = .roster l r cp cf cs ds →
        rosterContent l r cp cf cs ds = some x → s.tables.roster[s.addr] = some e →
        (∀ (b : Addr) y, b ≠ s.addr → s.tables.roster[b] = some y → ¬(y.tag = s.cfg.tag ∧ y.localNo.val = x.localNo)) →
        ∃ t, exec (.controlFrameSent c.bytes) s = .next t
          ∧ t.beside = (sent.setTables { s.tables with
              roster := s.tables.roster.set s.addr (some { e with
                role := x.role, cams := x.cams, doors := x.doors.map (fun d => d.1), coupler := x.coupler
                cabActive := x.cabActive })
              doors := t.tables.doors, refresh := 0
              cabRecord := (match x.cabActive, x.coupler, s.tables.cabRecord with
                | true, some (z, _), none => some { addr := s.addr, tag := s.cfg.tag, cabEnd := z }
                | true, some (z, _), some q => if s.addr.val ≤ q.addr.val then
                    some { addr := s.addr, tag := s.cfg.tag, cabEnd := z } else some q
                | true, none, q => q
                | false, _, none => none
                | false, _, some q => if q.addr = s.addr then none else some q) }).beside
          ∧ (∀ d : DoorEntry, d ∈ t.tables.doors ↔ (d ∈ s.tables.doors ∧ d.id.addr ≠ s.addr)
              ∨ ∃ y ∈ x.doors, d = { id := { addr := s.addr, chan := y.1.chan }, phase := y.2 }))
      ∧ (∀ es, c.subject = .want → c.frame.body = .want es →
        (∀ w ws p, wantContent es = some (w :: ws) →
          (senderPosition s.tables.wants s.addr = some p
            ∨ (senderPosition s.tables.wants s.addr = none ∧ freePosition s.tables.wants = some p)) →
          ∃ t, exec (.controlFrameSent c.bytes) s = .next t
            ∧ t.beside = (sent.setTables { s.tables with
                wants := s.tables.wants.set p (some { sender := s.addr, age := 0, list := w :: ws }) }).beside)
        ∧ (∀ w ws, wantContent es = some (w :: ws) → senderPosition s.tables.wants s.addr = none →
          freePosition s.tables.wants = none →
          ∃ t, exec (.controlFrameSent c.bytes) s = .next t
            ∧ t.beside = (sent.setTables { s.tables with wantOverflows := s.tables.wantOverflows + 1#16 }).beside)
        ∧ (wantContent es = some [] → ∃ t, exec (.controlFrameSent c.bytes) s = .next t
            ∧ t.beside = (sent.setTables { s.tables with
                wants := s.tables.wants.map (fun w => match w with
                  | some r => if r.sender = s.addr then none else some r
                  | none => none) }).beside)))

/-- The clash limit (what becomes of a transmission on the line, and of an offer beside it, is the model's choice, log 40). -/
def Obligations.ClashLimitExcludes : Prop :=
  ∀ s : State, s.boot.phase = .started → (s.trunk.state = .listen ∨ s.trunk.state = .joined) →
    8 ≤ s.trunk.consecClash →
    ∃ t, exec .clashLimit s = .next t
      ∧ t.trunk = { s.trunk with
          state := .excluded .clash, renumbered := false, candidate := false, contending := none
          out := s.trunk.out.keepMark }
      ∧ t.tables = { s.tables with cabRecord := t.tables.cabRecord } ∧ t.engine = s.engine
      ∧ t.channels = s.channels ∧ t.lens = s.lens ∧ t.store = s.store ∧ t.intake = s.intake ∧ t.confMem = s.confMem
      ∧ t.pins.fault = true
      ∧ (s.isCab = false → t = refreshPins ((s.setQueue t.queue).setTrunk t.trunk)
          ∧ (∀ c, s.trunk.out = .control c → t.queue = queueClashed s.queue c)
          ∧ ((∀ c, s.trunk.out ≠ .control c) → t.queue = s.queue))
      ∧ (s.isCab = true → s.cab.state = .active ∨ s.cab.state = .blocked →
          t.cab.state = .taking ∧ queueHolds t.queue .cab = true ∧ t.namesSelf = false)

/-- A foreign tag that requires another half renumbers the station, whatever item it came with, also as it leaves the
set. -/
def Obligations.ForeignTagRenumbers : Prop :=
  (∀ (s : State) (rx : MarkRx) (count : Byte) (h : Fin 2), Settled s → s.boot.phase = .started →
      (s.trunk.state = .listen ∨ s.trunk.state = .joined ∨ s.trunk.state = .excluded .consist) →
      readMark rx = some count → rx.tag ≠ s.cfg.tag →
      lowerTags s.cfg.tag (takeTag rx.tag s.tables.foreign) ≠ lowerTags s.cfg.tag s.tables.foreign →
      requiredHalf (lowerTags s.cfg.tag (takeTag rx.tag s.tables.foreign)) = some h → h ≠ s.trunk.half →
      ∃ t, exec (.markBodyReceived rx) s = .next t
        ∧ t.trunk.half = h ∧ t.addr.val = s.cfg.localNo.val + 8 * h.val ∧ t.trunk.state = .listen
        ∧ t.trunk.renumbered = true ∧ t.trunk.consecClash = 0 ∧ t.trunk.candidate = false
        ∧ t.trunk.marksSent = s.trunk.marksSent ∧ t.trunk.framesSent = s.trunk.framesSent
        ∧ t.trunk.tilesSent = s.trunk.tilesSent ∧ t.trunk.markErrors = s.trunk.markErrors
        ∧ t.trunk.missedMarks = s.trunk.missedMarks ∧ t.trunk.frameErrors = s.trunk.frameErrors
        ∧ t.trunk.tileErrors = s.trunk.tileErrors ∧ t.trunk.clashes = s.trunk.clashes ∧ t.trunk.roundCount = count
        ∧ t.engine = StreamEngine.reset ∧ t.tables.slots = Vector.replicate 24 SlotEntry.free
        ∧ t.tables.wants = Vector.replicate 4 none ∧ t.tables.cabRecord = none
        ∧ t.tables.foreign = takeTag rx.tag s.tables.foreign
        ∧ t.tables.roster[t.addr] = s.tables.roster[s.addr]
        ∧ (∀ a : Addr, a ≠ t.addr → a ≠ rx.addr → t.tables.roster[a] = none)
        ∧ t.tables.rosterRejects = s.tables.rosterRejects
        ∧ t.queue = (if s.isCab = true ∧ s.cab.cabOn.accepted = true then
            [{ subject := .cab, kind := .take, time := s.now }] else [])
        ∧ t.channels = s.channels ∧ t.lens = s.lens ∧ t.store = s.store ∧ t.confMem = s.confMem)
    ∧ (∀ (s : State) (h : Fin 2), s.boot.phase = .started →
      (s.trunk.state = .listen ∨ s.trunk.state = .joined ∨ s.trunk.state = .excluded .consist) → h ≠ s.trunk.half →
      ∀ (moved : State → Prop),
        (∀ t : State, moved t ↔ t.trunk.half = h ∧ t.addr.val = s.cfg.localNo.val + 8 * h.val ∧ t.trunk.state = .listen
          ∧ t.trunk.renumbered = true ∧ t.trunk.consecClash = 0 ∧ t.trunk.candidate = false
          ∧ t.trunk.marksSent = s.trunk.marksSent ∧ t.trunk.framesSent = s.trunk.framesSent
          ∧ t.trunk.tilesSent = s.trunk.tilesSent ∧ t.trunk.markErrors = s.trunk.markErrors
          ∧ t.trunk.missedMarks = s.trunk.missedMarks ∧ t.trunk.frameErrors = s.trunk.frameErrors
          ∧ t.trunk.tileErrors = s.trunk.tileErrors ∧ t.trunk.clashes = s.trunk.clashes
          ∧ t.trunk.roundCount = s.trunk.roundCount
          ∧ t.channels = s.channels ∧ t.lens = s.lens ∧ t.store = s.store ∧ t.confMem = s.confMem) →
      (∀ (k : FrameKind) (rx : ControlRx) (f : ControlFrame), Settled s → readControl rx = .frame f → f.body.kind = k →
        f.tag ≠ s.cfg.tag →
        lowerTags s.cfg.tag (takeTag f.tag s.tables.foreign) ≠ lowerTags s.cfg.tag s.tables.foreign →
        requiredHalf (lowerTags s.cfg.tag (takeTag f.tag s.tables.foreign)) = some h →
        ∃ t, exec (heardBy k rx) s = .next t ∧ moved t ∧ t.tables.foreign = takeTag f.tag s.tables.foreign
          ∧ (f.addr ≠ t.addr → t.tables.roster[t.addr] = s.tables.roster[s.addr])
          ∧ (∀ a : Addr, a ≠ t.addr → a ≠ f.addr → t.tables.roster[a] = none))
      ∧ (∀ (n : Slot) (rx : TileRx) (hd : TileHeader) (payload : List Byte), OnClock s → s.trunk.synced = true →
        s.trunk.overrun = false → (∀ x b, s.trunk.out ≠ .tile n x b) → readTile rx = some (hd, payload) → hd.slot = byte n.val → hd.tag ≠ s.cfg.tag →
        lowerTags s.cfg.tag (takeTag hd.tag s.tables.foreign) ≠ lowerTags s.cfg.tag s.tables.foreign →
        requiredHalf (lowerTags s.cfg.tag (takeTag hd.tag s.tables.foreign)) = some h →
        ∃ t, exec (.slotObservation n (.tile rx)) s = .next t ∧ moved t
          ∧ t.tables.foreign = takeTag hd.tag s.tables.foreign
          ∧ t.tables.roster[t.addr] = s.tables.roster[s.addr]
          ∧ (∀ a : Addr, a ≠ t.addr → a ≠ hd.addr → t.tables.roster[a] = none))
      ∧ (∀ (tag : Word) (age : Nat), (tag, age) ∈ s.tables.foreign → 48 ≤ age → tag ≠ s.cfg.tag →
        lowerTags s.cfg.tag (s.tables.foreign.filter (fun x => x.1 != tag)) ≠ lowerTags s.cfg.tag s.tables.foreign →
        requiredHalf (lowerTags s.cfg.tag (s.tables.foreign.filter (fun x => x.1 != tag))) = some h →
        ∃ t, exec (.foreignTagAgedOut tag) s = .next t ∧ moved t
          ∧ t.tables.foreign = s.tables.foreign.filter (fun x => x.1 != tag)
          ∧ t.engine = StreamEngine.reset ∧ t.tables.slots = Vector.replicate 24 SlotEntry.free
          ∧ t.tables.wants = Vector.replicate 4 none ∧ t.tables.cabRecord = none
          ∧ t.tables.roster[t.addr] = s.tables.roster[s.addr]
          ∧ (∀ a : Addr, a ≠ t.addr → t.tables.roster[a] = none)
          ∧ t.queue = (if s.isCab = true ∧ s.cab.cabOn.accepted = true then
              [{ subject := .cab, kind := .take, time := s.now }] else [])))

/-- Foreign tags exclude the station, and leave the set (the kind of an entry whose own frame ends by it: the model's reading,
log 40). -/
def Obligations.ForeignTagExcludesOrLeaves : Prop :=
  (∀ s : State,
      (∀ (rx : MarkRx) (count : Byte), Settled s → s.boot.phase = .started →
        (s.trunk.state = .listen ∨ s.trunk.state = .joined) → readMark rx = some count → rx.tag ≠ s.cfg.tag →
        lowerTags s.cfg.tag (takeTag rx.tag s.tables.foreign) ≠ lowerTags s.cfg.tag s.tables.foreign →
        2 ≤ lowerTags s.cfg.tag (takeTag rx.tag s.tables.foreign) → s.heldBack rx.addr rx.tag = true →
        ∃ t, exec (.markBodyReceived rx) s = .next t ∧ t.trunk.state = .excluded .consist
          ∧ t.trunk.candidate = false ∧ t.pins.fault = true
          ∧ t.tables.roster = s.tables.roster ∧ t.tables.slots = s.tables.slots ∧ t.tables.wants = s.tables.wants
          ∧ t.engine = s.engine ∧ t.addr = s.addr
          ∧ (s.isCab = false → (∀ c, s.trunk.out = .control c → t.queue = queueClashed s.queue c)
            ∧ ((∀ c, s.trunk.out ≠ .control c) → t.queue = s.queue)))
      ∧ (∀ tag age, s.boot.phase = .started → s.trunk.state = .excluded .consist → (tag, age) ∈ s.tables.foreign →
        48 ≤ age → tag ≠ s.cfg.tag →
        lowerTags s.cfg.tag (s.tables.foreign.filter (fun x => x.1 != tag)) ≠ lowerTags s.cfg.tag s.tables.foreign →
        requiredHalf (lowerTags s.cfg.tag (s.tables.foreign.filter (fun x => x.1 != tag))) = some s.trunk.half →
        exec (.foreignTagAgedOut tag) s = .next (refreshPins ((s.setTables { s.tables with
          foreign := s.tables.foreign.filter (fun x => x.1 != tag) }).setTrunk { s.trunk with
            state := .listen, renumbered := false, consecClash := 0, candidate := false, markInListen := false }))))
    ∧ (∀ (s : State) (tag : Word) (out : State → Prop), s.boot.phase = .started →
      (s.trunk.state = .listen ∨ s.trunk.state = .joined) → tag ≠ s.cfg.tag →
      lowerTags s.cfg.tag (takeTag tag s.tables.foreign) ≠ lowerTags s.cfg.tag s.tables.foreign →
      2 ≤ lowerTags s.cfg.tag (takeTag tag s.tables.foreign) →
      (∀ t : State, out t ↔ t.trunk.state = .excluded .consist ∧ t.trunk.candidate = false ∧ t.pins.fault = true
        ∧ t.addr = s.addr ∧ t.trunk.half = s.trunk.half ∧ t.tables.foreign = takeTag tag s.tables.foreign) →
      (∀ (rx : MarkRx) (count : Byte), Settled s → readMark rx = some count → rx.tag = tag →
        ∃ t, exec (.markBodyReceived rx) s = .next t ∧ out t)
      ∧ (∀ (k : FrameKind) (rx : ControlRx) (f : ControlFrame), Settled s → readControl rx = .frame f → f.body.kind = k →
        f.tag = tag →
        ∃ t, exec (heardBy k rx) s = .next t ∧ out t)
      ∧ (∀ (n : Slot) (rx : TileRx) (hd : TileHeader) (payload : List Byte), OnClock s → s.trunk.synced = true →
        s.trunk.overrun = false → (∀ x b, s.trunk.out ≠ .tile n x b) → readTile rx = some (hd, payload) → hd.slot = byte n.val → hd.tag = tag →
        ∃ t, exec (.slotObservation n (.tile rx)) s = .next t ∧ out t))
    ∧ (∀ (s : State) (tag : Word) (age : Nat), (tag, age) ∈ s.tables.foreign → 48 ≤ age →
      lowerTags s.cfg.tag (s.tables.foreign.filter (fun x => x.1 != tag)) = lowerTags s.cfg.tag s.tables.foreign →
      exec (.foreignTagAgedOut tag) s = .next (refreshPins (s.setTables { s.tables with
        foreign := s.tables.foreign.filter (fun x => x.1 != tag) })))

/-- A silent station goes GONE, and a departed foreign tram is purged. -/
def Obligations.StationsDepart : Prop :=
  (∀ (s : State) (a : Addr) (e : RosterEntry), s.tables.roster[a] = some e → a ≠ s.addr → e.presence = .present →
      48 ≤ e.age →
      ∃ t, exec (.stationGone a) s = .next t
        ∧ t.beside = (s.setTables { s.tables with
            roster := s.tables.roster.set a (some { e with presence := .gone })
            slots := s.tables.slots.map (fun k => match k.owner with
              | some id => if id.addr = a then SlotEntry.free else k
              | none => k)
            doors := s.tables.doors.map (fun d => if d.id.addr = a then { d with phase := .unknown } else d)
            wants := s.tables.wants.map (fun w => match w with
              | some r => if r.sender = a then none else some r
              | none => none)
            cabRecord := (match s.tables.cabRecord with
              | some r => if r.addr = a then none else some r
              | none => none) }).beside)
    ∧ (∀ (s : State) (tag : Word),
      (tag ∉ s.tables.departed → exec (.foreignTramPurge tag) s = .next (refreshPins s))
      ∧ (tag ∈ s.tables.departed → ∃ t, exec (.foreignTramPurge tag) s = .next t
        ∧ t.beside = (s.setTables t.tables).beside ∧ t.tables.foreign = s.tables.foreign
        ∧ t.tables.departed = s.tables.departed.filter (fun x => x != tag)
        ∧ (∀ (a : Addr) (e : RosterEntry), s.tables.roster[a] = some e → e.tag = tag → a ≠ s.addr →
            t.tables.roster[a] = none ∧ (∀ d ∈ t.tables.doors, d.id.addr ≠ a)
              ∧ (∀ (k : Slot) id, t.tables.slots[k].owner = some id → id.addr ≠ a))
        ∧ (∀ a : Addr, (∀ e, s.tables.roster[a] = some e → e.tag ≠ tag) → t.tables.roster[a] = s.tables.roster[a]
              ∧ t.tables.doors.filter (fun d => d.id.addr == a) = s.tables.doors.filter (fun d => d.id.addr == a))))

/-- Refresh offers, and the order of the queue: which commands share an instant, and the order of different blocks in it
(the model's choices, logs 45, 35). -/
def Obligations.RefreshCountsOffer : Prop :=
  (∀ s : State, s.boot.phase = .started → s.trunk.state = .joined → 16 ≤ s.tables.refresh →
      queueHolds s.queue .roster = false → (∀ c, s.trunk.out = .control c → c.subject ≠ .roster) →
      ∃ q, exec .rosterRefreshDue s = .next (refreshPins (s.setQueue q))
        ∧ q.Perm ({ subject := .roster, kind := .plain, time := s.now } :: s.queue)
        ∧ (QueueOrdered s.queue → QueueOrdered q))
    ∧ (∀ s : State, s.acting = true → s.cab.state = .active → 16 ≤ s.comp.wantRefresh →
      queueHolds s.queue .want = false → (∀ c, s.trunk.out = .control c → c.subject ≠ .want) →
      ∃ q, exec .wantRefreshDue s = .next (refreshPins (s.setQueue q))
        ∧ q.Perm ({ subject := .want, kind := .plain, time := s.now } :: s.queue)
        ∧ (QueueOrdered s.queue → QueueOrdered q))
    ∧ (∀ (s : State) (sub : Subject) (k : SendKind), (∀ c, s.trunk.out = .control c → c.subject ≠ sub) →
      QueueOrdered s.queue → QueueOrdered (offer sub k s).queue)
    ∧ (∀ (s : State) (sub : Subject) (k : SendKind) (ahead : QueueEntry → Bool), s.acting = true → QueueOrdered s.queue →
      queueHolds s.queue sub = false → (∀ c, s.trunk.out = .control c → c.subject ≠ sub) →
      (∀ e, ahead e = true ↔ e.subject.cls < sub.cls ∨ (e.subject.cls = sub.cls
        ∧ (e.time < s.now ∨ (e.time = s.now ∧ e.subject.place < sub.place)))) →
      offer sub k s = s.setQueue (s.queue.filter ahead
          ++ { subject := sub, kind := k, time := s.now } :: s.queue.filter (fun e => !ahead e))
        ∧ ((∀ e ∈ s.queue, e.time < s.now) →
          s.queue.filter ahead = s.queue.filter (fun e => decide (e.subject.cls ≤ sub.cls)))
        ∧ (∀ c d : Chan, ((.door c : Subject).place < (.door d : Subject).place ↔ c.val < d.val))
        ∧ (∀ i j : Input, ((.lens i : Subject).place < (.lens j : Subject).place ↔ i.val < j.val))
        ∧ (∀ m n : StreamNo, ((.stream m : Subject).place < (.stream n : Subject).place ↔ m.val < n.val))
        ∧ (∀ p q : WantPos, ((.deny p : Subject).place < (.deny q : Subject).place ↔ p.val < q.val))
        ∧ (∀ (n : StreamNo) (p : WantPos), (.stream n : Subject).place < (.deny p : Subject).place))
    ∧ (∀ (c : Instr) (s : State) (later : Nat → Prop), s.nextDue = none →
      (∀ m, later m ↔ s.now ≤ m ∧ (∀ e ∈ s.queue, e.time < m)
        ∧ (∀ x k t, s.trunk.out = .control x → x.again = some (k, t) → t < m)
        ∧ ((∀ e ∈ s.queue, e.time < s.now) → (∀ x k t, s.trunk.out = .control x → x.again = some (k, t) → t < s.now) →
            m = s.now)) →
      (ownMoment c = true → ∃ m, later m ∧ exec c s = exec c ((s.setNow m).setClocked false)
        ∧ Settled ((s.setNow m).setClocked false))
      ∧ (clockStep c = true →
        (s.clocked = true → OnClock s)
        ∧ (s.clocked = false → ∃ m, later m ∧ exec c s = exec c ((s.setNow m).setClocked true)
          ∧ OnClock ((s.setNow m).setClocked true))))

/-- Control frames that are not applied. -/
def Obligations.FrameNotApplied : Prop :=
  (∀ (s : State) (k : FrameKind) (rx : ControlRx) (f : ControlFrame), Settled s → s.acting = true →
      readControl rx = .frame f → f.body.kind = k → s.heldBack f.addr f.tag = true →
      (f.tag = s.cfg.tag ∨ lowerTags s.cfg.tag (takeTag f.tag s.tables.foreign) = lowerTags s.cfg.tag s.tables.foreign) →
      exec (heardBy k rx) s = .next (refreshPins (s.frameEnded.tagged f.tag)))
    ∧ (∀ (s : State) (k : FrameKind) (rx : ControlRx), Settled s → s.boot.phase = .started →
      (readControl rx = .failed → exec (heardBy k rx) s = .next (refreshPins
        (s.frameEnded.setTrunk { s.frameEnded.trunk with frameErrors := s.trunk.frameErrors + 1#16 })))
      ∧ (readControl rx = .empty → exec (heardBy k rx) s = .next (refreshPins s.frameEnded)))

/-- What an item makes of its sender's roster entry. -/
def Obligations.PresenceOfSender : Prop :=
  ∀ (s : State) (a : Addr) (tag : Word), s.admits a tag → a ≠ s.addr →
    (∀ b : Addr, b ≠ a → (s.heardTables a tag).roster[b] = s.tables.roster[b])
    ∧ (tag ≠ s.cfg.tag → (tag, 0) ∈ (s.heardTables a tag).foreign)
    ∧ (∀ x y, x ≠ tag → ((x, y) ∈ (s.heardTables a tag).foreign ↔ (x, y) ∈ s.tables.foreign))
    ∧ (∀ e, s.tables.roster[a] = some e → e.tag = tag →
        s.heardTables a tag = { s.heardTables a tag with
          doors := s.tables.doors, slots := s.tables.slots, wants := s.tables.wants, cabRecord := s.tables.cabRecord }
        ∧ (s.heardTables a tag).roster[a] = some { e with presence := .present, age := 0 })
    ∧ ((∀ e, s.tables.roster[a] = some e → e.tag ≠ tag) →
        (s.heardTables a tag).roster[a] = some { presence := .present, tag := tag, localNo := ⟨a.val % 8, by omega⟩
                                                 role := .unannounced, age := 0, cams := [], doors := []
                                                 coupler := none, cabActive := false })

/-- A DOOR heard, and a LENS heard. -/
def Obligations.DoorAndLensFramesApplied : Prop :=
  (∀ (s : State) (rx : ControlRx) (f : ControlFrame) (cb pb : Byte), Settled s →
      readControl rx = .frame f → f.body = .door cb pb → s.admits f.addr f.tag →
      (∀ c p, doorContent cb pb = some (c, p) → ∃ t, exec (.doorFrameReceived rx) s = .next t
        ∧ t.beside = (s.frameEnded.setTables { s.heardTables f.addr f.tag with
            doors := (s.heardTables f.addr f.tag).doors.map (fun d =>
              if d.id = { addr := f.addr, chan := c } then { d with phase := p } else d) }).beside)
      ∧ (doorContent cb pb = none → ∃ t, exec (.doorFrameReceived rx) s = .next t
        ∧ t.beside = (s.frameEnded.setTables { s.heardTables f.addr f.tag with
            doorRejects := (s.heardTables f.addr f.tag).doorRejects + 1#16 }).beside))
    ∧ (∀ (s : State) (rx : ControlRx) (f : ControlFrame) (ib gb fb : Byte), Settled s →
      readControl rx = .frame f → f.body = .lens ib gb fb → s.admits f.addr f.tag →
      (∀ i g, lensContent ib gb = some (i, g) → ∃ t, exec (.lensFrameReceived rx) s = .next t
        ∧ t.beside = (s.frameEnded.setTables { s.heardTables f.addr f.tag with
            roster := (s.heardTables f.addr f.tag).roster.set f.addr
              (((s.heardTables f.addr f.tag).roster[f.addr]).map (fun e => { e with
                cams := e.cams.map (fun c => if c.input = i then
                  { c with grade := g, held := fb.getLsbD 0, unbaselined := fb.getLsbD 1 } else c) })) }).beside)
      ∧ (lensContent ib gb = none → ∃ t, exec (.lensFrameReceived rx) s = .next t
        ∧ t.beside = (s.frameEnded.setTables { s.heardTables f.addr f.tag with
            lensRejects := (s.heardTables f.addr f.tag).lensRejects + 1#16 }).beside))

/-- A CAB heard. -/
def Obligations.CabFrameApplied : Prop :=
  ∀ (s : State) (rx : ControlRx) (f : ControlFrame) (kb eb : Byte), Settled s →
    readControl rx = .frame f → f.body = .cab kb eb → s.admits f.addr f.tag →
    (∀ e, cabContent kb eb = some (true, e) → ∃ t, exec (.cabFrameReceived rx) s = .next t
      ∧ t.beside = (s.frameEnded.setTables { s.heardTables f.addr f.tag with
          cabRecord := (match (s.heardTables f.addr f.tag).cabRecord with
            | none => some { addr := f.addr, tag := f.tag, cabEnd := e }
            | some r => if r.addr = f.addr then some { addr := f.addr, tag := f.tag, cabEnd := e }
                else some r) }).beside)
    ∧ (∀ e, cabContent kb eb = some (false, e) → ∃ t, exec (.cabFrameReceived rx) s = .next t
      ∧ t.beside = (s.frameEnded.setTables { s.heardTables f.addr f.tag with
          cabRecord := (match (s.heardTables f.addr f.tag).cabRecord with
            | some r => if r.addr = f.addr then none else some r
            | none => none)
          wants := (s.heardTables f.addr f.tag).wants.map (fun w => match w with
            | some r => if r.sender = f.addr then none else some r
            | none => none) }).beside)
    ∧ (cabContent kb eb = none → ∃ t, exec (.cabFrameReceived rx) s = .next t
      ∧ t.beside = (s.frameEnded.setTables { s.heardTables f.addr f.tag with
          cabRejects := (s.heardTables f.addr f.tag).cabRejects + 1#16 }).beside)

/-- A ROSTER heard. -/
def Obligations.RosterFrameApplied : Prop :=
  ∀ (s : State) (rx : ControlRx) (f : ControlFrame) (l r cp cf : Byte) (cs : List CamRaw) (ds : List DoorRaw),
    Settled s → readControl rx = .frame f → f.body = .roster l r cp cf cs ds → s.admits f.addr f.tag →
    f.addr ≠ s.addr →
    (rosterContent l r cp cf cs ds = none → ∃ t, exec (.rosterFrameReceived rx) s = .next t
      ∧ t.beside = (s.frameEnded.setTables { s.heardTables f.addr f.tag with
          rosterRejects := (s.heardTables f.addr f.tag).rosterRejects + 1#16 }).beside)
    ∧ (∀ c, rosterContent l r cp cf cs ds = some c → f.tag = s.cfg.tag → c.localNo = s.cfg.localNo.val →
        ∃ t, exec (.rosterFrameReceived rx) s = .next t
          ∧ t.beside = (s.frameEnded.setTables (s.heardTables f.addr f.tag)).beside)
    ∧ (∀ c, rosterContent l r cp cf cs ds = some c → ¬(f.tag = s.cfg.tag ∧ c.localNo = s.cfg.localNo.val) →
        ∃ t e, exec (.rosterFrameReceived rx) s = .next t
          ∧ t.beside = (s.frameEnded.setTables t.tables).beside
          ∧ t.tables.roster[f.addr] = some e ∧ e.presence = .present ∧ e.tag = f.tag ∧ e.age = 0 ∧ e.role = c.role
          ∧ e.cams = c.cams ∧ e.doors = c.doors.map (fun d => d.1) ∧ e.coupler = c.coupler
          ∧ e.cabActive = c.cabActive
          ∧ (∀ d : DoorEntry, d ∈ t.tables.doors ∧ d.id.addr = f.addr
              ↔ ∃ x ∈ c.doors, d = { id := { addr := f.addr, chan := x.1.chan }, phase := x.2 })
          ∧ (∀ (b : Addr) (x : RosterEntry), b ≠ f.addr → b ≠ s.addr → s.tables.roster[b] = some x →
              x.tag = f.tag → x.localNo.val = c.localNo → t.tables.roster[b] = none)
          ∧ (∀ b : Addr, b ≠ f.addr → (b = s.addr ∨ ∀ x, s.tables.roster[b] = some x →
              ¬(x.tag = f.tag ∧ x.localNo.val = c.localNo)) → t.tables.roster[b] = s.tables.roster[b])
          ∧ (∀ base : Option CabRecord,
              base = (match (s.heardTables f.addr f.tag).cabRecord with
                | none => none
                | some q => match (s.heardTables f.addr f.tag).roster[q.addr] with
                  | none => some q
                  | some x => if q.addr ≠ s.addr ∧ (if q.addr = f.addr then x.localNo.val ≠ c.localNo
                      else x.tag = f.tag ∧ x.localNo.val = c.localNo) then none else some q) →
              t.tables.cabRecord = (match c.cabActive, c.coupler, base with
                | true, some (x, _), none => some { addr := f.addr, tag := f.tag, cabEnd := x }
                | true, some (x, _), some q => if f.addr.val ≤ q.addr.val then
                    some { addr := f.addr, tag := f.tag, cabEnd := x } else some q
                | true, none, _ => base
                | false, _, none => none
                | false, _, some q => if q.addr = f.addr then none else some q)))

/-- A WANT heard. -/
def Obligations.WantFrameApplied : Prop :=
  ∀ (s : State) (rx : ControlRx) (f : ControlFrame) (es : List Quad), Settled s →
    readControl rx = .frame f → f.body = .want es → s.admits f.addr f.tag →
    (∀ w ws p, wantContent es = some (w :: ws) →
      (senderPosition (s.heardTables f.addr f.tag).wants f.addr = some p
        ∨ (senderPosition (s.heardTables f.addr f.tag).wants f.addr = none
            ∧ freePosition (s.heardTables f.addr f.tag).wants = some p)) →
      ∃ t, exec (.wantFrameReceived rx) s = .next t
        ∧ t.beside = (s.frameEnded.setTables { s.heardTables f.addr f.tag with
            wants := (s.heardTables f.addr f.tag).wants.set p
              (some { sender := f.addr, age := 0, list := w :: ws }) }).beside)
    ∧ (∀ w ws, wantContent es = some (w :: ws) → senderPosition (s.heardTables f.addr f.tag).wants f.addr = none →
      freePosition (s.heardTables f.addr f.tag).wants = none →
      ∃ t, exec (.wantFrameReceived rx) s = .next t
        ∧ t.beside = (s.frameEnded.setTables { s.heardTables f.addr f.tag with
            wantOverflows := (s.heardTables f.addr f.tag).wantOverflows + 1#16 }).beside)
    ∧ (wantContent es = some [] → ∃ t, exec (.wantFrameReceived rx) s = .next t
        ∧ t.beside = (s.frameEnded.setTables { s.heardTables f.addr f.tag with
            wants := (s.heardTables f.addr f.tag).wants.map (fun w => match w with
              | some r => if r.sender = f.addr then none else some r
              | none => none) }).beside)
    ∧ (wantContent es = none → ∃ t, exec (.wantFrameReceived rx) s = .next t
        ∧ t.beside = (s.frameEnded.setTables { s.heardTables f.addr f.tag with
            demandRejects := (s.heardTables f.addr f.tag).demandRejects + 1#16 }).beside)

/-- A CLAIM heard. -/
def Obligations.ClaimFrameApplied : Prop :=
  ∀ (s : State) (rx : ControlRx) (f : ControlFrame) (o n i k : Byte) (ot : Word) (sl : List Byte), Settled s →
    readControl rx = .frame f → f.body = .claim o ot n i k sl → s.admits f.addr f.tag →
    (∀ id slots, claimContent f.addr o n i k sl = some (id, slots) → ∃ t, exec (.claimFrameReceived rx) s = .next t
      ∧ t.beside = (s.frameEnded.setTables { s.heardTables f.addr f.tag with
          slots := t.tables.slots, voidClaims := t.tables.voidClaims }).beside
      ∧ ((∀ q ∈ slots, (s.heardTables f.addr f.tag).slots[q].owner = none
            ∨ (s.heardTables f.addr f.tag).slots[q].names f.addr id.num = true) →
          t.tables.voidClaims = s.tables.voidClaims
          ∧ (∀ q ∈ slots, t.tables.slots[q] = { owner := some id, silent := 0 })
          ∧ ∀ q : Slot, q ∉ slots → t.tables.slots[q] =
              if (s.heardTables f.addr f.tag).slots[q].names f.addr id.num = true then { owner := none, silent := 0 }
              else (s.heardTables f.addr f.tag).slots[q])
      ∧ ((∃ q ∈ slots, (s.heardTables f.addr f.tag).slots[q].owner ≠ none
            ∧ (s.heardTables f.addr f.tag).slots[q].names f.addr id.num = false) →
          t.tables.voidClaims = s.tables.voidClaims + 1#16
          ∧ ∀ q : Slot, t.tables.slots[q] =
              if (s.heardTables f.addr f.tag).slots[q].names f.addr id.num = true then { owner := none, silent := 0 }
              else (s.heardTables f.addr f.tag).slots[q]))
    ∧ (claimContent f.addr o n i k sl = none → ∃ t, exec (.claimFrameReceived rx) s = .next t
      ∧ t.beside = (s.frameEnded.setTables { s.heardTables f.addr f.tag with
          demandRejects := (s.heardTables f.addr f.tag).demandRejects + 1#16 }).beside)

/-- A RELEASE heard, a DENY heard, which refusals it brings, and what takes one out. -/
def Obligations.ReleaseAndDenyFramesApplied : Prop :=
  (∀ (s : State) (rx : ControlRx) (f : ControlFrame) (o n : Byte) (ot : Word) (sl : List Byte), Settled s →
      readControl rx = .frame f → f.body = .release o ot n sl → s.admits f.addr f.tag →
      (∀ num slots, releaseContent f.addr o n sl = some (num, slots) → ∃ t, exec (.releaseFrameReceived rx) s = .next t
        ∧ t.beside = (s.frameEnded.setTables { s.heardTables f.addr f.tag with slots := t.tables.slots }).beside
        ∧ ∀ q : Slot, t.tables.slots[q] =
            if q ∈ slots ∧ (s.heardTables f.addr f.tag).slots[q].names f.addr num = true then
              { owner := none, silent := 0 }
            else (s.heardTables f.addr f.tag).slots[q])
      ∧ (releaseContent f.addr o n sl = none → ∃ t, exec (.releaseFrameReceived rx) s = .next t
        ∧ t.beside = (s.frameEnded.setTables { s.heardTables f.addr f.tag with
            demandRejects := (s.heardTables f.addr f.tag).demandRejects + 1#16 }).beside))
    ∧ (∀ (s : State) (rx : ControlRx) (f : ControlFrame) (ab : Byte) (es : List Quad), Settled s →
      readControl rx = .frame f → f.body = .deny ab es → s.admits f.addr f.tag →
      (∀ dest rs, denyContent ab es = some (dest, rs) → ∃ t, exec (.denyFrameReceived rx) s = .next t
        ∧ t.beside = (s.frameEnded.setTables (s.heardTables f.addr f.tag)).beside
        ∧ (dest = s.addr → s.isCab = true → s.cab.state = .active → ∀ r ∈ t.comp.refusals, r.cam.addr = f.addr → r ∈ rs))
      ∧ (denyContent ab es = none → ∃ t, exec (.denyFrameReceived rx) s = .next t
        ∧ t.beside = (s.frameEnded.setTables { s.heardTables f.addr f.tag with
            demandRejects := (s.heardTables f.addr f.tag).demandRejects + 1#16 }).beside))
    ∧ ((∀ (s : State) (rx : ControlRx) (f : ControlFrame) (ab : Byte) (es : List Quad) (rs : List Refused), Settled s →
      readControl rx = .frame f → f.body = .deny ab es → s.admits f.addr f.tag → denyContent ab es = some (s.addr, rs) →
      s.isCab = true → s.cab.state = .active → (∀ x ∈ rs, ∀ y ∈ rs, x.cam = y.cam → x.cls = y.cls → x = y) →
      (∃ e, s.tables.roster[f.addr] = some e ∧ e.tag = f.tag) → f.addr ≠ s.addr →
      ∃ t, exec (.denyFrameReceived rx) s = .next t
        ∧ (∀ r ∈ rs, (∃ w ∈ t.comp.wantList, w.carry = false ∧ w.cam = r.cam ∧ w.cls = r.cls) → r ∈ t.comp.refusals)
        ∧ (∀ r ∈ t.comp.refusals, ∃ w ∈ t.comp.wantList, w.carry = false ∧ w.cam = r.cam ∧ w.cls = r.cls))
      ∧ (∀ s t : State, s.cab.state = .active → t = settlePanes s →
        ∀ r, r ∈ t.comp.refusals ↔ r ∈ s.comp.refusals
          ∧ ∃ w ∈ t.comp.wantList, w.carry = false ∧ w.cam = r.cam ∧ w.cls = r.cls)
      ∧ (∀ (s t : State) (side : Side) (lay : ShownLayout), s.cab.state = .active → t = layoutSwitch side lay s →
        ∀ r ∈ t.comp.refusals, ∀ p ∈ (t.screen side).panes, p.result = .cam r.cam → p.cls = r.cls →
          ∀ b, p.bound ≠ some (b, .plain))
      ∧ (∀ (s t : State) (f : TileFilter) (h : TileHeader) (payload : List Byte) (side : Side) (k : Nat) (p q : Pane),
        s.cab.state = .active → t = composerTile f h payload s → (s.screen side).panes[k]? = some p →
        p.candidate = some h.streamId → p.bound ≠ some (h.streamId, .plain) → (t.screen side).panes[k]? = some q →
        q.bound = some (h.streamId, .plain) →
        ∀ r ∈ t.comp.refusals, ¬(p.result = .cam r.cam ∧ p.cls = r.cls))
      ∧ (∀ (s : State) (a : Addr) (e : RosterEntry), s.tables.roster[a] = some e → a ≠ s.addr → e.presence = .present →
        48 ≤ e.age → s.isCab = true → s.cab.state = .active →
        ∃ t, exec (.stationGone a) s = .next t ∧ ∀ r ∈ t.comp.refusals, r.cam.addr ≠ a)
      ∧ (∀ (s : State) (tag : Word) (a : Addr) (e : RosterEntry), tag ∈ s.tables.departed →
        s.tables.roster[a] = some e → e.tag = tag → a ≠ s.addr → s.isCab = true → s.cab.state = .active →
        ∃ t, exec (.foreignTramPurge tag) s = .next t ∧ ∀ r ∈ t.comp.refusals, r.cam.addr ≠ a))

/-- What a slot observation does to the copy, and the end of the station's own tile (the offset and local time that it
moves are the model's choice, logs 4, 45, that it does not start the next slot too, log 81, and a header of another slot, a
tile cut, and a round whose MARK was missed, logs 39, 52, 84). -/
def Obligations.SlotObserved : Prop :=
  (∀ (s late : State) (n : Slot), OnClock s → s.acting = true →
      late = (s.setNow (s.now + (320 + 192 * (n.val + 1) - s.trunk.offset))).setTrunk { s.trunk with
        offset := max s.trunk.offset (320 + 192 * (n.val + 1)) } →
      ((∀ h b, s.trunk.out ≠ .tile n h b) → s.trunk.synced = true → s.trunk.overrun = false →
        (∃ t, exec (.slotObservation n .silent) s = .next t
          ∧ t.beside = (late.setTables { s.tables with slots := s.tables.slots.set n { s.tables.slots[n] with
              silent := if s.tables.slots[n].owner = none then s.tables.slots[n].silent
                else min 8 (s.tables.slots[n].silent + 1) } }).beside)
        ∧ (∃ t, exec (.slotObservation n .signal) s = .next t
          ∧ t.beside = (late.setTables { s.tables with
              slots := s.tables.slots.set n { s.tables.slots[n] with silent := 0 } }).beside)
        ∧ (∀ rx, readTile rx = none → ∃ t, exec (.slotObservation n (.tile rx)) s = .next t
          ∧ t.beside = ((late.setTrunk { late.trunk with tileErrors := s.trunk.tileErrors + 1#16 }).setTables
              { s.tables with slots := s.tables.slots.set n { s.tables.slots[n] with silent := 0 } }).beside)
        ∧ (∀ rx h payload, readTile rx = some (h, payload) → h.slot = byte n.val → s.admits h.addr h.tag →
            ∃ t, exec (.slotObservation n (.tile rx)) s = .next t
          ∧ t.beside = (late.setTables { s.heardTables h.addr h.tag with
              slots := (s.heardTables h.addr h.tag).slots.set n
                { owner := some { addr := h.addr, num := h.stream, input := h.input, cls := h.cls }, silent := 0 }
              }).beside)
        ∧ (∀ rx h payload, readTile rx = some (h, payload) → h.slot ≠ byte n.val →
            ∃ t, exec (.slotObservation n (.tile rx)) s = .next t
          ∧ t.beside = (late.setTables { s.tables with
              slots := s.tables.slots.set n { s.tables.slots[n] with silent := 0 } }).beside)
        ∧ (∀ rx h payload, readTile rx = some (h, payload) → h.slot = byte n.val → s.heldBack h.addr h.tag = true →
            (h.tag = s.cfg.tag
              ∨ lowerTags s.cfg.tag (takeTag h.tag s.tables.foreign) = lowerTags s.cfg.tag s.tables.foreign) →
            ∃ t, exec (.slotObservation n (.tile rx)) s = .next t ∧ t.beside = (late.tagged h.tag).beside))
      ∧ (∀ heard : Trunk, (∀ h b, s.trunk.out ≠ .tile n h b) → (s.trunk.synced = false ∨ s.trunk.overrun = true) →
          heard = { s.trunk with heardSince :=
            s.trunk.heardSince || !s.trunk.synced || decide (4928 ≤ s.trunk.offset) } →
          exec (.slotObservation n .silent) s = .next (refreshPins s)
          ∧ exec (.slotObservation n .signal) s = .next (refreshPins (s.setTrunk heard))
          ∧ (∀ rx, readTile rx ≠ none → exec (.slotObservation n (.tile rx)) s = .next (refreshPins (s.setTrunk heard)))
          ∧ (∀ line, line = .cut ∨ (∃ rx, line = .tile rx ∧ readTile rx = none) →
            exec (.slotObservation n line) s = .next (refreshPins (s.setTrunk
              { heard with tileErrors := s.trunk.tileErrors + 1#16 }))))
      ∧ ((∀ h b, s.trunk.out ≠ .tile n h b) → s.trunk.synced = true → s.trunk.overrun = false →
          ∃ t, exec (.slotObservation n .cut) s = .next t
            ∧ t.beside = ((s.setTrunk { s.trunk with tileErrors := s.trunk.tileErrors + 1#16 }).setTables
              { s.tables with slots := s.tables.slots.set n { s.tables.slots[n] with silent := 0 } }).beside)
      ∧ (∀ h b rx, s.trunk.out = .tile n h b → s.trunk.synced = true → rx.addr.val < s.addr.val →
          exec (.slotObservation n (.tile rx)) s
            = exec (.slotObservation n (.tile rx)) (s.setTrunk { s.trunk with out := .idle })))
    ∧ (∀ (s late : State) (n : Slot) (h : TileHeader) (b : List Byte), OnClock s → s.acting = true → s.trunk.synced = true →
      s.trunk.overrun = false → s.trunk.out = .tile n h b →
      late = (s.setNow (s.now + (320 + 192 * (n.val + 1) - s.trunk.offset))).setTrunk { s.trunk with
        offset := max s.trunk.offset (320 + 192 * (n.val + 1)), out := .idle } →
      (h.addr = s.addr → h.tag = s.cfg.tag → h.slot = byte n.val →
        ∃ t, exec (.slotObservation n (.tile { addr := s.addr, bytes := b })) s = .next t
          ∧ t.beside = ((late.setTrunk { late.trunk with tilesSent := s.trunk.tilesSent + 1#16 }).setTables
              { s.tables with slots := (s.tables.slots.set n
                  { owner := some { addr := h.addr, num := h.stream, input := h.input, cls := h.cls },
                    silent := 0 }) }).beside)
      ∧ (∀ line, line ≠ .cut → (∀ rx, line = .tile rx → s.addr.val ≤ rx.addr.val ∧ (rx.addr = s.addr → rx.bytes ≠ b)) →
        ∃ t, exec (.slotObservation n line) s = .next t
          ∧ t.beside = ((late.setTrunk { late.trunk with tileErrors := s.trunk.tileErrors + 1#16 }).setTables
              { s.tables with slots := s.tables.slots.set n { s.tables.slots[n] with silent := 0 } }).beside)
      ∧ (∃ t, exec (.slotObservation n .cut) s = .next t
          ∧ t.beside = ((s.setTrunk { s.trunk with out := .idle, tileErrors := s.trunk.tileErrors + 1#16 }).setTables
              { s.tables with slots := s.tables.slots.set n { s.tables.slots[n] with silent := 0 } }).beside))

/-- A silent slot is reclaimed, also from an own stream, an old want record emptied, a long HOLDING stream drained. -/
def Obligations.CountsRunOut : Prop :=
  (∀ (s : State) (n : Slot), s.tables.slots[n].owner ≠ none → 8 ≤ s.tables.slots[n].silent →
      ∃ t, exec (.slotReclaim n) s = .next t
        ∧ t.beside = (s.setTables { s.tables with slots := s.tables.slots.set n { owner := none, silent := 0 } }).beside)
    ∧ (∀ (s : State) (q : Slot) (n : StreamNo) (x : Stream), s.acting = true → (∀ c, s.trunk.out ≠ .control c) →
      s.tables.slots[q].names s.addr n = true → 8 ≤ s.tables.slots[q].silent → s.engine.table[n] = some x →
      x.state ≠ .claiming → x.state ≠ .draining .lost →
      ((∃ k : Slot, k ≠ q ∧ s.tables.slots[k].names s.addr n = true) →
        ∃ t y, exec (.slotReclaim q) s = .next t ∧ t.engine.table[n] = some y ∧ y.state = .draining .lost
          ∧ y.input = x.input ∧ y.cls = x.cls ∧ y.picture = none
          ∧ (queueFind t.queue (.stream n)).map (fun e => e.kind) = some .release)
      ∧ ((∀ k : Slot, k ≠ q → s.tables.slots[k].names s.addr n = false) →
        ∃ t, exec (.slotReclaim q) s = .next t
          ∧ (t.engine.table[n] = none ∨ ∃ y, t.engine.table[n] = some y ∧ y.state = .claiming)))
    ∧ (∀ (s : State) (p : WantPos) (r : WantRecord), s.tables.wants[p] = some r → 48 ≤ r.age →
      ∃ t, exec (.wantRecordExpiry p) s = .next t
        ∧ t.beside = (s.setTables { s.tables with wants := s.tables.wants.set p none }).beside
        ∧ t.engine.refusals[p] = [])
    ∧ (∀ (s : State) (n : StreamNo) (x : Stream), s.acting = true → s.engine.table[n] = some x → x.state = .holding →
      40 ≤ x.holdCount → (∀ c, s.trunk.out ≠ .control c) →
      ∃ t, exec (.holdLimit n) s = .next t ∧ t = refreshPins ((s.setEngine t.engine).setQueue t.queue)
        ∧ (∃ y, t.engine.table[n] = some y ∧ y.state = .draining .holdLimit ∧ y.input = x.input ∧ y.cls = x.cls)
        ∧ (queueFind t.queue (.stream n)).map (fun e => e.kind) = some .release)

/-- A WANT for a camera of the station makes a stream or a refusal, which stream serves it, what want of demand and its
return do, and the upgrade (none beside a standing stream of the wanted class, the number between equals, and the
unstated fields of a new stream: the model's choices, logs 36, 18, 68). -/
def Obligations.DemandMakesStream : Prop :=
  (∀ (s : State) (rx : ControlRx) (f : ControlFrame) (es : List Quad) (w : WantEntry), Settled s →
      readControl rx = .frame f → f.body = .want es → s.admits f.addr f.tag →
      s.tables.wants = Vector.replicate 4 none → s.engine = StreamEngine.reset → (∀ c, s.trunk.out ≠ .control c) →
      (∀ e, s.tables.roster[f.addr] = some e → e.tag = f.tag) →
      wantContent es = some [w] → w.carry = false → w.cam.addr = s.addr →
      (s.inputLive w.cam.input = true → ∃ t, exec (.wantFrameReceived rx) s = .next t
        ∧ t.engine.table = (Vector.replicate 6 none).set 0 (some {
            state := .claiming, input := w.cam.input, cls := w.cls, wanted := w.cls, floor := w.floor, short := false
            upgrade := false, holdCount := 0, seq := 0xFF#8, nextBand := 0, picture := none })
        ∧ t.engine.refusals = Vector.replicate 4 []
        ∧ (queueFind t.queue (.stream 0)).map (fun e => e.kind) = some .claim)
      ∧ (s.inputLive w.cam.input = false → ∃ t, exec (.wantFrameReceived rx) s = .next t
        ∧ t.engine.table = Vector.replicate 6 none
        ∧ t.engine.refusals = (Vector.replicate 4 []).set 0 [{ cam := w.cam, cls := w.cls, reason := .cameraDown }]
        ∧ queueHolds t.queue (.deny 0) = true))
    ∧ (∀ (free : Nat) (v : Eval) (may : StreamNo → Prop),
      (∀ n, may n ↔ ∃ x, v.table[n] = some x ∧ x.state = .live ∧ x.short = true ∧ x.wanted.need ≤ free
        ∧ ∀ (m : StreamNo) (y : Stream), v.table[m] = some y → y.input = x.input → y.cls = x.wanted →
            ∃ d, y.state = .draining d) →
      ((∀ (n : StreamNo) (x : Stream), v.table[n] = some x → ¬(x.upgrade = true ∧ x.state = .claiming)) →
        ∀ (n m : StreamNo) (x : Stream), may n → (∀ k : StreamNo, k.val < n.val → ¬ may k) → v.table[n] = some x →
          v.table[m] = none → (∀ k : StreamNo, k.val < m.val → v.table[k] ≠ none) →
          v.seekUpgrade free = { v with
            table := v.table.set m (some {
              state := .claiming, input := x.input, cls := x.wanted, wanted := x.wanted, floor := x.wanted, short := false
              upgrade := true, holdCount := 0, seq := 0xFF#8, nextBand := 0, picture := none })
            ops := v.ops ++ [.offer (.stream m) .claim] })
      ∧ (((∃ (n : StreamNo) (x : Stream), v.table[n] = some x ∧ x.upgrade = true ∧ x.state = .claiming)
          ∨ (∀ n, ¬ may n) ∨ ∀ n : StreamNo, v.table[n] ≠ none) → v.seekUpgrade free = v))
    ∧ ((∀ (d : Demand) (x : Stream), d.eligible x = true ↔
        x.input = d.input ∧ x.state ≠ .draining .holdLimit ∧ x.state ≠ .draining .lost
          ∧ (x.cls = d.entry.cls ∨ (x.cls.rank < d.entry.cls.rank ∧ d.entry.floor.rank ≤ x.cls.rank
              ∧ d.entry.cls.rank ≤ x.wanted.rank)))
      ∧ (∀ (d : Demand) (t : StreamTable),
        (d.servedBy t = none ↔ ∀ (n : StreamNo) (x : Stream), t[n] = some x → d.eligible x = false)
        ∧ (∀ n, d.servedBy t = some n → ∃ x, t[n] = some x ∧ d.eligible x = true
          ∧ ∀ (m : StreamNo) (y : Stream), t[m] = some y → d.eligible y = true → m ≠ n →
              (x.state = .claiming → y.state = .claiming)
              ∧ ((x.state = .claiming ↔ y.state = .claiming) → x.cls ≠ d.entry.cls → y.cls ≠ d.entry.cls)
              ∧ (x.state ≠ .claiming → y.state ≠ .claiming → x.cls ≠ d.entry.cls → y.cls.rank ≤ x.cls.rank
                  ∧ (y.cls = x.cls → n.val < m.val))
              ∧ (x.state = .claiming → y.state = .claiming → (x.cls = d.entry.cls ↔ y.cls = d.entry.cls) →
                  n.val < m.val)))
      ∧ (∀ (s : State) (rx : ControlRx) (f : ControlFrame) (n : StreamNo) (x : Stream), Settled s →
        readControl rx = .frame f → f.body = .want [] → s.admits f.addr f.tag → (∀ c, s.trunk.out ≠ .control c) →
        (∀ (p : WantPos) (r : WantRecord), s.tables.wants[p] = some r → r.sender = f.addr) →
        (∀ e, s.tables.roster[f.addr] = some e → e.tag = f.tag) → s.engine.table[n] = some x →
        (x.state = .live ∨ x.state = .holding →
          ∃ t, exec (.wantFrameReceived rx) s = .next t
            ∧ t.engine.table[n] = some { x with
                state := .draining .noDemand, holdCount := 0, nextBand := 0, picture := none, wanted := x.cls
                short := false }
            ∧ (queueFind t.queue (.stream n)).map (fun e => e.kind) = some .release)
        ∧ (x.state = .claiming → ∃ t, exec (.wantFrameReceived rx) s = .next t
            ∧ t.engine.table[n] = none ∧ queueHolds t.queue (.stream n) = false))
      ∧ (∀ (s : State) (rx : ControlRx) (f : ControlFrame) (es : List Quad) (w : WantEntry) (n : StreamNo) (x : Stream),
        Settled s → readControl rx = .frame f → f.body = .want es → s.admits f.addr f.tag →
        (∀ c, s.trunk.out ≠ .control c) → (∀ p : WantPos, s.tables.wants[p] = none) →
        (∀ e, s.tables.roster[f.addr] = some e → e.tag = f.tag) → wantContent es = some [w] → w.carry = false →
        w.cam = { addr := s.addr, input := x.input } → w.cls = x.cls → s.engine.table[n] = some x →
        x.state = .draining .noDemand → (∀ m : StreamNo, m ≠ n → s.engine.table[m] = none) →
        ∃ t, exec (.wantFrameReceived rx) s = .next t
          ∧ t.engine.table[n] = some { x with
              state := if s.inputLive x.input = true then .live else .holding
              holdCount := 0, nextBand := 0, picture := none, wanted := x.cls, short := false }
          ∧ queueHolds t.queue (.stream n) = false)
      ∧ (∀ (ds : List Demand) (served : StreamTable) (v : Eval) (n : StreamNo) (x : Stream), v.table[n] = some x →
        (x.state = .claiming → v.settleWanted ds served n = v)
        ∧ (x.state ≠ .claiming → ∃ w : SizeClass,
            v.settleWanted ds served n = { v with
              table := v.table.set n (some { x with wanted := w, short := decide (x.cls.rank < w.rank) }) }
            ∧ x.cls.rank ≤ w.rank
            ∧ (∀ d ∈ ds, d.servedBy served = some n → d.entry.cls.rank ≤ w.rank)
            ∧ (w = x.cls ∨ ∃ d ∈ ds, d.servedBy served = some n ∧ d.entry.cls = w))))

/-- The win of a CLAIM that fits. -/
def Obligations.ClaimWinTakesLowestSlots : Prop :=
  ∀ (s : State) (e : QueueEntry) (n : StreamNo) (x : Stream) (before after : List SizeClass) (k : SizeClass),
    Settled s → s.trunk.contending = some (.stream n) → queueFind s.queue (.stream n) = some e → e.subject = .stream n →
    e.kind = .claim → s.engine.table[n] = some x →
    (if x.upgrade then [x.wanted] else [SizeClass.full, .half, .quarter].filter (fun c =>
      decide (c.rank ≤ x.wanted.rank) && decide (x.floor.rank ≤ c.rank))) = before ++ k :: after →
    (∀ c ∈ before, mergeTarget s.engine.table n x c = none ∧ freeSlots s.tables.slots < c.need) →
    mergeTarget s.engine.table n x k = none → k.need ≤ freeSlots s.tables.slots →
    ∀ f : ControlFrame, f = { addr := s.addr, tag := s.cfg.tag,
                              body := .claim (byte s.addr.val) s.cfg.tag (byte n.val) (byte x.input.val) (classCode k)
                                (slotBytes ((freeList s.tables.slots).take k.need)) } →
    exec .arbitrationWin s = .next (refreshPins ((s.setEngine { s.engine with
        table := s.engine.table.set n (some { x with cls := k, short := decide (k.rank < x.wanted.rank) }) }).setTrunk
      { s.trunk with
        contending := none, won := true
        out := .control { subject := .stream n, kind := .claim, frame := f, bytes := controlBytes f, again := none } }))

/-- The station's own CLAIM or RELEASE has been transmitted. -/
def Obligations.OwnClaimAndReleaseSent : Prop :=
  ∀ (s : State) (c : Sending) (n : StreamNo) (x : Stream), Settled s → s.acting = true →
    s.trunk.out = .control c → c.subject = .stream n → c.again = none →
    c.frame.addr = s.addr → c.frame.tag = s.cfg.tag → s.engine.table[n] = some x →
    (∀ o ot nb ib kb sb id sl, c.kind = .claim → x.state = .claiming → c.frame.body = .claim o ot nb ib kb sb →
      claimContent s.addr o nb ib kb sb = some (id, sl) → id.num = n →
      (∀ q ∈ sl, s.tables.slots[q].owner = none) → (∀ q : Slot, s.tables.slots[q].names s.addr n = false) →
      ∃ t, exec (.controlFrameSent c.bytes) s = .next t
        ∧ t.trunk.framesSent = s.trunk.framesSent + 1#16 ∧ t.trunk.consecClash = 0 ∧ t.trunk.out = .idle
        ∧ (∀ q ∈ sl, t.tables.slots[q] = { owner := some id, silent := 0 })
        ∧ (∀ q : Slot, q ∉ sl → t.tables.slots[q] = s.tables.slots[q])
        ∧ ∃ y, t.engine.table[n] = some y ∧ y.input = x.input ∧ y.cls = x.cls ∧ y.seq = 0xFF#8
            ∧ (y.state = .live ∨ y.state = .holding ∨ y.state = .draining .noDemand))
    ∧ (∀ o ot nb sb sl d, c.kind = .release → x.state = .draining d → c.frame.body = .release o ot nb sb →
      releaseContent s.addr o nb sb = some (n, sl) →
      ∃ t, exec (.controlFrameSent c.bytes) s = .next t
        ∧ t.trunk.framesSent = s.trunk.framesSent + 1#16 ∧ t.trunk.consecClash = 0 ∧ t.trunk.out = .idle
        ∧ (∀ q : Slot, t.tables.slots[q] =
            if q ∈ sl ∧ s.tables.slots[q].names s.addr n = true then { owner := none, silent := 0 }
            else s.tables.slots[q])
        ∧ (t.engine.table[n] = none ∨ ∃ y, t.engine.table[n] = some y ∧ y.state = .claiming))

/-- The tile sent in a slot, and no tile without the right to send one (the offset and local time that the slot moves,
the starts passed over, the filter taken at its start, a LIVE stream without a frame, the next band with no picture open: the
model's choices, logs 4, 45, 81, 46, 65, 68). -/
def Obligations.DataSlotTile : Prop :=
  (∀ (s : State) (n : Slot) (id : StreamId) (x : Stream), OnClock s → s.boot.phase = .started →
      s.trunk.state = .joined → s.trunk.synced = true → s.trunk.out = .idle →
      s.tables.slots[n].owner = some id → id.addr = s.addr → s.engine.table[id.num] = some x →
      ∀ late : State, late = (s.setNow (s.now + (320 + 192 * n.val - s.trunk.offset))).setTrunk { s.trunk with
        offset := max s.trunk.offset (320 + 192 * n.val), filter := some (s.tileFilter n) } →
      (∀ pic h, x.state = .live → x.picture = some pic →
        h = { picture := true, addr := s.addr, tag := s.cfg.tag, stream := id.num, slot := byte n.val, input := x.input
              cls := x.cls, seq := x.seq, band := x.nextBand, last := x.nextBand + 1 == x.cls.bands } →
        exec (.dataSlotStart n) s = .next (refreshPins ((late.setEngine { s.engine with
            table := s.engine.table.set id.num (some (if x.nextBand + 1 = x.cls.bands then
                { x with nextBand := 0, picture := none } else { x with nextBand := x.nextBand + 1 })) }).setTrunk
          { late.trunk with out := .tile n h (tileBytes h (bandBytes x.cls pic x.nextBand)) })))
      ∧ (∀ r frame pic h, x.state = .live → x.picture = none → s.intake.inputs[x.input] = some r →
        r.newest = some frame → pic = scaleFrame x.cls s.cfg.lineCount s.cfg.pixelCount frame →
        h = { picture := true, addr := s.addr, tag := s.cfg.tag, stream := id.num, slot := byte n.val, input := x.input
              cls := x.cls, seq := x.seq + 1#8, band := 0, last := false } →
        exec (.dataSlotStart n) s = .next (refreshPins ((late.setEngine { s.engine with
            table := s.engine.table.set id.num (some
              { x with seq := x.seq + 1#8, nextBand := 1, picture := some pic }) }).setTrunk
          { late.trunk with out := .tile n h (tileBytes h (bandBytes x.cls pic 0)) })))
      ∧ (∀ pic h, x.state = .live → x.picture = none → (∀ r, s.intake.inputs[x.input] = some r → r.newest = none) →
        pic = scaleFrame x.cls s.cfg.lineCount s.cfg.pixelCount [] →
        h = { picture := true, addr := s.addr, tag := s.cfg.tag, stream := id.num, slot := byte n.val, input := x.input
              cls := x.cls, seq := x.seq + 1#8, band := 0, last := false } →
        exec (.dataSlotStart n) s = .next (refreshPins ((late.setEngine { s.engine with
            table := s.engine.table.set id.num (some
              { x with seq := x.seq + 1#8, nextBand := 1, picture := some pic }) }).setTrunk
          { late.trunk with out := .tile n h (tileBytes h (bandBytes x.cls pic 0)) })))
      ∧ (∀ h, (x.state = .holding ∨ ∃ d, x.state = .draining d) →
        h = { picture := false, addr := s.addr, tag := s.cfg.tag, stream := id.num, slot := byte n.val, input := x.input
              cls := x.cls, seq := x.seq, band := 0, last := false } →
        exec (.dataSlotStart n) s = .next (refreshPins (late.setTrunk
          { late.trunk with out := .tile n h (tileBytes h []) }))))
    ∧ (∀ (s : State) (n : Slot), OnClock s →
      (s.trunk.state ≠ .joined ∨ s.trunk.synced = false ∨ s.tables.slots[n].owner = none
        ∨ (∃ id, s.tables.slots[n].owner = some id ∧ (id.addr ≠ s.addr ∨ s.engine.table[id.num] = none
            ∨ ∃ x, s.engine.table[id.num] = some x ∧ x.state = .claiming))) →
      exec (.dataSlotStart n) s = .next (refreshPins ((s.setNow (if s.trunk.synced then
          s.now + (320 + 192 * n.val - s.trunk.offset) else s.now)).setTrunk { s.trunk with
        offset := if s.trunk.synced then max s.trunk.offset (320 + 192 * n.val) else s.trunk.offset
        filter := some (s.tileFilter n) })))

/-- A camera's sync pulses, frames and absence (the exact bound of 10 %, and which command closes a frame, are the
model's, logs 32, 53). -/
def Obligations.CameraPulseFrameAbsence : Prop :=
  (∀ (s : State) (i : Input) (kind : SyncKind) (r : InputRecord), Settled s → s.acting = true →
      s.intake.inputs[i] = some r →
      exec (.cameraSyncPulse i kind) s = .next (refreshPins (s.setIntake { s.intake with
        inputs := s.intake.inputs.set i (some { r with
          absence := 0, frameOpen := r.frameOpen || kind == .frame
          state := if r.state = .absent then .syncing else r.state
          good := if r.state = .absent then 0 else r.good }) })))
    ∧ (∀ (s : State) (i : Input) (f : CameraFrame) (r : InputRecord) (good : Bool), Settled s → s.acting = true →
      s.intake.inputs[i] = some r → r.frameOpen = true →
      (good = true ↔ f.lines.length = s.cfg.lineCount ∧ (∀ l ∈ f.lines, l.length = s.cfg.pixelCount)
        ∧ 900000 ≤ s.cfg.frameRate * f.length ∧ s.cfg.frameRate * f.length ≤ 1100000) →
      ((∀ q, s.intake.request = some q → q.input = i → r.state ≠ .live ∧ (good = false → q.run = false)) →
        exec (.cameraFrameCompleted i f) s = .next (refreshPins (s.setIntake { s.intake with
          inputs := s.intake.inputs.set i (some (match r.state, good with
            | .syncing, true => if r.good + 1 < 3 then { r with absence := 0, good := r.good + 1 }
                else { r with absence := 0, good := 3, newest := some f.lines }
            | .syncing, false => { r with absence := 0, good := 0, malformed := r.malformed + 1#16 }
            | .live, true => { r with absence := 0, stall := 200000, newest := some f.lines }
            | .live, false => { r with absence := 0, malformed := r.malformed + 1#16 }
            | .stalled, true => { r with absence := 0, state := .syncing, good := 1 }
            | .stalled, false => { r with absence := 0, state := .syncing, good := 0, malformed := r.malformed + 1#16 }
            | .absent, _ => { r with absence := 0 })) })))
      ∧ (∀ q, s.intake.request = some q → q.input = i → r.state = .live → good = true →
        exec (.cameraFrameCompleted i f) s = .next (refreshPins ((s.setIntake {
            inputs := s.intake.inputs.set i (some { r with absence := 0, stall := 200000, newest := some f.lines })
            request := if q.size ≤ q.handed + 1 then none else some { q with handed := q.handed + 1 }
            }).setLens { s.lens with handed := some f.lines })))
      ∧ (∀ q, s.intake.request = some q → q.input = i → r.state = .live → good = false →
        exec (.cameraFrameCompleted i f) s = .next (refreshPins ((s.setIntake {
            inputs := s.intake.inputs.set i (some { r with absence := 0, malformed := r.malformed + 1#16 })
            request := if q.run then some { q with handed := 0 } else some q }).setStore
              (if q.run then { s.store with held := 0, sums := Vector.replicate 16 0 } else s.store)))))
    ∧ (∀ (s : State) (i : Input) (r : InputRecord), OnClock s → s.intake.inputs[i] = some r →
      (r.state = .syncing ∨ r.state = .stalled) → 2000000 ≤ r.absence →
      ∃ t, exec (.cameraAbsence i) s = .next t ∧ t.pins.fault = true
        ∧ t = refreshPins (s.setIntake { s.intake with inputs := s.intake.inputs.set i (some { r with
            state := .absent, good := 0, frameOpen := false, newest := none }) }))

/-- An input enters and leaves LIVE, and what its loss ends: a capture, a probe, a CLAIM (check bytes of the reply as
log 64 orders them). -/
def Obligations.CameraEntersAndLeavesLive : Prop :=
  (∀ (s : State) (i : Input) (r : InputRecord), s.intake.inputs[i] = some r → r.state = .syncing → 3 ≤ r.good →
      (∀ c, s.trunk.out ≠ .control c) →
      ∃ t, exec (.cameraSynced i) s = .next t
        ∧ t = refreshPins (((s.setIntake { s.intake with inputs := s.intake.inputs.set i (some { r with
            state := .live, stall := 200000 }) }).setEngine t.engine).setQueue t.queue)
        ∧ ∀ (n : StreamNo) (x : Stream), s.engine.table[n] = some x → x.input = i → x.state = .holding →
            ∃ y, t.engine.table[n] = some y ∧ y.input = i ∧ y.picture = none ∧ y.holdCount = 0
              ∧ (y.state = .live ∨ y.state = .draining .noDemand))
    ∧ (∀ (s : State) (i : Input) (r : InputRecord), OnClock s → s.acting = true → s.intake.inputs[i] = some r →
      r.state = .live → r.stall = 0 → (∀ c, s.trunk.out ≠ .control c) →
      ∃ t, exec (.cameraStall i) s = .next t
        ∧ t.intake.inputs = s.intake.inputs.set i (some { r with state := .stalled, newest := none })
        ∧ (∀ q, t.intake.request = some q → q.input ≠ i)
        ∧ (∀ (n : StreamNo) (x : Stream), s.engine.table[n] = some x → x.input = i → x.state = .live →
            ∃ y, t.engine.table[n] = some y ∧ y.input = i ∧ y.picture = none ∧ y.holdCount = 0
              ∧ (y.state = .holding ∨ y.state = .draining .noDemand))
        ∧ (∀ l, t.lens.records[i] = some l → l.due = false ∧ l.previous = none)
        ∧ t.tables = s.tables ∧ t.trunk = s.trunk ∧ t.channels = s.channels ∧ t.confMem = s.confMem)
    ∧ (∀ (s : State) (i : Input) (r : InputRecord) (ended : BaselineStore), OnClock s → s.acting = true →
      s.intake.inputs[i] = some r → r.state = .live → r.stall = 0 →
      ended = { s.store with
        busy := false, done := true, phase := .none, writeTimer := none, result := .abortedStall, writing := [] } →
      (s.store.phase = .waiting → s.store.input = some i →
        ∃ t, exec (.cameraStall i) s = .next t ∧ t.store = ended)
      ∧ (∀ q, s.store.phase = .measuring → s.lens.engine = .capture i → s.intake.request = some q → q.input = i →
        ∃ t, exec (.cameraStall i) s = .next t ∧ t.store = ended ∧ t.lens.engine ≠ .capture i)
      ∧ (∀ q k, s.lens.engine = .probe i → s.service = .answer k none → s.intake.request = some q → q.input = i →
        ∃ t, exec (.cameraStall i) s = .next t ∧ t.service = .answer k (some (replyFrame k .notLive []))
          ∧ t.lens.engine ≠ .probe i)
      ∧ (∀ (n : StreamNo) (x : Stream), s.engine.table[n] = some x → x.input = i → x.state = .claiming →
        (∀ c, s.trunk.out ≠ .control c) →
        ∃ t, exec (.cameraStall i) s = .next t
          ∧ (∀ y, t.engine.table[n] = some y → y.input ≠ i)
          ∧ (t.engine.table[n] = none → queueHolds t.queue (.stream n) = false)))

/-- An edge of a line restarts its filter (for SERVICE, which has none, the model's choice, log 10); one at the moment at which
the filter runs out comes after the acceptance and after the channel's settling (the model's choice, log 82). -/
def Obligations.LineEdgeRestartsFilter : Prop :=
  ∀ (s : State) (line : VehicleLine) (level : Bool), OnClock s → s.acting = true →
    (s.levels.get line = level → exec (.vehicleLineEdge line level) s = .next (refreshPins s))
    ∧ (s.levels.get line = !level →
      (∀ ch l c, line = .door ch l → s.channels[ch] = some c → (c.filter l).differ < s.cfg.filterTime →
        exec (.vehicleLineEdge line level) s = .next (refreshPins ((s.setLevels (s.levels.set line level)).setChannels
          (s.channels.set ch (some (c.setFilter l { c.filter l with differ := 0, still := 0 }))))))
      ∧ (line = .coupler → s.couplerFilter.differ < s.cfg.filterTime →
        exec (.vehicleLineEdge line level) s = .next (refreshPins ((s.setLevels { s.levels with coupler := level
            }).setCouplerFilter { s.couplerFilter with differ := 0, still := 0 })))
      ∧ (line = .cabOn → s.isCab = true → s.cab.cabOn.differ < s.cfg.filterTime →
        exec (.vehicleLineEdge line level) s = .next (refreshPins ((s.setLevels { s.levels with cabOn := level
            }).setCab { s.cab with cabOn := { s.cab.cabOn with differ := 0, still := 0 } })))
      ∧ (line = .reverse → s.isCab = true → s.cab.reverse.differ < s.cfg.filterTime →
        exec (.vehicleLineEdge line level) s = .next (refreshPins ((s.setLevels { s.levels with reverse := level
            }).setCab { s.cab with reverse := { s.cab.reverse with differ := 0, still := 0 } })))
      ∧ (∀ k, line = .key k → s.isCab = true → (s.cab.key k).differ < s.cfg.filterTime →
        exec (.vehicleLineEdge line level) s = .next (refreshPins ((s.setLevels (s.levels.set line level)).setCab
          (s.cab.setKey k { s.cab.key k with differ := 0, still := 0 }))))
      ∧ (line = .service → level = true →
        exec (.vehicleLineEdge line level) s = .next (refreshPins (s.setLevels { s.levels with service := true })))
      ∧ (∀ ch l c d, line = .door ch l → s.channels[ch] = some c → c.settled = false → c.phase = .unknown →
        level = (c.filter l).accepted → s.cfg.filterTime ≤ (c.filter l).differ →
        d = c.setFilter l { c.filter l with accepted := !level, differ := 0 } →
        d.steady s.levels.door[ch] s.cfg.filterTime = true →
        ∃ t, exec (.vehicleLineEdge line level) s = .next t ∧ t.levels = s.levels.set line level
          ∧ t.channels = s.channels.set ch (some { d.setFilter l { d.filter l with still := 0 } with
              settled := true, closing := 0
              phase := (match d.linePhase with
                | some p => p
                | none => .closing) })
          ∧ ((∀ x, s.trunk.out ≠ .control x) → queueHolds t.queue (.door ch) = true)))

/-- The line phase of a channel. -/
def Obligations.LinePhaseTable : Prop :=
  ∀ c : Channel,
    (c.shut.accepted = true → c.rel.accepted = false → c.linePhase = some .locked)
    ∧ (c.shut.accepted = true → c.rel.accepted = true → c.linePhase = some .released)
    ∧ (c.shut.accepted = false → c.edge.accepted = true → c.linePhase = some .obstructed)
    ∧ (c.shut.accepted = false → c.rel.accepted = true → c.edge.accepted = false → c.linePhase = some .opened)
    ∧ (c.shut.accepted = false → c.rel.accepted = false → c.edge.accepted = false → c.linePhase = none)

/-- An accepted change of a door line, settling, and the closing limit (that a filter or timer below its limit gives
nothing is the model's choice, log 3, and so is the value 0 of the timer stopped in FAULT, log 48). -/
def Obligations.DoorLineAcceptedSetsPhase : Prop :=
  (∀ (s : State) (ch : Chan) (l : DoorLine) (c d e : Channel), OnClock s → s.channels[ch] = some c → c.settled = true →
      (s.levels.door[ch]).level l ≠ (c.filter l).accepted → s.cfg.filterTime ≤ (c.filter l).differ →
      d = c.setFilter l { c.filter l with accepted := !(c.filter l).accepted, differ := 0 } →
      e = (match d.linePhase, c.phase with
        | some p, _ => { d with phase := p, closing := 0 }
        | none, .closing => d
        | none, .fault => { d with closing := 0 }
        | none, _ => { d with phase := .closing, closing := 0 }) →
      exec (.doorLineAccepted ch l) s = .next (refreshPins
        (if e.phase = c.phase then s.setChannels (s.channels.set ch (some e))
         else offer (.door ch) .plain (s.setChannels (s.channels.set ch (some e))))))
    ∧ (∀ (s : State) (ch : Chan) (l : DoorLine) (c : Channel), OnClock s → s.channels[ch] = some c →
      (c.settled = false → (s.levels.door[ch]).level l ≠ (c.filter l).accepted → s.cfg.filterTime ≤ (c.filter l).differ →
        exec (.doorLineAccepted ch l) s = .next (refreshPins (s.setChannels (s.channels.set ch (some
          (c.setFilter l { c.filter l with accepted := !(c.filter l).accepted, differ := 0 }))))))
      ∧ (((s.levels.door[ch]).level l = (c.filter l).accepted ∨ (c.filter l).differ < s.cfg.filterTime) →
        exec (.doorLineAccepted ch l) s = .next (refreshPins s)))
    ∧ (∀ (s : State) (ch : Chan) (c e : Channel), s.channels[ch] = some c → c.settled = false → c.phase = .unknown →
      (∀ l, (s.levels.door[ch]).level l = (c.filter l).accepted ∧ s.cfg.filterTime ≤ (c.filter l).still) →
      e = { c with settled := true, closing := 0
                   phase := (match c.linePhase with
                    | some p => p
                    | none => .closing) } →
      exec (.doorChannelSettled ch) s = .next (refreshPins
        (if e.phase = c.phase then s.setChannels (s.channels.set ch (some e))
         else offer (.door ch) .plain (s.setChannels (s.channels.set ch (some e))))))
    ∧ (∀ (s : State) (ch : Chan) (c : Channel), OnClock s → s.channels[ch] = some c →
      (c.phase = .closing → s.cfg.closingLimit ≤ c.closing →
        exec (.closingLimit ch) s = .next (refreshPins (offer (.door ch) .plain (s.setChannels (s.channels.set ch (some
          { c with phase := .fault, closing := 0, settled := true, faults := c.faults + 1#16 }))))))
      ∧ ((c.phase ≠ .closing ∨ c.closing < s.cfg.closingLimit) → exec (.closingLimit ch) s = .next (refreshPins s)))

/-- An accepted change of the coupler line. -/
def Obligations.CouplerLineAcceptedOffersRoster : Prop :=
  ∀ (s : State) (x : TramEnd) (e : RosterEntry), OnClock s → s.acting = true → s.cfg.endStation = some x →
    s.levels.coupler ≠ s.couplerFilter.accepted → s.cfg.filterTime ≤ s.couplerFilter.differ →
    s.tables.roster[s.addr] = some e →
    exec .couplerLineAccepted s = .next (refreshPins (offer .roster .plain
      ((s.setCouplerFilter { s.couplerFilter with accepted := s.levels.coupler, differ := 0 }).setTables
        { s.tables with roster := (s.tables.roster.set s.addr
          (some { e with coupler := some (x, s.levels.coupler) })) })))

/-- What an offer does to the queue. -/
def Obligations.OfferTable : Prop :=
  ∀ (s : State) (sub : Subject) (k : SendKind), (∀ c, s.trunk.out = .control c → c.subject ≠ sub) →
    (s.acting = true → queueHolds s.queue sub = false →
      ∃ q, offer sub k s = s.setQueue q ∧ q.Perm ({ subject := sub, kind := k, time := s.now } :: s.queue))
    ∧ (s.acting = true → queueHolds s.queue sub = true → (∀ e ∈ s.queue, e.subject = sub → e.kind = k) →
      offer sub k s = s)
    ∧ (s.acting = true → queueHolds s.queue sub = true →
      offer sub k s = s.setQueue (s.queue.map (fun e => if e.subject = sub then { e with kind := k } else e)))
    ∧ (s.acting = true → (queueFind (offer sub k s).queue sub).map (fun e => e.kind) = some k
        ∧ (offer sub k s).trunk = s.trunk)
    ∧ (s.trunk.state = .inert → offer sub k s = s)

/-- A measurement period tick. -/
def Obligations.PeriodTickOwesPasses : Prop :=
  ∀ (s : State) (recs : Vector (Option LensRecord) 4), OnClock s → s.acting = true → s.lens.periodTimer = 0 →
    (∀ i : Input, recs[i] = (s.lens.records[i]).map (fun r => { r with
      quiet := if r.decisive = false ∧ r.due = false ∧ r.quiet < 10 then r.quiet + 1 else r.quiet
      decisive := false, due := r.due || s.inputLive i })) →
    (s.lens.engine ≠ .free → exec .measurementPeriodTick s =
      .next (refreshPins (s.setLens { s.lens with records := recs, periodTimer := s.cfg.soiling.period })))
    ∧ (∀ (i : Input) r, s.lens.engine = .free → s.store.phase ≠ .waiting → s.lens.probeWaiting = none →
      recs[i] = some r → r.due = true → s.inputLive i = true →
      (∀ j : Input, j.val < i.val → ∀ q, recs[j] = some q → q.due = false) →
      exec .measurementPeriodTick s = .next (refreshPins ((s.setLens { s.lens with
          records := recs, periodTimer := s.cfg.soiling.period, engine := .rota i, handed := none }).setIntake
        { s.intake with request := some { input := i, run := false, size := 1, handed := 0 } })))

/-- The verdict of a pass (suspect zones where an earlier step decides, and a dark frame with no previous one: the
model's choices, logs 27, 71), and the zone statistics it is made from. -/
def Obligations.VerdictOfPass : Prop :=
  (∀ (s : State) (r : LensRecord) (frame : FrameLines) (p : Pass), p = s.passOf r frame →
      p.brightness = brightnessOf (s.zoneMeans frame) ∧ p.contrast = contrastOf (s.zoneMeans frame)
      ∧ (∀ z : Fin 16, p.ratios[z] = min 255 (16 * (s.zoneEnergies frame)[z] / r.baseline[z]))
      ∧ (p.verdict = .dark ↔ p.brightness < s.cfg.soiling.darkFloor)
      ∧ (p.verdict = .indecisive .noReference ↔ s.cfg.soiling.darkFloor ≤ p.brightness ∧ r.previous = none)
      ∧ (∀ before, s.cfg.soiling.darkFloor ≤ p.brightness → r.previous = some before →
          (∀ z : Fin 16, p.disturbed[z] = decide (s.cfg.soiling.disturbance <
            zoneTemporal (zoneLumas s.cfg.lineCount s.cfg.pixelCount frame z.val)
              (zoneLumas s.cfg.lineCount s.cfg.pixelCount before z.val)))
          ∧ p.scored = ((List.finRange 16).filter (fun z => !p.disturbed[z])).length
          ∧ p.suspect = ((List.finRange 16).filter (fun z =>
              !p.disturbed[z] && decide (p.ratios[z] < s.cfg.soiling.suspect))).length
          ∧ p.verdict = (if p.scored < 8 then .indecisive .disturbed
              else if p.contrast < s.cfg.soiling.collapse then .decisive .obscured
              else if p.suspect ≤ 1 then .decisive .clean
              else if p.suspect ≤ 4 then .decisive .watch
              else if p.suspect ≤ 9 then .decisive .soiled
              else .decisive .obscured)))
    ∧ ((∀ (lines pixels : Nat) (frame : FrameLines) (z : Fin 16) (zone : List (List Nat)) (top left h w : Nat),
      frame.length = lines → (∀ l ∈ frame, l.length = pixels) → zone = zoneLumas lines pixels frame z.val →
      top = z.val / 4 * lines / 4 → left = z.val % 4 * pixels / 4 → h = (z.val / 4 + 1) * lines / 4 - top →
      w = (z.val % 4 + 1) * pixels / 4 - left →
      zone.length = h ∧ (∀ row ∈ zone, row.length = w)
        ∧ (∀ (i j : Nat) (px : List Pixel) (p : Pixel), i < h → j < w → frame[top + i]? = some px →
            px[left + j]? = some p → (zone[i]?.getD [])[j]? = some (p.toNat / 256)))
      ∧ (∀ (zone before : List (List Nat)) (px old : Nat → Nat → Nat) (h w : Nat), zone.length = h → before.length = h →
        (∀ row ∈ zone, row.length = w) → (∀ row ∈ before, row.length = w) →
        (∀ i j, px i j = ((zone[i]?.getD [])[j]?.getD 0)) → (∀ i j, old i j = ((before[i]?.getD [])[j]?.getD 0)) →
        ∀ (total : Nat → Nat → (Nat → Nat → Nat) → Nat) (gap : Nat → Nat → Nat),
          (∀ a b f, total a b f = ((List.range a).map (fun i => ((List.range b).map (fun j => f i j)).sum)).sum) →
          (∀ a b, gap a b = max a b - min a b) →
          zoneMean zone = total h w px / (h * w)
          ∧ zoneEnergy zone = 16 * (total h (w - 1) (fun i j => gap (px i j) (px i (j + 1)))
              + total (h - 1) w (fun i j => gap (px i j) (px (i + 1) j))) / (h * (w - 1) + (h - 1) * w)
          ∧ zoneTemporal zone before = total h w (fun i j => gap (px i j) (old i j)) / (h * w))
      ∧ (∀ (s : State) (frame : FrameLines) (z : Fin 16),
        (s.zoneMeans frame)[z] = zoneMean (zoneLumas s.cfg.lineCount s.cfg.pixelCount frame z.val)
        ∧ (s.zoneEnergies frame)[z] = zoneEnergy (zoneLumas s.cfg.lineCount s.cfg.pixelCount frame z.val))
      ∧ (∀ (means : Vector Nat 16) (hi lo : Fin 16), (∀ z : Fin 16, means[z] ≤ means[hi] ∧ means[lo] ≤ means[z]) →
        brightnessOf means = (((List.finRange 16).map (fun z => means[z])).sum) / 16
        ∧ contrastOf means = means[hi] - means[lo]))

/-- A rota pass (that a confirming pass leaves the grade to a step of its own is the model's choice, log 2), and what
the engine takes at the boundary. -/
def Obligations.RotaPassCounts : Prop :=
  (∀ (s : State) (i : Input) (r : LensRecord) (frame : FrameLines), s.lens.engine = .rota i →
      s.lens.handed = some frame → s.lens.records[i] = some r →
      r.rise < s.cfg.soiling.riseConfirm → r.fall < s.cfg.soiling.fallConfirm → s.acting = true →
      ∃ t q, exec .rotaPass s = .next t ∧ t.lens.records[i] = some q
        ∧ q.due = false ∧ q.previous = some frame ∧ q.last = some (s.passOf r frame)
        ∧ q.grade = r.grade ∧ q.unbaselined = r.unbaselined ∧ q.baseline = r.baseline
        ∧ (∀ g, (s.passOf r frame).verdict = .decisive g →
            q.quiet = 0 ∧ q.decisive = true ∧ q.held = false
            ∧ (r.grade.rank < g.rank → q.rise = r.rise + 1 ∧ q.fall = 0
                ∧ q.peak = some (match r.peak with
                  | none => g
                  | some p => if p.rank < g.rank then g else p))
            ∧ (g = r.grade → q.rise = 0 ∧ q.fall = 0 ∧ q.peak = none)
            ∧ (g.rank < r.grade.rank → q.rise = 0 ∧ q.fall = r.fall + 1 ∧ q.peak = none))
        ∧ ((∀ g, (s.passOf r frame).verdict ≠ .decisive g) → q.quiet = r.quiet ∧ q.decisive = r.decisive
            ∧ q.held = r.held ∧ q.rise = r.rise ∧ q.fall = r.fall ∧ q.peak = r.peak)
        ∧ t.tables = s.tables ∧ t.engine = s.engine ∧ t.store.records = s.store.records ∧ t.confMem = s.confMem
        ∧ (q.held = r.held → t.queue = s.queue)
        ∧ (r.held = true → q.held = false → (∀ c, s.trunk.out ≠ .control c) → queueHolds t.queue (.lens i) = true))
    ∧ (∀ (s : State) (i j : Input) (r : LensRecord) (frame : FrameLines), s.lens.engine = .rota i →
      s.lens.handed = some frame → s.lens.records[i] = some r →
      (s.store.phase = .waiting → s.store.input = some j → s.inputLive j = true →
        ∃ t, exec .rotaPass s = .next t ∧ t.lens.engine = .capture j ∧ t.lens.handed = none
          ∧ t.store = { s.store with phase := .measuring }
          ∧ t.intake = { s.intake with request := some { input := j, run := true, size := 8, handed := 0 } })
      ∧ (s.store.phase ≠ .waiting → s.lens.probeWaiting = some j → s.inputLive j = true →
        ∃ t, exec .rotaPass s = .next t ∧ t.lens.engine = .probe j ∧ t.lens.probeWaiting = none ∧ t.lens.handed = none
          ∧ t.store = s.store
          ∧ t.intake = { s.intake with request := some { input := j, run := false, size := 1, handed := 0 } })
      ∧ (∀ q, s.store.phase ≠ .waiting → s.lens.probeWaiting = none → j ≠ i → s.lens.records[j] = some q → q.due = true →
        s.inputLive j = true →
        (∀ m : Input, m.val < j.val → m ≠ i → ∀ x, s.lens.records[m] = some x → x.due = false) →
        ∃ t, exec .rotaPass s = .next t ∧ t.lens.engine = .rota j ∧ t.lens.handed = none ∧ t.store = s.store
          ∧ t.intake = { s.intake with request := some { input := j, run := false, size := 1, handed := 0 } })
      ∧ (s.store.phase ≠ .waiting → s.lens.probeWaiting = none →
        (∀ m : Input, m ≠ i → ∀ x, s.lens.records[m] = some x → x.due = false) →
        ∃ t, exec .rotaPass s = .next t ∧ t.lens.engine = .free ∧ t.lens.handed = none ∧ t.store = s.store
          ∧ t.intake = s.intake))

/-- A confirmed rise, a confirmed fall, and a quiet count of 10. -/
def Obligations.GradeAndHeldMove : Prop :=
  (∀ (s : State) (i : Input) (r : LensRecord), s.lens.records[i] = some r →
      (∀ g, s.cfg.soiling.riseConfirm ≤ r.rise → r.peak = some g → g ≠ r.grade →
        exec (.gradeRise i) s = .next (refreshPins (offer (.lens i) .plain (s.setLens { s.lens with
          records := s.lens.records.set i (some { r with grade := g, rise := 0, fall := 0, peak := none }) }))))
      ∧ (∀ g, s.cfg.soiling.fallConfirm ≤ r.fall →
        ((r.grade = .obscured ∧ g = .soiled) ∨ (r.grade = .soiled ∧ g = .watch) ∨ (r.grade = .watch ∧ g = .clean)) →
        exec (.gradeFall i) s = .next (refreshPins (offer (.lens i) .plain (s.setLens { s.lens with
          records := s.lens.records.set i (some { r with grade := g, fall := 0 }) })))))
    ∧ (∀ (s : State) (i : Input) (r : LensRecord), s.lens.records[i] = some r → 10 ≤ r.quiet → r.held = false →
      exec (.quietCountFull i) s = .next (refreshPins (offer (.lens i) .plain (s.setLens { s.lens with
        records := s.lens.records.set i (some { r with held := true }) }))))

/-- A probe pass, and a frame of a capture's run (bytes in the reply and in the record: the model's choices, logs 64,
80, 79). -/
def Obligations.HandedFrameMeasured : Prop :=
  (∀ (s : State) (i : Input) (r : LensRecord) (frame : FrameLines) (k : Byte), s.lens.engine = .probe i →
      s.lens.handed = some frame → s.lens.records[i] = some r → s.service = .answer k none →
      s.store.phase ≠ .waiting → s.lens.probeWaiting = none →
      (∀ (j : Input) q, s.lens.records[j] = some q → q.due = false) →
      exec .probePass s = .next (refreshPins ((s.setService (.answer k (some (replyFrame k .accepted
        (passBytes (s.passOf r frame)))))).setLens { s.lens with engine := .free, handed := none })))
    ∧ (∀ (s : State) (i : Input) (frame : FrameLines) (sums : Vector Nat 16), s.lens.engine = .capture i →
      s.lens.handed = some frame → s.store.phase = .measuring → s.lens.probeWaiting = none →
      (∀ (j : Input) q, s.lens.records[j] = some q → q.due = false) →
      (∀ z : Fin 16, sums[z] = s.store.sums[z] + (s.zoneEnergies frame)[z]) →
      (s.cfg.soiling.darkFloor ≤ brightnessOf (s.zoneMeans frame) → s.store.held < 7 →
        exec .captureFrame s = .next (refreshPins ((s.setStore { s.store with
          held := s.store.held + 1, sums := sums }).setLens { s.lens with handed := none })))
      ∧ (s.cfg.soiling.darkFloor ≤ brightnessOf (s.zoneMeans frame) → s.store.held = 7 →
        exec .captureFrame s = .next (refreshPins ((s.setStore { s.store with
          held := 8, sums := sums, phase := .writing, writeTimer := some 0
          writing := recordBytes (sums.map (fun x => if x / 8 = 0 then 1 else x / 8)) }).setLens
            { s.lens with engine := .free, handed := none })))
      ∧ (brightnessOf (s.zoneMeans frame) < s.cfg.soiling.darkFloor →
        exec .captureFrame s = .next (refreshPins (((s.setStore { s.store with
          busy := false, done := true, phase := .none, writeTimer := none, result := .abortedDark
          writing := [] }).setIntake { s.intake with request := none }).setLens
            { s.lens with engine := .free, handed := none }))))

/-- The record write completes, or times out (which write a completion is of, which mixture a cut leaves, the byte
order: the model's choices, logs 55, 26, 79). -/
def Obligations.RecordWriteEnds : Prop :=
  (∀ (s : State) (i : Input), Settled s → Memory.wf s.confMem = true → s.store.phase = .writing →
      s.store.input = some i →
      ∃ t, exec .baselineWriteComplete s = .next t
        ∧ t.store.busy = false ∧ t.store.done = true ∧ t.store.result = .ok ∧ t.store.phase = .none
        ∧ t.store.writeTimer = none ∧ t.store.unlocked = s.store.unlocked
        ∧ memReadBytes t.confMem (recordAddress i) s.store.writing.length = s.store.writing
        ∧ (∀ a, a < recordAddress i ∨ recordAddress i + s.store.writing.length ≤ a →
            memRead t.confMem a = memRead s.confMem a)
        ∧ Memory.wf t.confMem = true
        ∧ (s.store.kind = .capture → ∀ r, s.lens.records[i] = some r →
            t.store.records = s.store.records.set i (some { valid := true, values := recordValues s.store.writing })
            ∧ t.lens = { s.lens with records := s.lens.records.set i (some { r with
                baseline := recordValues s.store.writing, unbaselined := false, rise := 0, fall := 0, peak := none }) }
            ∧ (s.acting = true → (∀ c, s.trunk.out ≠ .control c) → queueHolds t.queue (.lens i) = true))
        ∧ (s.store.kind ≠ .capture → t.store.records = s.store.records ∧ t.lens = s.lens ∧ t.queue = s.queue)
        ∧ t.tables = s.tables ∧ t.engine = s.engine ∧ t.intake = s.intake)
    ∧ (∀ (s : State) (i : Input) (w : Nat), OnClock s → Memory.wf s.confMem = true → s.store.phase = .writing →
      s.store.input = some i → s.store.writeTimer = some w → 50000 ≤ w →
      ∃ t, exec .baselineWriteTimeout s = .next t
        ∧ t.store.busy = false ∧ t.store.done = true ∧ t.store.result = .timeout ∧ t.store.phase = .none
        ∧ (∀ a, a < recordAddress i ∨ recordAddress i + s.store.writing.length ≤ a →
            memRead t.confMem a = memRead s.confMem a)
        ∧ (∀ (k : Nat) (b : Byte), s.store.writing[k]? = some b → ∃ mask : Byte,
            memRead t.confMem (recordAddress i + k)
              = (b &&& mask) ||| (memRead s.confMem (recordAddress i + k) &&& ~~~mask))
        ∧ (memReadBytes t.confMem (recordAddress i) s.store.writing.length = s.store.writing
            ∨ memReadBytes t.confMem (recordAddress i) s.store.writing.length
                = memReadBytes s.confMem (recordAddress i) s.store.writing.length
            ∨ recordValid (memReadBytes t.confMem (recordAddress i) s.store.writing.length) = false)
        ∧ (s.store.kind = .capture → ∀ r, s.lens.records[i] = some r →
            (∃ v, t.store.records[i] = some v ∧ v.valid = false)
            ∧ t.lens = { s.lens with records := s.lens.records.set i (some { r with
                baseline := s.cfg.soiling.baseline, unbaselined := true }) })
        ∧ (s.store.kind ≠ .capture → t.store.records = s.store.records ∧ t.lens = s.lens)
        ∧ t.tables = s.tables ∧ t.engine = s.engine ∧ t.intake = s.intake)

/-- The UNLOCK sequence and its timers (a step 1 with SERVICE not asserted, and the check bytes of the reply: the
model's, logs 72, 64). -/
def Obligations.UnlockSequenceAndTimers : Prop :=
  (∀ (s : State) (step : Byte) (b : BaselineStore) (st : ReplyStatus), Settled s → s.acting = true →
      (∀ k r, s.service ≠ .answer k r) →
      (b, st) = (if s.levels.service = false then
            ({ s.store with progress := .none, stepTimer := none }, ReplyStatus.restarted)
          else if step = 0x01#8 then ({ s.store with progress := .step1, stepTimer := some 2000000 }, .accepted)
          else if step = 0x02#8 ∧ s.store.progress = .step1 then
            ({ s.store with progress := .step2, stepTimer := some 2000000 }, .accepted)
          else if step = 0x03#8 ∧ s.store.progress = .step2 then
            ({ s.store with progress := .none, stepTimer := none, unlocked := true, lifeTimer := some 30000000 },
              .accepted)
          else ({ s.store with progress := .none, stepTimer := none }, .restarted)) →
      exec (.unlock step) s = .next (refreshPins ((s.setStore b).setService
        (.answer 0x05#8 (some (replyFrame 0x05#8 st []))))))
    ∧ (∀ s : State,
      (OnClock s → s.store.stepTimer = some 0 → exec .unlockStepTimeout s =
        .next (refreshPins (s.setStore { s.store with progress := .none, stepTimer := none })))
      ∧ (OnClock s → s.store.lifeTimer = some 0 → exec .unlockedLifeExpiry s =
        .next (refreshPins (s.setStore { s.store with unlocked := false, lifeTimer := none })))
      ∧ (Settled s → s.acting = true → (s.store.progress = .step1 ∨ s.store.progress = .step2) → exec .serviceLineDeassert s =
        .next (refreshPins ((s.setLevels { s.levels with service := false }).setStore
          { s.store with progress := .none, stepTimer := none }))))

/-- The CAPTURE and CLEAR requests (that a CLEAR too sets frames held and sums to 0 is the model's choice, log 44; check
bytes of the reply: log 64). -/
def Obligations.CaptureAndClearRequests : Prop :=
  ∀ (s : State) (byteIn : Byte), Settled s → s.acting = true → (∀ k r, s.service ≠ .answer k r) →
    ((∀ i : Input, byteIn = byte i.val → s.cfg.cams[i] = none) →
      exec (.capture byteIn) s = .next (refreshPins (s.setService
        (.answer 0x06#8 (some (replyFrame 0x06#8 .badCamera [])))))
      ∧ exec (.clear byteIn) s = .next (refreshPins (s.setService
        (.answer 0x07#8 (some (replyFrame 0x07#8 .badCamera []))))))
    ∧ (∀ i : Input, byteIn = byte i.val → s.cfg.cams[i] ≠ none →
      (∀ st, st = (if s.store.unlocked = false then ReplyStatus.locked else if s.store.busy = true then .busy
            else if s.inputLive i = false then .notLive else .accepted) → st ≠ .accepted →
        exec (.capture byteIn) s = .next (refreshPins (s.setService
          (.answer 0x06#8 (some (replyFrame 0x06#8 st []))))))
      ∧ (∀ st, st = (if s.store.unlocked = false then ReplyStatus.locked else if s.store.busy = true then .busy
            else .accepted) → st ≠ .accepted →
        exec (.clear byteIn) s = .next (refreshPins (s.setService
          (.answer 0x07#8 (some (replyFrame 0x07#8 st []))))))
      ∧ (s.store.unlocked = true → s.store.busy = false → s.inputLive i = true → s.lens.engine ≠ .free →
        exec (.capture byteIn) s = .next (refreshPins ((s.setStore { s.store with
            unlocked := false, lifeTimer := none, busy := true, done := false, kind := .capture, input := some i
            phase := .waiting, held := 0, sums := Vector.replicate 16 0, writeTimer := none
            result := .none }).setService (.answer 0x06#8 (some (replyFrame 0x06#8 .accepted []))))))
      ∧ (s.store.unlocked = true → s.store.busy = false → s.inputLive i = true → s.lens.engine = .free →
        exec (.capture byteIn) s = .next (refreshPins ((((s.setStore { s.store with
            unlocked := false, lifeTimer := none, busy := true, done := false, kind := .capture, input := some i
            phase := .measuring, held := 0, sums := Vector.replicate 16 0, writeTimer := none
            result := .none }).setLens { s.lens with engine := .capture i, handed := none }).setIntake { s.intake with
              request := some { input := i, run := true, size := 8, handed := 0 } }).setService
                (.answer 0x06#8 (some (replyFrame 0x06#8 .accepted []))))))
      ∧ (∀ r, s.store.unlocked = true → s.store.busy = false → s.lens.records[i] = some r →
        ∃ t, exec (.clear byteIn) s = .next t
          ∧ t.store = { s.store with
              records := s.store.records.set i (some { valid := false, values := Vector.replicate 16 0 })
              unlocked := false, lifeTimer := none, busy := true, done := false, kind := .clear, input := some i
              phase := .writing, held := 0, sums := Vector.replicate 16 0, writeTimer := some 0, result := .none
              writing := recordBytes (Vector.replicate 16 0) }
          ∧ t.lens = { s.lens with records := s.lens.records.set i (some { r with
              baseline := s.cfg.soiling.baseline, unbaselined := true }) }
          ∧ t.service = .answer 0x07#8 (some (replyFrame 0x07#8 .accepted []))
          ∧ t.tables = s.tables ∧ t.confMem = s.confMem ∧ t.engine = s.engine
          ∧ (r.unbaselined = true → t.queue = s.queue)))

/-- An accepted change of CAB_ON (DRIVER layouts, WANT refresh count and WANT offer on leaving ACTIVE: the model's
choices, logs 51, 54, 62; so is the 0 of the stopped linger timers, log 83). -/
def Obligations.CabSwitchAccepted : Prop :=
  ∀ (s : State) (on : Bool) (f : LineFilter), OnClock s → s.acting = true → s.isCab = true →
    s.levels.cabOn = on → s.cab.cabOn.accepted = !on → s.cfg.filterTime ≤ s.cab.cabOn.differ →
    f = { s.cab.cabOn with accepted := on, differ := 0 } → (∀ c, s.trunk.out ≠ .control c) →
    (on = true → s.cab.state = .idle → exec .cabOnAccepted s = .next (refreshPins (offer .cab .take
      (s.setCab { s.cab with cabOn := f, state := .taking }))))
    ∧ (on = false → s.cab.state = .taking → exec .cabOnAccepted s = .next (refreshPins
      ((s.setCab { s.cab with cabOn := f, state := .idle }).setQueue (s.queue.filter (fun e => e.subject != .cab)))))
    ∧ (on = false → s.cab.state = .blocked → exec .cabOnAccepted s = .next (refreshPins
      (s.setCab { s.cab with cabOn := f, state := .idle })))
    ∧ (on = false → s.cab.state = .active → exec .cabOnAccepted s = .next (refreshPins (offer .cab .leave
      ((s.setCab { s.cab with cabOn := f, state := .idle }).setComp { s.comp with
        left := Screen.reset, right := Screen.reset, spotlight := [], carry := [], wantList := [], wantRefresh := 0
        refusals := [] }))))

/-- The station's own CAB TAKE has been transmitted. -/
def Obligations.OwnTakeSettlesCab : Prop :=
  ∀ (s : State) (c : Sending) (kb eb : Byte) (e : TramEnd), Settled s → s.acting = true → s.isCab = true →
    s.trunk.out = .control c → c.subject = .cab → c.kind = .take → c.again = none →
    c.frame.addr = s.addr → c.frame.tag = s.cfg.tag → c.frame.body = .cab kb eb → cabContent kb eb = some (true, e) →
    s.cab.state = .taking →
    ((s.tables.cabRecord = none ∨ ∃ x, s.tables.cabRecord = some { addr := s.addr, tag := s.cfg.tag, cabEnd := x }) →
      ∃ t, exec (.controlFrameSent c.bytes) s = .next t ∧ t.cab.state = .active
        ∧ t.tables.cabRecord = some { addr := s.addr, tag := s.cfg.tag, cabEnd := e }
        ∧ t.trunk.framesSent = s.trunk.framesSent + 1#16 ∧ t.trunk.consecClash = 0)
    ∧ (∀ r, s.tables.cabRecord = some r → r.addr ≠ s.addr →
      ∃ t, exec (.controlFrameSent c.bytes) s = .next t ∧ t.cab.state = .blocked ∧ t.tables.cabRecord = some r
        ∧ t.trunk.framesSent = s.trunk.framesSent + 1#16 ∧ t.trunk.consecClash = 0)

/-- An accepted change of REVERSE judges the views, and how a view is raised. -/
def Obligations.ReverseJudgesViews : Prop :=
  (∀ (s : State) (f : LineFilter), OnClock s → s.acting = true → s.isCab = true →
      s.levels.reverse ≠ s.cab.reverse.accepted → s.cfg.filterTime ≤ s.cab.reverse.differ →
      f = { s.cab.reverse with accepted := s.levels.reverse, differ := 0 } →
      (s.cab.state ≠ .active → exec .reverseAccepted s = .next (refreshPins (s.setCab { s.cab with reverse := f })))
      ∧ (s.cab.state = .active → ∃ t, exec .reverseAccepted s = .next t
        ∧ t.beside = (s.setCab { s.cab with reverse := f }).beside ∧ t.cab.state = .active ∧ t.engine = s.engine
        ∧ ∀ side : Side,
            (listHolds (t.screen side).list .reverse = true ↔
              s.levels.reverse = true ∧ s.cfg.views.choice.names side = true)
            ∧ (listHolds (t.screen side).list .closing = true ↔
              ∃ d ∈ t.doorsOn side, d.phase = .closing ∨ d.phase = .fault)
            ∧ (listHolds (t.screen side).list .release = true ↔
              ∃ d ∈ t.doorsOn side, d.phase = .released ∨ d.phase = .opened)
            ∧ (listHolds (t.screen side).list .spotlight = true ↔
              ∃ d ∈ t.comp.spotlight, (t.doorSide d.door).isOn side = true)))
    ∧ (∀ (s : State) (side : Side) (k : ViewKind),
      (listHolds (s.screen side).list k = true → raise side k s = s)
      ∧ (listHolds (s.screen side).list k = false → listHolds ((raise side k s).screen side).list k = true
        ∧ (∀ j, shownKind (s.screen side).list = some j →
            shownKind ((raise side k s).screen side).list =
              if ((s.cfg.views.get j).mask.getLsbD k.code = true ∧ (s.cfg.views.get k).rank < (s.cfg.views.get j).rank)
              then some k else some j)
        ∧ (∀ j, shownKind (s.screen side).list = none → (s.screen side).linger = some j →
            ((j = k ∨ ((s.cfg.views.get j).mask.getLsbD k.code = true
                ∧ (s.cfg.views.get k).rank < (s.cfg.views.get j).rank)) →
              shownKind ((raise side k s).screen side).list = some k ∧ ((raise side k s).screen side).linger = none)
            ∧ (¬(j = k ∨ ((s.cfg.views.get j).mask.getLsbD k.code = true
                ∧ (s.cfg.views.get k).rank < (s.cfg.views.get j).rank)) →
              shownKind ((raise side k s).screen side).list = none
                ∧ ((raise side k s).screen side).linger = some j))))

/-- The Composer's linger timers, carry ages and stale counts. -/
def Obligations.ComposerTimers : Prop :=
  (∀ (s : State) (side : Side) (e : Request) (rest : List Request), OnClock s → s.cab.state = .active →
      (s.screen side).linger ≠ none → (s.screen side).lingerTimer = 0 → (s.screen side).list = e :: rest →
      ∃ t, exec (.lingerExpiry side) s = .next t ∧ t.beside = s.beside ∧ t.engine = s.engine ∧ t.cab = s.cab
        ∧ (t.screen side).linger = none ∧ (t.screen side).spotDoor = s.spotDoorOn side
        ∧ (t.screen side).list = (e :: rest).map (fun x => { x with shown := x.kind == e.kind }))
    ∧ (∀ s : State,
      (s.acting = true → s.cab.state = .active → (∃ e ∈ s.comp.carry, 40 ≤ e.age) → (∀ c, s.trunk.out ≠ .control c) →
        ∃ t, exec .carryEntryExpiry s = .next t
          ∧ t.beside = s.beside ∧ t.cab = s.cab ∧ t.engine = s.engine
          ∧ t.comp.carry = s.comp.carry.filter (fun e => decide (e.age < 40) && s.comp.keepsCarry e)
          ∧ t.comp.wantList = t.comp.buildWant
          ∧ (t.comp.wantList = s.comp.wantList → t.queue = s.queue)
          ∧ (t.comp.wantList ≠ s.comp.wantList → queueHolds t.queue .want = true))
      ∧ (∀ (side : Side) (k : Nat) (p : Pane), (s.screen side).panes[k]? = some p → p.bound.isSome = true →
        80 ≤ p.stale → p.state = .live →
        exec (.paneStale side k) s = .next (refreshPins (s.setScreen side { s.screen side with
          panes := (s.screen side).panes.set k { p with state := .stale } }))))

/-- The driver keys (that a filter below its limit gives nothing is the model's choice, log 3). -/
def Obligations.KeysAccepted : Prop :=
  (∀ (s : State) (f : LineFilter), OnClock s → s.acting = true → s.isCab = true → s.levels.ack = true →
      s.cab.ack.accepted = false → s.cfg.filterTime ≤ s.cab.ack.differ →
      f = { s.cab.ack with accepted := true, differ := 0 } →
      ((s.cab.state ≠ .active ∨ s.comp.ackDoor = none) →
        exec .ackPress s = .next (refreshPins (s.setCab { s.cab with ack := f })))
      ∧ (∀ d, s.cab.state = .active → s.comp.ackDoor = some d →
        (phaseIn s.tables.doors d.door = some .obstructed →
          exec .ackPress s = .next (refreshPins ((s.setCab { s.cab with ack := f }).setComp { s.comp with
            spotlight := s.comp.spotlight.map (fun x => if x.door = d.door then { x with acked := true } else x) })))
        ∧ (phaseIn s.tables.doors d.door ≠ some .obstructed → ∃ t, exec .ackPress s = .next t
          ∧ t.beside = (s.setCab { s.cab with ack := f }).beside
          ∧ t.comp.spotlight = s.comp.spotlight.filter (fun x => x.door != d.door))))
    ∧ (∀ (s : State) (side : Side) (key : Key) (f : LineFilter), OnClock s → s.acting = true → s.isCab = true →
      key = (match side with
        | .left => .nextL
        | .right => .nextR) →
      s.levels.key key = true → (s.cab.key key).accepted = false → s.cfg.filterTime ≤ (s.cab.key key).differ →
      f = { s.cab.key key with accepted := true, differ := 0 } →
      ((s.cab.state ≠ .active ∨ shownKind (s.screen side).list ≠ some .driver) →
        exec (.nextKeyPress side) s = .next (refreshPins (s.setCab (s.cab.setKey key f))))
      ∧ (∀ i j : Fin 16, s.cab.state = .active → shownKind (s.screen side).list = some .driver →
        (s.screen side).driverLayout = .index i → i ≠ j → s.selectableOn side j = true →
        (∀ m : Fin 16, m ≠ i → (m.val + 16 - i.val) % 16 < (j.val + 16 - i.val) % 16 → s.selectableOn side m = false) →
        ∃ t, exec (.nextKeyPress side) s = .next t ∧ t.beside = (s.setCab (s.cab.setKey key f)).beside
          ∧ (t.screen side).driverLayout = .index j ∧ (t.screen side).list = (s.screen side).list)
      ∧ (∀ i : Fin 16, s.cab.state = .active → shownKind (s.screen side).list = some .driver →
        (s.screen side).driverLayout = .index i → (∀ j : Fin 16, j ≠ i → s.selectableOn side j = false) →
        exec (.nextKeyPress side) s = .next (refreshPins (s.setCab (s.cab.setKey key f))))
      ∧ (∀ j : Fin 16, s.cab.state = .active → shownKind (s.screen side).list = some .driver →
        (∀ i, (s.screen side).driverLayout ≠ .index i) → s.selectableOn side j = true →
        (∀ m : Fin 16, m.val < j.val → s.selectableOn side m = false) →
        ∃ t, exec (.nextKeyPress side) s = .next t ∧ t.beside = (s.setCab (s.cab.setKey key f)).beside
          ∧ (t.screen side).driverLayout = .index j ∧ (t.screen side).list = (s.screen side).list)
      ∧ (s.cab.state = .active → shownKind (s.screen side).list = some .driver →
        (∀ i, (s.screen side).driverLayout ≠ .index i) → (∀ j : Fin 16, s.selectableOn side j = false) →
        exec (.nextKeyPress side) s = .next (refreshPins (s.setCab (s.cab.setKey key f)))))
    ∧ (∀ (s : State) (k : Key), OnClock s → s.acting = true → s.isCab = true → s.levels.key k = false →
      (s.cab.key k).accepted = true →
      (s.cfg.filterTime ≤ (s.cab.key k).differ → exec (.driverKeyReleaseAccepted k) s = .next (refreshPins
        (s.setCab (s.cab.setKey k { s.cab.key k with accepted := false, differ := 0 }))))
      ∧ ((s.cab.key k).differ < s.cfg.filterTime → exec (.driverKeyReleaseAccepted k) s = .next (refreshPins s)))

/-- A door that becomes OBSTRUCTED joins the spotlight queue. -/
def Obligations.ObstructedDoorJoinsSpotlight : Prop :=
  ∀ (s : State) (rx : ControlRx) (f : ControlFrame) (cb pb : Byte) (c : Chan) (e : RosterEntry) (id : DoorId),
    Settled s → readControl rx = .frame f → f.body = .door cb pb → s.admits f.addr f.tag →
    doorContent cb pb = some (c, .obstructed) → id = { addr := f.addr, chan := c } →
    s.tables.roster[f.addr] = some e → e.tag = f.tag → e.presence = .present →
    s.isCab = true → s.cab.state = .active → (∃ p, phaseIn s.tables.doors id = some p ∧ p ≠ .obstructed) →
    (s.tables.doors.map (fun d => d.id)).Nodup → (∀ d ∈ s.comp.spotlight, d.acked = false ∧ d.door ≠ id
      ∧ phaseIn s.tables.doors d.door ≠ none) →
    ∃ t, exec (.doorFrameReceived rx) s = .next t
      ∧ (s.comp.spotlight.length < 8 → t.comp.spotlight = s.comp.spotlight ++ [{ door := id, acked := false }]
          ∧ t.comp.spotlightOverflows = s.comp.spotlightOverflows)
      ∧ (8 ≤ s.comp.spotlight.length → t.comp.spotlight = s.comp.spotlight
          ∧ t.comp.spotlightOverflows = s.comp.spotlightOverflows + 1#16)

/-- How a pane's pictures open, go on and end, what a HOLD tile does, and which stream a pane is bound to next (a band 0
of another number, the last flag, and the slot's filter: the model's reading, logs 23, 46, 78). -/
def Obligations.PaneTakesStream : Prop :=
  (∀ (p : Pane) (a : Assembly) (cls : SizeClass),
      (a.missing cls = ((List.range cls.bands).filter (fun k => !a.bands.any (fun x => x.1 == k))).length)
      ∧ (4 * a.missing cls ≤ cls.bands → (a.missing cls = 0 ∨ p.display ≠ none) →
        (p.endPicture a cls).swaps = 1 ∧ (p.endPicture a cls).patched = a.missing cls ∧ (p.endPicture a cls).discarded = 0
        ∧ (p.endPicture a cls).pane.assembly = none ∧ (p.endPicture a cls).pane.stale = 0
        ∧ (p.endPicture a cls).pane.bound = p.bound
        ∧ ∃ d, (p.endPicture a cls).pane.display = some d ∧ d.length = cls.bands
          ∧ ∀ k, k < cls.bands → (∀ b, a.band k = some b → d[k]? = some b)
            ∧ (∀ old b, a.band k = none → p.display = some old → old[k]? = some b → d[k]? = some b))
      ∧ (¬(4 * a.missing cls ≤ cls.bands ∧ (a.missing cls = 0 ∨ p.display ≠ none)) →
        p.endPicture a cls = { pane := { p with assembly := none }, swaps := 0, patched := 0, discarded := 1 })
      ∧ (∀ (id : StreamId) (h : TileHeader) (payload : List Byte), p.candidate = some id → h.picture = true →
        p.candidatePicture = some a → a.seq = h.seq → (a.hold h.band payload).missing id.cls = 0 →
        ∃ d, p.takeTile id h payload = 
            { pane := { p with display := some d, bound := some (id, .plain), assembly := none, stale := 0,
                               candidate := none, candidatePicture := none }, swaps := 1, patched := 0, discarded := 0 }
          ∧ d.length = id.cls.bands ∧ ∀ k b, k < id.cls.bands → (a.hold h.band payload).band k = some b → d[k]? = some b))
    ∧ (∀ (p : Pane) (id : StreamId) (h : TileHeader) (payload : List Byte), h.picture = false →
      (p.candidate ≠ some id →
        (∀ a, p.assembly = some a → p.takeTile id h payload
          = { pane := { p with assembly := none }, swaps := 0, patched := 0, discarded := 1 })
        ∧ (p.assembly = none → p.takeTile id h payload = { pane := p, swaps := 0, patched := 0, discarded := 0 }))
      ∧ (p.candidate = some id →
        (∀ a, p.candidatePicture = some a → p.takeTile id h payload
          = { pane := { p with candidatePicture := none }, swaps := 0, patched := 0, discarded := 1 })
        ∧ (p.candidatePicture = none → p.takeTile id h payload = { pane := p, swaps := 0, patched := 0, discarded := 0 })))
    ∧ (∀ (p : Pane) (available : List StreamId) (fits : StreamId → Prop),
      (∀ x, fits x ↔ x ∈ available ∧ p.result = .cam { addr := x.addr, input := x.input } ∧ x.cls.rank ≤ p.cls.rank
        ∧ p.floor.rank ≤ x.cls.rank) →
      ((∀ c, p.result ≠ .cam c) → p.judge available = p)
      ∧ (∀ c, p.result = .cam c → p.bound = none →
        (p.judge available).bound = none
        ∧ (∀ x, (p.judge available).candidate = some x → fits x
            ∧ ∀ y, fits y → y.cls.rank < x.cls.rank ∨ (y.cls = x.cls ∧ x.num.val ≤ y.num.val))
        ∧ ((p.judge available).candidate = none ↔ ∀ x, ¬ fits x))
      ∧ (∀ c b, p.result = .cam c → p.bound = some (b, .plain) → b ∈ available →
        (p.judge available).bound = p.bound ∧ (p.judge available).display = p.display
        ∧ (∀ x, (p.judge available).candidate = some x → fits x ∧ b.cls.rank < x.cls.rank)
        ∧ ((p.judge available).candidate = none ↔ ∀ x, fits x → x.cls.rank ≤ b.cls.rank))
      ∧ (∀ c b m, p.result = .cam c → p.bound = some (b, m) → b ∉ available → (∀ x, ¬ fits x) →
        p.candidate = none → m ≠ .ended →
        (p.judge available).bound = none ∧ (p.judge available).display = none ∧ (p.judge available).assembly = none
          ∧ (p.judge available).candidate = none))
    ∧ ((∀ (p : Pane) (id : StreamId) (h : TileHeader) (payload : List Byte) (one : Assembly), h.picture = true →
      one = { seq := h.seq, bands := [(h.band, payload)] } → p.candidate ≠ some id →
      (p.assembly = none → p.takeTile id h payload =
          if h.last = true then p.endPicture one id.cls
          else { pane := { p with assembly := some one }, swaps := 0, patched := 0, discarded := 0 })
      ∧ (∀ a, p.assembly = some a → a.seq = h.seq →
          (a.hold h.band payload).seq = a.seq
          ∧ (∀ k, (a.hold h.band payload).band k = if k = h.band then some payload else a.band k)
          ∧ p.takeTile id h payload =
              if h.last = true then p.endPicture (a.hold h.band payload) id.cls
              else { pane := { p with assembly := some (a.hold h.band payload) }, swaps := 0, patched := 0
                     discarded := 0 })
      ∧ (∀ a x y, p.assembly = some a → a.seq ≠ h.seq → x = p.endPicture a id.cls →
          y = x.pane.endPicture one id.cls →
          p.takeTile id h payload =
            if h.last = true then { pane := y.pane, swaps := x.swaps + y.swaps, patched := x.patched + y.patched
                                    discarded := x.discarded + y.discarded }
            else { x with pane := { x.pane with assembly := some one } }))
      ∧ (∀ (p : Pane) (id : StreamId) (h : TileHeader) (payload : List Byte) (opened : Option Assembly), h.picture = true →
        opened = (if h.band = 0 then some { seq := h.seq, bands := [(0, payload)] } else none) → p.candidate = some id →
        (p.candidatePicture = none → p.takeTile id h payload
          = { pane := { p with candidatePicture := opened }, swaps := 0, patched := 0, discarded := 0 })
        ∧ (∀ a, p.candidatePicture = some a → a.seq ≠ h.seq → p.takeTile id h payload
          = { pane := { p with candidatePicture := opened }, swaps := 0, patched := 0, discarded := 1 })
        ∧ (∀ a, p.candidatePicture = some a → a.seq = h.seq → (a.hold h.band payload).missing id.cls ≠ 0 →
          p.takeTile id h payload = if h.last = true then
              { pane := { p with candidatePicture := none }, swaps := 0, patched := 0, discarded := 1 }
            else { pane := { p with candidatePicture := some (a.hold h.band payload) }, swaps := 0, patched := 0
                   discarded := 0 }))
      ∧ (∀ (s : State) (n : Slot) (id : StreamId), (s.tileFilter n).slot = n
        ∧ (id ∈ (s.tileFilter n).streams ↔ ∃ side, ∃ p ∈ (s.screen side).panes,
            p.candidate = some id ∨ p.bound = some (id, .plain) ∨ p.bound = some (id, .carried)))
      ∧ (∀ (s t : State) (f : TileFilter) (h : TileHeader) (payload : List Byte), s.cab.state = .active →
        t = composerTile f h payload s →
        (h.streamId ∉ f.streams → t = s)
        ∧ (h.streamId ∈ f.streams → ∀ (side : Side) (k : Nat) (p : Pane) (takes : Prop), (s.screen side).panes[k]? = some p →
            (takes ↔ p.candidate = some h.streamId ∨ p.bound = some (h.streamId, .plain)
              ∨ p.bound = some (h.streamId, .carried)) →
            ∃ q, (t.screen side).panes[k]? = some q
              ∧ (¬ takes → q = { p with state := q.state })
              ∧ (takes → (p.takeTile h.streamId h payload).pane.bound = p.bound →
                  q = { (p.takeTile h.streamId h payload).pane with state := q.state }))))

/-- A power-on reset and the RESET line hold the station (registers without a reset value, a cut record, no due step
first: the model's choices, logs 7, 51, 83, 26, 56). -/
def Obligations.ResetsHoldTheStation : Prop :=
  ∀ s : State,
    (∃ t, exec .powerOnReset s = .next t
      ∧ t = { State.reset with
          boot := { State.reset.boot with resetLine := s.boot.resetLine }, now := s.now, levels := s.levels
          confMem := t.confMem, free := t.free, pending := s.pending }
      ∧ (s.store.phase ≠ .writing → t.confMem = s.confMem)
      ∧ (∀ i, Memory.wf s.confMem = true → s.store.phase = .writing → s.store.input = some i →
        (∀ a, a < recordAddress i ∨ recordAddress i + s.store.writing.length ≤ a →
            memRead t.confMem a = memRead s.confMem a)
        ∧ (∀ (k : Nat) (b : Byte), s.store.writing[k]? = some b → ∃ mask : Byte,
            memRead t.confMem (recordAddress i + k)
              = (b &&& mask) ||| (memRead s.confMem (recordAddress i + k) &&& ~~~mask))
        ∧ (memReadBytes t.confMem (recordAddress i) s.store.writing.length = s.store.writing
            ∨ memReadBytes t.confMem (recordAddress i) s.store.writing.length
                = memReadBytes s.confMem (recordAddress i) s.store.writing.length
            ∨ recordValid (memReadBytes t.confMem (recordAddress i) s.store.writing.length) = false)))
    ∧ (∃ t, exec .resetLine s = .next t
      ∧ t = { State.reset with
          boot := { State.reset.boot with
            powerOn := s.boot.powerOn, resetLine := true, powerSinceRead := s.boot.powerSinceRead
            startCause := if s.boot.powerSinceRead = true then .power else .line }
          now := s.now, levels := s.levels, confMem := t.confMem, free := t.free, pending := s.pending }
      ∧ (s.store.phase ≠ .writing → t.confMem = s.confMem)
      ∧ (∀ i, Memory.wf s.confMem = true → s.store.phase = .writing → s.store.input = some i →
        (∀ a, a < recordAddress i ∨ recordAddress i + s.store.writing.length ≤ a →
            memRead t.confMem a = memRead s.confMem a)
        ∧ (∀ (k : Nat) (b : Byte), s.store.writing[k]? = some b → ∃ mask : Byte,
            memRead t.confMem (recordAddress i + k)
              = (b &&& mask) ||| (memRead s.confMem (recordAddress i + k) &&& ~~~mask))
        ∧ (memReadBytes t.confMem (recordAddress i) s.store.writing.length = s.store.writing
            ∨ memReadBytes t.confMem (recordAddress i) s.store.writing.length
                = memReadBytes s.confMem (recordAddress i) s.store.writing.length
            ∨ recordValid (memReadBytes t.confMem (recordAddress i) s.store.writing.length) = false)))
    ∧ State.reset.pins = { fault := true, lensLamp := false, viewOkL := false, viewOkR := false, picture := .none
                           screen0 := none, screen1 := none }
    ∧ (s.boot.phase = .held → exec .resetReleased s = .next (refreshPins (s.setBoot { s.boot with
        phase := .reading, powerOn := false, resetLine := false, readTimer := 0 })))
    ∧ (s.boot.phase ≠ .held → exec .resetReleased s = .next (refreshPins s))

/-- The end of the start read (byte order in the configuration memory: the model's choice, log 79). -/
def Obligations.StartReadEnds : Prop :=
  ∀ (s : State) (img : List Byte), s.boot.phase = .reading → img = readImage s.confMem →
    (imageCause img ≠ .none →
      exec .startReadEnd s = .next (refreshPins ((s.setBoot { s.boot with
          phase := .started, powerSinceRead := false, inertCause := imageCause img, readTimer := 0
          startCause := if s.boot.powerSinceRead = true then .power else .line }).setTrunk
        { Trunk.reset with state := .inert, timer := 5300 })))
    ∧ (imageCause img = .none →
      ∃ t e, exec .startReadEnd s = .next t ∧ t.cfg = settingsOf img
        ∧ t.boot = { s.boot with
            phase := .started, powerSinceRead := false, inertCause := .none, readTimer := 0
            startCause := if s.boot.powerSinceRead = true then .power else .line }
        ∧ t.addr.val = t.cfg.localNo.val
        ∧ t.trunk = { Trunk.reset with state := .listen, timer := 5000 + 20 * t.addr.val }
        ∧ t.tables.roster = (Vector.replicate 16 none).set t.addr (some e)
        ∧ e.presence = .present ∧ e.tag = t.cfg.tag ∧ e.localNo = t.cfg.localNo ∧ e.role = t.cfg.role ∧ e.age = 0
        ∧ t.tables.slots = Vector.replicate 24 SlotEntry.free ∧ t.tables.foreign = []
        ∧ (∀ (i : Input) (r : LensRecord), t.lens.records[i] = some r →
            r.grade = .clean ∧ r.held = true ∧ r.quiet = 10 ∧ r.rise = 0 ∧ r.fall = 0 ∧ r.due = false ∧ r.previous = none
            ∧ ∃ b, t.store.records[i] = some b ∧ r.unbaselined = !b.valid
              ∧ r.baseline = if b.valid = true then b.values else t.cfg.soiling.baseline)
        ∧ (∀ i : Input, (t.cfg.cams[i] = none ↔ t.lens.records[i] = none)
            ∧ (t.cfg.cams[i] = none ↔ t.intake.inputs[i] = none)
            ∧ ∀ r, t.intake.inputs[i] = some r → r.state = .absent ∧ r.newest = none)
        ∧ t.store.unlocked = false ∧ t.store.busy = false ∧ t.lens.engine = .free
        ∧ (∀ c : Chan, t.cfg.doors[c] = none ↔ t.channels[c] = none)
        ∧ (∀ (c : Chan) (ch : Channel), t.channels[c] = some ch →
            ch.rel.accepted = (s.levels.door[c]).rel ∧ ch.shut.accepted = (s.levels.door[c]).shut
            ∧ ch.edge.accepted = (s.levels.door[c]).edge
            ∧ (if (s.levels.door[c]).shut = true ∧ (s.levels.door[c]).rel = false then
                ch.phase = .locked ∧ ch.settled = true ∧ queueHolds t.queue (.door c) = true
              else ch.phase = .unknown ∧ ch.settled = false)))

/-- Characters of the service line (a start byte with a bad stop bit, a gap of 20 ms or less, the order of the check
bytes: the model's choices, logs 37, 3, 64). -/
def Obligations.ServiceCharacters : Prop :=
  ∀ (s : State) (b : Byte), Settled s → s.boot.phase = .started →
    (s.service = .hunt → ∀ stop : Bool, exec (.serviceByte b stop) s =
      .next (refreshPins (if stop = true ∧ b = 0x5A#8 then s.setService (.receive [] 0) else s)))
    ∧ (∀ k r (stop : Bool), s.service = .answer k r → exec (.serviceByte b stop) s = .next (refreshPins s))
    ∧ (∀ bytes gap, s.service = .receive bytes gap → gap ≤ 20000 →
      (exec (.serviceByte b false) s = .next (refreshPins (s.setService .hunt)))
      ∧ (bytes.length < 2 → exec (.serviceByte b true) s = .next (refreshPins (s.setService (.receive (bytes ++ [b]) 0))))
      ∧ (∀ k hi lo rest, bytes ++ [b] = k :: hi :: lo :: rest →
          (16 < (joinBytes hi lo).toNat → exec (.serviceByte b true) s = .next (refreshPins (s.setService .hunt)))
          ∧ ((joinBytes hi lo).toNat ≤ 16 → rest.length < (joinBytes hi lo).toNat + 2 →
              exec (.serviceByte b true) s = .next (refreshPins (s.setService (.receive (k :: hi :: lo :: rest) 0))))
          ∧ ((joinBytes hi lo).toNat ≤ 16 → rest.length = (joinBytes hi lo).toNat + 2 →
              rest.drop (joinBytes hi lo).toNat
                ≠ wordBytes (crc16 (k :: hi :: lo :: rest.take (joinBytes hi lo).toNat)) →
              exec (.serviceByte b true) s = .next (refreshPins (s.setService
                (.answer 0x00#8 (some (replyFrame 0x00#8 .badRequest []))))))
          ∧ (k = 0x01#8 → hi = 0x00#8 → lo = 0x00#8 → rest = wordBytes (crc16 [k, hi, lo]) →
              exec (.serviceByte b true) s = exec .status s)))
    ∧ (∀ u bytes gap, OnClock u → u.boot.phase = .started → u.service = .receive bytes gap →
      (20000 < gap → exec .serviceByteTimeout u = .next (refreshPins (u.setService .hunt)))
      ∧ (gap ≤ 20000 → exec .serviceByteTimeout u = .next (refreshPins u)))
    ∧ (∀ k reply, s.service = .answer k (some reply) → exec .replySent s = .next (refreshPins (s.setService .hunt)))

/-- The requests STATUS, ROSTER, LENS and PROBE (the request rows, the check bytes, the byte order of a reply and the order of
pane records and descriptors in it: the model's choices, logs 33, 64, 80, 85, 86). -/
def Obligations.ServiceRequests : Prop :=
  ∀ s : State, Settled s → s.boot.phase = .started →
    (∀ k r, s.service = .answer k r → ∀ x : Byte,
      ∀ c ∈ ([.status, .roster, .lens x, .probe x, .unlock x, .capture x, .clear x] : List Instr),
      exec c s = .next (refreshPins s))
    ∧ ((∀ k r, s.service ≠ .answer k r) →
      (exec .status s = .next (refreshPins (s.setService
        (.answer 0x01#8 (some (replyFrame 0x01#8 .accepted s.statusContent))))))
      ∧ (s.trunk.state = .inert → ∀ x : Byte, ∀ c ∈ ([.roster, .lens x, .probe x, .unlock x, .capture x, .clear x] : List Instr),
          exec c s = .next (refreshPins (s.setService (.answer 0x00#8 (some (replyFrame 0x00#8 .badRequest []))))))
      ∧ (s.trunk.state ≠ .inert →
          exec .roster s = .next (refreshPins (s.setService
            (.answer 0x02#8 (some (replyFrame 0x02#8 .accepted s.rosterContent)))))
          ∧ (∀ (i : Input) r, s.lens.records[i] = some r → exec (.lens (byte i.val)) s = .next (refreshPins (s.setService
              (.answer 0x03#8 (some (replyFrame 0x03#8 .accepted r.bytes))))))
          ∧ (∀ x : Byte, (∀ i : Input, x = byte i.val → s.lens.records[i] = none) →
              exec (.lens x) s = .next (refreshPins (s.setService
                (.answer 0x03#8 (some (replyFrame 0x03#8 .badCamera []))))))
          ∧ (∀ x : Byte, s.store.busy = true → exec (.probe x) s = .next (refreshPins (s.setService
              (.answer 0x04#8 (some (replyFrame 0x04#8 .busy []))))))
          ∧ (∀ x : Byte, s.store.busy = false →
              (∀ i : Input, x = byte i.val → s.cfg.cams[i] = none ∨ s.inputLive i = false) →
              exec (.probe x) s = .next (refreshPins (s.setService
                (.answer 0x04#8 (some (replyFrame 0x04#8 .notLive []))))))
          ∧ (∀ i : Input, s.store.busy = false → s.cfg.cams[i] ≠ none → s.inputLive i = true →
              (s.lens.engine ≠ .free → exec (.probe (byte i.val)) s = .next (refreshPins ((s.setService
                (.answer 0x04#8 none)).setLens { s.lens with probeWaiting := some i })))
              ∧ (s.lens.engine = .free → s.store.phase = .none → exec (.probe (byte i.val)) s = .next (refreshPins
                (((s.setService (.answer 0x04#8 none)).setLens { s.lens with
                    probeWaiting := none, engine := .probe i, handed := none }).setIntake
                  { s.intake with request := some { input := i, run := false, size := 1, handed := 0 } }))))))
    ∧ s.statusContent.take 8 = [
        (match s.trunk.state with
          | .listen => 1#8
          | .joined => 2#8
          | .excluded _ => 3#8
          | .inert => 4#8),
        (match s.trunk.state with
          | .excluded .clash => 1#8
          | .excluded .consist => 2#8
          | _ => 0#8),
        (if s.trunk.state = .inert then 0#8 else byte s.trunk.half.val),
        (if s.trunk.state = .inert then 0xFF#8 else byte s.addr.val),
        (if s.trunk.state = .inert then 0#8 else roleCode s.cfg.role),
        (match s.boot.startCause with
          | .power => 1#8
          | .line => 2#8),
        inertCauseCode s.boot.inertCause, s.trunk.roundCount]
    ∧ (s.trunk.state = .inert → s.statusContent.length = 25)

/-- Every step keeps the outbound control queue and the configuration memory in their forms (the order of one instant
between blocks is the model's choice, log 35). -/
def Obligations.StepKeepsForms : Prop :=
  ∀ s t : State, step s = .next t →
    QueueDistinct s.queue → QueueOrdered s.queue → Memory.wf s.confMem = true →
    QueueDistinct t.queue ∧ QueueOrdered t.queue ∧ Memory.wf t.confMem = true ∧ t.queue.length ≤ 21

/-- The forms hold right after reset. -/
def Obligations.ResetHasForms : Prop :=
  State.reset.queue = [] ∧ State.reset.confMem = [] ∧ QueueDistinct State.reset.queue ∧ QueueOrdered State.reset.queue ∧ Memory.wf State.reset.confMem = true
    ∧ State.reset.pending = [] ∧ (∀ n : Slot, State.reset.tables.slots[n] = { owner := none, silent := 0 })
    ∧ State.reset.trunk.marksSent = 0#16 ∧ State.reset.trunk.framesSent = 0#16 ∧ State.reset.trunk.tilesSent = 0#16
    ∧ State.reset.trunk.markErrors = 0#16 ∧ State.reset.trunk.missedMarks = 0#16 ∧ State.reset.trunk.frameErrors = 0#16
    ∧ State.reset.trunk.tileErrors = 0#16 ∧ State.reset.trunk.clashes = 0#16 ∧ State.reset.store.unlocked = false
    ∧ State.reset.cab.state = .idle ∧ State.reset.pins.fault = true

/-- What a station sends reads back as what it was. -/
def Obligations.FramesRoundTrip : Prop :=
  (∀ (a : Addr) (tag : Word) (count : Byte), readMark { addr := a, tag := tag, bytes := markBytes a tag count } = some count)
    ∧ (∀ f : ControlFrame, (kindPart f.body).length ≤ 255 →
        readControl { cls := f.body.kind.cls, addr := f.addr, tag := f.tag, bytes := controlBytes f } = .frame f)
    ∧ (∀ (c : Fin 4) (a : Addr) (tag : Word),
        readControl { cls := c, addr := a, tag := tag, bytes := voidBytes c a tag } = .empty)
    ∧ (∀ (h : TileHeader) (payload : List Byte), h.band < h.cls.bands → payload.length = payloadLength h.picture →
        readTile { addr := h.addr, bytes := tileBytes h payload } = some (h, payload))

end
end

