-- ==== Sys2Proof/Laws/State.lean ====
section
/-! SUPPORT. One lemma per field per named update of the state, true by rfl. -/
namespace Sys2Proof.Machine

@[simp] theorem State.setCfg_cfg (s : State) (x : Settings) : (s.setCfg x).cfg = x := rfl
@[simp] theorem State.setCfg_boot (s : State) (x : Settings) : (s.setCfg x).boot = s.boot := rfl
@[simp] theorem State.setCfg_now (s : State) (x : Settings) : (s.setCfg x).now = s.now := rfl
@[simp] theorem State.setCfg_clocked (s : State) (x : Settings) : (s.setCfg x).clocked = s.clocked := rfl
@[simp] theorem State.setCfg_levels (s : State) (x : Settings) : (s.setCfg x).levels = s.levels := rfl
@[simp] theorem State.setCfg_trunk (s : State) (x : Settings) : (s.setCfg x).trunk = s.trunk := rfl
@[simp] theorem State.setCfg_queue (s : State) (x : Settings) : (s.setCfg x).queue = s.queue := rfl
@[simp] theorem State.setCfg_tables (s : State) (x : Settings) : (s.setCfg x).tables = s.tables := rfl
@[simp] theorem State.setCfg_engine (s : State) (x : Settings) : (s.setCfg x).engine = s.engine := rfl
@[simp] theorem State.setCfg_intake (s : State) (x : Settings) : (s.setCfg x).intake = s.intake := rfl
@[simp] theorem State.setCfg_channels (s : State) (x : Settings) : (s.setCfg x).channels = s.channels := rfl
@[simp] theorem State.setCfg_couplerFilter (s : State) (x : Settings) : (s.setCfg x).couplerFilter = s.couplerFilter := rfl
@[simp] theorem State.setCfg_lens (s : State) (x : Settings) : (s.setCfg x).lens = s.lens := rfl
@[simp] theorem State.setCfg_store (s : State) (x : Settings) : (s.setCfg x).store = s.store := rfl
@[simp] theorem State.setCfg_cab (s : State) (x : Settings) : (s.setCfg x).cab = s.cab := rfl
@[simp] theorem State.setCfg_comp (s : State) (x : Settings) : (s.setCfg x).comp = s.comp := rfl
@[simp] theorem State.setCfg_service (s : State) (x : Settings) : (s.setCfg x).service = s.service := rfl
@[simp] theorem State.setCfg_confMem (s : State) (x : Settings) : (s.setCfg x).confMem = s.confMem := rfl
@[simp] theorem State.setCfg_pins (s : State) (x : Settings) : (s.setCfg x).pins = s.pins := rfl
@[simp] theorem State.setCfg_free (s : State) (x : Settings) : (s.setCfg x).free = s.free := rfl
@[simp] theorem State.setCfg_pending (s : State) (x : Settings) : (s.setCfg x).pending = s.pending := rfl

@[simp] theorem State.setBoot_cfg (s : State) (x : Boot) : (s.setBoot x).cfg = s.cfg := rfl
@[simp] theorem State.setBoot_boot (s : State) (x : Boot) : (s.setBoot x).boot = x := rfl
@[simp] theorem State.setBoot_now (s : State) (x : Boot) : (s.setBoot x).now = s.now := rfl
@[simp] theorem State.setBoot_clocked (s : State) (x : Boot) : (s.setBoot x).clocked = s.clocked := rfl
@[simp] theorem State.setBoot_levels (s : State) (x : Boot) : (s.setBoot x).levels = s.levels := rfl
@[simp] theorem State.setBoot_trunk (s : State) (x : Boot) : (s.setBoot x).trunk = s.trunk := rfl
@[simp] theorem State.setBoot_queue (s : State) (x : Boot) : (s.setBoot x).queue = s.queue := rfl
@[simp] theorem State.setBoot_tables (s : State) (x : Boot) : (s.setBoot x).tables = s.tables := rfl
@[simp] theorem State.setBoot_engine (s : State) (x : Boot) : (s.setBoot x).engine = s.engine := rfl
@[simp] theorem State.setBoot_intake (s : State) (x : Boot) : (s.setBoot x).intake = s.intake := rfl
@[simp] theorem State.setBoot_channels (s : State) (x : Boot) : (s.setBoot x).channels = s.channels := rfl
@[simp] theorem State.setBoot_couplerFilter (s : State) (x : Boot) : (s.setBoot x).couplerFilter = s.couplerFilter := rfl
@[simp] theorem State.setBoot_lens (s : State) (x : Boot) : (s.setBoot x).lens = s.lens := rfl
@[simp] theorem State.setBoot_store (s : State) (x : Boot) : (s.setBoot x).store = s.store := rfl
@[simp] theorem State.setBoot_cab (s : State) (x : Boot) : (s.setBoot x).cab = s.cab := rfl
@[simp] theorem State.setBoot_comp (s : State) (x : Boot) : (s.setBoot x).comp = s.comp := rfl
@[simp] theorem State.setBoot_service (s : State) (x : Boot) : (s.setBoot x).service = s.service := rfl
@[simp] theorem State.setBoot_confMem (s : State) (x : Boot) : (s.setBoot x).confMem = s.confMem := rfl
@[simp] theorem State.setBoot_pins (s : State) (x : Boot) : (s.setBoot x).pins = s.pins := rfl
@[simp] theorem State.setBoot_free (s : State) (x : Boot) : (s.setBoot x).free = s.free := rfl
@[simp] theorem State.setBoot_pending (s : State) (x : Boot) : (s.setBoot x).pending = s.pending := rfl

@[simp] theorem State.setNow_cfg (s : State) (x : Nat) : (s.setNow x).cfg = s.cfg := rfl
@[simp] theorem State.setNow_boot (s : State) (x : Nat) : (s.setNow x).boot = s.boot := rfl
@[simp] theorem State.setNow_now (s : State) (x : Nat) : (s.setNow x).now = x := rfl
@[simp] theorem State.setNow_clocked (s : State) (x : Nat) : (s.setNow x).clocked = s.clocked := rfl
@[simp] theorem State.setNow_levels (s : State) (x : Nat) : (s.setNow x).levels = s.levels := rfl
@[simp] theorem State.setNow_trunk (s : State) (x : Nat) : (s.setNow x).trunk = s.trunk := rfl
@[simp] theorem State.setNow_queue (s : State) (x : Nat) : (s.setNow x).queue = s.queue := rfl
@[simp] theorem State.setNow_tables (s : State) (x : Nat) : (s.setNow x).tables = s.tables := rfl
@[simp] theorem State.setNow_engine (s : State) (x : Nat) : (s.setNow x).engine = s.engine := rfl
@[simp] theorem State.setNow_intake (s : State) (x : Nat) : (s.setNow x).intake = s.intake := rfl
@[simp] theorem State.setNow_channels (s : State) (x : Nat) : (s.setNow x).channels = s.channels := rfl
@[simp] theorem State.setNow_couplerFilter (s : State) (x : Nat) : (s.setNow x).couplerFilter = s.couplerFilter := rfl
@[simp] theorem State.setNow_lens (s : State) (x : Nat) : (s.setNow x).lens = s.lens := rfl
@[simp] theorem State.setNow_store (s : State) (x : Nat) : (s.setNow x).store = s.store := rfl
@[simp] theorem State.setNow_cab (s : State) (x : Nat) : (s.setNow x).cab = s.cab := rfl
@[simp] theorem State.setNow_comp (s : State) (x : Nat) : (s.setNow x).comp = s.comp := rfl
@[simp] theorem State.setNow_service (s : State) (x : Nat) : (s.setNow x).service = s.service := rfl
@[simp] theorem State.setNow_confMem (s : State) (x : Nat) : (s.setNow x).confMem = s.confMem := rfl
@[simp] theorem State.setNow_pins (s : State) (x : Nat) : (s.setNow x).pins = s.pins := rfl
@[simp] theorem State.setNow_free (s : State) (x : Nat) : (s.setNow x).free = s.free := rfl
@[simp] theorem State.setNow_pending (s : State) (x : Nat) : (s.setNow x).pending = s.pending := rfl

@[simp] theorem State.setClocked_cfg (s : State) (x : Bool) : (s.setClocked x).cfg = s.cfg := rfl
@[simp] theorem State.setClocked_boot (s : State) (x : Bool) : (s.setClocked x).boot = s.boot := rfl
@[simp] theorem State.setClocked_now (s : State) (x : Bool) : (s.setClocked x).now = s.now := rfl
@[simp] theorem State.setClocked_clocked (s : State) (x : Bool) : (s.setClocked x).clocked = x := rfl
@[simp] theorem State.setClocked_levels (s : State) (x : Bool) : (s.setClocked x).levels = s.levels := rfl
@[simp] theorem State.setClocked_trunk (s : State) (x : Bool) : (s.setClocked x).trunk = s.trunk := rfl
@[simp] theorem State.setClocked_queue (s : State) (x : Bool) : (s.setClocked x).queue = s.queue := rfl
@[simp] theorem State.setClocked_tables (s : State) (x : Bool) : (s.setClocked x).tables = s.tables := rfl
@[simp] theorem State.setClocked_engine (s : State) (x : Bool) : (s.setClocked x).engine = s.engine := rfl
@[simp] theorem State.setClocked_intake (s : State) (x : Bool) : (s.setClocked x).intake = s.intake := rfl
@[simp] theorem State.setClocked_channels (s : State) (x : Bool) : (s.setClocked x).channels = s.channels := rfl
@[simp] theorem State.setClocked_couplerFilter (s : State) (x : Bool) : (s.setClocked x).couplerFilter = s.couplerFilter := rfl
@[simp] theorem State.setClocked_lens (s : State) (x : Bool) : (s.setClocked x).lens = s.lens := rfl
@[simp] theorem State.setClocked_store (s : State) (x : Bool) : (s.setClocked x).store = s.store := rfl
@[simp] theorem State.setClocked_cab (s : State) (x : Bool) : (s.setClocked x).cab = s.cab := rfl
@[simp] theorem State.setClocked_comp (s : State) (x : Bool) : (s.setClocked x).comp = s.comp := rfl
@[simp] theorem State.setClocked_service (s : State) (x : Bool) : (s.setClocked x).service = s.service := rfl
@[simp] theorem State.setClocked_confMem (s : State) (x : Bool) : (s.setClocked x).confMem = s.confMem := rfl
@[simp] theorem State.setClocked_pins (s : State) (x : Bool) : (s.setClocked x).pins = s.pins := rfl
@[simp] theorem State.setClocked_free (s : State) (x : Bool) : (s.setClocked x).free = s.free := rfl
@[simp] theorem State.setClocked_pending (s : State) (x : Bool) : (s.setClocked x).pending = s.pending := rfl

@[simp] theorem State.setLevels_cfg (s : State) (x : Levels) : (s.setLevels x).cfg = s.cfg := rfl
@[simp] theorem State.setLevels_boot (s : State) (x : Levels) : (s.setLevels x).boot = s.boot := rfl
@[simp] theorem State.setLevels_now (s : State) (x : Levels) : (s.setLevels x).now = s.now := rfl
@[simp] theorem State.setLevels_clocked (s : State) (x : Levels) : (s.setLevels x).clocked = s.clocked := rfl
@[simp] theorem State.setLevels_levels (s : State) (x : Levels) : (s.setLevels x).levels = x := rfl
@[simp] theorem State.setLevels_trunk (s : State) (x : Levels) : (s.setLevels x).trunk = s.trunk := rfl
@[simp] theorem State.setLevels_queue (s : State) (x : Levels) : (s.setLevels x).queue = s.queue := rfl
@[simp] theorem State.setLevels_tables (s : State) (x : Levels) : (s.setLevels x).tables = s.tables := rfl
@[simp] theorem State.setLevels_engine (s : State) (x : Levels) : (s.setLevels x).engine = s.engine := rfl
@[simp] theorem State.setLevels_intake (s : State) (x : Levels) : (s.setLevels x).intake = s.intake := rfl
@[simp] theorem State.setLevels_channels (s : State) (x : Levels) : (s.setLevels x).channels = s.channels := rfl
@[simp] theorem State.setLevels_couplerFilter (s : State) (x : Levels) : (s.setLevels x).couplerFilter = s.couplerFilter := rfl
@[simp] theorem State.setLevels_lens (s : State) (x : Levels) : (s.setLevels x).lens = s.lens := rfl
@[simp] theorem State.setLevels_store (s : State) (x : Levels) : (s.setLevels x).store = s.store := rfl
@[simp] theorem State.setLevels_cab (s : State) (x : Levels) : (s.setLevels x).cab = s.cab := rfl
@[simp] theorem State.setLevels_comp (s : State) (x : Levels) : (s.setLevels x).comp = s.comp := rfl
@[simp] theorem State.setLevels_service (s : State) (x : Levels) : (s.setLevels x).service = s.service := rfl
@[simp] theorem State.setLevels_confMem (s : State) (x : Levels) : (s.setLevels x).confMem = s.confMem := rfl
@[simp] theorem State.setLevels_pins (s : State) (x : Levels) : (s.setLevels x).pins = s.pins := rfl
@[simp] theorem State.setLevels_free (s : State) (x : Levels) : (s.setLevels x).free = s.free := rfl
@[simp] theorem State.setLevels_pending (s : State) (x : Levels) : (s.setLevels x).pending = s.pending := rfl

@[simp] theorem State.setTrunk_cfg (s : State) (x : Trunk) : (s.setTrunk x).cfg = s.cfg := rfl
@[simp] theorem State.setTrunk_boot (s : State) (x : Trunk) : (s.setTrunk x).boot = s.boot := rfl
@[simp] theorem State.setTrunk_now (s : State) (x : Trunk) : (s.setTrunk x).now = s.now := rfl
@[simp] theorem State.setTrunk_clocked (s : State) (x : Trunk) : (s.setTrunk x).clocked = s.clocked := rfl
@[simp] theorem State.setTrunk_levels (s : State) (x : Trunk) : (s.setTrunk x).levels = s.levels := rfl
@[simp] theorem State.setTrunk_trunk (s : State) (x : Trunk) : (s.setTrunk x).trunk = x := rfl
@[simp] theorem State.setTrunk_queue (s : State) (x : Trunk) : (s.setTrunk x).queue = s.queue := rfl
@[simp] theorem State.setTrunk_tables (s : State) (x : Trunk) : (s.setTrunk x).tables = s.tables := rfl
@[simp] theorem State.setTrunk_engine (s : State) (x : Trunk) : (s.setTrunk x).engine = s.engine := rfl
@[simp] theorem State.setTrunk_intake (s : State) (x : Trunk) : (s.setTrunk x).intake = s.intake := rfl
@[simp] theorem State.setTrunk_channels (s : State) (x : Trunk) : (s.setTrunk x).channels = s.channels := rfl
@[simp] theorem State.setTrunk_couplerFilter (s : State) (x : Trunk) : (s.setTrunk x).couplerFilter = s.couplerFilter := rfl
@[simp] theorem State.setTrunk_lens (s : State) (x : Trunk) : (s.setTrunk x).lens = s.lens := rfl
@[simp] theorem State.setTrunk_store (s : State) (x : Trunk) : (s.setTrunk x).store = s.store := rfl
@[simp] theorem State.setTrunk_cab (s : State) (x : Trunk) : (s.setTrunk x).cab = s.cab := rfl
@[simp] theorem State.setTrunk_comp (s : State) (x : Trunk) : (s.setTrunk x).comp = s.comp := rfl
@[simp] theorem State.setTrunk_service (s : State) (x : Trunk) : (s.setTrunk x).service = s.service := rfl
@[simp] theorem State.setTrunk_confMem (s : State) (x : Trunk) : (s.setTrunk x).confMem = s.confMem := rfl
@[simp] theorem State.setTrunk_pins (s : State) (x : Trunk) : (s.setTrunk x).pins = s.pins := rfl
@[simp] theorem State.setTrunk_free (s : State) (x : Trunk) : (s.setTrunk x).free = s.free := rfl
@[simp] theorem State.setTrunk_pending (s : State) (x : Trunk) : (s.setTrunk x).pending = s.pending := rfl

@[simp] theorem State.setQueue_cfg (s : State) (x : List QueueEntry) : (s.setQueue x).cfg = s.cfg := rfl
@[simp] theorem State.setQueue_boot (s : State) (x : List QueueEntry) : (s.setQueue x).boot = s.boot := rfl
@[simp] theorem State.setQueue_now (s : State) (x : List QueueEntry) : (s.setQueue x).now = s.now := rfl
@[simp] theorem State.setQueue_clocked (s : State) (x : List QueueEntry) : (s.setQueue x).clocked = s.clocked := rfl
@[simp] theorem State.setQueue_levels (s : State) (x : List QueueEntry) : (s.setQueue x).levels = s.levels := rfl
@[simp] theorem State.setQueue_trunk (s : State) (x : List QueueEntry) : (s.setQueue x).trunk = s.trunk := rfl
@[simp] theorem State.setQueue_queue (s : State) (x : List QueueEntry) : (s.setQueue x).queue = x := rfl
@[simp] theorem State.setQueue_tables (s : State) (x : List QueueEntry) : (s.setQueue x).tables = s.tables := rfl
@[simp] theorem State.setQueue_engine (s : State) (x : List QueueEntry) : (s.setQueue x).engine = s.engine := rfl
@[simp] theorem State.setQueue_intake (s : State) (x : List QueueEntry) : (s.setQueue x).intake = s.intake := rfl
@[simp] theorem State.setQueue_channels (s : State) (x : List QueueEntry) : (s.setQueue x).channels = s.channels := rfl
@[simp] theorem State.setQueue_couplerFilter (s : State) (x : List QueueEntry) : (s.setQueue x).couplerFilter = s.couplerFilter := rfl
@[simp] theorem State.setQueue_lens (s : State) (x : List QueueEntry) : (s.setQueue x).lens = s.lens := rfl
@[simp] theorem State.setQueue_store (s : State) (x : List QueueEntry) : (s.setQueue x).store = s.store := rfl
@[simp] theorem State.setQueue_cab (s : State) (x : List QueueEntry) : (s.setQueue x).cab = s.cab := rfl
@[simp] theorem State.setQueue_comp (s : State) (x : List QueueEntry) : (s.setQueue x).comp = s.comp := rfl
@[simp] theorem State.setQueue_service (s : State) (x : List QueueEntry) : (s.setQueue x).service = s.service := rfl
@[simp] theorem State.setQueue_confMem (s : State) (x : List QueueEntry) : (s.setQueue x).confMem = s.confMem := rfl
@[simp] theorem State.setQueue_pins (s : State) (x : List QueueEntry) : (s.setQueue x).pins = s.pins := rfl
@[simp] theorem State.setQueue_free (s : State) (x : List QueueEntry) : (s.setQueue x).free = s.free := rfl
@[simp] theorem State.setQueue_pending (s : State) (x : List QueueEntry) : (s.setQueue x).pending = s.pending := rfl

@[simp] theorem State.setTables_cfg (s : State) (x : Tables) : (s.setTables x).cfg = s.cfg := rfl
@[simp] theorem State.setTables_boot (s : State) (x : Tables) : (s.setTables x).boot = s.boot := rfl
@[simp] theorem State.setTables_now (s : State) (x : Tables) : (s.setTables x).now = s.now := rfl
@[simp] theorem State.setTables_clocked (s : State) (x : Tables) : (s.setTables x).clocked = s.clocked := rfl
@[simp] theorem State.setTables_levels (s : State) (x : Tables) : (s.setTables x).levels = s.levels := rfl
@[simp] theorem State.setTables_trunk (s : State) (x : Tables) : (s.setTables x).trunk = s.trunk := rfl
@[simp] theorem State.setTables_queue (s : State) (x : Tables) : (s.setTables x).queue = s.queue := rfl
@[simp] theorem State.setTables_tables (s : State) (x : Tables) : (s.setTables x).tables = x := rfl
@[simp] theorem State.setTables_engine (s : State) (x : Tables) : (s.setTables x).engine = s.engine := rfl
@[simp] theorem State.setTables_intake (s : State) (x : Tables) : (s.setTables x).intake = s.intake := rfl
@[simp] theorem State.setTables_channels (s : State) (x : Tables) : (s.setTables x).channels = s.channels := rfl
@[simp] theorem State.setTables_couplerFilter (s : State) (x : Tables) : (s.setTables x).couplerFilter = s.couplerFilter := rfl
@[simp] theorem State.setTables_lens (s : State) (x : Tables) : (s.setTables x).lens = s.lens := rfl
@[simp] theorem State.setTables_store (s : State) (x : Tables) : (s.setTables x).store = s.store := rfl
@[simp] theorem State.setTables_cab (s : State) (x : Tables) : (s.setTables x).cab = s.cab := rfl
@[simp] theorem State.setTables_comp (s : State) (x : Tables) : (s.setTables x).comp = s.comp := rfl
@[simp] theorem State.setTables_service (s : State) (x : Tables) : (s.setTables x).service = s.service := rfl
@[simp] theorem State.setTables_confMem (s : State) (x : Tables) : (s.setTables x).confMem = s.confMem := rfl
@[simp] theorem State.setTables_pins (s : State) (x : Tables) : (s.setTables x).pins = s.pins := rfl
@[simp] theorem State.setTables_free (s : State) (x : Tables) : (s.setTables x).free = s.free := rfl
@[simp] theorem State.setTables_pending (s : State) (x : Tables) : (s.setTables x).pending = s.pending := rfl

@[simp] theorem State.setEngine_cfg (s : State) (x : StreamEngine) : (s.setEngine x).cfg = s.cfg := rfl
@[simp] theorem State.setEngine_boot (s : State) (x : StreamEngine) : (s.setEngine x).boot = s.boot := rfl
@[simp] theorem State.setEngine_now (s : State) (x : StreamEngine) : (s.setEngine x).now = s.now := rfl
@[simp] theorem State.setEngine_clocked (s : State) (x : StreamEngine) : (s.setEngine x).clocked = s.clocked := rfl
@[simp] theorem State.setEngine_levels (s : State) (x : StreamEngine) : (s.setEngine x).levels = s.levels := rfl
@[simp] theorem State.setEngine_trunk (s : State) (x : StreamEngine) : (s.setEngine x).trunk = s.trunk := rfl
@[simp] theorem State.setEngine_queue (s : State) (x : StreamEngine) : (s.setEngine x).queue = s.queue := rfl
@[simp] theorem State.setEngine_tables (s : State) (x : StreamEngine) : (s.setEngine x).tables = s.tables := rfl
@[simp] theorem State.setEngine_engine (s : State) (x : StreamEngine) : (s.setEngine x).engine = x := rfl
@[simp] theorem State.setEngine_intake (s : State) (x : StreamEngine) : (s.setEngine x).intake = s.intake := rfl
@[simp] theorem State.setEngine_channels (s : State) (x : StreamEngine) : (s.setEngine x).channels = s.channels := rfl
@[simp] theorem State.setEngine_couplerFilter (s : State) (x : StreamEngine) : (s.setEngine x).couplerFilter = s.couplerFilter := rfl
@[simp] theorem State.setEngine_lens (s : State) (x : StreamEngine) : (s.setEngine x).lens = s.lens := rfl
@[simp] theorem State.setEngine_store (s : State) (x : StreamEngine) : (s.setEngine x).store = s.store := rfl
@[simp] theorem State.setEngine_cab (s : State) (x : StreamEngine) : (s.setEngine x).cab = s.cab := rfl
@[simp] theorem State.setEngine_comp (s : State) (x : StreamEngine) : (s.setEngine x).comp = s.comp := rfl
@[simp] theorem State.setEngine_service (s : State) (x : StreamEngine) : (s.setEngine x).service = s.service := rfl
@[simp] theorem State.setEngine_confMem (s : State) (x : StreamEngine) : (s.setEngine x).confMem = s.confMem := rfl
@[simp] theorem State.setEngine_pins (s : State) (x : StreamEngine) : (s.setEngine x).pins = s.pins := rfl
@[simp] theorem State.setEngine_free (s : State) (x : StreamEngine) : (s.setEngine x).free = s.free := rfl
@[simp] theorem State.setEngine_pending (s : State) (x : StreamEngine) : (s.setEngine x).pending = s.pending := rfl

@[simp] theorem State.setIntake_cfg (s : State) (x : Intake) : (s.setIntake x).cfg = s.cfg := rfl
@[simp] theorem State.setIntake_boot (s : State) (x : Intake) : (s.setIntake x).boot = s.boot := rfl
@[simp] theorem State.setIntake_now (s : State) (x : Intake) : (s.setIntake x).now = s.now := rfl
@[simp] theorem State.setIntake_clocked (s : State) (x : Intake) : (s.setIntake x).clocked = s.clocked := rfl
@[simp] theorem State.setIntake_levels (s : State) (x : Intake) : (s.setIntake x).levels = s.levels := rfl
@[simp] theorem State.setIntake_trunk (s : State) (x : Intake) : (s.setIntake x).trunk = s.trunk := rfl
@[simp] theorem State.setIntake_queue (s : State) (x : Intake) : (s.setIntake x).queue = s.queue := rfl
@[simp] theorem State.setIntake_tables (s : State) (x : Intake) : (s.setIntake x).tables = s.tables := rfl
@[simp] theorem State.setIntake_engine (s : State) (x : Intake) : (s.setIntake x).engine = s.engine := rfl
@[simp] theorem State.setIntake_intake (s : State) (x : Intake) : (s.setIntake x).intake = x := rfl
@[simp] theorem State.setIntake_channels (s : State) (x : Intake) : (s.setIntake x).channels = s.channels := rfl
@[simp] theorem State.setIntake_couplerFilter (s : State) (x : Intake) : (s.setIntake x).couplerFilter = s.couplerFilter := rfl
@[simp] theorem State.setIntake_lens (s : State) (x : Intake) : (s.setIntake x).lens = s.lens := rfl
@[simp] theorem State.setIntake_store (s : State) (x : Intake) : (s.setIntake x).store = s.store := rfl
@[simp] theorem State.setIntake_cab (s : State) (x : Intake) : (s.setIntake x).cab = s.cab := rfl
@[simp] theorem State.setIntake_comp (s : State) (x : Intake) : (s.setIntake x).comp = s.comp := rfl
@[simp] theorem State.setIntake_service (s : State) (x : Intake) : (s.setIntake x).service = s.service := rfl
@[simp] theorem State.setIntake_confMem (s : State) (x : Intake) : (s.setIntake x).confMem = s.confMem := rfl
@[simp] theorem State.setIntake_pins (s : State) (x : Intake) : (s.setIntake x).pins = s.pins := rfl
@[simp] theorem State.setIntake_free (s : State) (x : Intake) : (s.setIntake x).free = s.free := rfl
@[simp] theorem State.setIntake_pending (s : State) (x : Intake) : (s.setIntake x).pending = s.pending := rfl

@[simp] theorem State.setChannels_cfg (s : State) (x : Vector (Option Channel) 4) : (s.setChannels x).cfg = s.cfg := rfl
@[simp] theorem State.setChannels_boot (s : State) (x : Vector (Option Channel) 4) : (s.setChannels x).boot = s.boot := rfl
@[simp] theorem State.setChannels_now (s : State) (x : Vector (Option Channel) 4) : (s.setChannels x).now = s.now := rfl
@[simp] theorem State.setChannels_clocked (s : State) (x : Vector (Option Channel) 4) : (s.setChannels x).clocked = s.clocked := rfl
@[simp] theorem State.setChannels_levels (s : State) (x : Vector (Option Channel) 4) : (s.setChannels x).levels = s.levels := rfl
@[simp] theorem State.setChannels_trunk (s : State) (x : Vector (Option Channel) 4) : (s.setChannels x).trunk = s.trunk := rfl
@[simp] theorem State.setChannels_queue (s : State) (x : Vector (Option Channel) 4) : (s.setChannels x).queue = s.queue := rfl
@[simp] theorem State.setChannels_tables (s : State) (x : Vector (Option Channel) 4) : (s.setChannels x).tables = s.tables := rfl
@[simp] theorem State.setChannels_engine (s : State) (x : Vector (Option Channel) 4) : (s.setChannels x).engine = s.engine := rfl
@[simp] theorem State.setChannels_intake (s : State) (x : Vector (Option Channel) 4) : (s.setChannels x).intake = s.intake := rfl
@[simp] theorem State.setChannels_channels (s : State) (x : Vector (Option Channel) 4) : (s.setChannels x).channels = x := rfl
@[simp] theorem State.setChannels_couplerFilter (s : State) (x : Vector (Option Channel) 4) : (s.setChannels x).couplerFilter = s.couplerFilter := rfl
@[simp] theorem State.setChannels_lens (s : State) (x : Vector (Option Channel) 4) : (s.setChannels x).lens = s.lens := rfl
@[simp] theorem State.setChannels_store (s : State) (x : Vector (Option Channel) 4) : (s.setChannels x).store = s.store := rfl
@[simp] theorem State.setChannels_cab (s : State) (x : Vector (Option Channel) 4) : (s.setChannels x).cab = s.cab := rfl
@[simp] theorem State.setChannels_comp (s : State) (x : Vector (Option Channel) 4) : (s.setChannels x).comp = s.comp := rfl
@[simp] theorem State.setChannels_service (s : State) (x : Vector (Option Channel) 4) : (s.setChannels x).service = s.service := rfl
@[simp] theorem State.setChannels_confMem (s : State) (x : Vector (Option Channel) 4) : (s.setChannels x).confMem = s.confMem := rfl
@[simp] theorem State.setChannels_pins (s : State) (x : Vector (Option Channel) 4) : (s.setChannels x).pins = s.pins := rfl
@[simp] theorem State.setChannels_free (s : State) (x : Vector (Option Channel) 4) : (s.setChannels x).free = s.free := rfl
@[simp] theorem State.setChannels_pending (s : State) (x : Vector (Option Channel) 4) : (s.setChannels x).pending = s.pending := rfl

@[simp] theorem State.setCouplerFilter_cfg (s : State) (x : LineFilter) : (s.setCouplerFilter x).cfg = s.cfg := rfl
@[simp] theorem State.setCouplerFilter_boot (s : State) (x : LineFilter) : (s.setCouplerFilter x).boot = s.boot := rfl
@[simp] theorem State.setCouplerFilter_now (s : State) (x : LineFilter) : (s.setCouplerFilter x).now = s.now := rfl
@[simp] theorem State.setCouplerFilter_clocked (s : State) (x : LineFilter) : (s.setCouplerFilter x).clocked = s.clocked := rfl
@[simp] theorem State.setCouplerFilter_levels (s : State) (x : LineFilter) : (s.setCouplerFilter x).levels = s.levels := rfl
@[simp] theorem State.setCouplerFilter_trunk (s : State) (x : LineFilter) : (s.setCouplerFilter x).trunk = s.trunk := rfl
@[simp] theorem State.setCouplerFilter_queue (s : State) (x : LineFilter) : (s.setCouplerFilter x).queue = s.queue := rfl
@[simp] theorem State.setCouplerFilter_tables (s : State) (x : LineFilter) : (s.setCouplerFilter x).tables = s.tables := rfl
@[simp] theorem State.setCouplerFilter_engine (s : State) (x : LineFilter) : (s.setCouplerFilter x).engine = s.engine := rfl
@[simp] theorem State.setCouplerFilter_intake (s : State) (x : LineFilter) : (s.setCouplerFilter x).intake = s.intake := rfl
@[simp] theorem State.setCouplerFilter_channels (s : State) (x : LineFilter) : (s.setCouplerFilter x).channels = s.channels := rfl
@[simp] theorem State.setCouplerFilter_couplerFilter (s : State) (x : LineFilter) : (s.setCouplerFilter x).couplerFilter = x := rfl
@[simp] theorem State.setCouplerFilter_lens (s : State) (x : LineFilter) : (s.setCouplerFilter x).lens = s.lens := rfl
@[simp] theorem State.setCouplerFilter_store (s : State) (x : LineFilter) : (s.setCouplerFilter x).store = s.store := rfl
@[simp] theorem State.setCouplerFilter_cab (s : State) (x : LineFilter) : (s.setCouplerFilter x).cab = s.cab := rfl
@[simp] theorem State.setCouplerFilter_comp (s : State) (x : LineFilter) : (s.setCouplerFilter x).comp = s.comp := rfl
@[simp] theorem State.setCouplerFilter_service (s : State) (x : LineFilter) : (s.setCouplerFilter x).service = s.service := rfl
@[simp] theorem State.setCouplerFilter_confMem (s : State) (x : LineFilter) : (s.setCouplerFilter x).confMem = s.confMem := rfl
@[simp] theorem State.setCouplerFilter_pins (s : State) (x : LineFilter) : (s.setCouplerFilter x).pins = s.pins := rfl
@[simp] theorem State.setCouplerFilter_free (s : State) (x : LineFilter) : (s.setCouplerFilter x).free = s.free := rfl
@[simp] theorem State.setCouplerFilter_pending (s : State) (x : LineFilter) : (s.setCouplerFilter x).pending = s.pending := rfl

@[simp] theorem State.setLens_cfg (s : State) (x : LensWatch) : (s.setLens x).cfg = s.cfg := rfl
@[simp] theorem State.setLens_boot (s : State) (x : LensWatch) : (s.setLens x).boot = s.boot := rfl
@[simp] theorem State.setLens_now (s : State) (x : LensWatch) : (s.setLens x).now = s.now := rfl
@[simp] theorem State.setLens_clocked (s : State) (x : LensWatch) : (s.setLens x).clocked = s.clocked := rfl
@[simp] theorem State.setLens_levels (s : State) (x : LensWatch) : (s.setLens x).levels = s.levels := rfl
@[simp] theorem State.setLens_trunk (s : State) (x : LensWatch) : (s.setLens x).trunk = s.trunk := rfl
@[simp] theorem State.setLens_queue (s : State) (x : LensWatch) : (s.setLens x).queue = s.queue := rfl
@[simp] theorem State.setLens_tables (s : State) (x : LensWatch) : (s.setLens x).tables = s.tables := rfl
@[simp] theorem State.setLens_engine (s : State) (x : LensWatch) : (s.setLens x).engine = s.engine := rfl
@[simp] theorem State.setLens_intake (s : State) (x : LensWatch) : (s.setLens x).intake = s.intake := rfl
@[simp] theorem State.setLens_channels (s : State) (x : LensWatch) : (s.setLens x).channels = s.channels := rfl
@[simp] theorem State.setLens_couplerFilter (s : State) (x : LensWatch) : (s.setLens x).couplerFilter = s.couplerFilter := rfl
@[simp] theorem State.setLens_lens (s : State) (x : LensWatch) : (s.setLens x).lens = x := rfl
@[simp] theorem State.setLens_store (s : State) (x : LensWatch) : (s.setLens x).store = s.store := rfl
@[simp] theorem State.setLens_cab (s : State) (x : LensWatch) : (s.setLens x).cab = s.cab := rfl
@[simp] theorem State.setLens_comp (s : State) (x : LensWatch) : (s.setLens x).comp = s.comp := rfl
@[simp] theorem State.setLens_service (s : State) (x : LensWatch) : (s.setLens x).service = s.service := rfl
@[simp] theorem State.setLens_confMem (s : State) (x : LensWatch) : (s.setLens x).confMem = s.confMem := rfl
@[simp] theorem State.setLens_pins (s : State) (x : LensWatch) : (s.setLens x).pins = s.pins := rfl
@[simp] theorem State.setLens_free (s : State) (x : LensWatch) : (s.setLens x).free = s.free := rfl
@[simp] theorem State.setLens_pending (s : State) (x : LensWatch) : (s.setLens x).pending = s.pending := rfl

@[simp] theorem State.setStore_cfg (s : State) (x : BaselineStore) : (s.setStore x).cfg = s.cfg := rfl
@[simp] theorem State.setStore_boot (s : State) (x : BaselineStore) : (s.setStore x).boot = s.boot := rfl
@[simp] theorem State.setStore_now (s : State) (x : BaselineStore) : (s.setStore x).now = s.now := rfl
@[simp] theorem State.setStore_clocked (s : State) (x : BaselineStore) : (s.setStore x).clocked = s.clocked := rfl
@[simp] theorem State.setStore_levels (s : State) (x : BaselineStore) : (s.setStore x).levels = s.levels := rfl
@[simp] theorem State.setStore_trunk (s : State) (x : BaselineStore) : (s.setStore x).trunk = s.trunk := rfl
@[simp] theorem State.setStore_queue (s : State) (x : BaselineStore) : (s.setStore x).queue = s.queue := rfl
@[simp] theorem State.setStore_tables (s : State) (x : BaselineStore) : (s.setStore x).tables = s.tables := rfl
@[simp] theorem State.setStore_engine (s : State) (x : BaselineStore) : (s.setStore x).engine = s.engine := rfl
@[simp] theorem State.setStore_intake (s : State) (x : BaselineStore) : (s.setStore x).intake = s.intake := rfl
@[simp] theorem State.setStore_channels (s : State) (x : BaselineStore) : (s.setStore x).channels = s.channels := rfl
@[simp] theorem State.setStore_couplerFilter (s : State) (x : BaselineStore) : (s.setStore x).couplerFilter = s.couplerFilter := rfl
@[simp] theorem State.setStore_lens (s : State) (x : BaselineStore) : (s.setStore x).lens = s.lens := rfl
@[simp] theorem State.setStore_store (s : State) (x : BaselineStore) : (s.setStore x).store = x := rfl
@[simp] theorem State.setStore_cab (s : State) (x : BaselineStore) : (s.setStore x).cab = s.cab := rfl
@[simp] theorem State.setStore_comp (s : State) (x : BaselineStore) : (s.setStore x).comp = s.comp := rfl
@[simp] theorem State.setStore_service (s : State) (x : BaselineStore) : (s.setStore x).service = s.service := rfl
@[simp] theorem State.setStore_confMem (s : State) (x : BaselineStore) : (s.setStore x).confMem = s.confMem := rfl
@[simp] theorem State.setStore_pins (s : State) (x : BaselineStore) : (s.setStore x).pins = s.pins := rfl
@[simp] theorem State.setStore_free (s : State) (x : BaselineStore) : (s.setStore x).free = s.free := rfl
@[simp] theorem State.setStore_pending (s : State) (x : BaselineStore) : (s.setStore x).pending = s.pending := rfl

@[simp] theorem State.setCab_cfg (s : State) (x : CabControl) : (s.setCab x).cfg = s.cfg := rfl
@[simp] theorem State.setCab_boot (s : State) (x : CabControl) : (s.setCab x).boot = s.boot := rfl
@[simp] theorem State.setCab_now (s : State) (x : CabControl) : (s.setCab x).now = s.now := rfl
@[simp] theorem State.setCab_clocked (s : State) (x : CabControl) : (s.setCab x).clocked = s.clocked := rfl
@[simp] theorem State.setCab_levels (s : State) (x : CabControl) : (s.setCab x).levels = s.levels := rfl
@[simp] theorem State.setCab_trunk (s : State) (x : CabControl) : (s.setCab x).trunk = s.trunk := rfl
@[simp] theorem State.setCab_queue (s : State) (x : CabControl) : (s.setCab x).queue = s.queue := rfl
@[simp] theorem State.setCab_tables (s : State) (x : CabControl) : (s.setCab x).tables = s.tables := rfl
@[simp] theorem State.setCab_engine (s : State) (x : CabControl) : (s.setCab x).engine = s.engine := rfl
@[simp] theorem State.setCab_intake (s : State) (x : CabControl) : (s.setCab x).intake = s.intake := rfl
@[simp] theorem State.setCab_channels (s : State) (x : CabControl) : (s.setCab x).channels = s.channels := rfl
@[simp] theorem State.setCab_couplerFilter (s : State) (x : CabControl) : (s.setCab x).couplerFilter = s.couplerFilter := rfl
@[simp] theorem State.setCab_lens (s : State) (x : CabControl) : (s.setCab x).lens = s.lens := rfl
@[simp] theorem State.setCab_store (s : State) (x : CabControl) : (s.setCab x).store = s.store := rfl
@[simp] theorem State.setCab_cab (s : State) (x : CabControl) : (s.setCab x).cab = x := rfl
@[simp] theorem State.setCab_comp (s : State) (x : CabControl) : (s.setCab x).comp = s.comp := rfl
@[simp] theorem State.setCab_service (s : State) (x : CabControl) : (s.setCab x).service = s.service := rfl
@[simp] theorem State.setCab_confMem (s : State) (x : CabControl) : (s.setCab x).confMem = s.confMem := rfl
@[simp] theorem State.setCab_pins (s : State) (x : CabControl) : (s.setCab x).pins = s.pins := rfl
@[simp] theorem State.setCab_free (s : State) (x : CabControl) : (s.setCab x).free = s.free := rfl
@[simp] theorem State.setCab_pending (s : State) (x : CabControl) : (s.setCab x).pending = s.pending := rfl

@[simp] theorem State.setComp_cfg (s : State) (x : Composer) : (s.setComp x).cfg = s.cfg := rfl
@[simp] theorem State.setComp_boot (s : State) (x : Composer) : (s.setComp x).boot = s.boot := rfl
@[simp] theorem State.setComp_now (s : State) (x : Composer) : (s.setComp x).now = s.now := rfl
@[simp] theorem State.setComp_clocked (s : State) (x : Composer) : (s.setComp x).clocked = s.clocked := rfl
@[simp] theorem State.setComp_levels (s : State) (x : Composer) : (s.setComp x).levels = s.levels := rfl
@[simp] theorem State.setComp_trunk (s : State) (x : Composer) : (s.setComp x).trunk = s.trunk := rfl
@[simp] theorem State.setComp_queue (s : State) (x : Composer) : (s.setComp x).queue = s.queue := rfl
@[simp] theorem State.setComp_tables (s : State) (x : Composer) : (s.setComp x).tables = s.tables := rfl
@[simp] theorem State.setComp_engine (s : State) (x : Composer) : (s.setComp x).engine = s.engine := rfl
@[simp] theorem State.setComp_intake (s : State) (x : Composer) : (s.setComp x).intake = s.intake := rfl
@[simp] theorem State.setComp_channels (s : State) (x : Composer) : (s.setComp x).channels = s.channels := rfl
@[simp] theorem State.setComp_couplerFilter (s : State) (x : Composer) : (s.setComp x).couplerFilter = s.couplerFilter := rfl
@[simp] theorem State.setComp_lens (s : State) (x : Composer) : (s.setComp x).lens = s.lens := rfl
@[simp] theorem State.setComp_store (s : State) (x : Composer) : (s.setComp x).store = s.store := rfl
@[simp] theorem State.setComp_cab (s : State) (x : Composer) : (s.setComp x).cab = s.cab := rfl
@[simp] theorem State.setComp_comp (s : State) (x : Composer) : (s.setComp x).comp = x := rfl
@[simp] theorem State.setComp_service (s : State) (x : Composer) : (s.setComp x).service = s.service := rfl
@[simp] theorem State.setComp_confMem (s : State) (x : Composer) : (s.setComp x).confMem = s.confMem := rfl
@[simp] theorem State.setComp_pins (s : State) (x : Composer) : (s.setComp x).pins = s.pins := rfl
@[simp] theorem State.setComp_free (s : State) (x : Composer) : (s.setComp x).free = s.free := rfl
@[simp] theorem State.setComp_pending (s : State) (x : Composer) : (s.setComp x).pending = s.pending := rfl

@[simp] theorem State.setService_cfg (s : State) (x : PortState) : (s.setService x).cfg = s.cfg := rfl
@[simp] theorem State.setService_boot (s : State) (x : PortState) : (s.setService x).boot = s.boot := rfl
@[simp] theorem State.setService_now (s : State) (x : PortState) : (s.setService x).now = s.now := rfl
@[simp] theorem State.setService_clocked (s : State) (x : PortState) : (s.setService x).clocked = s.clocked := rfl
@[simp] theorem State.setService_levels (s : State) (x : PortState) : (s.setService x).levels = s.levels := rfl
@[simp] theorem State.setService_trunk (s : State) (x : PortState) : (s.setService x).trunk = s.trunk := rfl
@[simp] theorem State.setService_queue (s : State) (x : PortState) : (s.setService x).queue = s.queue := rfl
@[simp] theorem State.setService_tables (s : State) (x : PortState) : (s.setService x).tables = s.tables := rfl
@[simp] theorem State.setService_engine (s : State) (x : PortState) : (s.setService x).engine = s.engine := rfl
@[simp] theorem State.setService_intake (s : State) (x : PortState) : (s.setService x).intake = s.intake := rfl
@[simp] theorem State.setService_channels (s : State) (x : PortState) : (s.setService x).channels = s.channels := rfl
@[simp] theorem State.setService_couplerFilter (s : State) (x : PortState) : (s.setService x).couplerFilter = s.couplerFilter := rfl
@[simp] theorem State.setService_lens (s : State) (x : PortState) : (s.setService x).lens = s.lens := rfl
@[simp] theorem State.setService_store (s : State) (x : PortState) : (s.setService x).store = s.store := rfl
@[simp] theorem State.setService_cab (s : State) (x : PortState) : (s.setService x).cab = s.cab := rfl
@[simp] theorem State.setService_comp (s : State) (x : PortState) : (s.setService x).comp = s.comp := rfl
@[simp] theorem State.setService_service (s : State) (x : PortState) : (s.setService x).service = x := rfl
@[simp] theorem State.setService_confMem (s : State) (x : PortState) : (s.setService x).confMem = s.confMem := rfl
@[simp] theorem State.setService_pins (s : State) (x : PortState) : (s.setService x).pins = s.pins := rfl
@[simp] theorem State.setService_free (s : State) (x : PortState) : (s.setService x).free = s.free := rfl
@[simp] theorem State.setService_pending (s : State) (x : PortState) : (s.setService x).pending = s.pending := rfl

@[simp] theorem State.setConfMem_cfg (s : State) (x : List Host.Cell) : (s.setConfMem x).cfg = s.cfg := rfl
@[simp] theorem State.setConfMem_boot (s : State) (x : List Host.Cell) : (s.setConfMem x).boot = s.boot := rfl
@[simp] theorem State.setConfMem_now (s : State) (x : List Host.Cell) : (s.setConfMem x).now = s.now := rfl
@[simp] theorem State.setConfMem_clocked (s : State) (x : List Host.Cell) : (s.setConfMem x).clocked = s.clocked := rfl
@[simp] theorem State.setConfMem_levels (s : State) (x : List Host.Cell) : (s.setConfMem x).levels = s.levels := rfl
@[simp] theorem State.setConfMem_trunk (s : State) (x : List Host.Cell) : (s.setConfMem x).trunk = s.trunk := rfl
@[simp] theorem State.setConfMem_queue (s : State) (x : List Host.Cell) : (s.setConfMem x).queue = s.queue := rfl
@[simp] theorem State.setConfMem_tables (s : State) (x : List Host.Cell) : (s.setConfMem x).tables = s.tables := rfl
@[simp] theorem State.setConfMem_engine (s : State) (x : List Host.Cell) : (s.setConfMem x).engine = s.engine := rfl
@[simp] theorem State.setConfMem_intake (s : State) (x : List Host.Cell) : (s.setConfMem x).intake = s.intake := rfl
@[simp] theorem State.setConfMem_channels (s : State) (x : List Host.Cell) : (s.setConfMem x).channels = s.channels := rfl
@[simp] theorem State.setConfMem_couplerFilter (s : State) (x : List Host.Cell) : (s.setConfMem x).couplerFilter = s.couplerFilter := rfl
@[simp] theorem State.setConfMem_lens (s : State) (x : List Host.Cell) : (s.setConfMem x).lens = s.lens := rfl
@[simp] theorem State.setConfMem_store (s : State) (x : List Host.Cell) : (s.setConfMem x).store = s.store := rfl
@[simp] theorem State.setConfMem_cab (s : State) (x : List Host.Cell) : (s.setConfMem x).cab = s.cab := rfl
@[simp] theorem State.setConfMem_comp (s : State) (x : List Host.Cell) : (s.setConfMem x).comp = s.comp := rfl
@[simp] theorem State.setConfMem_service (s : State) (x : List Host.Cell) : (s.setConfMem x).service = s.service := rfl
@[simp] theorem State.setConfMem_confMem (s : State) (x : List Host.Cell) : (s.setConfMem x).confMem = x := rfl
@[simp] theorem State.setConfMem_pins (s : State) (x : List Host.Cell) : (s.setConfMem x).pins = s.pins := rfl
@[simp] theorem State.setConfMem_free (s : State) (x : List Host.Cell) : (s.setConfMem x).free = s.free := rfl
@[simp] theorem State.setConfMem_pending (s : State) (x : List Host.Cell) : (s.setConfMem x).pending = s.pending := rfl

@[simp] theorem State.setPins_cfg (s : State) (x : Pins) : (s.setPins x).cfg = s.cfg := rfl
@[simp] theorem State.setPins_boot (s : State) (x : Pins) : (s.setPins x).boot = s.boot := rfl
@[simp] theorem State.setPins_now (s : State) (x : Pins) : (s.setPins x).now = s.now := rfl
@[simp] theorem State.setPins_clocked (s : State) (x : Pins) : (s.setPins x).clocked = s.clocked := rfl
@[simp] theorem State.setPins_levels (s : State) (x : Pins) : (s.setPins x).levels = s.levels := rfl
@[simp] theorem State.setPins_trunk (s : State) (x : Pins) : (s.setPins x).trunk = s.trunk := rfl
@[simp] theorem State.setPins_queue (s : State) (x : Pins) : (s.setPins x).queue = s.queue := rfl
@[simp] theorem State.setPins_tables (s : State) (x : Pins) : (s.setPins x).tables = s.tables := rfl
@[simp] theorem State.setPins_engine (s : State) (x : Pins) : (s.setPins x).engine = s.engine := rfl
@[simp] theorem State.setPins_intake (s : State) (x : Pins) : (s.setPins x).intake = s.intake := rfl
@[simp] theorem State.setPins_channels (s : State) (x : Pins) : (s.setPins x).channels = s.channels := rfl
@[simp] theorem State.setPins_couplerFilter (s : State) (x : Pins) : (s.setPins x).couplerFilter = s.couplerFilter := rfl
@[simp] theorem State.setPins_lens (s : State) (x : Pins) : (s.setPins x).lens = s.lens := rfl
@[simp] theorem State.setPins_store (s : State) (x : Pins) : (s.setPins x).store = s.store := rfl
@[simp] theorem State.setPins_cab (s : State) (x : Pins) : (s.setPins x).cab = s.cab := rfl
@[simp] theorem State.setPins_comp (s : State) (x : Pins) : (s.setPins x).comp = s.comp := rfl
@[simp] theorem State.setPins_service (s : State) (x : Pins) : (s.setPins x).service = s.service := rfl
@[simp] theorem State.setPins_confMem (s : State) (x : Pins) : (s.setPins x).confMem = s.confMem := rfl
@[simp] theorem State.setPins_pins (s : State) (x : Pins) : (s.setPins x).pins = x := rfl
@[simp] theorem State.setPins_free (s : State) (x : Pins) : (s.setPins x).free = s.free := rfl
@[simp] theorem State.setPins_pending (s : State) (x : Pins) : (s.setPins x).pending = s.pending := rfl

@[simp] theorem State.setFree_cfg (s : State) (x : Nat) : (s.setFree x).cfg = s.cfg := rfl
@[simp] theorem State.setFree_boot (s : State) (x : Nat) : (s.setFree x).boot = s.boot := rfl
@[simp] theorem State.setFree_now (s : State) (x : Nat) : (s.setFree x).now = s.now := rfl
@[simp] theorem State.setFree_clocked (s : State) (x : Nat) : (s.setFree x).clocked = s.clocked := rfl
@[simp] theorem State.setFree_levels (s : State) (x : Nat) : (s.setFree x).levels = s.levels := rfl
@[simp] theorem State.setFree_trunk (s : State) (x : Nat) : (s.setFree x).trunk = s.trunk := rfl
@[simp] theorem State.setFree_queue (s : State) (x : Nat) : (s.setFree x).queue = s.queue := rfl
@[simp] theorem State.setFree_tables (s : State) (x : Nat) : (s.setFree x).tables = s.tables := rfl
@[simp] theorem State.setFree_engine (s : State) (x : Nat) : (s.setFree x).engine = s.engine := rfl
@[simp] theorem State.setFree_intake (s : State) (x : Nat) : (s.setFree x).intake = s.intake := rfl
@[simp] theorem State.setFree_channels (s : State) (x : Nat) : (s.setFree x).channels = s.channels := rfl
@[simp] theorem State.setFree_couplerFilter (s : State) (x : Nat) : (s.setFree x).couplerFilter = s.couplerFilter := rfl
@[simp] theorem State.setFree_lens (s : State) (x : Nat) : (s.setFree x).lens = s.lens := rfl
@[simp] theorem State.setFree_store (s : State) (x : Nat) : (s.setFree x).store = s.store := rfl
@[simp] theorem State.setFree_cab (s : State) (x : Nat) : (s.setFree x).cab = s.cab := rfl
@[simp] theorem State.setFree_comp (s : State) (x : Nat) : (s.setFree x).comp = s.comp := rfl
@[simp] theorem State.setFree_service (s : State) (x : Nat) : (s.setFree x).service = s.service := rfl
@[simp] theorem State.setFree_confMem (s : State) (x : Nat) : (s.setFree x).confMem = s.confMem := rfl
@[simp] theorem State.setFree_pins (s : State) (x : Nat) : (s.setFree x).pins = s.pins := rfl
@[simp] theorem State.setFree_free (s : State) (x : Nat) : (s.setFree x).free = x := rfl
@[simp] theorem State.setFree_pending (s : State) (x : Nat) : (s.setFree x).pending = s.pending := rfl

@[simp] theorem State.setPending_cfg (s : State) (x : List Instr) : (s.setPending x).cfg = s.cfg := rfl
@[simp] theorem State.setPending_boot (s : State) (x : List Instr) : (s.setPending x).boot = s.boot := rfl
@[simp] theorem State.setPending_now (s : State) (x : List Instr) : (s.setPending x).now = s.now := rfl
@[simp] theorem State.setPending_clocked (s : State) (x : List Instr) : (s.setPending x).clocked = s.clocked := rfl
@[simp] theorem State.setPending_levels (s : State) (x : List Instr) : (s.setPending x).levels = s.levels := rfl
@[simp] theorem State.setPending_trunk (s : State) (x : List Instr) : (s.setPending x).trunk = s.trunk := rfl
@[simp] theorem State.setPending_queue (s : State) (x : List Instr) : (s.setPending x).queue = s.queue := rfl
@[simp] theorem State.setPending_tables (s : State) (x : List Instr) : (s.setPending x).tables = s.tables := rfl
@[simp] theorem State.setPending_engine (s : State) (x : List Instr) : (s.setPending x).engine = s.engine := rfl
@[simp] theorem State.setPending_intake (s : State) (x : List Instr) : (s.setPending x).intake = s.intake := rfl
@[simp] theorem State.setPending_channels (s : State) (x : List Instr) : (s.setPending x).channels = s.channels := rfl
@[simp] theorem State.setPending_couplerFilter (s : State) (x : List Instr) : (s.setPending x).couplerFilter = s.couplerFilter := rfl
@[simp] theorem State.setPending_lens (s : State) (x : List Instr) : (s.setPending x).lens = s.lens := rfl
@[simp] theorem State.setPending_store (s : State) (x : List Instr) : (s.setPending x).store = s.store := rfl
@[simp] theorem State.setPending_cab (s : State) (x : List Instr) : (s.setPending x).cab = s.cab := rfl
@[simp] theorem State.setPending_comp (s : State) (x : List Instr) : (s.setPending x).comp = s.comp := rfl
@[simp] theorem State.setPending_service (s : State) (x : List Instr) : (s.setPending x).service = s.service := rfl
@[simp] theorem State.setPending_confMem (s : State) (x : List Instr) : (s.setPending x).confMem = s.confMem := rfl
@[simp] theorem State.setPending_pins (s : State) (x : List Instr) : (s.setPending x).pins = s.pins := rfl
@[simp] theorem State.setPending_free (s : State) (x : List Instr) : (s.setPending x).free = s.free := rfl
@[simp] theorem State.setPending_pending (s : State) (x : List Instr) : (s.setPending x).pending = x := rfl

end Sys2Proof.Machine
end

