-- ==== Sys2Proof/Laws/Queue.lean ====
section
/-! SUPPORT. What the operations on the outbound control queue do to its form: no two entries of a subject (R11) and the
order of R12, kept by an offer, a withdrawal, a change of kind and the end of a frame. -/
namespace Sys2Proof.Machine

/-! ### Lists put in order -/

/-- An element put into a list is the element or one that stood there. -/
theorem mem_insertBy {α : Type} (before : α → α → Bool) (x y : α) (l : List α) :
    y ∈ insertBy before x l ↔ y = x ∨ y ∈ l := by
  induction l with
  | nil => simp [insertBy]
  | cons z zs ih =>
    unfold insertBy
    split
    · simp
    · simp only [List.mem_cons, ih]
      exact ⟨fun h => by rcases h with h | h | h <;> simp [h], fun h => by rcases h with h | h | h <;> simp [h]⟩

/-- What an element put into a list adds to its image is the element's image. -/
theorem map_insertBy_perm {α β : Type} (before : α → α → Bool) (f : α → β) (x : α) (l : List α) :
    ((insertBy before x l).map f).Perm (f x :: l.map f) := by
  induction l with
  | nil => simp [insertBy]
  | cons z zs ih =>
    unfold insertBy
    split
    · simp
    · simp only [List.map_cons]
      exact (ih.cons (f z)).trans (List.Perm.swap (f x) (f z) (zs.map f))

/-- Insertion keeps a list in order, for an order in which nothing that stands behind is before. -/
theorem pairwise_insertBy {α : Type} (before : α → α → Bool)
    (asymm : ∀ a b, before a b = true → before b a = false)
    (trans : ∀ a b c, before b a = false → before c b = false → before c a = false)
    (x : α) (l : List α) (h : l.Pairwise (fun a b => before b a = false)) :
    (insertBy before x l).Pairwise (fun a b => before b a = false) := by
  induction l with
  | nil => simp [insertBy]
  | cons y ys ih =>
    rw [List.pairwise_cons] at h
    unfold insertBy
    split
    · rename_i hxy
      refine List.pairwise_cons.mpr ⟨fun z hz => ?_, List.pairwise_cons.mpr h⟩
      rcases List.mem_cons.mp hz with rfl | hz
      · exact asymm _ _ hxy
      · exact trans _ _ _ (asymm _ _ hxy) (h.1 z hz)
    · rename_i hxy
      refine List.pairwise_cons.mpr ⟨fun z hz => ?_, ih h.2⟩
      rcases (mem_insertBy before x z ys).mp hz with rfl | hz
      · simpa using hxy
      · exact h.1 z hz

/-! ### The order of R12 -/

/-- The order of R12 in numbers. -/
theorem before_iff (a b : QueueEntry) : a.before b = true ↔
    a.subject.cls < b.subject.cls ∨ (a.subject.cls = b.subject.cls ∧
      (a.time < b.time ∨ (a.time = b.time ∧ a.subject.place < b.subject.place))) := by
  unfold QueueEntry.before
  split
  · split <;> simp only [decide_eq_true_eq] <;> omega
  · simp only [decide_eq_true_eq]
    omega

/-- Of two entries, one at most is before the other. -/
theorem before_asymm (a b : QueueEntry) (h : a.before b = true) : b.before a = false := by
  refine Bool.eq_false_iff.mpr (fun h2 => ?_)
  rw [before_iff] at h h2
  omega

/-- What is not before an entry is not before one that stands behind it. -/
theorem not_before_trans (a b c : QueueEntry) (h1 : b.before a = false) (h2 : c.before b = false) :
    c.before a = false := by
  refine Bool.eq_false_iff.mpr (fun h => ?_)
  rw [Bool.eq_false_iff] at h1 h2
  rw [ne_eq, before_iff] at h1 h2
  rw [before_iff] at h
  omega

/-- The order looks at subject and time only. -/
theorem before_congr (a b c d : QueueEntry) (h1 : a.subject = c.subject) (h2 : a.time = c.time)
    (h3 : b.subject = d.subject) (h4 : b.time = d.time) : a.before b = c.before d := by
  simp only [QueueEntry.before, h1, h2, h3, h4]

/-! ### The queue's form -/

/-- The queue holds no two entries of a subject and stands in order (R11, R12). -/
def QueueFormed (q : List QueueEntry) : Prop := QueueDistinct q ∧ QueueOrdered q

theorem queueFormed_nil : QueueFormed [] := by simp [QueueFormed, QueueDistinct, QueueOrdered]

/-- A queue without the entry of a subject. -/
theorem not_mem_of_not_holds (q : List QueueEntry) (sub : Subject) (h : queueHolds q sub = false) :
    sub ∉ q.map (fun e => e.subject) := by
  intro hm
  obtain ⟨e, he, rfl⟩ := List.mem_map.mp hm
  have : queueHolds q e.subject = true := List.any_eq_true.mpr ⟨e, he, by simp⟩
  simp [this] at h

/-- A new subject goes in at its place. -/
theorem QueueFormed.insert (q : List QueueEntry) (e : QueueEntry) (h : QueueFormed q)
    (hn : e.subject ∉ q.map (fun e => e.subject)) : QueueFormed (insertBy QueueEntry.before e q) := by
  refine ⟨?_, pairwise_insertBy _ before_asymm not_before_trans e q h.2⟩
  have hp := map_insertBy_perm QueueEntry.before (fun e => e.subject) e q
  exact hp.nodup_iff.mpr (List.nodup_cons.mpr ⟨hn, h.1⟩)

/-- The subjects of a queue after a change of kind. -/
theorem rekind_subjects (q : List QueueEntry) (sub : Subject) (k : SendKind) :
    (queueRekind q sub k).map (fun e => e.subject) = q.map (fun e => e.subject) := by
  unfold queueRekind
  rw [List.map_map]
  refine List.map_congr_left (fun e _ => ?_)
  simp only [Function.comp]
  split <;> rfl

/-- A change of kind keeps the form. -/
theorem QueueFormed.rekind (q : List QueueEntry) (sub : Subject) (k : SendKind) (h : QueueFormed q) :
    QueueFormed (queueRekind q sub k) := by
  refine ⟨by simpa only [QueueDistinct, rekind_subjects] using h.1, ?_⟩
  unfold QueueOrdered queueRekind
  refine List.pairwise_map.mpr (h.2.imp ?_)
  intro a b hab
  refine (before_congr _ _ b a ?_ ?_ ?_ ?_).trans hab <;> split <;> rfl

/-- Taking an entry out keeps the form. -/
theorem QueueFormed.remove (q : List QueueEntry) (sub : Subject) (h : QueueFormed q) :
    QueueFormed (queueRemove q sub) := by
  unfold queueRemove
  exact ⟨h.1.sublist ((List.filter_sublist).map _), h.2.sublist List.filter_sublist⟩

/-- A subject is gone from a queue that it has been taken out of. -/
theorem not_mem_remove (q : List QueueEntry) (sub : Subject) :
    sub ∉ (queueRemove q sub).map (fun e => e.subject) := by
  intro hm
  obtain ⟨e, he, hs⟩ := List.mem_map.mp hm
  have := (List.mem_filter.mp he).2
  simp [hs] at this

/-- An offer keeps the form (R13). -/
theorem QueueFormed.offer (q : List QueueEntry) (sub : Subject) (k : SendKind) (t : Nat) (h : QueueFormed q) :
    QueueFormed (queueOffer q sub k t) := by
  unfold queueOffer
  split
  · exact h.rekind q sub k
  · rename_i hh
    exact h.insert q _ (not_mem_of_not_holds q sub (by simpa using hh))

/-- The end of an own frame keeps the form (R9). -/
theorem QueueFormed.sent (q : List QueueEntry) (c : Sending) (h : QueueFormed q) : QueueFormed (queueSent q c) := by
  unfold queueSent
  split
  · exact h.remove q _
  · exact (h.remove q _).insert _ _ (not_mem_remove q c.subject)

/-- A clash keeps the form (R10). -/
theorem QueueFormed.clashed (q : List QueueEntry) (c : Sending) (h : QueueFormed q) :
    QueueFormed (queueClashed q c) := by
  unfold queueClashed
  split
  · exact h
  · exact h.rekind q _ _

/-- A control frame that ends so leaves the queue as its clash would (R10, R25). -/
@[simp] theorem endedQueue_control (c : Sending) (q : List QueueEntry) :
    (TrunkOut.control c).endedQueue q = queueClashed q c := rfl

/-- Any other transmission that ends leaves the queue as it is (R25). -/
theorem endedQueue_of_not_control {o : TrunkOut} (h : ∀ c, o ≠ .control c) (q : List QueueEntry) : o.endedQueue q = q := by
  cases o with
  | control c => exact absurd rfl (h c)
  | _ => rfl

/-- The end of a transmission that is neither sent nor clashed keeps the form (R25). -/
theorem QueueFormed.ended (q : List QueueEntry) (o : TrunkOut) (h : QueueFormed q) : QueueFormed (o.endedQueue q) := by
  cases o with
  | control c => exact h.clashed q c
  | _ => exact h

/-- Every subject, in the order of the rows of R11. -/
def allSubjects : List Subject :=
  allChans.map .door ++ allInputs.map .lens ++ [.cab] ++ allStreams.map .stream ++ [.want] ++ allPositions.map .deny
    ++ [.roster]

theorem mem_allSubjects (sub : Subject) : sub ∈ allSubjects := by
  have hc : ∀ c : Fin 4, Subject.door c ∈ allSubjects ∧ Subject.lens c ∈ allSubjects ∧ Subject.deny c ∈ allSubjects := by
    decide
  have hn : ∀ n : Fin 6, Subject.stream n ∈ allSubjects := by decide
  cases sub with
  | door c => exact (hc c).1
  | lens c => exact (hc c).2.1
  | deny c => exact (hc c).2.2
  | stream n => exact hn n
  | cab => decide
  | want => decide
  | roster => decide

/-- A queue with no two entries of a subject has at most 21 entries (R11). -/
theorem QueueDistinct.length_le (q : List QueueEntry) (h : QueueDistinct q) : q.length ≤ 21 := by
  have hs : q.map (fun e => e.subject) ⊆ allSubjects := fun x _ => mem_allSubjects x
  have := (List.subperm_of_subset h hs).length_le
  simpa [allSubjects, allChans, allInputs, allStreams, allPositions] using this

/-! ### What an offer leaves in the queue (R13) -/

/-- After an offer the queue holds the subject. -/
theorem queueHolds_offer (q : List QueueEntry) (sub : Subject) (k : SendKind) (t : Nat) :
    queueHolds (queueOffer q sub k t) sub = true := by
  unfold queueOffer
  split
  · rename_i h
    obtain ⟨e, he, hs⟩ := List.any_eq_true.mp h
    refine List.any_eq_true.mpr ⟨{ e with kind := k }, ?_, hs⟩
    exact List.mem_map.mpr ⟨e, he, by simp [hs]⟩
  · exact List.any_eq_true.mpr ⟨_, (mem_insertBy _ _ _ _).mpr (Or.inl rfl), by simp⟩

/-- A removal leaves no entry of the subject. -/
theorem queueHolds_remove (q : List QueueEntry) (sub : Subject) : queueHolds (queueRemove q sub) sub = false := by
  refine Bool.eq_false_iff.mpr (fun h => ?_)
  obtain ⟨e, he, hs⟩ := List.any_eq_true.mp h
  have := (List.mem_filter.mp he).2
  simp_all

end Sys2Proof.Machine
end

