-- ==== Sys2Proof/Laws/Keep.lean ====
section
/-! SUPPORT. What the operations of the Stream Engine, Cab Control and the Screen Composer can do: one lemma each says
that they change nothing but the queue, the stream engine, the cab state, the Composer and the pins, and that they keep
the queue's form. -/
set_option linter.unnecessarySeqFocus false
set_option linter.unusedTactic false
set_option linter.unreachableTactic false

namespace Sys2Proof.Machine

/-- Is the subject a door, a lens or the ROSTER: one that no change of the tables offers or withdraws? -/
def Subject.isLine : Subject → Bool
  | .door _ => true
  | .lens _ => true
  | .roster => true
  | _ => false

/-- From r to s nothing beside those parts changes, the queue keeps its form, its entries for doors, lenses and the
ROSTER stay, and and each of its entries stood in it or was made at the present moment. -/
structure Keeps (r s : State) : Prop where
  same : s.beside = r.beside
  queue : QueueFormed r.queue → QueueFormed s.queue
  lines : ∀ sub : Subject, sub.isLine = true → queueHolds s.queue sub = queueHolds r.queue sub
  fresh : ∀ e ∈ s.queue, (∃ d ∈ r.queue, d.subject = e.subject ∧ d.time = e.time) ∨ e.time = r.now

theorem Keeps.refl (s : State) : Keeps s s := ⟨rfl, id, fun _ _ => rfl, fun e he => .inl ⟨e, he, rfl, rfl⟩⟩

/-- Local time stands. -/
theorem Keeps.now {r s : State} (h : Keeps r s) : s.now = r.now :=
  show s.beside.now = r.beside.now from congrArg State.now h.same

theorem Keeps.trans {r s t : State} (h : Keeps r s) (h' : Keeps s t) : Keeps r t := by
  refine ⟨h'.same.trans h.same, fun q => h'.queue (h.queue q), fun x hx => (h'.lines x hx).trans (h.lines x hx),
    fun e he => ?_⟩
  rcases h'.fresh e he with ⟨d, hd, hs, ht⟩ | ht
  · rcases h.fresh d hd with ⟨c, hc, hs', ht'⟩ | ht'
    · exact .inl ⟨c, hc, hs'.trans hs, ht'.trans ht⟩
    · exact .inr (ht.symm.trans ht')
  · exact .inr (ht.trans h.now)

/-- Giving an entry another kind leaves the queue's subjects. -/
theorem queueHolds_rekind (q : List QueueEntry) (sub x : Subject) (k : SendKind) :
    queueHolds (queueRekind q sub k) x = queueHolds q x := by
  unfold queueHolds queueRekind
  rw [List.any_map]
  congr 1
  funext e
  simp only [Function.comp]
  split <;> rfl

/-- An offer for one subject leaves whether another one waits. -/
theorem queueHolds_offer_other (q : List QueueEntry) (sub x : Subject) (k : SendKind) (t : Nat) (h : x ≠ sub) :
    queueHolds (queueOffer q sub k t) x = queueHolds q x := by
  unfold queueOffer
  split
  · exact queueHolds_rekind q sub x k
  · unfold queueHolds
    rw [Bool.eq_iff_iff, List.any_eq_true, List.any_eq_true]
    constructor
    · rintro ⟨e, he, hx⟩
      rcases (mem_insertBy _ _ _ _).mp he with rfl | he
      · exact absurd (by simpa using hx) h.symm
      · exact ⟨e, he, hx⟩
    · rintro ⟨e, he, hx⟩
      exact ⟨e, (mem_insertBy _ _ _ _).mpr (Or.inr he), hx⟩

/-- A withdrawal of one subject leaves whether another one waits. -/
theorem queueHolds_remove_other (q : List QueueEntry) (sub x : Subject) (h : x ≠ sub) :
    queueHolds (queueRemove q sub) x = queueHolds q x := by
  unfold queueHolds queueRemove
  rw [Bool.eq_iff_iff, List.any_eq_true, List.any_eq_true]
  constructor
  · rintro ⟨e, he, hx⟩
    exact ⟨e, (List.mem_filter.mp he).1, hx⟩
  · rintro ⟨e, he, hx⟩
    refine ⟨e, List.mem_filter.mpr ⟨he, ?_⟩, hx⟩
    have hs : e.subject = x := by simpa using hx
    simp [hs, h]

@[simp] theorem ite_keeps {r s t : State} {c : Prop} [Decidable c] (h : Keeps r s) (h' : Keeps r t) :
    Keeps r (if c then s else t) := by split <;> assumption

@[simp] theorem setComp_keeps {r s : State} (x : Composer) (h : Keeps r s) : Keeps r (s.setComp x) := ⟨h.same, h.queue, h.lines, h.fresh⟩
@[simp] theorem setEngine_keeps {r s : State} (x : StreamEngine) (h : Keeps r s) : Keeps r (s.setEngine x) :=
  ⟨h.same, h.queue, h.lines, h.fresh⟩
@[simp] theorem setScreen_keeps {r s : State} (side : Side) (x : Screen) (h : Keeps r s) : Keeps r (s.setScreen side x) :=
  ⟨h.same, h.queue, h.lines, h.fresh⟩
@[simp] theorem setStream_keeps {r s : State} (n : StreamNo) (x : Option Stream) (h : Keeps r s) :
    Keeps r (s.setStream n x) := ⟨h.same, h.queue, h.lines, h.fresh⟩
@[simp] theorem setPins_keeps {r s : State} (x : Pins) (h : Keeps r s) : Keeps r (s.setPins x) := ⟨h.same, h.queue, h.lines, h.fresh⟩
@[simp] theorem setCabName_keeps {r s : State} (c : CabState) (h : Keeps r s) :
    Keeps r (s.setCab { s.cab with state := c }) := ⟨h.same, h.queue, h.lines, h.fresh⟩
theorem setOut_keeps {r s : State} (o : TrunkOut) (ho : o.base = s.trunk.out.base) (h : Keeps r s) :
    Keeps r (s.setTrunk { s.trunk with out := o }) := by
  refine ⟨?_, h.queue, h.lines, h.fresh⟩
  rw [← h.same]
  unfold State.beside
  rw [show (s.setTrunk { s.trunk with out := o }).trunk.out = o from rfl, ho]
  rfl
theorem setQueue_keeps {r s : State} (q : List QueueEntry) (hq : QueueFormed s.queue → QueueFormed q)
    (hl : ∀ sub : Subject, sub.isLine = true → queueHolds q sub = queueHolds s.queue sub)
    (hf : ∀ e ∈ q, (∃ d ∈ s.queue, d.subject = e.subject ∧ d.time = e.time) ∨ e.time = s.now) (h : Keeps r s) :
    Keeps r (s.setQueue q) :=
  h.trans ⟨rfl, hq, hl, hf⟩

/-- An entry after an offer stood in the queue or has the time of the offer. -/
theorem mem_queueOffer (q : List QueueEntry) (sub : Subject) (k : SendKind) (t : Nat) (e : QueueEntry)
    (he : e ∈ queueOffer q sub k t) : (∃ d ∈ q, d.subject = e.subject ∧ d.time = e.time) ∨ e.time = t := by
  unfold queueOffer at he
  split at he
  · obtain ⟨d, hd, rfl⟩ := List.mem_map.mp he
    exact .inl ⟨d, hd, by split <;> rfl, by split <;> rfl⟩
  · rcases (mem_insertBy _ _ _ _).mp he with rfl | he
    · exact .inr rfl
    · exact .inl ⟨e, he, rfl, rfl⟩

/-- A fold of operations that keep keeps. -/
theorem keeps_foldl {α : Type} {r s : State} (f : State → α → State) (l : List α)
    (hf : ∀ t x, Keeps r t → Keeps r (f t x)) (h : Keeps r s) : Keeps r (l.foldl f s) := by
  induction l generalizing s with
  | nil => exact h
  | cons x xs ih => exact ih (hf s x h)

theorem offer_keeps {r s : State} (sub : Subject) (k : SendKind) (hsub : sub.isLine = false)
    (h : Keeps r s) : Keeps r (offer sub k s) := by
  have hq := setQueue_keeps (queueOffer s.queue sub k s.now) (fun x => x.offer s.queue sub k s.now)
    (fun x hx => queueHolds_offer_other _ _ _ _ _ (by rintro rfl; simp [hsub] at hx)) (mem_queueOffer _ _ _ _) h
  unfold offer
  split
  · split
    · split
      · exact setOut_keeps _ (by simp [TrunkOut.base, *]) h
      · exact hq
    · exact hq
  · exact h

theorem withdraw_keeps {r s : State} (sub : Subject) (hsub : sub.isLine = false) (h : Keeps r s) :
    Keeps r (withdraw sub s) := by
  have hq := setQueue_keeps (queueRemove s.queue sub) (fun x => x.remove s.queue sub)
    (fun x hx => queueHolds_remove_other _ _ _ (by rintro rfl; simp [hsub] at hx))
    (fun e he => .inl ⟨e, (List.mem_filter.mp he).1, rfl, rfl⟩) h
  unfold withdraw
  split
  · split
    · exact setOut_keeps _ (by simp [TrunkOut.base, *]) h
    · exact hq
  · exact hq

@[simp] theorem offerWant_keeps {r s : State} (k : SendKind) (h : Keeps r s) : Keeps r (offer .want k s) :=
  offer_keeps _ k rfl h
@[simp] theorem offerCab_keeps {r s : State} (k : SendKind) (h : Keeps r s) : Keeps r (offer .cab k s) :=
  offer_keeps _ k rfl h
@[simp] theorem offerStream_keeps {r s : State} (n : StreamNo) (k : SendKind) (h : Keeps r s) :
    Keeps r (offer (.stream n) k s) := offer_keeps _ k rfl h
@[simp] theorem offerDeny_keeps {r s : State} (p : WantPos) (k : SendKind) (h : Keeps r s) :
    Keeps r (offer (.deny p) k s) := offer_keeps _ k rfl h
@[simp] theorem withdrawCab_keeps {r s : State} (h : Keeps r s) : Keeps r (withdraw .cab s) := withdraw_keeps _ rfl h
@[simp] theorem withdrawStream_keeps {r s : State} (n : StreamNo) (h : Keeps r s) :
    Keeps r (withdraw (.stream n) s) := withdraw_keeps _ rfl h

@[simp] theorem judgePanes_keeps {r s : State} (h : Keeps r s) :
    Keeps r (judgePanes s) := by
  unfold judgePanes
  first
  | ((repeat' split) <;> simp (maxDischargeDepth := 20) [h]; done)
  | (dsimp only; (repeat' split) <;> simp (maxDischargeDepth := 20) [h]; done)

@[simp] theorem settlePanes_keeps {r s : State} (h : Keeps r s) :
    Keeps r (settlePanes s) := by
  unfold settlePanes
  first
  | ((repeat' split) <;> simp (maxDischargeDepth := 20) [h]; done)
  | (dsimp only; (repeat' split) <;> simp (maxDischargeDepth := 20) [h]; done)

@[simp] theorem layoutSwitch_keeps {r s : State} (side : Side) (lay : ShownLayout) (h : Keeps r s) :
    Keeps r (layoutSwitch side lay s) := by
  unfold layoutSwitch
  first
  | ((repeat' split) <;> simp (maxDischargeDepth := 20) [h]; done)
  | (dsimp only; (repeat' split) <;> simp (maxDischargeDepth := 20) [h]; done)

@[simp] theorem showLayout_keeps {r s : State} (side : Side) (lay : ShownLayout) (h : Keeps r s) :
    Keeps r (showLayout side lay s) := by
  unfold showLayout
  first
  | ((repeat' split) <;> simp (maxDischargeDepth := 20) [h]; done)
  | (dsimp only; (repeat' split) <;> simp (maxDischargeDepth := 20) [h]; done)

@[simp] theorem reresolve_keeps {r s : State} (h : Keeps r s) :
    Keeps r (reresolve s) := by
  unfold reresolve
  first
  | ((repeat' split) <;> simp (maxDischargeDepth := 20) [h]; done)
  | (dsimp only; (repeat' split) <;> simp (maxDischargeDepth := 20) [h]; done)

@[simp] theorem composerTile_keeps {r s : State} (f : TileFilter) (hd : TileHeader) (payload : List Byte) (h : Keeps r s) :
    Keeps r (composerTile f hd payload s) := by
  unfold composerTile
  first
  | ((repeat' split) <;> simp (maxDischargeDepth := 20) [h]; done)
  | (dsimp only; (repeat' split) <;> simp (maxDischargeDepth := 20) [h]; done)

@[simp] theorem showKind_keeps {r s : State} (side : Side) (k : ViewKind) (h : Keeps r s) :
    Keeps r (showKind side k s) := by
  unfold showKind
  first
  | ((repeat' split) <;> simp (maxDischargeDepth := 20) [h]; done)
  | (dsimp only; (repeat' split) <;> simp (maxDischargeDepth := 20) [h]; done)

@[simp] theorem raise_keeps {r s : State} (side : Side) (k : ViewKind) (h : Keeps r s) :
    Keeps r (raise side k s) := by
  unfold raise
  first
  | ((repeat' split) <;> simp (maxDischargeDepth := 20) [h]; done)
  | (dsimp only; (repeat' split) <;> simp (maxDischargeDepth := 20) [h]; done)

@[simp] theorem lingerEnd_keeps {r s : State} (side : Side) (h : Keeps r s) :
    Keeps r (lingerEnd side s) := by
  unfold lingerEnd
  first
  | ((repeat' split) <;> simp (maxDischargeDepth := 20) [h]; done)
  | (dsimp only; (repeat' split) <;> simp (maxDischargeDepth := 20) [h]; done)

@[simp] theorem clear_keeps {r s : State} (side : Side) (k : ViewKind) (h : Keeps r s) :
    Keeps r (clear side k s) := by
  unfold clear
  first
  | ((repeat' split) <;> simp (maxDischargeDepth := 20) [h]; done)
  | (dsimp only; (repeat' split) <;> simp (maxDischargeDepth := 20) [h]; done)

@[simp] theorem followSpotDoor_keeps {r s : State} (side : Side) (h : Keeps r s) :
    Keeps r (followSpotDoor side s) := by
  unfold followSpotDoor
  first
  | ((repeat' split) <;> simp (maxDischargeDepth := 20) [h]; done)
  | (dsimp only; (repeat' split) <;> simp (maxDischargeDepth := 20) [h]; done)

@[simp] theorem judgeSide_keeps {r s : State} (side : Side) (h : Keeps r s) :
    Keeps r (judgeSide side s) := by
  unfold judgeSide
  refine keeps_foldl _ _ (fun t k ht => ?_) (keeps_foldl _ _ (fun t k ht => ?_) (followSpotDoor_keeps side h))
  · simp [ht]
  · simp [ht]

@[simp] theorem judgeViews_keeps {r s : State} (h : Keeps r s) :
    Keeps r (judgeViews s) := by
  unfold judgeViews
  first
  | ((repeat' split) <;> simp (maxDischargeDepth := 20) [h]; done)
  | (dsimp only; (repeat' split) <;> simp (maxDischargeDepth := 20) [h]; done)

@[simp] theorem settleViews_keeps {r s : State} (h : Keeps r s) :
    Keeps r (settleViews s) := by
  unfold settleViews
  first
  | ((repeat' split) <;> simp (maxDischargeDepth := 20) [h]; done)
  | (dsimp only; (repeat' split) <;> simp (maxDischargeDepth := 20) [h]; done)

@[simp] theorem enterScreen_keeps {r s : State} (side : Side) (h : Keeps r s) :
    Keeps r (enterScreen side s) := by
  unfold enterScreen
  first
  | ((repeat' split) <;> simp (maxDischargeDepth := 20) [h]; done)
  | (dsimp only; (repeat' split) <;> simp (maxDischargeDepth := 20) [h]; done)

@[simp] theorem enterActive_keeps {r s : State} (h : Keeps r s) :
    Keeps r (enterActive s) := by
  unfold enterActive
  first
  | ((repeat' split) <;> simp (maxDischargeDepth := 20) [h]; done)
  | (dsimp only; (repeat' split) <;> simp (maxDischargeDepth := 20) [h]; done)

@[simp] theorem leaveActive_keeps {r s : State} (h : Keeps r s) :
    Keeps r (leaveActive s) := by
  unfold leaveActive
  first
  | ((repeat' split) <;> simp (maxDischargeDepth := 20) [h]; done)
  | (dsimp only; (repeat' split) <;> simp (maxDischargeDepth := 20) [h]; done)

@[simp] theorem ackPress_keeps {r s : State} (h : Keeps r s) :
    Keeps r (ackPress s) := by
  unfold ackPress
  first
  | ((repeat' split) <;> simp (maxDischargeDepth := 20) [h]; done)
  | (dsimp only; (repeat' split) <;> simp (maxDischargeDepth := 20) [h]; done)

@[simp] theorem nextPress_keeps {r s : State} (side : Side) (h : Keeps r s) :
    Keeps r (nextPress side s) := by
  unfold nextPress
  first
  | ((repeat' split) <;> simp (maxDischargeDepth := 20) [h]; done)
  | (dsimp only; (repeat' split) <;> simp (maxDischargeDepth := 20) [h]; done)

@[simp] theorem settleWarnings_keeps {r s : State} (h : Keeps r s) :
    Keeps r (settleWarnings s) := by
  unfold settleWarnings
  first
  | ((repeat' split) <;> simp (maxDischargeDepth := 20) [h]; done)
  | (dsimp only; (repeat' split) <;> simp (maxDischargeDepth := 20) [h]; done)

/-- The subject of a queue operation. -/
def QueueOp.subject : QueueOp → Subject
  | .offer sub _ => sub
  | .withdraw sub => sub

/-- Queue operations for streams and DENYs alone. -/
def OpsFit (ops : List QueueOp) : Prop := ∀ o ∈ ops, o.subject.isLine = false

theorem applyQueueOps_keeps {r s : State} (ops : List QueueOp) (ho : OpsFit ops) (h : Keeps r s) :
    Keeps r (applyQueueOps ops s) := by
  unfold applyQueueOps
  induction ops generalizing s with
  | nil => exact h
  | cons o os ih =>
    have h1 := ho o (by simp)
    refine ih (fun x hx => ho x (by simp [hx])) ?_
    cases o with
    | offer sub k => exact offer_keeps sub k h1 h
    | withdraw sub => exact withdraw_keeps sub h1 h

theorem OpsFit.append {a b : List QueueOp} (ha : OpsFit a) (hb : OpsFit b) : OpsFit (a ++ b) := by
  intro o ho
  rcases List.mem_append.mp ho with h | h
  · exact ha o h
  · exact hb o h

theorem opsFit_offer (n : StreamNo) (k : SendKind) : OpsFit [.offer (.stream n) k] := by
  simp [OpsFit, QueueOp.subject, Subject.isLine]
theorem opsFit_withdraw (n : StreamNo) : OpsFit [.withdraw (.stream n)] := by
  simp [OpsFit, QueueOp.subject, Subject.isLine]

theorem fit_foldl {α : Type} (f : Eval → α → Eval) (hf : ∀ v x, OpsFit v.ops → OpsFit (f v x).ops) (l : List α)
    (v : Eval) (h : OpsFit v.ops) : OpsFit (l.foldl f v).ops := by
  induction l generalizing v with
  | nil => exact h
  | cons x xs ih => exact ih (f v x) (hf v x h)

theorem refuse_fit (v : Eval) (d : Demand) (r : RefusalReason) (h : OpsFit v.ops) : OpsFit (v.refuse d r).ops := by
  unfold Eval.refuse
  split <;> exact h

theorem take_fit (held : Vector (List Refused) 4) (live : Input → Bool) (v : Eval) (d : Demand) (h : OpsFit v.ops) :
    OpsFit (v.take held live d).ops := by
  unfold Eval.take
  repeat' split
  · exact h
  · exact refuse_fit _ _ _ h
  · exact refuse_fit _ _ _ h
  · exact refuse_fit _ _ _ h
  · exact h.append (opsFit_offer _ _)

theorem settleStream_fit (ds : List Demand) (t : StreamTable) (live : Input → Bool) (v : Eval) (n : StreamNo)
    (h : OpsFit v.ops) : OpsFit (v.settleStream ds t live n).ops := by
  unfold Eval.settleStream
  repeat' split
  all_goals first
    | exact h
    | exact h.append (opsFit_offer _ _)
    | exact h.append (opsFit_withdraw _)

theorem settleWanted_fit (ds : List Demand) (t : StreamTable) (v : Eval) (n : StreamNo) (h : OpsFit v.ops) :
    OpsFit (v.settleWanted ds t n).ops := by
  unfold Eval.settleWanted
  repeat' split
  all_goals exact h

theorem seekUpgrade_fit (free : Nat) (v : Eval) (h : OpsFit v.ops) : OpsFit (v.seekUpgrade free).ops := by
  unfold Eval.seekUpgrade
  repeat' split
  all_goals first
    | exact h
    | exact h.append (opsFit_offer _ _)

theorem denyOps_fit (applied : Option WantPos) (old new : Vector (List Refused) 4) : OpsFit (denyOps applied old new) := by
  intro o ho
  obtain ⟨p, _, rfl⟩ := List.mem_map.mp ho
  rfl

/-- An evaluation offers and withdraws entries of streams and DENYs alone (R49, R57). -/
theorem evaluation_fit (s : State) (lift : WantPos → Bool) (applied : Option WantPos) :
    OpsFit (s.evaluation lift applied).ops := by
  unfold State.evaluation
  refine OpsFit.append (seekUpgrade_fit _ _ ?_) ?_
  · refine fit_foldl _ (fun v n h => settleWanted_fit _ _ v n h) _ _ ?_
    refine fit_foldl _ (fun v n h => settleStream_fit _ _ _ v n h) _ _ ?_
    exact fit_foldl _ (fun v d h => take_fit _ _ v d h) _ _ (by simp [OpsFit])
  · exact denyOps_fit _ _ _

@[simp] theorem evaluateOnce_keeps {r s : State} (lift : WantPos → Bool) (applied : Option WantPos) (h : Keeps r s) :
    Keeps r (evaluateOnce lift applied s) := by
  unfold evaluateOnce
  exact applyQueueOps_keeps _ (evaluation_fit s lift applied) (setEngine_keeps _ h)

@[simp] theorem evaluateAgain_keeps {r s : State} (n : Nat) (h : Keeps r s) :
    Keeps r (evaluateAgain n s) := by
  induction n generalizing s with
  | zero => simpa [evaluateAgain] using h
  | succ n ih =>
    unfold evaluateAgain
    exact ite_keeps (evaluateOnce_keeps _ _ h) (ih (evaluateOnce_keeps _ _ h))

@[simp] theorem evaluate_keeps {r s : State} (lift : WantPos → Bool) (applied : Option WantPos) (h : Keeps r s) :
    Keeps r (evaluate lift applied s) := by
  unfold evaluate
  first
  | ((repeat' split) <;> simp (maxDischargeDepth := 20) [h]; done)
  | (dsimp only; (repeat' split) <;> simp (maxDischargeDepth := 20) [h]; done)

@[simp] theorem evaluateDemand_keeps {r s : State} (h : Keeps r s) :
    Keeps r (evaluateDemand s) := by
  unfold evaluateDemand
  first
  | ((repeat' split) <;> simp (maxDischargeDepth := 20) [h]; done)
  | (dsimp only; (repeat' split) <;> simp (maxDischargeDepth := 20) [h]; done)

@[simp] theorem mapStreams_keeps {r s : State} (f : Stream → Stream) (h : Keeps r s) :
    Keeps r (mapStreams f s) := by
  unfold mapStreams
  first
  | ((repeat' split) <;> simp (maxDischargeDepth := 20) [h]; done)
  | (dsimp only; (repeat' split) <;> simp (maxDischargeDepth := 20) [h]; done)

@[simp] theorem loseSlot_keeps {r s : State} (n : StreamNo) (left : List Slot) (h : Keeps r s) :
    Keeps r (loseSlot n left s) := by
  unfold loseSlot
  first
  | ((repeat' split) <;> simp (maxDischargeDepth := 20) [h]; done)
  | (dsimp only; (repeat' split) <;> simp (maxDischargeDepth := 20) [h]; done)

@[simp] theorem streamInputLost_keeps {r s : State} (i : Input) (n : StreamNo) (h : Keeps r s) :
    Keeps r (streamInputLost s i n) := by
  unfold streamInputLost
  (repeat' split) <;> simp [h]

@[simp] theorem streamsInputLost_keeps {r s : State} (i : Input) (h : Keeps r s) :
    Keeps r (streamsInputLost i s) := by
  unfold streamsInputLost
  exact evaluateDemand_keeps (keeps_foldl _ _ (fun t n ht => streamInputLost_keeps i n ht) h)

@[simp] theorem streamsInputLive_keeps {r s : State} (i : Input) (h : Keeps r s) :
    Keeps r (streamsInputLive i s) := by
  unfold streamsInputLive
  first
  | ((repeat' split) <;> simp (maxDischargeDepth := 20) [h]; done)
  | (dsimp only; (repeat' split) <;> simp (maxDischargeDepth := 20) [h]; done)

@[simp] theorem holdLimit_keeps {r s : State} (n : StreamNo) (h : Keeps r s) :
    Keeps r (holdLimit n s) := by
  unfold holdLimit
  first
  | ((repeat' split) <;> simp (maxDischargeDepth := 20) [h]; done)
  | (dsimp only; (repeat' split) <;> simp (maxDischargeDepth := 20) [h]; done)

@[simp] theorem declineClaim_keeps {r s : State} (n : StreamNo) (x : Stream) (h : Keeps r s) :
    Keeps r (declineClaim n x s) := by
  unfold declineClaim
  exact evaluateDemand_keeps (applyQueueOps_keeps _ (denyOps_fit _ _ _) (setEngine_keeps _ h))

@[simp] theorem mergeClaim_keeps {r s : State} (n o : StreamNo) (x : Stream) (h : Keeps r s) :
    Keeps r (mergeClaim n o x s) := by
  unfold mergeClaim
  first
  | ((repeat' split) <;> simp (maxDischargeDepth := 20) [h]; done)
  | (dsimp only; (repeat' split) <;> simp (maxDischargeDepth := 20) [h]; done)

@[simp] theorem fitClaim_keeps {r s : State} (n : StreamNo) (k : SizeClass) (x : Stream) (h : Keeps r s) :
    Keeps r (fitClaim n k x s) := by
  unfold fitClaim
  first
  | ((repeat' split) <;> simp (maxDischargeDepth := 20) [h]; done)
  | (dsimp only; (repeat' split) <;> simp (maxDischargeDepth := 20) [h]; done)

@[simp] theorem claimSent_keeps {r s : State} (n : StreamNo) (h : Keeps r s) :
    Keeps r (claimSent n s) := by
  unfold claimSent
  first
  | ((repeat' split) <;> simp (maxDischargeDepth := 20) [h]; done)
  | (dsimp only; (repeat' split) <;> simp (maxDischargeDepth := 20) [h]; done)

@[simp] theorem releaseSent_keeps {r s : State} (n : StreamNo) (h : Keeps r s) :
    Keeps r (releaseSent n s) := by
  unfold releaseSent
  first
  | ((repeat' split) <;> simp (maxDischargeDepth := 20) [h]; done)
  | (dsimp only; (repeat' split) <;> simp (maxDischargeDepth := 20) [h]; done)

@[simp] theorem setCabState_keeps {r s : State} (c : CabState) (h : Keeps r s) :
    Keeps r (setCabState c s) := by
  unfold setCabState
  first
  | ((repeat' split) <;> simp (maxDischargeDepth := 20) [h]; done)
  | (dsimp only; (repeat' split) <;> simp (maxDischargeDepth := 20) [h]; done)

@[simp] theorem cabOnChange_keeps {r s : State} (on : Bool) (h : Keeps r s) :
    Keeps r (cabOnChange on s) := by
  unfold cabOnChange
  first
  | ((repeat' split) <;> simp (maxDischargeDepth := 20) [h]; done)
  | (dsimp only; (repeat' split) <;> simp (maxDischargeDepth := 20) [h]; done)

@[simp] theorem ownCabSent_keeps {r s : State} (take : Bool) (h : Keeps r s) :
    Keeps r (ownCabSent take s) := by
  unfold ownCabSent
  first
  | ((repeat' split) <;> simp (maxDischargeDepth := 20) [h]; done)
  | (dsimp only; (repeat' split) <;> simp (maxDischargeDepth := 20) [h]; done)

@[simp] theorem cabRecordChanged_keeps {r s : State} (old : Option CabRecord) (named : Bool) (h : Keeps r s) :
    Keeps r (cabRecordChanged old named s) := by
  unfold cabRecordChanged
  first
  | ((repeat' split) <;> simp (maxDischargeDepth := 20) [h]; done)
  | (dsimp only; (repeat' split) <;> simp (maxDischargeDepth := 20) [h]; done)

@[simp] theorem cabRenumbered_keeps {r s : State} (h : Keeps r s) :
    Keeps r (cabRenumbered s) := by
  unfold cabRenumbered
  first
  | ((repeat' split) <;> simp (maxDischargeDepth := 20) [h]; done)
  | (dsimp only; (repeat' split) <;> simp (maxDischargeDepth := 20) [h]; done)

@[simp] theorem dropWants_keeps {r s : State} (ps : List WantPos) (h : Keeps r s) :
    Keeps r (dropWants ps s) := by
  unfold dropWants
  refine applyQueueOps_keeps _ (fun o ho => ?_) (setEngine_keeps _ h)
  obtain ⟨p, _, rfl⟩ := List.mem_map.mp ho
  rfl

@[simp] theorem loseSlots_keeps {r s : State} (a : Addr) (old : Vector SlotEntry 24) (h : Keeps r s) :
    Keeps r (loseSlots a old s) := by
  unfold loseSlots
  exact keeps_foldl _ _ (fun t n ht => loseSlot_keeps n _ ht) h

@[simp] theorem engineTables_keeps {r s : State} (applied : Option WantPos) (old : Tables) (h : Keeps r s) :
    Keeps r (engineTables applied old s) := by
  unfold engineTables
  first
  | ((repeat' split) <;> simp (maxDischargeDepth := 20) [h]; done)
  | (dsimp only; (repeat' split) <;> simp (maxDischargeDepth := 20) [h]; done)

@[simp] theorem composerTables_keeps {r s : State} (old : Tables) (h : Keeps r s) :
    Keeps r (composerTables old s) := by
  unfold composerTables
  first
  | ((repeat' split) <;> simp (maxDischargeDepth := 20) [h]; done)
  | (dsimp only; (repeat' split) <;> simp (maxDischargeDepth := 20) [h]; done)

@[simp] theorem handTables_keeps {r s : State} (applied : Option WantPos) (before : State) (h : Keeps r s) :
    Keeps r (handTables applied before s) := by
  unfold handTables
  first
  | ((repeat' split) <;> simp (maxDischargeDepth := 20) [h]; done)
  | (dsimp only; (repeat' split) <;> simp (maxDischargeDepth := 20) [h]; done)

end Sys2Proof.Machine
end

