-- ==== Sys2Proof/Laws/KeepTables.lean ====
section
/-! SUPPORT. What the operations of the Consist Tables can do: one lemma each says that they change nothing but what the
blocks they hand to change, the tables, and the Trunk Port's state, half, hearing and contention, and that they keep the
queue's form. -/
set_option linter.unnecessarySeqFocus false
set_option linter.unusedTactic false
set_option linter.unreachableTactic false

namespace Sys2Proof.Machine

/-- The Trunk Port without what the tables' operations change. -/
def Trunk.traffic (t : Trunk) : Trunk :=
  { t with state := .inert, renumbered := false, half := 0, candidate := false, markInListen := false
           contending := none, out := .idle, consecClash := 0 }

/-- The state without what the tables' operations change. -/
def State.apart (s : State) : State := { s.beside with tables := Tables.reset, trunk := s.trunk.traffic }

/-- From r to s nothing apart from those parts changes, and the queue keeps its form. -/
structure KeepsApart (r s : State) : Prop where
  same : s.apart = r.apart
  queue : QueueFormed r.queue → QueueFormed s.queue

theorem KeepsApart.refl (s : State) : KeepsApart s s := ⟨rfl, id⟩

theorem KeepsApart.trans {r s t : State} (h : KeepsApart r s) (h' : KeepsApart s t) : KeepsApart r t :=
  ⟨h'.same.trans h.same, fun q => h'.queue (h.queue q)⟩

/-- What stands apart can be read from what stands beside. -/
theorem apart_of_beside (s : State) :
    s.apart = { s.beside with tables := Tables.reset, trunk := s.beside.trunk.traffic } := rfl

theorem KeepsApart.and_then {r s t : State} (h : KeepsApart r s) (h' : Keeps s t) : KeepsApart r t := by
  refine ⟨?_, fun q => h'.queue (h.queue q)⟩
  rw [apart_of_beside, h'.same, ← apart_of_beside]
  exact h.same

@[simp] theorem ite_apart {r s t : State} {c : Prop} [Decidable c] (h : KeepsApart r s) (h' : KeepsApart r t) :
    KeepsApart r (if c then s else t) := by split <;> assumption

/-- Setting the transmission to one with the same base, and the queue to one of the same form, keeps. -/
theorem setOut_apart {r s : State} (o : TrunkOut) (h : KeepsApart r s) :
    KeepsApart r (s.setTrunk { s.trunk with out := o }) := ⟨h.same, h.queue⟩

theorem setQueue_apart {r s : State} (q : List QueueEntry) (hq : QueueFormed s.queue → QueueFormed q)
    (h : KeepsApart r s) : KeepsApart r (s.setQueue q) := ⟨h.same, fun x => hq (h.queue x)⟩

@[simp] theorem offer_apart {r s : State} (sub : Subject) (k : SendKind) (h : KeepsApart r s) :
    KeepsApart r (offer sub k s) := by
  have hq := setQueue_apart (queueOffer s.queue sub k s.now) (fun x => x.offer s.queue sub k s.now) h
  unfold offer
  split
  · split
    · split
      · exact setOut_apart _ h
      · exact hq
    · exact hq
  · exact h

@[simp] theorem withdraw_apart {r s : State} (sub : Subject) (h : KeepsApart r s) : KeepsApart r (withdraw sub s) := by
  have hq := setQueue_apart (queueRemove s.queue sub) (fun x => x.remove s.queue sub) h
  unfold withdraw
  split
  · split
    · exact setOut_apart _ h
    · exact hq
  · exact hq

@[simp] theorem setTables_apart {r s : State} (x : Tables) (h : KeepsApart r s) : KeepsApart r (s.setTables x) :=
  ⟨h.same, h.queue⟩
@[simp] theorem setComp_apart {r s : State} (x : Composer) (h : KeepsApart r s) : KeepsApart r (s.setComp x) :=
  ⟨h.same, h.queue⟩
@[simp] theorem setEngine_apart {r s : State} (x : StreamEngine) (h : KeepsApart r s) : KeepsApart r (s.setEngine x) :=
  ⟨h.same, h.queue⟩
@[simp] theorem setQueueNil_apart {r s : State} (h : KeepsApart r s) : KeepsApart r (s.setQueue []) :=
  ⟨h.same, fun _ => queueFormed_nil⟩
theorem setTrunk_apart {r s : State} (x : Trunk) (hx : x.traffic = s.trunk.traffic) (h : KeepsApart r s) :
    KeepsApart r (s.setTrunk x) := by
  refine ⟨?_, h.queue⟩
  rw [← h.same]
  unfold State.apart
  rw [show (s.setTrunk x).trunk = x from rfl, hx]
  rfl

@[simp] theorem judgePanes_apart {r s : State} (h : KeepsApart r s) : KeepsApart r (judgePanes s) :=
  h.and_then (judgePanes_keeps  (Keeps.refl s))

@[simp] theorem settlePanes_apart {r s : State} (h : KeepsApart r s) : KeepsApart r (settlePanes s) :=
  h.and_then (settlePanes_keeps  (Keeps.refl s))

@[simp] theorem layoutSwitch_apart {r s : State} (side : Side) (lay : ShownLayout) (h : KeepsApart r s) : KeepsApart r (layoutSwitch side lay s) :=
  h.and_then (layoutSwitch_keeps _ _ (Keeps.refl s))

@[simp] theorem showLayout_apart {r s : State} (side : Side) (lay : ShownLayout) (h : KeepsApart r s) : KeepsApart r (showLayout side lay s) :=
  h.and_then (showLayout_keeps _ _ (Keeps.refl s))

@[simp] theorem reresolve_apart {r s : State} (h : KeepsApart r s) : KeepsApart r (reresolve s) :=
  h.and_then (reresolve_keeps  (Keeps.refl s))

@[simp] theorem composerTile_apart {r s : State} (f : TileFilter) (hd : TileHeader) (payload : List Byte) (h : KeepsApart r s) : KeepsApart r (composerTile f hd payload s) :=
  h.and_then (composerTile_keeps _ _ _ (Keeps.refl s))

@[simp] theorem showKind_apart {r s : State} (side : Side) (k : ViewKind) (h : KeepsApart r s) : KeepsApart r (showKind side k s) :=
  h.and_then (showKind_keeps _ _ (Keeps.refl s))

@[simp] theorem raise_apart {r s : State} (side : Side) (k : ViewKind) (h : KeepsApart r s) : KeepsApart r (raise side k s) :=
  h.and_then (raise_keeps _ _ (Keeps.refl s))

@[simp] theorem lingerEnd_apart {r s : State} (side : Side) (h : KeepsApart r s) : KeepsApart r (lingerEnd side s) :=
  h.and_then (lingerEnd_keeps _ (Keeps.refl s))

@[simp] theorem clear_apart {r s : State} (side : Side) (k : ViewKind) (h : KeepsApart r s) : KeepsApart r (clear side k s) :=
  h.and_then (clear_keeps _ _ (Keeps.refl s))

@[simp] theorem followSpotDoor_apart {r s : State} (side : Side) (h : KeepsApart r s) : KeepsApart r (followSpotDoor side s) :=
  h.and_then (followSpotDoor_keeps _ (Keeps.refl s))

@[simp] theorem judgeSide_apart {r s : State} (side : Side) (h : KeepsApart r s) : KeepsApart r (judgeSide side s) :=
  h.and_then (judgeSide_keeps _ (Keeps.refl s))

@[simp] theorem judgeViews_apart {r s : State} (h : KeepsApart r s) : KeepsApart r (judgeViews s) :=
  h.and_then (judgeViews_keeps  (Keeps.refl s))

@[simp] theorem settleViews_apart {r s : State} (h : KeepsApart r s) : KeepsApart r (settleViews s) :=
  h.and_then (settleViews_keeps  (Keeps.refl s))

@[simp] theorem enterScreen_apart {r s : State} (side : Side) (h : KeepsApart r s) : KeepsApart r (enterScreen side s) :=
  h.and_then (enterScreen_keeps _ (Keeps.refl s))

@[simp] theorem enterActive_apart {r s : State} (h : KeepsApart r s) : KeepsApart r (enterActive s) :=
  h.and_then (enterActive_keeps  (Keeps.refl s))

@[simp] theorem leaveActive_apart {r s : State} (h : KeepsApart r s) : KeepsApart r (leaveActive s) :=
  h.and_then (leaveActive_keeps  (Keeps.refl s))

@[simp] theorem ackPress_apart {r s : State} (h : KeepsApart r s) : KeepsApart r (ackPress s) :=
  h.and_then (ackPress_keeps  (Keeps.refl s))

@[simp] theorem nextPress_apart {r s : State} (side : Side) (h : KeepsApart r s) : KeepsApart r (nextPress side s) :=
  h.and_then (nextPress_keeps _ (Keeps.refl s))

@[simp] theorem settleWarnings_apart {r s : State} (h : KeepsApart r s) : KeepsApart r (settleWarnings s) :=
  h.and_then (settleWarnings_keeps  (Keeps.refl s))

@[simp] theorem applyQueueOps_apart {r s : State} (ops : List QueueOp) (h : KeepsApart r s) :
    KeepsApart r (applyQueueOps ops s) := by
  unfold applyQueueOps
  induction ops generalizing s with
  | nil => exact h
  | cons o os ih => exact ih (by cases o <;> simp [applyQueueOp, h])

@[simp] theorem evaluateOnce_apart {r s : State} (lift : WantPos → Bool) (applied : Option WantPos) (h : KeepsApart r s) : KeepsApart r (evaluateOnce lift applied s) :=
  h.and_then (evaluateOnce_keeps _ _ (Keeps.refl s))

@[simp] theorem evaluateAgain_apart {r s : State} (n : Nat) (h : KeepsApart r s) : KeepsApart r (evaluateAgain n s) :=
  h.and_then (evaluateAgain_keeps _ (Keeps.refl s))

@[simp] theorem evaluate_apart {r s : State} (lift : WantPos → Bool) (applied : Option WantPos) (h : KeepsApart r s) : KeepsApart r (evaluate lift applied s) :=
  h.and_then (evaluate_keeps _ _ (Keeps.refl s))

@[simp] theorem evaluateDemand_apart {r s : State} (h : KeepsApart r s) : KeepsApart r (evaluateDemand s) :=
  h.and_then (evaluateDemand_keeps  (Keeps.refl s))

@[simp] theorem mapStreams_apart {r s : State} (f : Stream → Stream) (h : KeepsApart r s) : KeepsApart r (mapStreams f s) :=
  h.and_then (mapStreams_keeps _ (Keeps.refl s))

@[simp] theorem loseSlot_apart {r s : State} (n : StreamNo) (left : List Slot) (h : KeepsApart r s) : KeepsApart r (loseSlot n left s) :=
  h.and_then (loseSlot_keeps _ _ (Keeps.refl s))

@[simp] theorem streamsInputLost_apart {r s : State} (i : Input) (h : KeepsApart r s) : KeepsApart r (streamsInputLost i s) :=
  h.and_then (streamsInputLost_keeps _ (Keeps.refl s))

@[simp] theorem streamsInputLive_apart {r s : State} (i : Input) (h : KeepsApart r s) : KeepsApart r (streamsInputLive i s) :=
  h.and_then (streamsInputLive_keeps _ (Keeps.refl s))

@[simp] theorem holdLimit_apart {r s : State} (n : StreamNo) (h : KeepsApart r s) : KeepsApart r (holdLimit n s) :=
  h.and_then (holdLimit_keeps _ (Keeps.refl s))

@[simp] theorem declineClaim_apart {r s : State} (n : StreamNo) (x : Stream) (h : KeepsApart r s) : KeepsApart r (declineClaim n x s) :=
  h.and_then (declineClaim_keeps _ _ (Keeps.refl s))

@[simp] theorem mergeClaim_apart {r s : State} (n o : StreamNo) (x : Stream) (h : KeepsApart r s) : KeepsApart r (mergeClaim n o x s) :=
  h.and_then (mergeClaim_keeps _ _ _ (Keeps.refl s))

@[simp] theorem fitClaim_apart {r s : State} (n : StreamNo) (k : SizeClass) (x : Stream) (h : KeepsApart r s) : KeepsApart r (fitClaim n k x s) :=
  h.and_then (fitClaim_keeps _ _ _ (Keeps.refl s))

@[simp] theorem claimSent_apart {r s : State} (n : StreamNo) (h : KeepsApart r s) : KeepsApart r (claimSent n s) :=
  h.and_then (claimSent_keeps _ (Keeps.refl s))

@[simp] theorem releaseSent_apart {r s : State} (n : StreamNo) (h : KeepsApart r s) : KeepsApart r (releaseSent n s) :=
  h.and_then (releaseSent_keeps _ (Keeps.refl s))

@[simp] theorem setCabState_apart {r s : State} (c : CabState) (h : KeepsApart r s) : KeepsApart r (setCabState c s) :=
  h.and_then (setCabState_keeps _ (Keeps.refl s))

@[simp] theorem cabOnChange_apart {r s : State} (on : Bool) (h : KeepsApart r s) : KeepsApart r (cabOnChange on s) :=
  h.and_then (cabOnChange_keeps _ (Keeps.refl s))

@[simp] theorem ownCabSent_apart {r s : State} (take : Bool) (h : KeepsApart r s) : KeepsApart r (ownCabSent take s) :=
  h.and_then (ownCabSent_keeps _ (Keeps.refl s))

@[simp] theorem cabRecordChanged_apart {r s : State} (old : Option CabRecord) (named : Bool) (h : KeepsApart r s) : KeepsApart r (cabRecordChanged old named s) :=
  h.and_then (cabRecordChanged_keeps _ _ (Keeps.refl s))

@[simp] theorem cabRenumbered_apart {r s : State} (h : KeepsApart r s) : KeepsApart r (cabRenumbered s) :=
  h.and_then (cabRenumbered_keeps  (Keeps.refl s))

@[simp] theorem dropWants_apart {r s : State} (ps : List WantPos) (h : KeepsApart r s) : KeepsApart r (dropWants ps s) :=
  h.and_then (dropWants_keeps _ (Keeps.refl s))

@[simp] theorem loseSlots_apart {r s : State} (a : Addr) (old : Vector SlotEntry 24) (h : KeepsApart r s) : KeepsApart r (loseSlots a old s) :=
  h.and_then (loseSlots_keeps _ _ (Keeps.refl s))

@[simp] theorem engineTables_apart {r s : State} (applied : Option WantPos) (old : Tables) (h : KeepsApart r s) : KeepsApart r (engineTables applied old s) :=
  h.and_then (engineTables_keeps _ _ (Keeps.refl s))

@[simp] theorem composerTables_apart {r s : State} (old : Tables) (h : KeepsApart r s) : KeepsApart r (composerTables old s) :=
  h.and_then (composerTables_keeps _ (Keeps.refl s))

@[simp] theorem handTables_apart {r s : State} (applied : Option WantPos) (before : State) (h : KeepsApart r s) : KeepsApart r (handTables applied before s) :=
  h.and_then (handTables_keeps _ _ (Keeps.refl s))

@[simp] theorem changeTables_apart {r s : State} (t : Tables) (h : KeepsApart r s) :
    KeepsApart r (changeTables t s) := by
  unfold changeTables
  exact handTables_apart _ _ (setTables_apart t h)

@[simp] theorem clearOwnRecord_apart {r s : State} (h : KeepsApart r s) :
    KeepsApart r (clearOwnRecord s) := by
  unfold clearOwnRecord
  first
  | ((repeat' split) <;> simp (maxDischargeDepth := 20) [h]; done)
  | (dsimp only; (repeat' split) <;> simp (maxDischargeDepth := 20) [h]; done)

@[simp] theorem cabExcluded_apart {r s : State} (h : KeepsApart r s) :
    KeepsApart r (cabExcluded s) := by
  unfold cabExcluded
  first
  | ((repeat' split) <;> simp (maxDischargeDepth := 20) [h]; done)
  | (dsimp only; (repeat' split) <;> simp (maxDischargeDepth := 20) [h]; done)

@[simp] theorem enterListen_apart {r s : State} (b : Bool) (h : KeepsApart r s) :
    KeepsApart r (enterListen b s) := by
  exact setTrunk_apart _ rfl h

@[simp] theorem enterExcluded_apart {r s : State} (x : ExclReason) (h : KeepsApart r s) :
    KeepsApart r (enterExcluded x s) := by
  unfold enterExcluded
  split
  · exact setTrunk_apart _ rfl h
  · exact cabExcluded_apart (setTrunk_apart _ rfl (setQueue_apart _ (fun q => q.ended s.queue s.trunk.out) h))

@[simp] theorem renumber_apart {r s : State} (x : Fin 2) (h : KeepsApart r s) :
    KeepsApart r (renumber x s) := by
  unfold renumber
  refine settleWarnings_apart (enterListen_apart _ (cabRenumbered_apart (setTables_apart _ (setTrunk_apart _ rfl ?_))))
  exact setQueueNil_apart (setEngine_apart _ h)

@[simp] theorem foreignChanged_apart {r s : State} (k : Nat) (h : KeepsApart r s) :
    KeepsApart r (foreignChanged k s) := by
  unfold foreignChanged
  first
  | ((repeat' split) <;> simp (maxDischargeDepth := 20) [h]; done)
  | (dsimp only; (repeat' split) <;> simp (maxDischargeDepth := 20) [h]; done)

@[simp] theorem hearTag_apart {r s : State} (tag : Word) (h : KeepsApart r s) :
    KeepsApart r (hearTag tag s) := by
  unfold hearTag
  first
  | ((repeat' split) <;> simp (maxDischargeDepth := 20) [h]; done)
  | (dsimp only; (repeat' split) <;> simp (maxDischargeDepth := 20) [h]; done)

@[simp] theorem dropTag_apart {r s : State} (tag : Word) (h : KeepsApart r s) :
    KeepsApart r (dropTag tag s) := by
  unfold dropTag
  first
  | ((repeat' split) <;> simp (maxDischargeDepth := 20) [h]; done)
  | (dsimp only; (repeat' split) <;> simp (maxDischargeDepth := 20) [h]; done)

theorem takeItem_apart {r s : State} (own : Bool) (a : Addr) (tag : Word) (f : State → State)
    (hf : ∀ t, KeepsApart r t → KeepsApart r (f t)) (h : KeepsApart r s) : KeepsApart r (takeItem own a tag f s) := by
  unfold takeItem
  dsimp only
  split
  · split
    · simp [h]
    · exact hf _ (changeTables_apart _ (hearTag_apart tag h))
  · exact h

@[simp] theorem applyRoster_apart {r s : State} (a : Addr) (tag : Word) (c : Option RosterContent) (h : KeepsApart r s) :
    KeepsApart r (applyRoster a tag c s) := by
  unfold applyRoster
  first
  | ((repeat' split) <;> simp (maxDischargeDepth := 20) [h]; done)
  | (dsimp only; (repeat' split) <;> simp (maxDischargeDepth := 20) [h]; done)

@[simp] theorem applyDoor_apart {r s : State} (a : Addr) (c : Option (Chan × DoorPhase)) (h : KeepsApart r s) :
    KeepsApart r (applyDoor a c s) := by
  unfold applyDoor
  first
  | ((repeat' split) <;> simp (maxDischargeDepth := 20) [h]; done)
  | (dsimp only; (repeat' split) <;> simp (maxDischargeDepth := 20) [h]; done)

@[simp] theorem applyLens_apart {r s : State} (a : Addr) (c : Option (Input × Grade)) (f : Byte) (h : KeepsApart r s) :
    KeepsApart r (applyLens a c f s) := by
  unfold applyLens
  first
  | ((repeat' split) <;> simp (maxDischargeDepth := 20) [h]; done)
  | (dsimp only; (repeat' split) <;> simp (maxDischargeDepth := 20) [h]; done)

@[simp] theorem applyCab_apart {r s : State} (a : Addr) (tag : Word) (c : Option (Bool × TramEnd)) (h : KeepsApart r s) :
    KeepsApart r (applyCab a tag c s) := by
  unfold applyCab
  first
  | ((repeat' split) <;> simp (maxDischargeDepth := 20) [h]; done)
  | (dsimp only; (repeat' split) <;> simp (maxDischargeDepth := 20) [h]; done)

@[simp] theorem putWant_apart {r s : State} (p : WantPos) (a : Addr) (ws : List WantEntry) (h : KeepsApart r s) :
    KeepsApart r (putWant p a ws s) := by
  unfold putWant
  first
  | ((repeat' split) <;> simp (maxDischargeDepth := 20) [h]; done)
  | (dsimp only; (repeat' split) <;> simp (maxDischargeDepth := 20) [h]; done)

@[simp] theorem applyWant_apart {r s : State} (a : Addr) (c : Option (List WantEntry)) (h : KeepsApart r s) :
    KeepsApart r (applyWant a c s) := by
  unfold applyWant
  first
  | ((repeat' split) <;> simp (maxDischargeDepth := 20) [h]; done)
  | (dsimp only; (repeat' split) <;> simp (maxDischargeDepth := 20) [h]; done)

@[simp] theorem applyClaim_apart {r s : State} (c : Option (StreamId × List Slot)) (h : KeepsApart r s) :
    KeepsApart r (applyClaim c s) := by
  unfold applyClaim
  first
  | ((repeat' split) <;> simp (maxDischargeDepth := 20) [h]; done)
  | (dsimp only; (repeat' split) <;> simp (maxDischargeDepth := 20) [h]; done)

@[simp] theorem applyRelease_apart {r s : State} (a : Addr) (c : Option (StreamNo × List Slot)) (h : KeepsApart r s) :
    KeepsApart r (applyRelease a c s) := by
  unfold applyRelease
  first
  | ((repeat' split) <;> simp (maxDischargeDepth := 20) [h]; done)
  | (dsimp only; (repeat' split) <;> simp (maxDischargeDepth := 20) [h]; done)

@[simp] theorem applyDeny_apart {r s : State} (a : Addr) (c : Option (Addr × List Refused)) (h : KeepsApart r s) :
    KeepsApart r (applyDeny a c s) := by
  unfold applyDeny
  first
  | ((repeat' split) <;> simp (maxDischargeDepth := 20) [h]; done)
  | (dsimp only; (repeat' split) <;> simp (maxDischargeDepth := 20) [h]; done)

@[simp] theorem applyBody_apart {r s : State} (a : Addr) (tag : Word) (b : FrameBody) (h : KeepsApart r s) :
    KeepsApart r (applyBody a tag b s) := by
  cases b <;> simp [applyBody, h]

@[simp] theorem takeFrame_apart {r s : State} (own : Bool) (f : ControlFrame) (h : KeepsApart r s) :
    KeepsApart r (takeFrame own f s) := by
  unfold takeFrame
  exact takeItem_apart own _ _ _ (fun t ht => applyBody_apart _ _ _ ht) h

@[simp] theorem observe_apart {r s : State} (n : Slot) (f : SlotEntry → SlotEntry) (h : KeepsApart r s) :
    KeepsApart r (observe n f s) := by
  unfold observe
  first
  | ((repeat' split) <;> simp (maxDischargeDepth := 20) [h]; done)
  | (dsimp only; (repeat' split) <;> simp (maxDischargeDepth := 20) [h]; done)

@[simp] theorem observeHeader_apart {r s : State} (own : Bool) (n : Slot) (hd : TileHeader) (h : KeepsApart r s) :
    KeepsApart r (observeHeader own n hd s) := by
  unfold observeHeader
  exact takeItem_apart own _ _ _ (fun t ht => observe_apart n _ ht) h

@[simp] theorem reclaimSlot_apart {r s : State} (n : Slot) (h : KeepsApart r s) :
    KeepsApart r (reclaimSlot n s) := by
  unfold reclaimSlot
  first
  | ((repeat' split) <;> simp (maxDischargeDepth := 20) [h]; done)
  | (dsimp only; (repeat' split) <;> simp (maxDischargeDepth := 20) [h]; done)

@[simp] theorem stationGone_apart {r s : State} (a : Addr) (h : KeepsApart r s) :
    KeepsApart r (stationGone a s) := by
  unfold stationGone
  first
  | ((repeat' split) <;> simp (maxDischargeDepth := 20) [h]; done)
  | (dsimp only; (repeat' split) <;> simp (maxDischargeDepth := 20) [h]; done)

@[simp] theorem tagAgedOut_apart {r s : State} (tag : Word) (h : KeepsApart r s) :
    KeepsApart r (tagAgedOut tag s) := by
  unfold tagAgedOut
  first
  | ((repeat' split) <;> simp (maxDischargeDepth := 20) [h]; done)
  | (dsimp only; (repeat' split) <;> simp (maxDischargeDepth := 20) [h]; done)

@[simp] theorem purgeTram_apart {r s : State} (tag : Word) (h : KeepsApart r s) :
    KeepsApart r (purgeTram tag s) := by
  unfold purgeTram
  first
  | ((repeat' split) <;> simp (maxDischargeDepth := 20) [h]; done)
  | (dsimp only; (repeat' split) <;> simp (maxDischargeDepth := 20) [h]; done)

@[simp] theorem wantExpiry_apart {r s : State} (p : WantPos) (h : KeepsApart r s) :
    KeepsApart r (wantExpiry p s) := by
  unfold wantExpiry
  first
  | ((repeat' split) <;> simp (maxDischargeDepth := 20) [h]; done)
  | (dsimp only; (repeat' split) <;> simp (maxDischargeDepth := 20) [h]; done)

@[simp] theorem roundTick_apart {r s : State} (h : KeepsApart r s) :
    KeepsApart r (roundTick s) := by
  unfold roundTick
  first
  | ((repeat' split) <;> simp (maxDischargeDepth := 20) [h]; done)
  | (dsimp only; (repeat' split) <;> simp (maxDischargeDepth := 20) [h]; done)

end Sys2Proof.Machine
end

