-- ==== Sys2Proof/Laws/Memory.lean ====
section
/-! SUPPORT. The configuration memory: what a write leaves to be read, and that every memory operation keeps the
canonical form. -/
namespace Sys2Proof.Machine

/-! ### Reading after writing -/

theorem memRead_memWrite_same (m : List Host.Cell) (x : Nat) (v : Byte) (h : Memory.wf m = true) :
    memRead (memWrite m x v) x = v := by
  have key : ∀ (m : List Host.Cell) (b : Option Nat), memWfAbove b m = true → memRead (memWrite m x v) x = v := by
    intro m
    induction m with
    | nil =>
      intro _ _
      unfold memWrite
      split <;> simp_all [memRead]
    | cons c rest ih =>
      obtain ⟨a, y⟩ := c
      intro b hb
      unfold memWfAbove at hb
      simp only [Bool.and_eq_true] at hb
      have above : ∀ (l : List Host.Cell) (n : Nat), memWfAbove (some n) l = true → x ≤ n → memRead l x = memUnlisted := by
        intro l
        induction l with
        | nil => intro _ _ _; rfl
        | cons c l ihl =>
          obtain ⟨a', y'⟩ := c
          intro n hn hx
          unfold memWfAbove at hn
          simp only [Bool.and_eq_true, decide_eq_true_eq] at hn
          unfold memRead
          rw [if_neg (by omega)]
          exact ihl a' hn.2 (by omega)
      unfold memWrite
      split
      · split
        · rename_i hlt hv
          subst hv
          unfold memRead
          rw [if_neg (by omega)]
          exact above rest a hb.2 (by omega)
        · simp [memRead]
      · split
        · split
          · rename_i _ he hv
            subst hv
            exact above rest a hb.2 (by omega)
          · rename_i _ he _
            simp [memRead, he]
        · rename_i _ he
          unfold memRead
          rw [if_neg (fun e => he e.symm)]
          exact ih (some a) hb.2
  exact key m none h

theorem memRead_memWrite_other (m : List Host.Cell) (x y : Nat) (v : Byte) (h : Memory.wf m = true) (hxy : y ≠ x) :
    memRead (memWrite m x v) y = memRead m y := by
  have above : ∀ (l : List Host.Cell) (n : Nat), memWfAbove (some n) l = true → y ≤ n → memRead l y = memUnlisted := by
    intro l
    induction l with
    | nil => intro _ _ _; rfl
    | cons c l ihl =>
      obtain ⟨a', y'⟩ := c
      intro n hn hx
      unfold memWfAbove at hn
      simp only [Bool.and_eq_true, decide_eq_true_eq] at hn
      unfold memRead
      rw [if_neg (by omega)]
      exact ihl a' hn.2 (by omega)
  have key : ∀ (m : List Host.Cell) (b : Option Nat), memWfAbove b m = true →
      memRead (memWrite m x v) y = memRead m y := by
    intro m
    induction m with
    | nil =>
      intro _ _
      unfold memWrite
      split
      · rfl
      · simp [memRead, hxy.symm]
    | cons c rest ih =>
      obtain ⟨a, z⟩ := c
      intro b hb
      unfold memWfAbove at hb
      simp only [Bool.and_eq_true] at hb
      unfold memWrite
      split
      · split
        · rfl
        · simp [memRead, hxy.symm]
      · split
        · rename_i he
          split
          · rename_i hv
            conv => rhs; unfold memRead
            by_cases hya : a = y
            · omega
            · rw [if_neg hya]
          · subst he
            simp [memRead, hxy.symm]
        · unfold memRead
          split
          · rfl
          · exact ih (some a) hb.2
  exact key m none h

/-! ### The canonical form -/

theorem memWrite_wf (m : List Host.Cell) (x : Nat) (v : Byte) (h : Memory.wf m = true) :
    Memory.wf (memWrite m x v) = true := by
  have widen : ∀ (l : List Host.Cell) (n k : Nat), memWfAbove (some n) l = true → k ≤ n → memWfAbove (some k) l = true := by
    intro l n k hl hk
    cases l with
    | nil => rfl
    | cons c l =>
      obtain ⟨a, z⟩ := c
      unfold memWfAbove at *
      simp only [Bool.and_eq_true, decide_eq_true_eq] at *
      exact ⟨⟨by omega, hl.1.2⟩, hl.2⟩
  have drop : ∀ (l : List Host.Cell) (n : Nat) (b : Option Nat), memWfAbove (some n) l = true →
      (∀ k, b = some k → k ≤ n) → memWfAbove b l = true := by
    intro l n b hl hb
    cases b with
    | some k => exact widen l n k hl (hb k rfl)
    | none =>
      cases l with
      | nil => rfl
      | cons c l =>
        obtain ⟨a, z⟩ := c
        unfold memWfAbove at *
        simp only [Bool.and_eq_true, decide_eq_true_eq] at *
        exact ⟨⟨trivial, hl.1.2⟩, hl.2⟩
  have key : ∀ (m : List Host.Cell) (b : Option Nat), memWfAbove b m = true → (∀ k, b = some k → k < x) →
      memWfAbove b (memWrite m x v) = true := by
    intro m
    induction m with
    | nil =>
      intro b _ hb
      unfold memWrite
      split
      · rfl
      · rename_i hv
        unfold memWfAbove
        simp only [Bool.and_eq_true, bne_iff_ne]
        refine ⟨⟨?_, hv⟩, rfl⟩
        cases b with
        | none => rfl
        | some k => simpa using hb k rfl
    | cons c rest ih =>
      obtain ⟨a, z⟩ := c
      intro b hm hb
      have hm' := hm
      unfold memWfAbove at hm
      simp only [Bool.and_eq_true, bne_iff_ne] at hm
      unfold memWrite
      split
      · rename_i hlt
        split
        · exact hm'
        · rename_i hv
          unfold memWfAbove
          simp only [Bool.and_eq_true, bne_iff_ne]
          refine ⟨⟨?_, hv⟩, ?_⟩
          · cases b with
            | none => rfl
            | some k => simpa using hb k rfl
          · unfold memWfAbove
            simp only [Bool.and_eq_true, bne_iff_ne, decide_eq_true_eq]
            exact ⟨⟨hlt, hm.1.2⟩, hm.2⟩
      · split
        · rename_i he
          split
          · exact drop rest a b hm.2 (fun k hk => by have := hb k hk; omega)
          · rename_i hv
            unfold memWfAbove
            simp only [Bool.and_eq_true, bne_iff_ne]
            exact ⟨⟨hm.1.1, hv⟩, hm.2⟩
        · rename_i hlt he
          unfold memWfAbove
          simp only [Bool.and_eq_true, bne_iff_ne]
          exact ⟨hm.1, ih (some a) hm.2 (fun k hk => by cases hk; omega)⟩
  exact key m none h (fun k hk => by cases hk)

theorem memWriteBytes_wf (bs : List Byte) (m : List Host.Cell) (a : Nat) (h : Memory.wf m = true) :
    Memory.wf (memWriteBytes m a bs) = true := by
  induction bs generalizing m a with
  | nil => exact h
  | cons b bs ih => exact ih _ _ (memWrite_wf m a b h)

/-- Bytes written from an address on do not reach below it. -/
theorem memRead_memWriteBytes_below (bs : List Byte) (m : List Host.Cell) (a y : Nat) (h : Memory.wf m = true)
    (hy : y < a) : memRead (memWriteBytes m a bs) y = memRead m y := by
  induction bs generalizing m a with
  | nil => rfl
  | cons b bs ih =>
    unfold memWriteBytes
    rw [ih _ _ (memWrite_wf m a b h) (by omega), memRead_memWrite_other m a y b h (by omega)]

/-- Outside the bytes written, every address reads as before. -/
theorem memRead_memWriteBytes_outside (bs : List Byte) (m : List Host.Cell) (a y : Nat) (h : Memory.wf m = true)
    (hy : y < a ∨ a + bs.length ≤ y) : memRead (memWriteBytes m a bs) y = memRead m y := by
  induction bs generalizing m a with
  | nil => rfl
  | cons b bs ih =>
    unfold memWriteBytes
    simp only [List.length_cons] at hy
    rw [ih _ _ (memWrite_wf m a b h) (by omega), memRead_memWrite_other m a y b h (by omega)]

/-- Bytes written are read back. -/
theorem memReadBytes_memWriteBytes (bs : List Byte) (m : List Host.Cell) (a : Nat) (h : Memory.wf m = true) :
    memReadBytes (memWriteBytes m a bs) a bs.length = bs := by
  induction bs generalizing m a with
  | nil => rfl
  | cons b bs ih =>
    have hw := memWrite_wf m a b h
    show memRead (memWriteBytes (memWrite m a b) (a + 1) bs) a
      :: memReadBytes (memWriteBytes (memWrite m a b) (a + 1) bs) (a + 1) bs.length = b :: bs
    rw [memRead_memWriteBytes_below bs _ (a + 1) a hw (by omega), memRead_memWrite_same m a b h, ih _ _ hw]

/-- A write cut in the middle leaves the canonical form. -/
theorem tearWrite_wf (s : State) (h : Memory.wf s.confMem = true) : Memory.wf (tearWrite s).confMem = true := by
  unfold tearWrite
  split
  · exact memWriteBytes_wf _ _ _ h
  · exact h

/-- The bytes after a cut write are the new ones, the old ones, or no valid record (R120; log 26). -/
theorem tornRecord_cases (m : List Host.Cell) (addr count : Nat) (new : List Byte) :
    tornRecord m addr count new = new ∨ tornRecord m addr count new = memReadBytes m addr new.length
      ∨ recordValid (tornRecord m addr count new) = false := by
  unfold tornRecord
  dsimp only
  split
  · rename_i h
    exact h.elim .inl (fun h => .inr (.inr h))
  · exact .inr (.inl rfl)

end Sys2Proof.Machine
end

