-- ==== Sys2Proof/Laws/KeepForm.lean ====
section
/-! SUPPORT. What every operation keeps: the queue of waiting commands as it is, the form of the outbound control queue
(R11, R12), and the canonical form of the configuration memory. One lemma for each operation. -/
set_option linter.unnecessarySeqFocus false
set_option linter.unusedTactic false
set_option linter.unreachableTactic false
set_option linter.unusedSimpArgs false

namespace Sys2Proof.Machine

/-- From r to s the waiting commands stay, and both forms are kept. -/
structure KeepsForm (r s : State) : Prop where
  pending : s.pending = r.pending
  queue : QueueFormed r.queue → QueueFormed s.queue
  memory : Memory.wf r.confMem = true → Memory.wf s.confMem = true

theorem KeepsForm.refl (s : State) : KeepsForm s s := ⟨rfl, id, id⟩

theorem KeepsForm.trans {r s t : State} (h : KeepsForm r s) (h' : KeepsForm s t) : KeepsForm r t :=
  ⟨h'.pending.trans h.pending, fun q => h'.queue (h.queue q), fun m => h'.memory (h.memory m)⟩

theorem KeepsForm.and_then {r s t : State} (h : KeepsForm r s) (h' : KeepsApart s t) : KeepsForm r t := by
  have hp : t.apart.pending = s.apart.pending := congrArg State.pending h'.same
  have hm : t.apart.confMem = s.apart.confMem := congrArg State.confMem h'.same
  exact ⟨hp.trans h.pending, fun q => h'.queue (h.queue q), fun m => by
    show Memory.wf t.apart.confMem = true
    rw [hm]
    exact h.memory m⟩

@[simp] theorem ite_form {r s t : State} {c : Prop} [Decidable c] (h : KeepsForm r s) (h' : KeepsForm r t) :
    KeepsForm r (if c then s else t) := by split <;> assumption

theorem form_foldl {α : Type} {r s : State} (f : State → α → State) (l : List α)
    (hf : ∀ t x, KeepsForm r t → KeepsForm r (f t x)) (h : KeepsForm r s) : KeepsForm r (l.foldl f s) := by
  induction l generalizing s with
  | nil => exact h
  | cons x xs ih => exact ih (hf s x h)

@[simp] theorem setCfg_form {r s : State} (x : Settings) (h : KeepsForm r s) : KeepsForm r (s.setCfg x) :=
  ⟨h.pending, h.queue, h.memory⟩
@[simp] theorem setBoot_form {r s : State} (x : Boot) (h : KeepsForm r s) : KeepsForm r (s.setBoot x) :=
  ⟨h.pending, h.queue, h.memory⟩
@[simp] theorem setNow_form {r s : State} (x : Nat) (h : KeepsForm r s) : KeepsForm r (s.setNow x) :=
  ⟨h.pending, h.queue, h.memory⟩
@[simp] theorem setClocked_form {r s : State} (x : Bool) (h : KeepsForm r s) : KeepsForm r (s.setClocked x) :=
  ⟨h.pending, h.queue, h.memory⟩
@[simp] theorem setLevels_form {r s : State} (x : Levels) (h : KeepsForm r s) : KeepsForm r (s.setLevels x) :=
  ⟨h.pending, h.queue, h.memory⟩
@[simp] theorem setTrunk_form {r s : State} (x : Trunk) (h : KeepsForm r s) : KeepsForm r (s.setTrunk x) :=
  ⟨h.pending, h.queue, h.memory⟩
@[simp] theorem setTables_form {r s : State} (x : Tables) (h : KeepsForm r s) : KeepsForm r (s.setTables x) :=
  ⟨h.pending, h.queue, h.memory⟩
@[simp] theorem setEngine_form {r s : State} (x : StreamEngine) (h : KeepsForm r s) : KeepsForm r (s.setEngine x) :=
  ⟨h.pending, h.queue, h.memory⟩
@[simp] theorem setIntake_form {r s : State} (x : Intake) (h : KeepsForm r s) : KeepsForm r (s.setIntake x) :=
  ⟨h.pending, h.queue, h.memory⟩
@[simp] theorem setChannels_form {r s : State} (x : Vector (Option Channel) 4) (h : KeepsForm r s) : KeepsForm r (s.setChannels x) :=
  ⟨h.pending, h.queue, h.memory⟩
@[simp] theorem setCouplerFilter_form {r s : State} (x : LineFilter) (h : KeepsForm r s) : KeepsForm r (s.setCouplerFilter x) :=
  ⟨h.pending, h.queue, h.memory⟩
@[simp] theorem setLens_form {r s : State} (x : LensWatch) (h : KeepsForm r s) : KeepsForm r (s.setLens x) :=
  ⟨h.pending, h.queue, h.memory⟩
@[simp] theorem setStore_form {r s : State} (x : BaselineStore) (h : KeepsForm r s) : KeepsForm r (s.setStore x) :=
  ⟨h.pending, h.queue, h.memory⟩
@[simp] theorem setCab_form {r s : State} (x : CabControl) (h : KeepsForm r s) : KeepsForm r (s.setCab x) :=
  ⟨h.pending, h.queue, h.memory⟩
@[simp] theorem setComp_form {r s : State} (x : Composer) (h : KeepsForm r s) : KeepsForm r (s.setComp x) :=
  ⟨h.pending, h.queue, h.memory⟩
@[simp] theorem setService_form {r s : State} (x : PortState) (h : KeepsForm r s) : KeepsForm r (s.setService x) :=
  ⟨h.pending, h.queue, h.memory⟩
@[simp] theorem setPins_form {r s : State} (x : Pins) (h : KeepsForm r s) : KeepsForm r (s.setPins x) :=
  ⟨h.pending, h.queue, h.memory⟩
@[simp] theorem setFree_form {r s : State} (x : Nat) (h : KeepsForm r s) : KeepsForm r (s.setFree x) :=
  ⟨h.pending, h.queue, h.memory⟩
@[simp] theorem setScreen_form {r s : State} (side : Side) (x : Screen) (h : KeepsForm r s) :
    KeepsForm r (s.setScreen side x) := ⟨h.pending, h.queue, h.memory⟩
@[simp] theorem setStream_form {r s : State} (n : StreamNo) (x : Option Stream) (h : KeepsForm r s) :
    KeepsForm r (s.setStream n x) := ⟨h.pending, h.queue, h.memory⟩
theorem setQueue_form {r s : State} (q : List QueueEntry) (hq : QueueFormed s.queue → QueueFormed q)
    (h : KeepsForm r s) : KeepsForm r (s.setQueue q) := ⟨h.pending, fun x => hq (h.queue x), h.memory⟩
theorem setConfMem_form {r s : State} (m : List Host.Cell) (hm : Memory.wf s.confMem = true → Memory.wf m = true)
    (h : KeepsForm r s) : KeepsForm r (s.setConfMem m) := ⟨h.pending, h.queue, fun x => hm (h.memory x)⟩

@[simp] theorem judgePanes_form {r s : State} (h : KeepsForm r s) : KeepsForm r (judgePanes s) :=
  h.and_then (judgePanes_apart  (KeepsApart.refl s))

@[simp] theorem settlePanes_form {r s : State} (h : KeepsForm r s) : KeepsForm r (settlePanes s) :=
  h.and_then (settlePanes_apart  (KeepsApart.refl s))

@[simp] theorem layoutSwitch_form {r s : State} (side : Side) (lay : ShownLayout) (h : KeepsForm r s) : KeepsForm r (layoutSwitch side lay s) :=
  h.and_then (layoutSwitch_apart _ _ (KeepsApart.refl s))

@[simp] theorem showLayout_form {r s : State} (side : Side) (lay : ShownLayout) (h : KeepsForm r s) : KeepsForm r (showLayout side lay s) :=
  h.and_then (showLayout_apart _ _ (KeepsApart.refl s))

@[simp] theorem reresolve_form {r s : State} (h : KeepsForm r s) : KeepsForm r (reresolve s) :=
  h.and_then (reresolve_apart  (KeepsApart.refl s))

@[simp] theorem composerTile_form {r s : State} (f : TileFilter) (hd : TileHeader) (payload : List Byte) (h : KeepsForm r s) : KeepsForm r (composerTile f hd payload s) :=
  h.and_then (composerTile_apart _ _ _ (KeepsApart.refl s))

@[simp] theorem showKind_form {r s : State} (side : Side) (k : ViewKind) (h : KeepsForm r s) : KeepsForm r (showKind side k s) :=
  h.and_then (showKind_apart _ _ (KeepsApart.refl s))

@[simp] theorem raise_form {r s : State} (side : Side) (k : ViewKind) (h : KeepsForm r s) : KeepsForm r (raise side k s) :=
  h.and_then (raise_apart _ _ (KeepsApart.refl s))

@[simp] theorem lingerEnd_form {r s : State} (side : Side) (h : KeepsForm r s) : KeepsForm r (lingerEnd side s) :=
  h.and_then (lingerEnd_apart _ (KeepsApart.refl s))

@[simp] theorem clear_form {r s : State} (side : Side) (k : ViewKind) (h : KeepsForm r s) : KeepsForm r (clear side k s) :=
  h.and_then (clear_apart _ _ (KeepsApart.refl s))

@[simp] theorem followSpotDoor_form {r s : State} (side : Side) (h : KeepsForm r s) : KeepsForm r (followSpotDoor side s) :=
  h.and_then (followSpotDoor_apart _ (KeepsApart.refl s))

@[simp] theorem judgeSide_form {r s : State} (side : Side) (h : KeepsForm r s) : KeepsForm r (judgeSide side s) :=
  h.and_then (judgeSide_apart _ (KeepsApart.refl s))

@[simp] theorem judgeViews_form {r s : State} (h : KeepsForm r s) : KeepsForm r (judgeViews s) :=
  h.and_then (judgeViews_apart  (KeepsApart.refl s))

@[simp] theorem settleViews_form {r s : State} (h : KeepsForm r s) : KeepsForm r (settleViews s) :=
  h.and_then (settleViews_apart  (KeepsApart.refl s))

@[simp] theorem enterScreen_form {r s : State} (side : Side) (h : KeepsForm r s) : KeepsForm r (enterScreen side s) :=
  h.and_then (enterScreen_apart _ (KeepsApart.refl s))

@[simp] theorem enterActive_form {r s : State} (h : KeepsForm r s) : KeepsForm r (enterActive s) :=
  h.and_then (enterActive_apart  (KeepsApart.refl s))

@[simp] theorem leaveActive_form {r s : State} (h : KeepsForm r s) : KeepsForm r (leaveActive s) :=
  h.and_then (leaveActive_apart  (KeepsApart.refl s))

@[simp] theorem ackPress_form {r s : State} (h : KeepsForm r s) : KeepsForm r (ackPress s) :=
  h.and_then (ackPress_apart  (KeepsApart.refl s))

@[simp] theorem nextPress_form {r s : State} (side : Side) (h : KeepsForm r s) : KeepsForm r (nextPress side s) :=
  h.and_then (nextPress_apart _ (KeepsApart.refl s))

@[simp] theorem settleWarnings_form {r s : State} (h : KeepsForm r s) : KeepsForm r (settleWarnings s) :=
  h.and_then (settleWarnings_apart  (KeepsApart.refl s))

@[simp] theorem applyQueueOps_form {r s : State} (ops : List QueueOp) (h : KeepsForm r s) : KeepsForm r (applyQueueOps ops s) :=
  h.and_then (applyQueueOps_apart _ (KeepsApart.refl s))

@[simp] theorem evaluateOnce_form {r s : State} (lift : WantPos → Bool) (applied : Option WantPos) (h : KeepsForm r s) : KeepsForm r (evaluateOnce lift applied s) :=
  h.and_then (evaluateOnce_apart _ _ (KeepsApart.refl s))

@[simp] theorem evaluateAgain_form {r s : State} (n : Nat) (h : KeepsForm r s) : KeepsForm r (evaluateAgain n s) :=
  h.and_then (evaluateAgain_apart _ (KeepsApart.refl s))

@[simp] theorem evaluate_form {r s : State} (lift : WantPos → Bool) (applied : Option WantPos) (h : KeepsForm r s) : KeepsForm r (evaluate lift applied s) :=
  h.and_then (evaluate_apart _ _ (KeepsApart.refl s))

@[simp] theorem evaluateDemand_form {r s : State} (h : KeepsForm r s) : KeepsForm r (evaluateDemand s) :=
  h.and_then (evaluateDemand_apart  (KeepsApart.refl s))

@[simp] theorem mapStreams_form {r s : State} (f : Stream → Stream) (h : KeepsForm r s) : KeepsForm r (mapStreams f s) :=
  h.and_then (mapStreams_apart _ (KeepsApart.refl s))

@[simp] theorem loseSlot_form {r s : State} (n : StreamNo) (left : List Slot) (h : KeepsForm r s) : KeepsForm r (loseSlot n left s) :=
  h.and_then (loseSlot_apart _ _ (KeepsApart.refl s))

@[simp] theorem streamsInputLost_form {r s : State} (i : Input) (h : KeepsForm r s) : KeepsForm r (streamsInputLost i s) :=
  h.and_then (streamsInputLost_apart _ (KeepsApart.refl s))

@[simp] theorem streamsInputLive_form {r s : State} (i : Input) (h : KeepsForm r s) : KeepsForm r (streamsInputLive i s) :=
  h.and_then (streamsInputLive_apart _ (KeepsApart.refl s))

@[simp] theorem holdLimit_form {r s : State} (n : StreamNo) (h : KeepsForm r s) : KeepsForm r (holdLimit n s) :=
  h.and_then (holdLimit_apart _ (KeepsApart.refl s))

@[simp] theorem declineClaim_form {r s : State} (n : StreamNo) (x : Stream) (h : KeepsForm r s) : KeepsForm r (declineClaim n x s) :=
  h.and_then (declineClaim_apart _ _ (KeepsApart.refl s))

@[simp] theorem mergeClaim_form {r s : State} (n o : StreamNo) (x : Stream) (h : KeepsForm r s) : KeepsForm r (mergeClaim n o x s) :=
  h.and_then (mergeClaim_apart _ _ _ (KeepsApart.refl s))

@[simp] theorem fitClaim_form {r s : State} (n : StreamNo) (k : SizeClass) (x : Stream) (h : KeepsForm r s) : KeepsForm r (fitClaim n k x s) :=
  h.and_then (fitClaim_apart _ _ _ (KeepsApart.refl s))

@[simp] theorem claimSent_form {r s : State} (n : StreamNo) (h : KeepsForm r s) : KeepsForm r (claimSent n s) :=
  h.and_then (claimSent_apart _ (KeepsApart.refl s))

@[simp] theorem releaseSent_form {r s : State} (n : StreamNo) (h : KeepsForm r s) : KeepsForm r (releaseSent n s) :=
  h.and_then (releaseSent_apart _ (KeepsApart.refl s))

@[simp] theorem setCabState_form {r s : State} (c : CabState) (h : KeepsForm r s) : KeepsForm r (setCabState c s) :=
  h.and_then (setCabState_apart _ (KeepsApart.refl s))

@[simp] theorem cabOnChange_form {r s : State} (on : Bool) (h : KeepsForm r s) : KeepsForm r (cabOnChange on s) :=
  h.and_then (cabOnChange_apart _ (KeepsApart.refl s))

@[simp] theorem ownCabSent_form {r s : State} (take : Bool) (h : KeepsForm r s) : KeepsForm r (ownCabSent take s) :=
  h.and_then (ownCabSent_apart _ (KeepsApart.refl s))

@[simp] theorem cabRecordChanged_form {r s : State} (old : Option CabRecord) (named : Bool) (h : KeepsForm r s) : KeepsForm r (cabRecordChanged old named s) :=
  h.and_then (cabRecordChanged_apart _ _ (KeepsApart.refl s))

@[simp] theorem cabRenumbered_form {r s : State} (h : KeepsForm r s) : KeepsForm r (cabRenumbered s) :=
  h.and_then (cabRenumbered_apart  (KeepsApart.refl s))

@[simp] theorem dropWants_form {r s : State} (ps : List WantPos) (h : KeepsForm r s) : KeepsForm r (dropWants ps s) :=
  h.and_then (dropWants_apart _ (KeepsApart.refl s))

@[simp] theorem loseSlots_form {r s : State} (a : Addr) (old : Vector SlotEntry 24) (h : KeepsForm r s) : KeepsForm r (loseSlots a old s) :=
  h.and_then (loseSlots_apart _ _ (KeepsApart.refl s))

@[simp] theorem engineTables_form {r s : State} (applied : Option WantPos) (old : Tables) (h : KeepsForm r s) : KeepsForm r (engineTables applied old s) :=
  h.and_then (engineTables_apart _ _ (KeepsApart.refl s))

@[simp] theorem composerTables_form {r s : State} (old : Tables) (h : KeepsForm r s) : KeepsForm r (composerTables old s) :=
  h.and_then (composerTables_apart _ (KeepsApart.refl s))

@[simp] theorem handTables_form {r s : State} (applied : Option WantPos) (before : State) (h : KeepsForm r s) : KeepsForm r (handTables applied before s) :=
  h.and_then (handTables_apart _ _ (KeepsApart.refl s))

@[simp] theorem offer_form {r s : State} (sub : Subject) (k : SendKind) (h : KeepsForm r s) : KeepsForm r (offer sub k s) :=
  h.and_then (offer_apart _ _ (KeepsApart.refl s))

@[simp] theorem withdraw_form {r s : State} (sub : Subject) (h : KeepsForm r s) : KeepsForm r (withdraw sub s) :=
  h.and_then (withdraw_apart _ (KeepsApart.refl s))

@[simp] theorem changeTables_form {r s : State} (t : Tables) (h : KeepsForm r s) : KeepsForm r (changeTables t s) :=
  h.and_then (changeTables_apart _ (KeepsApart.refl s))

@[simp] theorem clearOwnRecord_form {r s : State} (h : KeepsForm r s) : KeepsForm r (clearOwnRecord s) :=
  h.and_then (clearOwnRecord_apart  (KeepsApart.refl s))

@[simp] theorem cabExcluded_form {r s : State} (h : KeepsForm r s) : KeepsForm r (cabExcluded s) :=
  h.and_then (cabExcluded_apart  (KeepsApart.refl s))

@[simp] theorem enterListen_form {r s : State} (b : Bool) (h : KeepsForm r s) : KeepsForm r (enterListen b s) :=
  h.and_then (enterListen_apart _ (KeepsApart.refl s))

@[simp] theorem enterExcluded_form {r s : State} (x : ExclReason) (h : KeepsForm r s) : KeepsForm r (enterExcluded x s) :=
  h.and_then (enterExcluded_apart _ (KeepsApart.refl s))

@[simp] theorem renumber_form {r s : State} (x : Fin 2) (h : KeepsForm r s) : KeepsForm r (renumber x s) :=
  h.and_then (renumber_apart _ (KeepsApart.refl s))

@[simp] theorem foreignChanged_form {r s : State} (k : Nat) (h : KeepsForm r s) : KeepsForm r (foreignChanged k s) :=
  h.and_then (foreignChanged_apart _ (KeepsApart.refl s))

@[simp] theorem hearTag_form {r s : State} (tag : Word) (h : KeepsForm r s) : KeepsForm r (hearTag tag s) :=
  h.and_then (hearTag_apart _ (KeepsApart.refl s))

theorem takeItem_form {r s : State} (own : Bool) (a : Addr) (tag : Word) (f : State → State)
    (hf : ∀ t, KeepsForm r t → KeepsForm r (f t)) (h : KeepsForm r s) : KeepsForm r (takeItem own a tag f s) := by
  unfold takeItem
  dsimp only
  split
  · split
    · simp [h]
    · exact hf _ (changeTables_form _ (hearTag_form tag h))
  · exact h

@[simp] theorem dropTag_form {r s : State} (tag : Word) (h : KeepsForm r s) : KeepsForm r (dropTag tag s) :=
  h.and_then (dropTag_apart _ (KeepsApart.refl s))

@[simp] theorem applyRoster_form {r s : State} (a : Addr) (tag : Word) (c : Option RosterContent) (h : KeepsForm r s) : KeepsForm r (applyRoster a tag c s) :=
  h.and_then (applyRoster_apart _ _ _ (KeepsApart.refl s))

@[simp] theorem applyDoor_form {r s : State} (a : Addr) (c : Option (Chan × DoorPhase)) (h : KeepsForm r s) : KeepsForm r (applyDoor a c s) :=
  h.and_then (applyDoor_apart _ _ (KeepsApart.refl s))

@[simp] theorem applyLens_form {r s : State} (a : Addr) (c : Option (Input × Grade)) (f : Byte) (h : KeepsForm r s) : KeepsForm r (applyLens a c f s) :=
  h.and_then (applyLens_apart _ _ _ (KeepsApart.refl s))

@[simp] theorem applyCab_form {r s : State} (a : Addr) (tag : Word) (c : Option (Bool × TramEnd)) (h : KeepsForm r s) : KeepsForm r (applyCab a tag c s) :=
  h.and_then (applyCab_apart _ _ _ (KeepsApart.refl s))

@[simp] theorem putWant_form {r s : State} (p : WantPos) (a : Addr) (ws : List WantEntry) (h : KeepsForm r s) : KeepsForm r (putWant p a ws s) :=
  h.and_then (putWant_apart _ _ _ (KeepsApart.refl s))

@[simp] theorem applyWant_form {r s : State} (a : Addr) (c : Option (List WantEntry)) (h : KeepsForm r s) : KeepsForm r (applyWant a c s) :=
  h.and_then (applyWant_apart _ _ (KeepsApart.refl s))

@[simp] theorem applyClaim_form {r s : State} (c : Option (StreamId × List Slot)) (h : KeepsForm r s) : KeepsForm r (applyClaim c s) :=
  h.and_then (applyClaim_apart _ (KeepsApart.refl s))

@[simp] theorem applyRelease_form {r s : State} (a : Addr) (c : Option (StreamNo × List Slot)) (h : KeepsForm r s) : KeepsForm r (applyRelease a c s) :=
  h.and_then (applyRelease_apart _ _ (KeepsApart.refl s))

@[simp] theorem applyDeny_form {r s : State} (a : Addr) (c : Option (Addr × List Refused)) (h : KeepsForm r s) : KeepsForm r (applyDeny a c s) :=
  h.and_then (applyDeny_apart _ _ (KeepsApart.refl s))

@[simp] theorem applyBody_form {r s : State} (a : Addr) (tag : Word) (b : FrameBody) (h : KeepsForm r s) : KeepsForm r (applyBody a tag b s) :=
  h.and_then (applyBody_apart _ _ _ (KeepsApart.refl s))

@[simp] theorem takeFrame_form {r s : State} (own : Bool) (f : ControlFrame) (h : KeepsForm r s) : KeepsForm r (takeFrame own f s) :=
  h.and_then (takeFrame_apart _ _ (KeepsApart.refl s))

@[simp] theorem observe_form {r s : State} (n : Slot) (f : SlotEntry → SlotEntry) (h : KeepsForm r s) : KeepsForm r (observe n f s) :=
  h.and_then (observe_apart _ _ (KeepsApart.refl s))

@[simp] theorem observeHeader_form {r s : State} (own : Bool) (n : Slot) (hd : TileHeader) (h : KeepsForm r s) : KeepsForm r (observeHeader own n hd s) :=
  h.and_then (observeHeader_apart _ _ _ (KeepsApart.refl s))

@[simp] theorem reclaimSlot_form {r s : State} (n : Slot) (h : KeepsForm r s) : KeepsForm r (reclaimSlot n s) :=
  h.and_then (reclaimSlot_apart _ (KeepsApart.refl s))

@[simp] theorem stationGone_form {r s : State} (a : Addr) (h : KeepsForm r s) : KeepsForm r (stationGone a s) :=
  h.and_then (stationGone_apart _ (KeepsApart.refl s))

@[simp] theorem tagAgedOut_form {r s : State} (tag : Word) (h : KeepsForm r s) : KeepsForm r (tagAgedOut tag s) :=
  h.and_then (tagAgedOut_apart _ (KeepsApart.refl s))

@[simp] theorem purgeTram_form {r s : State} (tag : Word) (h : KeepsForm r s) : KeepsForm r (purgeTram tag s) :=
  h.and_then (purgeTram_apart _ (KeepsApart.refl s))

@[simp] theorem wantExpiry_form {r s : State} (p : WantPos) (h : KeepsForm r s) : KeepsForm r (wantExpiry p s) :=
  h.and_then (wantExpiry_apart _ (KeepsApart.refl s))

@[simp] theorem roundTick_form {r s : State} (h : KeepsForm r s) : KeepsForm r (roundTick s) :=
  h.and_then (roundTick_apart  (KeepsApart.refl s))


@[simp] theorem hearSignal_form {r s : State} (h : KeepsForm r s) :
    KeepsForm r (hearSignal s) := by
  unfold hearSignal
  first
  | ((repeat' split) <;> simp (maxDischargeDepth := 20) [h]; done)
  | (dsimp only; (repeat' split) <;> simp (maxDischargeDepth := 20) [h]; done)

@[simp] theorem reach_form {r s : State} (off : Nat) (h : KeepsForm r s) :
    KeepsForm r (reach off s) := by
  unfold reach
  first
  | ((repeat' split) <;> simp (maxDischargeDepth := 20) [h]; done)
  | (dsimp only; (repeat' split) <;> simp (maxDischargeDepth := 20) [h]; done)

@[simp] theorem beginRound_form {r s : State} (h : KeepsForm r s) :
    KeepsForm r (beginRound s) := by
  unfold beginRound
  first
  | ((repeat' split) <;> simp (maxDischargeDepth := 20) [h]; done)
  | (dsimp only; (repeat' split) <;> simp (maxDischargeDepth := 20) [h]; done)

@[simp] theorem join_form {r s : State} (h : KeepsForm r s) :
    KeepsForm r (join s) := by
  unfold join
  first
  | ((repeat' split) <;> simp (maxDischargeDepth := 20) [h]; done)
  | (dsimp only; (repeat' split) <;> simp (maxDischargeDepth := 20) [h]; done)

@[simp] theorem hearingIntact_form {r s : State} (h : KeepsForm r s) :
    KeepsForm r (hearingIntact s) := by
  unfold hearingIntact
  first
  | ((repeat' split) <;> simp (maxDischargeDepth := 20) [h]; done)
  | (dsimp only; (repeat' split) <;> simp (maxDischargeDepth := 20) [h]; done)

@[simp] theorem hearingDamaged_form {r s : State} (h : KeepsForm r s) :
    KeepsForm r (hearingDamaged s) := by
  unfold hearingDamaged
  first
  | ((repeat' split) <;> simp (maxDischargeDepth := 20) [h]; done)
  | (dsimp only; (repeat' split) <;> simp (maxDischargeDepth := 20) [h]; done)

@[simp] theorem clash_form {r s : State} (h : KeepsForm r s) :
    KeepsForm r (clash s) := by
  unfold clash
  first
  | ((repeat' split) <;> simp (maxDischargeDepth := 20) [h]; done)
  | (dsimp only; (repeat' split) <;> simp (maxDischargeDepth := 20) [h]; done)

@[simp] theorem clashControl_form {r s : State} (c : Sending) (h : KeepsForm r s) :
    KeepsForm r (clashControl c s) := by
  unfold clashControl
  exact clash_form (setQueue_form _ (fun x => x.clashed _ _) h)

@[simp] theorem ownTileFails_form {r s : State} (n : Slot) (h : KeepsForm r s) :
    KeepsForm r (ownTileFails n s) := by
  unfold ownTileFails
  first
  | ((repeat' split) <;> simp (maxDischargeDepth := 20) [h]; done)
  | (dsimp only; (repeat' split) <;> simp (maxDischargeDepth := 20) [h]; done)

@[simp] theorem damageOut_form {r s : State} (h : KeepsForm r s) :
    KeepsForm r (damageOut s) := by
  unfold damageOut
  first
  | ((repeat' split) <;> simp (maxDischargeDepth := 20) [h]; done)
  | (dsimp only; (repeat' split) <;> simp (maxDischargeDepth := 20) [h]; done)

@[simp] theorem clashLimit_form {r s : State} (h : KeepsForm r s) :
    KeepsForm r (clashLimit s) := by
  unfold clashLimit
  first
  | ((repeat' split) <;> simp (maxDischargeDepth := 20) [h]; done)
  | (dsimp only; (repeat' split) <;> simp (maxDischargeDepth := 20) [h]; done)

@[simp] theorem sendMark_form {r s : State} (h : KeepsForm r s) :
    KeepsForm r (sendMark s) := by
  unfold sendMark
  first
  | ((repeat' split) <;> simp (maxDischargeDepth := 20) [h]; done)
  | (dsimp only; (repeat' split) <;> simp (maxDischargeDepth := 20) [h]; done)

@[simp] theorem missMark_form {r s : State} (h : KeepsForm r s) :
    KeepsForm r (missMark s) := by
  unfold missMark
  first
  | ((repeat' split) <;> simp (maxDischargeDepth := 20) [h]; done)
  | (dsimp only; (repeat' split) <;> simp (maxDischargeDepth := 20) [h]; done)

@[simp] theorem reloadTimer_form {r s : State} (h : KeepsForm r s) :
    KeepsForm r (reloadTimer s) := by
  unfold reloadTimer
  first
  | ((repeat' split) <;> simp (maxDischargeDepth := 20) [h]; done)
  | (dsimp only; (repeat' split) <;> simp (maxDischargeDepth := 20) [h]; done)

@[simp] theorem roundTimerExpiry_form {r s : State} (b : Bool) (h : KeepsForm r s) :
    KeepsForm r (roundTimerExpiry b s) := by
  unfold roundTimerExpiry
  first
  | ((repeat' split) <;> simp (maxDischargeDepth := 20) [h]; done)
  | (dsimp only; (repeat' split) <;> simp (maxDischargeDepth := 20) [h]; done)

@[simp] theorem markStartHeard_form {r s : State} (h : KeepsForm r s) :
    KeepsForm r (markStartHeard s) := by
  unfold markStartHeard
  first
  | ((repeat' split) <;> simp (maxDischargeDepth := 20) [h]; done)
  | (dsimp only; (repeat' split) <;> simp (maxDischargeDepth := 20) [h]; done)

@[simp] theorem loseMark_form {r s : State} (h : KeepsForm r s) :
    KeepsForm r (loseMark s) := by
  unfold loseMark
  first
  | ((repeat' split) <;> simp (maxDischargeDepth := 20) [h]; done)
  | (dsimp only; (repeat' split) <;> simp (maxDischargeDepth := 20) [h]; done)

@[simp] theorem markIntact_form {r s : State} (rx : MarkRx) (c : Byte) (h : KeepsForm r s) :
    KeepsForm r (markIntact rx c s) := by
  unfold markIntact
  exact hearingIntact_form (takeItem_form _ _ _ id (fun t ht => ht) (setTrunk_form _ h))

@[simp] theorem markDamaged_form {r s : State} (h : KeepsForm r s) :
    KeepsForm r (markDamaged s) := by
  unfold markDamaged
  first
  | ((repeat' split) <;> simp (maxDischargeDepth := 20) [h]; done)
  | (dsimp only; (repeat' split) <;> simp (maxDischargeDepth := 20) [h]; done)

@[simp] theorem markBodyReceived_form {r s : State} (rx : MarkRx) (h : KeepsForm r s) :
    KeepsForm r (markBodyReceived rx s) := by
  unfold markBodyReceived
  first
  | ((repeat' split) <;> simp (maxDischargeDepth := 20) [h]; done)
  | (dsimp only; (repeat' split) <;> simp (maxDischargeDepth := 20) [h]; done)

@[simp] theorem markReadbackEnd_form {r s : State} (rb : List Byte) (h : KeepsForm r s) :
    KeepsForm r (markReadbackEnd rb s) := by
  unfold markReadbackEnd
  first
  | ((repeat' split) <;> simp (maxDischargeDepth := 20) [h]; done)
  | (dsimp only; (repeat' split) <;> simp (maxDischargeDepth := 20) [h]; done)

@[simp] theorem positionStart_form {r s : State} (k : Nat) (h : KeepsForm r s) :
    KeepsForm r (positionStart k s) := by
  unfold positionStart
  first
  | ((repeat' split) <;> simp (maxDischargeDepth := 20) [h]; done)
  | (dsimp only; (repeat' split) <;> simp (maxDischargeDepth := 20) [h]; done)

@[simp] theorem beginFrame_form {r s : State} (e : QueueEntry) (b : FrameBody) (h : KeepsForm r s) :
    KeepsForm r (beginFrame e b s) := by
  unfold beginFrame
  first
  | ((repeat' split) <;> simp (maxDischargeDepth := 20) [h]; done)
  | (dsimp only; (repeat' split) <;> simp (maxDischargeDepth := 20) [h]; done)

@[simp] theorem beginVoid_form {r s : State} (sub : Subject) (h : KeepsForm r s) :
    KeepsForm r (beginVoid sub s) := by
  unfold beginVoid
  first
  | ((repeat' split) <;> simp (maxDischargeDepth := 20) [h]; done)
  | (dsimp only; (repeat' split) <;> simp (maxDischargeDepth := 20) [h]; done)

@[simp] theorem declineEntry_form {r s : State} (sub : Subject) (h : KeepsForm r s) :
    KeepsForm r (declineEntry sub s) := by
  unfold declineEntry
  exact beginVoid_form _ (setQueue_form _ (fun x => x.remove _ _) h)

@[simp] theorem winClaim_form {r s : State} (e : QueueEntry) (n : StreamNo) (x : Stream) (h : KeepsForm r s) :
    KeepsForm r (winClaim e n x s) := by
  unfold winClaim
  first
  | ((repeat' split) <;> simp (maxDischargeDepth := 20) [h]; done)
  | (dsimp only; (repeat' split) <;> simp (maxDischargeDepth := 20) [h]; done)

@[simp] theorem winRelease_form {r s : State} (e : QueueEntry) (n : StreamNo) (h : KeepsForm r s) :
    KeepsForm r (winRelease e n s) := by
  unfold winRelease
  first
  | ((repeat' split) <;> simp (maxDischargeDepth := 20) [h]; done)
  | (dsimp only; (repeat' split) <;> simp (maxDischargeDepth := 20) [h]; done)

@[simp] theorem winDeny_form {r s : State} (e : QueueEntry) (p : WantPos) (h : KeepsForm r s) :
    KeepsForm r (winDeny e p s) := by
  unfold winDeny
  first
  | ((repeat' split) <;> simp (maxDischargeDepth := 20) [h]; done)
  | (dsimp only; (repeat' split) <;> simp (maxDischargeDepth := 20) [h]; done)

@[simp] theorem winEntry_form {r s : State} (e : QueueEntry) (h : KeepsForm r s) :
    KeepsForm r (winEntry e s) := by
  unfold winEntry
  first
  | ((repeat' split) <;> simp (maxDischargeDepth := 20) [h]; done)
  | (dsimp only; (repeat' split) <;> simp (maxDischargeDepth := 20) [h]; done)

@[simp] theorem arbitrationWin_form {r s : State} (h : KeepsForm r s) :
    KeepsForm r (arbitrationWin s) := by
  unfold arbitrationWin
  first
  | ((repeat' split) <;> simp (maxDischargeDepth := 20) [h]; done)
  | (dsimp only; (repeat' split) <;> simp (maxDischargeDepth := 20) [h]; done)

@[simp] theorem streamFrameSent_form {r s : State} (c : Sending) (h : KeepsForm r s) :
    KeepsForm r (streamFrameSent c s) := by
  unfold streamFrameSent
  first
  | ((repeat' split) <;> simp (maxDischargeDepth := 20) [h]; done)
  | (dsimp only; (repeat' split) <;> simp (maxDischargeDepth := 20) [h]; done)

@[simp] theorem ownerFrameSent_form {r s : State} (c : Sending) (h : KeepsForm r s) :
    KeepsForm r (ownerFrameSent c s) := by
  unfold ownerFrameSent
  first
  | ((repeat' split) <;> simp (maxDischargeDepth := 20) [h]; done)
  | (dsimp only; (repeat' split) <;> simp (maxDischargeDepth := 20) [h]; done)

@[simp] theorem frameSent_form {r s : State} (c : Sending) (h : KeepsForm r s) :
    KeepsForm r (frameSent c s) := by
  unfold frameSent
  exact ownerFrameSent_form _ (takeFrame_form _ _ (streamFrameSent_form _
    (setTrunk_form _ (setQueue_form _ (fun x => x.sent _ _) h))))

@[simp] theorem controlFrameSent_form {r s : State} (rb : List Byte) (h : KeepsForm r s) :
    KeepsForm r (controlFrameSent rb s) := by
  unfold controlFrameSent
  first
  | ((repeat' split) <;> simp (maxDischargeDepth := 20) [h]; done)
  | (dsimp only; (repeat' split) <;> simp (maxDischargeDepth := 20) [h]; done)

@[simp] theorem frameHeard_form {r s : State} (k : FrameKind) (rx : ControlRx) (h : KeepsForm r s) :
    KeepsForm r (frameHeard k rx s) := by
  unfold frameHeard
  first
  | ((repeat' split) <;> simp (maxDischargeDepth := 20) [h]; done)
  | (dsimp only; (repeat' split) <;> simp (maxDischargeDepth := 20) [h]; done)

@[simp] theorem noteFilter_form {r s : State} (n : Slot) (h : KeepsForm r s) : KeepsForm r (noteFilter n s) :=
  setTrunk_form _ h

@[simp] theorem takeTile_form {r s : State} (own : Bool) (n : Slot) (hd : TileHeader) (p : List Byte) (h : KeepsForm r s) :
    KeepsForm r (takeTile own n hd p s) := by
  unfold takeTile
  first
  | ((repeat' split) <;> simp (maxDischargeDepth := 20) [h]; done)
  | (dsimp only; (repeat' split) <;> simp (maxDischargeDepth := 20) [h]; done)

@[simp] theorem slotStart_form {r s : State} (n : Slot) (h : KeepsForm r s) :
    KeepsForm r (slotStart n s) := by
  unfold slotStart
  first
  | ((repeat' split) <;> simp (maxDischargeDepth := 20) [h]; done)
  | (dsimp only; (repeat' split) <;> simp (maxDischargeDepth := 20) [h]; done)

@[simp] theorem ownTileSent_form {r s : State} (n : Slot) (hd : TileHeader) (p : List Byte) (h : KeepsForm r s) :
    KeepsForm r (ownTileSent n hd p s) := by
  unfold ownTileSent
  first
  | ((repeat' split) <;> simp (maxDischargeDepth := 20) [h]; done)
  | (dsimp only; (repeat' split) <;> simp (maxDischargeDepth := 20) [h]; done)

@[simp] theorem tileHeard_form {r s : State} (n : Slot) (rx : TileRx) (h : KeepsForm r s) :
    KeepsForm r (tileHeard n rx s) := by
  unfold tileHeard
  first
  | ((repeat' split) <;> simp (maxDischargeDepth := 20) [h]; done)
  | (dsimp only; (repeat' split) <;> simp (maxDischargeDepth := 20) [h]; done)

@[simp] theorem tileCut_form {r s : State} (n : Slot) (h : KeepsForm r s) : KeepsForm r (tileCut n s) := by
  unfold tileCut
  first
  | ((repeat' split) <;> simp (maxDischargeDepth := 20) [h]; done)
  | (dsimp only; (repeat' split) <;> simp (maxDischargeDepth := 20) [h]; done)

@[simp] theorem reachSlotEnd_form {r s : State} (n : Slot) (l : SlotLine) (h : KeepsForm r s) :
    KeepsForm r (reachSlotEnd n l s) := by
  unfold reachSlotEnd
  split <;> simp (maxDischargeDepth := 20) [h]

@[simp] theorem slotHeard_form {r s : State} (n : Slot) (l : SlotLine) (h : KeepsForm r s) :
    KeepsForm r (slotHeard n l s) := by
  unfold slotHeard
  first
  | ((repeat' split) <;> simp (maxDischargeDepth := 20) [h]; done)
  | (dsimp only; (repeat' split) <;> simp (maxDischargeDepth := 20) [h]; done)

@[simp] theorem ownSlotEnd_form {r s : State} (n : Slot) (hd : TileHeader) (b : List Byte) (l : SlotLine) (h : KeepsForm r s) :
    KeepsForm r (ownSlotEnd n hd b l s) := by
  unfold ownSlotEnd
  first
  | ((repeat' split) <;> simp (maxDischargeDepth := 20) [h]; done)
  | (dsimp only; (repeat' split) <;> simp (maxDischargeDepth := 20) [h]; done)

@[simp] theorem slotObservation_form {r s : State} (n : Slot) (l : SlotLine) (h : KeepsForm r s) :
    KeepsForm r (slotObservation n l s) := by
  unfold slotObservation
  first
  | ((repeat' split) <;> simp (maxDischargeDepth := 20) [h]; done)
  | (dsimp only; (repeat' split) <;> simp (maxDischargeDepth := 20) [h]; done)

@[simp] theorem putChannel_form {r s : State} (ch : Chan) (old new : Channel) (h : KeepsForm r s) :
    KeepsForm r (putChannel ch old new s) := by
  unfold putChannel
  first
  | ((repeat' split) <;> simp (maxDischargeDepth := 20) [h]; done)
  | (dsimp only; (repeat' split) <;> simp (maxDischargeDepth := 20) [h]; done)

@[simp] theorem doorAccepted_form {r s : State} (ch : Chan) (l : DoorLine) (h : KeepsForm r s) :
    KeepsForm r (doorAccepted ch l s) := by
  unfold doorAccepted
  first
  | ((repeat' split) <;> simp (maxDischargeDepth := 20) [h]; done)
  | (dsimp only; (repeat' split) <;> simp (maxDischargeDepth := 20) [h]; done)

@[simp] theorem channelSettled_form {r s : State} (ch : Chan) (h : KeepsForm r s) :
    KeepsForm r (channelSettled ch s) := by
  unfold channelSettled
  first
  | ((repeat' split) <;> simp (maxDischargeDepth := 20) [h]; done)
  | (dsimp only; (repeat' split) <;> simp (maxDischargeDepth := 20) [h]; done)

@[simp] theorem closingLimit_form {r s : State} (ch : Chan) (h : KeepsForm r s) :
    KeepsForm r (closingLimit ch s) := by
  unfold closingLimit
  first
  | ((repeat' split) <;> simp (maxDischargeDepth := 20) [h]; done)
  | (dsimp only; (repeat' split) <;> simp (maxDischargeDepth := 20) [h]; done)

@[simp] theorem couplerAccepted_form {r s : State} (h : KeepsForm r s) :
    KeepsForm r (couplerAccepted s) := by
  unfold couplerAccepted
  first
  | ((repeat' split) <;> simp (maxDischargeDepth := 20) [h]; done)
  | (dsimp only; (repeat' split) <;> simp (maxDischargeDepth := 20) [h]; done)

@[simp] theorem cabOnAccepted_form {r s : State} (h : KeepsForm r s) :
    KeepsForm r (cabOnAccepted s) := by
  unfold cabOnAccepted
  first
  | ((repeat' split) <;> simp (maxDischargeDepth := 20) [h]; done)
  | (dsimp only; (repeat' split) <;> simp (maxDischargeDepth := 20) [h]; done)

@[simp] theorem reverseAccepted_form {r s : State} (h : KeepsForm r s) :
    KeepsForm r (reverseAccepted s) := by
  unfold reverseAccepted
  first
  | ((repeat' split) <;> simp (maxDischargeDepth := 20) [h]; done)
  | (dsimp only; (repeat' split) <;> simp (maxDischargeDepth := 20) [h]; done)

theorem keyAccepted_form {r s : State} (k : Key) (on : Bool) (f : State → State)
    (hf : ∀ t, KeepsForm r t → KeepsForm r (f t)) (h : KeepsForm r s) : KeepsForm r (keyAccepted k on f s) := by
  unfold keyAccepted
  dsimp only
  split
  · split
    · exact hf _ (setCab_form _ h)
    · exact setCab_form _ h
  · exact h

@[simp] theorem ackAccepted_form {r s : State} (h : KeepsForm r s) :
    KeepsForm r (ackAccepted s) := by
  unfold ackAccepted
  exact keyAccepted_form _ _ _ (fun t ht => ackPress_form ht) h

@[simp] theorem nextAccepted_form {r s : State} (side : Side) (h : KeepsForm r s) :
    KeepsForm r (nextAccepted side s) := by
  unfold nextAccepted
  exact keyAccepted_form _ _ _ (fun t ht => nextPress_form side ht) h

@[simp] theorem keyReleaseAccepted_form {r s : State} (k : Key) (h : KeepsForm r s) :
    KeepsForm r (keyReleaseAccepted k s) := by
  unfold keyReleaseAccepted
  exact keyAccepted_form _ _ id (fun t ht => ht) h

@[simp] theorem lingerExpiry_form {r s : State} (side : Side) (h : KeepsForm r s) :
    KeepsForm r (lingerExpiry side s) := by
  unfold lingerExpiry
  first
  | ((repeat' split) <;> simp (maxDischargeDepth := 20) [h]; done)
  | (dsimp only; (repeat' split) <;> simp (maxDischargeDepth := 20) [h]; done)

@[simp] theorem lineAccepted_form {r s : State} (l : VehicleLine) (h : KeepsForm r s) :
    KeepsForm r (lineAccepted l s) := by
  cases l with
  | key k => cases k <;> simp [lineAccepted, h]
  | _ => simp [lineAccepted, h]

@[simp] theorem filterEdge_form {r s : State} (l : VehicleLine) (h : KeepsForm r s) :
    KeepsForm r (filterEdge l s) := by
  unfold filterEdge
  first
  | ((repeat' split) <;> simp (maxDischargeDepth := 20) [h]; done)
  | (dsimp only; (repeat' split) <;> simp (maxDischargeDepth := 20) [h]; done)

@[simp] theorem serviceDeasserted_form {r s : State} (h : KeepsForm r s) :
    KeepsForm r (serviceDeasserted s) := by
  unfold serviceDeasserted
  first
  | ((repeat' split) <;> simp (maxDischargeDepth := 20) [h]; done)
  | (dsimp only; (repeat' split) <;> simp (maxDischargeDepth := 20) [h]; done)

@[simp] theorem lineEdge_form {r s : State} (l : VehicleLine) (b : Bool) (h : KeepsForm r s) :
    KeepsForm r (lineEdge l b s) := by
  unfold lineEdge
  first
  | ((repeat' split) <;> simp (maxDischargeDepth := 20) [h]; done)
  | (dsimp only; (repeat' split) <;> simp (maxDischargeDepth := 20) [h]; done)

@[simp] theorem putLens_form {r s : State} (i : Input) (old new : LensRecord) (h : KeepsForm r s) :
    KeepsForm r (putLens i old new s) := by
  unfold putLens
  first
  | ((repeat' split) <;> simp (maxDischargeDepth := 20) [h]; done)
  | (dsimp only; (repeat' split) <;> simp (maxDischargeDepth := 20) [h]; done)

@[simp] theorem changeLens_form {r s : State} (i : Input) (f : LensRecord → LensRecord) (h : KeepsForm r s) :
    KeepsForm r (changeLens i f s) := by
  unfold changeLens
  first
  | ((repeat' split) <;> simp (maxDischargeDepth := 20) [h]; done)
  | (dsimp only; (repeat' split) <;> simp (maxDischargeDepth := 20) [h]; done)

@[simp] theorem gradeRise_form {r s : State} (i : Input) (h : KeepsForm r s) :
    KeepsForm r (gradeRise i s) := by
  unfold gradeRise
  first
  | ((repeat' split) <;> simp (maxDischargeDepth := 20) [h]; done)
  | (dsimp only; (repeat' split) <;> simp (maxDischargeDepth := 20) [h]; done)

@[simp] theorem gradeFall_form {r s : State} (i : Input) (h : KeepsForm r s) :
    KeepsForm r (gradeFall i s) := by
  unfold gradeFall
  first
  | ((repeat' split) <;> simp (maxDischargeDepth := 20) [h]; done)
  | (dsimp only; (repeat' split) <;> simp (maxDischargeDepth := 20) [h]; done)

@[simp] theorem quietFull_form {r s : State} (i : Input) (h : KeepsForm r s) :
    KeepsForm r (quietFull i s) := by
  unfold quietFull
  first
  | ((repeat' split) <;> simp (maxDischargeDepth := 20) [h]; done)
  | (dsimp only; (repeat' split) <;> simp (maxDischargeDepth := 20) [h]; done)

@[simp] theorem answerWith_form {r s : State} (k : Byte) (st : ReplyStatus) (c : List Byte) (h : KeepsForm r s) :
    KeepsForm r (answerWith k st c s) := by
  unfold answerWith
  first
  | ((repeat' split) <;> simp (maxDischargeDepth := 20) [h]; done)
  | (dsimp only; (repeat' split) <;> simp (maxDischargeDepth := 20) [h]; done)

@[simp] theorem answerProbe_form {r s : State} (st : ReplyStatus) (c : List Byte) (h : KeepsForm r s) :
    KeepsForm r (answerProbe st c s) := by
  unfold answerProbe
  first
  | ((repeat' split) <;> simp (maxDischargeDepth := 20) [h]; done)
  | (dsimp only; (repeat' split) <;> simp (maxDischargeDepth := 20) [h]; done)

@[simp] theorem stepTimeout_form {r s : State} (h : KeepsForm r s) :
    KeepsForm r (stepTimeout s) := by
  unfold stepTimeout
  first
  | ((repeat' split) <;> simp (maxDischargeDepth := 20) [h]; done)
  | (dsimp only; (repeat' split) <;> simp (maxDischargeDepth := 20) [h]; done)

@[simp] theorem lifeExpiry_form {r s : State} (h : KeepsForm r s) :
    KeepsForm r (lifeExpiry s) := by
  unfold lifeExpiry
  first
  | ((repeat' split) <;> simp (maxDischargeDepth := 20) [h]; done)
  | (dsimp only; (repeat' split) <;> simp (maxDischargeDepth := 20) [h]; done)

@[simp] theorem finishOp_form {r s : State} (x : OpResult) (h : KeepsForm r s) :
    KeepsForm r (finishOp x s) := by
  unfold finishOp
  first
  | ((repeat' split) <;> simp (maxDischargeDepth := 20) [h]; done)
  | (dsimp only; (repeat' split) <;> simp (maxDischargeDepth := 20) [h]; done)

@[simp] theorem tearWrite_form {r s : State} (h : KeepsForm r s) :
    KeepsForm r (tearWrite s) := by
  refine ⟨?_, ?_, fun m => tearWrite_wf s (h.memory m)⟩
  · rw [← h.pending]
    unfold tearWrite
    split <;> rfl
  · intro q
    have : (tearWrite s).queue = s.queue := by
      unfold tearWrite
      split <;> rfl
    rw [this]
    exact h.queue q

@[simp] theorem useDefault_form {r s : State} (i : Input) (h : KeepsForm r s) :
    KeepsForm r (useDefault i s) := by
  unfold useDefault
  first
  | ((repeat' split) <;> simp (maxDischargeDepth := 20) [h]; done)
  | (dsimp only; (repeat' split) <;> simp (maxDischargeDepth := 20) [h]; done)

@[simp] theorem useCaptured_form {r s : State} (i : Input) (v : Vector Nat 16) (h : KeepsForm r s) :
    KeepsForm r (useCaptured i v s) := by
  unfold useCaptured
  first
  | ((repeat' split) <;> simp (maxDischargeDepth := 20) [h]; done)
  | (dsimp only; (repeat' split) <;> simp (maxDischargeDepth := 20) [h]; done)

@[simp] theorem writeComplete_form {r s : State} (h : KeepsForm r s) :
    KeepsForm r (writeComplete s) := by
  unfold writeComplete
  split
  · have hm := setConfMem_form _ (memWriteBytes_wf s.store.writing s.confMem (recordAddress ‹Input›)) h
    dsimp only
    split
    · exact offer_form _ _ (useCaptured_form _ _ (setStore_form _ (finishOp_form _ hm)))
    · exact finishOp_form _ hm
  · exact h

@[simp] theorem writeTimeout_form {r s : State} (h : KeepsForm r s) :
    KeepsForm r (writeTimeout s) := by
  unfold writeTimeout
  split
  · refine ite_form ?_ h
    dsimp only
    exact ite_form (useDefault_form _ (setStore_form _ (finishOp_form _ (tearWrite_form h))))
      (finishOp_form _ (tearWrite_form h))
  · exact h

@[simp] theorem acceptClear_form {r s : State} (i : Input) (h : KeepsForm r s) :
    KeepsForm r (acceptClear i s) := by
  unfold acceptClear
  first
  | ((repeat' split) <;> simp (maxDischargeDepth := 20) [h]; done)
  | (dsimp only; (repeat' split) <;> simp (maxDischargeDepth := 20) [h]; done)

@[simp] theorem setEngineState_form {r s : State} (e : EngineState) (h : KeepsForm r s) :
    KeepsForm r (setEngineState e s) := by
  unfold setEngineState
  first
  | ((repeat' split) <;> simp (maxDischargeDepth := 20) [h]; done)
  | (dsimp only; (repeat' split) <;> simp (maxDischargeDepth := 20) [h]; done)

@[simp] theorem setRequest_form {r s : State} (x : Option FrameRequest) (h : KeepsForm r s) :
    KeepsForm r (setRequest x s) := by
  unfold setRequest
  first
  | ((repeat' split) <;> simp (maxDischargeDepth := 20) [h]; done)
  | (dsimp only; (repeat' split) <;> simp (maxDischargeDepth := 20) [h]; done)

@[simp] theorem setLensRecord_form {r s : State} (i : Input) (f : LensRecord → LensRecord) (h : KeepsForm r s) :
    KeepsForm r (setLensRecord i f s) := by
  unfold setLensRecord
  first
  | ((repeat' split) <;> simp (maxDischargeDepth := 20) [h]; done)
  | (dsimp only; (repeat' split) <;> simp (maxDischargeDepth := 20) [h]; done)

theorem engineTake_form {r s t : State} {b : Bool} (h : KeepsForm r s) (he : engineTake s = some (t, b)) :
    KeepsForm r t := by
  unfold engineTake at he
  split at he
  · split at he
    · split at he <;> cases he <;> simp (maxDischargeDepth := 20) [h]
    · split at he
      · dsimp only at he
        split at he <;> cases he <;> simp (maxDischargeDepth := 20) [h]
      · split at he
        · split at he <;> cases he <;> simp (maxDischargeDepth := 20) [h]
        · cases he
  · cases he

@[simp] theorem engineChoose_form {r s : State} (n : Nat) (h : KeepsForm r s) :
    KeepsForm r (engineChoose n s) := by
  induction n generalizing s with
  | zero => exact h
  | succ n ih =>
    unfold engineChoose
    split
    · exact h
    · rename_i he
      exact engineTake_form h he
    · rename_i he
      exact ih (engineTake_form h he)

@[simp] theorem passBoundary_form {r s : State} (h : KeepsForm r s) :
    KeepsForm r (passBoundary s) := by
  unfold passBoundary
  first
  | ((repeat' split) <;> simp (maxDischargeDepth := 20) [h]; done)
  | (dsimp only; (repeat' split) <;> simp (maxDischargeDepth := 20) [h]; done)

@[simp] theorem engineFree_form {r s : State} (h : KeepsForm r s) :
    KeepsForm r (engineFree s) := by
  unfold engineFree
  first
  | ((repeat' split) <;> simp (maxDischargeDepth := 20) [h]; done)
  | (dsimp only; (repeat' split) <;> simp (maxDischargeDepth := 20) [h]; done)

@[simp] theorem rotaPass_form {r s : State} (h : KeepsForm r s) :
    KeepsForm r (rotaPass s) := by
  unfold rotaPass
  first
  | ((repeat' split) <;> simp (maxDischargeDepth := 20) [h]; done)
  | (dsimp only; (repeat' split) <;> simp (maxDischargeDepth := 20) [h]; done)

@[simp] theorem probePass_form {r s : State} (h : KeepsForm r s) :
    KeepsForm r (probePass s) := by
  unfold probePass
  first
  | ((repeat' split) <;> simp (maxDischargeDepth := 20) [h]; done)
  | (dsimp only; (repeat' split) <;> simp (maxDischargeDepth := 20) [h]; done)

@[simp] theorem captureFrame_form {r s : State} (h : KeepsForm r s) :
    KeepsForm r (captureFrame s) := by
  unfold captureFrame
  first
  | ((repeat' split) <;> simp (maxDischargeDepth := 20) [h]; done)
  | (dsimp only; (repeat' split) <;> simp (maxDischargeDepth := 20) [h]; done)

@[simp] theorem engineNotLive_form {r s : State} (h : KeepsForm r s) :
    KeepsForm r (engineNotLive s) := by
  unfold engineNotLive
  first
  | ((repeat' split) <;> simp (maxDischargeDepth := 20) [h]; done)
  | (dsimp only; (repeat' split) <;> simp (maxDischargeDepth := 20) [h]; done)

@[simp] theorem captureInputLost_form {r s : State} (i : Input) (h : KeepsForm r s) :
    KeepsForm r (captureInputLost i s) := by
  unfold captureInputLost
  first
  | ((repeat' split) <;> simp (maxDischargeDepth := 20) [h]; done)
  | (dsimp only; (repeat' split) <;> simp (maxDischargeDepth := 20) [h]; done)

@[simp] theorem periodTick_form {r s : State} (h : KeepsForm r s) :
    KeepsForm r (periodTick s) := by
  unfold periodTick
  first
  | ((repeat' split) <;> simp (maxDischargeDepth := 20) [h]; done)
  | (dsimp only; (repeat' split) <;> simp (maxDischargeDepth := 20) [h]; done)

@[simp] theorem setInput_form {r s : State} (i : Input) (x : InputRecord) (h : KeepsForm r s) :
    KeepsForm r (setInput i x s) := by
  unfold setInput
  first
  | ((repeat' split) <;> simp (maxDischargeDepth := 20) [h]; done)
  | (dsimp only; (repeat' split) <;> simp (maxDischargeDepth := 20) [h]; done)

@[simp] theorem syncPulse_form {r s : State} (i : Input) (k : SyncKind) (h : KeepsForm r s) :
    KeepsForm r (syncPulse i k s) := by
  unfold syncPulse
  first
  | ((repeat' split) <;> simp (maxDischargeDepth := 20) [h]; done)
  | (dsimp only; (repeat' split) <;> simp (maxDischargeDepth := 20) [h]; done)

@[simp] theorem serveRequest_form {r s : State} (i : Input) (f : FrameLines) (h : KeepsForm r s) :
    KeepsForm r (serveRequest i f s) := by
  unfold serveRequest
  first
  | ((repeat' split) <;> simp (maxDischargeDepth := 20) [h]; done)
  | (dsimp only; (repeat' split) <;> simp (maxDischargeDepth := 20) [h]; done)

@[simp] theorem breakRequest_form {r s : State} (i : Input) (h : KeepsForm r s) :
    KeepsForm r (breakRequest i s) := by
  unfold breakRequest
  first
  | ((repeat' split) <;> simp (maxDischargeDepth := 20) [h]; done)
  | (dsimp only; (repeat' split) <;> simp (maxDischargeDepth := 20) [h]; done)

@[simp] theorem frameCompleted_form {r s : State} (i : Input) (f : CameraFrame) (h : KeepsForm r s) :
    KeepsForm r (frameCompleted i f s) := by
  unfold frameCompleted
  first
  | ((repeat' split) <;> simp (maxDischargeDepth := 20) [h]; done)
  | (dsimp only; (repeat' split) <;> simp (maxDischargeDepth := 20) [h]; done)

@[simp] theorem cameraSynced_form {r s : State} (i : Input) (h : KeepsForm r s) :
    KeepsForm r (cameraSynced i s) := by
  unfold cameraSynced
  first
  | ((repeat' split) <;> simp (maxDischargeDepth := 20) [h]; done)
  | (dsimp only; (repeat' split) <;> simp (maxDischargeDepth := 20) [h]; done)

@[simp] theorem lensInputLost_form {r s : State} (i : Input) (h : KeepsForm r s) :
    KeepsForm r (lensInputLost i s) := by
  unfold lensInputLost
  first
  | ((repeat' split) <;> simp (maxDischargeDepth := 20) [h]; done)
  | (dsimp only; (repeat' split) <;> simp (maxDischargeDepth := 20) [h]; done)

@[simp] theorem requestInputLost_form {r s : State} (i : Input) (h : KeepsForm r s) :
    KeepsForm r (requestInputLost i s) := by
  unfold requestInputLost
  first
  | ((repeat' split) <;> simp (maxDischargeDepth := 20) [h]; done)
  | (dsimp only; (repeat' split) <;> simp (maxDischargeDepth := 20) [h]; done)

@[simp] theorem inputLost_form {r s : State} (i : Input) (h : KeepsForm r s) :
    KeepsForm r (inputLost i s) := by
  unfold inputLost
  first
  | ((repeat' split) <;> simp (maxDischargeDepth := 20) [h]; done)
  | (dsimp only; (repeat' split) <;> simp (maxDischargeDepth := 20) [h]; done)

@[simp] theorem cameraStall_form {r s : State} (i : Input) (h : KeepsForm r s) :
    KeepsForm r (cameraStall i s) := by
  unfold cameraStall
  first
  | ((repeat' split) <;> simp (maxDischargeDepth := 20) [h]; done)
  | (dsimp only; (repeat' split) <;> simp (maxDischargeDepth := 20) [h]; done)

@[simp] theorem cameraAbsence_form {r s : State} (i : Input) (h : KeepsForm r s) :
    KeepsForm r (cameraAbsence i s) := by
  unfold cameraAbsence
  first
  | ((repeat' split) <;> simp (maxDischargeDepth := 20) [h]; done)
  | (dsimp only; (repeat' split) <;> simp (maxDischargeDepth := 20) [h]; done)

@[simp] theorem answerLens_form {r s : State} (b : Byte) (h : KeepsForm r s) :
    KeepsForm r (answerLens b s) := by
  unfold answerLens
  first
  | ((repeat' split) <;> simp (maxDischargeDepth := 20) [h]; done)
  | (dsimp only; (repeat' split) <;> simp (maxDischargeDepth := 20) [h]; done)

@[simp] theorem answerProbeRequest_form {r s : State} (b : Byte) (h : KeepsForm r s) :
    KeepsForm r (answerProbeRequest b s) := by
  unfold answerProbeRequest
  first
  | ((repeat' split) <;> simp (maxDischargeDepth := 20) [h]; done)
  | (dsimp only; (repeat' split) <;> simp (maxDischargeDepth := 20) [h]; done)

@[simp] theorem answerUnlock_form {r s : State} (b : Byte) (h : KeepsForm r s) :
    KeepsForm r (answerUnlock b s) := by
  unfold answerUnlock
  first
  | ((repeat' split) <;> simp (maxDischargeDepth := 20) [h]; done)
  | (dsimp only; (repeat' split) <;> simp (maxDischargeDepth := 20) [h]; done)

@[simp] theorem answerCapture_form {r s : State} (b : Byte) (h : KeepsForm r s) :
    KeepsForm r (answerCapture b s) := by
  unfold answerCapture
  first
  | ((repeat' split) <;> simp (maxDischargeDepth := 20) [h]; done)
  | (dsimp only; (repeat' split) <;> simp (maxDischargeDepth := 20) [h]; done)

@[simp] theorem answerClear_form {r s : State} (b : Byte) (h : KeepsForm r s) :
    KeepsForm r (answerClear b s) := by
  unfold answerClear
  first
  | ((repeat' split) <;> simp (maxDischargeDepth := 20) [h]; done)
  | (dsimp only; (repeat' split) <;> simp (maxDischargeDepth := 20) [h]; done)

@[simp] theorem answerBad_form {r s : State} (h : KeepsForm r s) :
    KeepsForm r (answerBad s) := by
  unfold answerBad
  first
  | ((repeat' split) <;> simp (maxDischargeDepth := 20) [h]; done)
  | (dsimp only; (repeat' split) <;> simp (maxDischargeDepth := 20) [h]; done)

@[simp] theorem handRequest_form {r s : State} (k : RequestKind) (b : Byte) (h : KeepsForm r s) :
    KeepsForm r (handRequest k b s) := by
  unfold handRequest
  first
  | ((repeat' split) <;> simp (maxDischargeDepth := 20) [h]; done)
  | (dsimp only; (repeat' split) <;> simp (maxDischargeDepth := 20) [h]; done)

@[simp] theorem takeRequest_form {r s : State} (k : RequestKind) (b : Byte) (h : KeepsForm r s) :
    KeepsForm r (takeRequest k b s) := by
  unfold takeRequest
  first
  | ((repeat' split) <;> simp (maxDischargeDepth := 20) [h]; done)
  | (dsimp only; (repeat' split) <;> simp (maxDischargeDepth := 20) [h]; done)

@[simp] theorem requestCommand_form {r s : State} (k : RequestKind) (b : Byte) (h : KeepsForm r s) :
    KeepsForm r (requestCommand k b s) := by
  unfold requestCommand
  first
  | ((repeat' split) <;> simp (maxDischargeDepth := 20) [h]; done)
  | (dsimp only; (repeat' split) <;> simp (maxDischargeDepth := 20) [h]; done)

@[simp] theorem judgeFrame_form {r s : State} (bs : List Byte) (h : KeepsForm r s) :
    KeepsForm r (judgeFrame bs s) := by
  unfold judgeFrame
  first
  | ((repeat' split) <;> simp (maxDischargeDepth := 20) [h]; done)
  | (dsimp only; (repeat' split) <;> simp (maxDischargeDepth := 20) [h]; done)

@[simp] theorem huntByte_form {r s : State} (b : Byte) (h : KeepsForm r s) :
    KeepsForm r (huntByte b s) := by
  unfold huntByte
  first
  | ((repeat' split) <;> simp (maxDischargeDepth := 20) [h]; done)
  | (dsimp only; (repeat' split) <;> simp (maxDischargeDepth := 20) [h]; done)

@[simp] theorem receiveByte_form {r s : State} (bs : List Byte) (b : Byte) (h : KeepsForm r s) :
    KeepsForm r (receiveByte bs b s) := by
  unfold receiveByte
  first
  | ((repeat' split) <;> simp (maxDischargeDepth := 20) [h]; done)
  | (dsimp only; (repeat' split) <;> simp (maxDischargeDepth := 20) [h]; done)

@[simp] theorem serviceByte_form {r s : State} (b : Byte) (x : Bool) (h : KeepsForm r s) :
    KeepsForm r (serviceByte b x s) := by
  unfold serviceByte
  first
  | ((repeat' split) <;> simp (maxDischargeDepth := 20) [h]; done)
  | (dsimp only; (repeat' split) <;> simp (maxDischargeDepth := 20) [h]; done)

@[simp] theorem serviceGap_form {r s : State} (h : KeepsForm r s) :
    KeepsForm r (serviceGap s) := by
  unfold serviceGap
  first
  | ((repeat' split) <;> simp (maxDischargeDepth := 20) [h]; done)
  | (dsimp only; (repeat' split) <;> simp (maxDischargeDepth := 20) [h]; done)

@[simp] theorem replySent_form {r s : State} (h : KeepsForm r s) :
    KeepsForm r (replySent s) := by
  unfold replySent
  first
  | ((repeat' split) <;> simp (maxDischargeDepth := 20) [h]; done)
  | (dsimp only; (repeat' split) <;> simp (maxDischargeDepth := 20) [h]; done)

@[simp] theorem holdState_form {r s : State} (a b c : Bool) (h : KeepsForm r s) :
    KeepsForm r (holdState a b c s) := by
  exact ⟨h.pending, fun _ => queueFormed_nil, h.memory⟩

@[simp] theorem powerOnReset_form {r s : State} (h : KeepsForm r s) :
    KeepsForm r (powerOnReset s) := by
  unfold powerOnReset
  first
  | ((repeat' split) <;> simp (maxDischargeDepth := 20) [h]; done)
  | (dsimp only; (repeat' split) <;> simp (maxDischargeDepth := 20) [h]; done)

@[simp] theorem resetLineAsserted_form {r s : State} (h : KeepsForm r s) :
    KeepsForm r (resetLineAsserted s) := by
  unfold resetLineAsserted
  first
  | ((repeat' split) <;> simp (maxDischargeDepth := 20) [h]; done)
  | (dsimp only; (repeat' split) <;> simp (maxDischargeDepth := 20) [h]; done)

@[simp] theorem resetReleased_form {r s : State} (h : KeepsForm r s) :
    KeepsForm r (resetReleased s) := by
  unfold resetReleased
  first
  | ((repeat' split) <;> simp (maxDischargeDepth := 20) [h]; done)
  | (dsimp only; (repeat' split) <;> simp (maxDischargeDepth := 20) [h]; done)

@[simp] theorem startState_form {r s : State} (cfg : Settings) (h : KeepsForm r s) :
    KeepsForm r (startState cfg s) := by
  exact ⟨h.pending, h.queue, h.memory⟩

@[simp] theorem endRead_form {r s : State} (c : InertCause) (h : KeepsForm r s) :
    KeepsForm r (endRead c s) := by
  unfold endRead
  first
  | ((repeat' split) <;> simp (maxDischargeDepth := 20) [h]; done)
  | (dsimp only; (repeat' split) <;> simp (maxDischargeDepth := 20) [h]; done)

@[simp] theorem startReadEnd_form {r s : State} (h : KeepsForm r s) :
    KeepsForm r (startReadEnd s) := by
  unfold startReadEnd
  split
  · dsimp only
    split
    · refine form_foldl _ _ (fun t c ht => ?_) (startState_form _ (endRead_form _ h))
      unfold offerStartDoor
      (repeat' split) <;> simp [ht]
    · exact setTrunk_form _ (endRead_form _ h)
  · exact h

@[simp] theorem refreshPins_form {r s : State} (h : KeepsForm r s) :
    KeepsForm r (refreshPins s) := by
  unfold refreshPins
  first
  | ((repeat' split) <;> simp (maxDischargeDepth := 20) [h]; done)
  | (dsimp only; (repeat' split) <;> simp (maxDischargeDepth := 20) [h]; done)

@[simp] theorem rosterRefresh_form {r s : State} (h : KeepsForm r s) :
    KeepsForm r (rosterRefresh s) := by
  unfold rosterRefresh
  first
  | ((repeat' split) <;> simp (maxDischargeDepth := 20) [h]; done)
  | (dsimp only; (repeat' split) <;> simp (maxDischargeDepth := 20) [h]; done)

@[simp] theorem carryExpiry_form {r s : State} (h : KeepsForm r s) :
    KeepsForm r (carryExpiry s) := by
  unfold carryExpiry
  first
  | ((repeat' split) <;> simp (maxDischargeDepth := 20) [h]; done)
  | (dsimp only; (repeat' split) <;> simp (maxDischargeDepth := 20) [h]; done)

@[simp] theorem wantRefresh_form {r s : State} (h : KeepsForm r s) :
    KeepsForm r (wantRefresh s) := by
  unfold wantRefresh
  first
  | ((repeat' split) <;> simp (maxDischargeDepth := 20) [h]; done)
  | (dsimp only; (repeat' split) <;> simp (maxDischargeDepth := 20) [h]; done)

@[simp] theorem paneStale_form {r s : State} (side : Side) (k : Nat) (h : KeepsForm r s) :
    KeepsForm r (paneStale side k s) := by
  unfold paneStale
  first
  | ((repeat' split) <;> simp (maxDischargeDepth := 20) [h]; done)
  | (dsimp only; (repeat' split) <;> simp (maxDischargeDepth := 20) [h]; done)

@[simp] theorem takeDue_form {r s : State} (c : Instr) (h : KeepsForm r s) :
    KeepsForm r (takeDue c s) := by
  cases c with
  | clashLimit => exact clashLimit_form h
  | slotReclaim n => exact reclaimSlot_form _ h
  | foreignTagAgedOut tag => exact tagAgedOut_form _ h
  | stationGone a => exact stationGone_form _ h
  | foreignTramPurge tag => exact purgeTram_form _ h
  | wantRecordExpiry p => exact wantExpiry_form _ h
  | holdLimit n => exact holdLimit_form _ h
  | rosterRefreshDue => exact rosterRefresh_form h
  | carryEntryExpiry => exact carryExpiry_form h
  | wantRefreshDue => exact wantRefresh_form h
  | paneStale side pane => exact paneStale_form _ _ h
  | cameraSynced i => exact cameraSynced_form _ h
  | rotaPass => exact rotaPass_form h
  | probePass => exact probePass_form h
  | captureFrame => exact captureFrame_form h
  | gradeRise i => exact gradeRise_form _ h
  | gradeFall i => exact gradeFall_form _ h
  | quietCountFull i => exact quietFull_form _ h
  | doorChannelSettled ch => exact channelSettled_form _ h
  | _ => exact h

@[simp] theorem settleUpTo_form {r s : State} (n : Nat) (h : KeepsForm r s) :
    KeepsForm r (settleUpTo n s) := by
  induction n generalizing s with
  | zero => exact h
  | succ n ih =>
    unfold settleUpTo
    split
    · exact h
    · exact ih (takeDue_form _ h)

@[simp] theorem settle_form {r s : State} (h : KeepsForm r s) :
    KeepsForm r (settle s) := by
  exact settleUpTo_form _ h

@[simp] theorem newMoment_form {r s : State} (h : KeepsForm r s) : KeepsForm r s.newMoment :=
  setClocked_form _ (setNow_form _ h)

@[simp] theorem clockMoment_form {r s : State} (h : KeepsForm r s) : KeepsForm r s.clockMoment := by
  unfold State.clockMoment
  split
  · exact h
  · exact setClocked_form _ (newMoment_form h)

@[simp] theorem tickBlocks_form {r s : State} (h : KeepsForm r s) :
    KeepsForm r (tickBlocks s) := by
  exact ⟨h.pending, h.queue, h.memory⟩

@[simp] theorem tickPorts_form {r s : State} (h : KeepsForm r s) :
    KeepsForm r (tickPorts s) := by
  exact ⟨h.pending, h.queue, h.memory⟩

@[simp] theorem enterPart_form {r s : State} (h : KeepsForm r s) :
    KeepsForm r (enterPart s) := by
  unfold enterPart
  first
  | ((repeat' split) <;> simp (maxDischargeDepth := 20) [h]; done)
  | (dsimp only; (repeat' split) <;> simp (maxDischargeDepth := 20) [h]; done)

@[simp] theorem tick_form {r s : State} (h : KeepsForm r s) :
    KeepsForm r (tick s) := by
  unfold tick
  first
  | ((repeat' split) <;> simp (maxDischargeDepth := 20) [h]; done)
  | (dsimp only; (repeat' split) <;> simp (maxDischargeDepth := 20) [h]; done)

end Sys2Proof.Machine
end

