-- ==== Sys2Proof/Laws/Act.lean ====
section
/-! SUPPORT. What a command does around its operation: it settles first, and the output lines follow. What a change of
the tables leaves of them. -/
namespace Sys2Proof.Machine

/-- A state in which nothing is due settles to itself. -/
theorem settle_of_quiet {s : State} (h : s.nextDue = none) : settle s = s := by
  show settleUpTo 256 s = s
  simp only [settleUpTo, h]

/-- The first of some is none only where each of them is. -/
theorem firstSome_eq_none {α : Type} (l : List (Option α)) (h : firstSome l = none) : ∀ x ∈ l, x = none := by
  induction l with
  | nil => simp
  | cons a l ih =>
    cases a with
    | none => simpa using ih h
    | some c => simp [firstSome] at h

/-- Where nothing is due in a station that acts, no channel is to settle (R84). -/
theorem settleDue_of_quiet {s : State} (ha : s.acting = true) (h : s.nextDue = none) (ch : Chan) :
    s.settleDue ch = false := by
  unfold State.nextDue at h
  rw [if_pos ha] at h
  have hm := firstSome_eq_none _ h ((allChans.find? s.settleDue).map .doorChannelSettled) (by unfold State.dueSteps; simp)
  have hc : ch ∈ allChans := by fin_cases ch <;> decide
  simpa using List.find?_eq_none.mp (by simpa using hm) ch hc

/-- The latest of some moments after which a later one begins. -/
theorem later_le (ts : List Nat) (m : Nat) :
    m ≤ ts.foldl (fun m t => Nat.max m (t + 1)) m ∧ ∀ t ∈ ts, t < ts.foldl (fun m t => Nat.max m (t + 1)) m := by
  induction ts generalizing m with
  | nil => exact ⟨le_rfl, fun _ h => absurd h (List.not_mem_nil)⟩
  | cons x xs ih =>
    obtain ⟨h1, h2⟩ := ih (Nat.max m (x + 1))
    refine ⟨(Nat.le_max_left _ _).trans h1, fun t ht => ?_⟩
    rcases List.mem_cons.mp ht with rfl | ht
    · exact (Nat.le_max_right m (t + 1)).trans h1
    · exact h2 t ht

/-- Where every moment lies before m, m is late enough. -/
theorem later_eq (ts : List Nat) (m : Nat) (h : ∀ t ∈ ts, t < m) : ts.foldl (fun m t => Nat.max m (t + 1)) m = m := by
  induction ts with
  | nil => rfl
  | cons x xs ih =>
    have hx : Nat.max m (x + 1) = m := Nat.max_eq_left (h x (List.mem_cons_self ..))
    rw [List.foldl_cons, hx]
    exact ih (fun t ht => h t (List.mem_cons_of_mem _ ht))

/-- The moment of an event is not before the present one, and later than every offer that waits (R12). -/
theorem newMoment_later (s : State) :
    ∃ m, s.newMoment = (s.setNow m).setClocked false ∧ s.now ≤ m ∧ ∀ t ∈ s.waitingTimes, t < m :=
  ⟨_, rfl, (later_le _ _).1, (later_le _ _).2⟩

/-- Where every offer that waits was made before the present moment, that is the event's. -/
theorem newMoment_of_before {s : State} (h : ∀ t ∈ s.waitingTimes, t < s.now) : s.newMoment = s.setClocked false := by
  unfold State.newMoment
  rw [later_eq _ _ h]
  rfl

/-- A moment that is one of the clock stays the moment of the clock's next step (R12, R86). -/
theorem clockMoment_of_clocked {s : State} (h : s.clocked = true) : s.clockMoment = s := by
  unfold State.clockMoment
  rw [if_pos h]

/-- The moment of a step of the clock that follows an event is later than every offer that waits. -/
theorem clockMoment_of_event {s : State} (h : s.clocked = false) : s.clockMoment = s.newMoment.setClocked true := by
  unfold State.clockMoment
  rw [h]
  rfl

/-- What is due does not depend on local time. -/
@[simp] theorem nextDue_setNow (s : State) (m : Nat) : (s.setNow m).nextDue = s.nextDue := rfl

/-- What is due does not depend on whether the moment is one of the clock. -/
@[simp] theorem nextDue_setClocked (s : State) (b : Bool) : (s.setClocked b).nextDue = s.nextDue := rfl

/-- At the moment of an event the state is settled, if nothing is due. -/
theorem newMoment_settled {s : State} (h : s.nextDue = none) : Settled s.newMoment := by
  obtain ⟨m, hm, -, h2⟩ := newMoment_later s
  rw [hm]
  exact ⟨h, h2, rfl⟩

/-- At the moment of a step of the clock nothing is due, if nothing was, and the moment is one of the clock. -/
theorem clockMoment_onClock {s : State} (h : s.nextDue = none) : OnClock s.clockMoment := by
  unfold State.clockMoment
  split
  · exact ⟨h, by assumption⟩
  · exact ⟨h, rfl⟩

/-- Where nothing is due, an event acts at a moment of its own, and the output lines follow. -/
theorem act_of_quiet {s : State} (h : s.nextDue = none) (f : State → State) : act f s = refreshPins (f s.newMoment) := by
  unfold act
  rw [settle_of_quiet h]

/-- In a settled state an event is its operation and the output lines. -/
theorem act_of_settled {s : State} (h : Settled s) (f : State → State) : act f s = refreshPins (f s) := by
  obtain ⟨h1, h2, h3⟩ := h
  rw [act_of_quiet h1, newMoment_of_before h2, ← h3]
  rfl

/-- Where nothing is due, a step of the clock acts at a moment of the clock, and the output lines follow. -/
theorem actClock_of_quiet {s : State} (h : s.nextDue = none) (f : State → State) :
    actClock f s = refreshPins (f s.clockMoment) := by
  unfold actClock
  rw [settle_of_quiet h]

/-- At a moment of the clock in which nothing is due, a step of the clock is its operation and the output lines. -/
theorem actClock_of_onClock {s : State} (h : OnClock s) (f : State → State) : actClock f s = refreshPins (f s) := by
  rw [actClock_of_quiet h.1, clockMoment_of_clocked h.2]

/-- The output lines are all that driving them changes. -/
theorem refreshPins_eq (s : State) : refreshPins s = { s with pins := s.outputs } := rfl

@[simp] theorem beside_refreshPins (s : State) : (refreshPins s).beside = s.beside := rfl

@[simp] theorem outputs_refreshPins (s : State) : (refreshPins s).outputs = s.outputs := rfl

/-- States that are equal beside those parts hold the same tables. -/
theorem tables_of_beside {r s : State} (h : s.beside = r.beside) : s.tables = r.tables := by
  have e := congrArg State.tables h
  exact e

/-- States that are equal beside those parts have the same configuration. -/
theorem cfg_of_beside {r s : State} (h : s.beside = r.beside) : s.cfg = r.cfg := by
  have e := congrArg State.cfg h
  exact e

/-- States that are equal beside those parts have the same trunk state. -/
theorem trunkState_of_beside {r s : State} (h : s.beside = r.beside) : s.trunk.state = r.trunk.state :=
  by have e := congrArg (fun x : State => x.trunk.state) h; exact e

/-- States that are equal beside those parts have the same half. -/
theorem half_of_beside {r s : State} (h : s.beside = r.beside) : s.trunk.half = r.trunk.half :=
  by have e := congrArg (fun x : State => x.trunk.half) h; exact e

/-- States that are equal beside those parts have the same address. -/
theorem addr_of_beside {r s : State} (h : s.beside = r.beside) : s.addr = r.addr := by
  unfold State.addr
  simp only [cfg_of_beside h, half_of_beside h]

/-- Handing a change of the tables changes nothing beside the blocks that read them. -/
theorem handTables_beside (p : Option WantPos) (b s : State) : (handTables p b s).beside = s.beside :=
  (handTables_keeps p b (Keeps.refl s)).same

/-- A change of the tables sets the tables, and changes nothing beside the blocks that read them. -/
theorem changeTables_beside (t : Tables) (s : State) : (changeTables t s).beside = (s.setTables t).beside :=
  handTables_beside none s (s.setTables t)

/-- A change of the tables sets the tables. -/
@[simp] theorem changeTables_tables (t : Tables) (s : State) : (changeTables t s).tables = t :=
  tables_of_beside (changeTables_beside t s)

/-- After a change of the tables an entry of the queue stood in it, or has just been made (R12). -/
theorem changeTables_fresh (t : Tables) (s : State) : ∀ e ∈ (changeTables t s).queue,
    (∃ d ∈ s.queue, d.subject = e.subject ∧ d.time = e.time) ∨ e.time = s.now :=
  (handTables_keeps none s (Keeps.refl (s.setTables t))).fresh

/-- A change of the tables keeps the queue's form, and its entries for doors, lenses and the ROSTER. -/
theorem changeTables_keeps (t : Tables) (s : State) : Keeps (s.setTables t) (changeTables t s) :=
  handTables_keeps none s (Keeps.refl (s.setTables t))

/-- A change of the tables leaves whether a door, a lens or the ROSTER waits. -/
theorem changeTables_lines (t : Tables) (s : State) (sub : Subject) (h : sub.isLine = true) :
    queueHolds (changeTables t s).queue sub = queueHolds s.queue sub := (changeTables_keeps t s).lines sub h

/-- What stands beside those parts after a change of the tables depends on what stood beside them before. -/
theorem changeTables_beside_of {r s : State} (h : s.beside = r.beside) (t : Tables) :
    (changeTables t s).beside = (r.setTables t).beside := by
  rw [changeTables_beside]
  show { s.beside with tables := t } = { r.beside with tables := t }
  rw [h]

/-- An item that passes the filters: its tag is taken, its sender is given presence, and the rest is applied (R29). -/
theorem takeItem_admitted {s : State} {a : Addr} {tag : Word} (h : s.admits a tag) (f : State → State) :
    takeItem false a tag f s = f (changeTables (s.heardTables a tag) (s.tagged tag)) := by
  obtain ⟨hact, hheld, hk⟩ := h
  unfold takeItem hearTag State.heardTables State.tagged
  rw [if_pos hact]
  by_cases ht : tag = s.cfg.tag
  · simp [ht] at hheld ⊢
    simp [hheld]
  · have hl := hk.resolve_left ht
    have hf : foreignChanged (lowerTags s.cfg.tag s.tables.foreign)
        (s.setTables { s.tables with foreign := takeTag tag s.tables.foreign })
        = s.setTables { s.tables with foreign := takeTag tag s.tables.foreign } := by
      unfold foreignChanged
      exact if_pos hl
    simp only [if_neg ht, hf]
    have hh : (s.setTables { s.tables with foreign := takeTag tag s.tables.foreign }).heldBack a tag = false := hheld
    simp only [hh]
    rfl

/-- An item that the station transmitted itself is not filtered, and presence leaves its own entry (R20, R27). -/
theorem takeItem_own {s : State} {a : Addr} {tag : Word} (ha : s.acting = true) (h1 : a = s.addr) (h2 : tag = s.cfg.tag)
    (f : State → State) : takeItem true a tag f s = f (changeTables s.tables s) := by
  unfold takeItem
  rw [if_pos ha]
  have ht : hearTag tag s = s := by unfold hearTag; rw [if_pos h2]
  have hp : presence s.addr a tag s.tables = s.tables := by unfold presence; rw [if_pos h1]
  simp only [ht, hp, Bool.not_true, Bool.false_and, Bool.false_eq_true, if_false]

/-- What stands beside those parts once an admitted item has given its sender presence. -/
theorem presence_beside (s : State) (a : Addr) (tag : Word) :
    (changeTables (s.heardTables a tag) (s.tagged tag)).beside = (s.setTables (s.heardTables a tag)).beside := by
  rw [changeTables_beside]
  unfold State.tagged
  split <;> rfl

/-- A signal is recorded where the check point has passed (R3). -/
theorem hearSignal_eq (s : State) : hearSignal s = s.setTrunk { s.trunk with
    heardSince := s.trunk.heardSince || (!s.trunk.synced || decide (4928 ≤ s.trunk.offset)) } := by
  unfold hearSignal Config.tailStart
  by_cases h : (!s.trunk.synced || decide (4928 ≤ s.trunk.offset)) = true
  · rw [if_pos h, h, Bool.or_true]
  · have h' := Bool.eq_false_iff.mpr h
    rw [if_neg h, h', Bool.or_false]
    rfl

/-- A control frame of the command's kind, taken by an acting or listening station, is an item of its sender (R20). -/
theorem frameHeard_frame {s : State} {k : FrameKind} {rx : ControlRx} {f : ControlFrame} (hb : s.boot.phase = .started)
    (hr : readControl rx = .frame f) (hk : f.body.kind = k) :
    frameHeard k rx s = takeFrame false f s.frameEnded := by
  unfold frameHeard
  rw [if_pos hb, hr]
  simp only [hk, if_true, hearSignal_eq]
  rfl

/-- An event in a settled state answers its operation and the output lines. -/
theorem exec_act {c : Instr} {f : State → State} {s : State} (hs : Settled s) (h : exec c s = .next (act f s)) :
    exec c s = .next (refreshPins (f s)) := by rw [h, act_of_settled hs]

/-- A step of the clock at a moment of the clock answers its operation and the output lines. -/
theorem exec_actClock {c : Instr} {f : State → State} {s : State} (hs : OnClock s)
    (h : exec c s = .next (actClock f s)) : exec c s = .next (refreshPins (f s)) := by rw [h, actClock_of_onClock hs]

/-- An event acts as it does at the moment of its taking (R12). -/
theorem exec_newMoment {c : Instr} {s : State} (hc : ownMoment c = true) (h : s.nextDue = none) :
    exec c s = exec c s.newMoment := by
  have key : ∀ f : State → State, act f s = act f s.newMoment := fun f => by
    rw [act_of_quiet h, act_of_settled (newMoment_settled h)]
  cases c <;> first | exact absurd hc Bool.false_ne_true | exact congrArg Host.Outcome.next (key _)

/-- A step of the clock acts as it does at the moment of the clock at which it is taken (R12, R86). -/
theorem exec_clockMoment {c : Instr} {s : State} (hc : clockStep c = true) (h : s.nextDue = none) :
    exec c s = exec c s.clockMoment := by
  have key : ∀ f : State → State, actClock f s = actClock f s.clockMoment := fun f => by
    rw [actClock_of_quiet h, actClock_of_onClock (clockMoment_onClock h)]
  cases c <;> first | exact absurd hc Bool.false_ne_true | exact congrArg Host.Outcome.next (key _)

/-- Every command ends with the driving of the output lines. -/
theorem exec_pins (c : Instr) (s : State) : ∃ x, exec c s = .next (refreshPins x) := by cases c <;> exact ⟨_, rfl⟩

/-- Every command that acts on the settled state answers a next state. -/
theorem act_answers (f : State → State) (s : State) :
    Completes (.next (act f s) : Host.Outcome State Fault Refusal) := ⟨_, rfl⟩

end Sys2Proof.Machine
end

