-- ==== Sys2Proof/Laws/PerInstr.lean ====
section
/-! SUPPORT. Per command: how many bytes of another station's transmission a well-formed command carries. -/
namespace Sys2Proof.Laws.LineBound

/-- The bytes after its field of the transmission that a command reports as heard. -/
def heardBytes : Instr → Nat
  | .markBodyReceived rx => rx.bytes.length
  | .rosterFrameReceived rx => rx.bytes.length
  | .doorFrameReceived rx => rx.bytes.length
  | .lensFrameReceived rx => rx.bytes.length
  | .cabFrameReceived rx => rx.bytes.length
  | .wantFrameReceived rx => rx.bytes.length
  | .claimFrameReceived rx => rx.bytes.length
  | .releaseFrameReceived rx => rx.bytes.length
  | .denyFrameReceived rx => rx.bytes.length
  | .slotObservation _ (.tile rx) => rx.bytes.length
  | _ => 0

/-- A well-formed command reports no more than the longest tile holds (R178). -/
def Statement (i : Instr) : Prop := WellFormed i = true → heardBytes i ≤ maxTileBytes

/-- A well-formed control frame is shorter than a tile (R176). -/
theorem control_le (code : Byte) (rx : ControlRx) (h : wellFormedControl code rx = true) :
    rx.bytes.length ≤ maxTileBytes := by
  unfold wellFormedControl at h
  rw [Bool.and_eq_true, decide_eq_true_eq] at h
  exact Nat.le_trans h.1 (by decide)

theorem powerOnReset : Statement .powerOnReset := fun _ => Nat.zero_le _
theorem resetLine : Statement .resetLine := fun _ => Nat.zero_le _
theorem startReadEnd : Statement .startReadEnd := fun _ => Nat.zero_le _
theorem roundTimerExpiry (signal : Bool) : Statement (.roundTimerExpiry signal) := fun _ => Nat.zero_le _
theorem markStartHeard : Statement .markStartHeard := fun _ => Nat.zero_le _
theorem markBodyReceived (rx : MarkRx) : Statement (.markBodyReceived rx) := by
  intro h
  have h := of_decide_eq_true h
  show rx.bytes.length ≤ 5775
  omega
theorem markReadbackEnd (readBack : List Byte) : Statement (.markReadbackEnd readBack) := fun _ => Nat.zero_le _
theorem controlPositionStart (k : Nat) : Statement (.controlPositionStart k) := fun _ => Nat.zero_le _
theorem arbitrationWin : Statement .arbitrationWin := fun _ => Nat.zero_le _
theorem controlFrameSent (readBack : List Byte) : Statement (.controlFrameSent readBack) := fun _ => Nat.zero_le _
theorem clashLimit : Statement .clashLimit := fun _ => Nat.zero_le _
theorem rosterFrameReceived (rx : ControlRx) : Statement (.rosterFrameReceived rx) := fun h => control_le _ rx h
theorem doorFrameReceived (rx : ControlRx) : Statement (.doorFrameReceived rx) := fun h => control_le _ rx h
theorem lensFrameReceived (rx : ControlRx) : Statement (.lensFrameReceived rx) := fun h => control_le _ rx h
theorem cabFrameReceived (rx : ControlRx) : Statement (.cabFrameReceived rx) := fun h => control_le _ rx h
theorem wantFrameReceived (rx : ControlRx) : Statement (.wantFrameReceived rx) := fun h => control_le _ rx h
theorem claimFrameReceived (rx : ControlRx) : Statement (.claimFrameReceived rx) := fun h => control_le _ rx h
theorem releaseFrameReceived (rx : ControlRx) : Statement (.releaseFrameReceived rx) := fun h => control_le _ rx h
theorem denyFrameReceived (rx : ControlRx) : Statement (.denyFrameReceived rx) := fun h => control_le _ rx h
theorem dataSlotStart (n : Slot) : Statement (.dataSlotStart n) := fun _ => Nat.zero_le _
theorem slotObservation (n : Slot) (line : SlotLine) : Statement (.slotObservation n line) := by
  intro h
  cases line with
  | silent => exact Nat.zero_le _
  | signal => exact Nat.zero_le _
  | tile rx => exact of_decide_eq_true h
  | cut => exact Nat.zero_le _
theorem slotReclaim (n : Slot) : Statement (.slotReclaim n) := fun _ => Nat.zero_le _
theorem stationGone (a : Addr) : Statement (.stationGone a) := fun _ => Nat.zero_le _
theorem foreignTagAgedOut (tag : Word) : Statement (.foreignTagAgedOut tag) := fun _ => Nat.zero_le _
theorem foreignTramPurge (tag : Word) : Statement (.foreignTramPurge tag) := fun _ => Nat.zero_le _
theorem rosterRefreshDue : Statement .rosterRefreshDue := fun _ => Nat.zero_le _
theorem wantRecordExpiry (p : WantPos) : Statement (.wantRecordExpiry p) := fun _ => Nat.zero_le _
theorem holdLimit (n : StreamNo) : Statement (.holdLimit n) := fun _ => Nat.zero_le _
theorem vehicleLineEdge (line : VehicleLine) (level : Bool) : Statement (.vehicleLineEdge line level) := fun _ => Nat.zero_le _
theorem doorLineAccepted (ch : Chan) (line : DoorLine) : Statement (.doorLineAccepted ch line) := fun _ => Nat.zero_le _
theorem doorChannelSettled (ch : Chan) : Statement (.doorChannelSettled ch) := fun _ => Nat.zero_le _
theorem closingLimit (ch : Chan) : Statement (.closingLimit ch) := fun _ => Nat.zero_le _
theorem couplerLineAccepted : Statement .couplerLineAccepted := fun _ => Nat.zero_le _
theorem cabOnAccepted : Statement .cabOnAccepted := fun _ => Nat.zero_le _
theorem reverseAccepted : Statement .reverseAccepted := fun _ => Nat.zero_le _
theorem lingerExpiry (side : Side) : Statement (.lingerExpiry side) := fun _ => Nat.zero_le _
theorem ackPress : Statement .ackPress := fun _ => Nat.zero_le _
theorem nextKeyPress (side : Side) : Statement (.nextKeyPress side) := fun _ => Nat.zero_le _
theorem carryEntryExpiry : Statement .carryEntryExpiry := fun _ => Nat.zero_le _
theorem wantRefreshDue : Statement .wantRefreshDue := fun _ => Nat.zero_le _
theorem paneStale (side : Side) (pane : Nat) : Statement (.paneStale side pane) := fun _ => Nat.zero_le _
theorem cameraSyncPulse (i : Input) (kind : SyncKind) : Statement (.cameraSyncPulse i kind) := fun _ => Nat.zero_le _
theorem cameraFrameCompleted (i : Input) (frame : CameraFrame) : Statement (.cameraFrameCompleted i frame) := fun _ => Nat.zero_le _
theorem cameraSynced (i : Input) : Statement (.cameraSynced i) := fun _ => Nat.zero_le _
theorem cameraStall (i : Input) : Statement (.cameraStall i) := fun _ => Nat.zero_le _
theorem cameraAbsence (i : Input) : Statement (.cameraAbsence i) := fun _ => Nat.zero_le _
theorem measurementPeriodTick : Statement .measurementPeriodTick := fun _ => Nat.zero_le _
theorem quietCountFull (i : Input) : Statement (.quietCountFull i) := fun _ => Nat.zero_le _
theorem rotaPass : Statement .rotaPass := fun _ => Nat.zero_le _
theorem gradeRise (i : Input) : Statement (.gradeRise i) := fun _ => Nat.zero_le _
theorem gradeFall (i : Input) : Statement (.gradeFall i) := fun _ => Nat.zero_le _
theorem probePass : Statement .probePass := fun _ => Nat.zero_le _
theorem captureFrame : Statement .captureFrame := fun _ => Nat.zero_le _
theorem baselineWriteComplete : Statement .baselineWriteComplete := fun _ => Nat.zero_le _
theorem baselineWriteTimeout : Statement .baselineWriteTimeout := fun _ => Nat.zero_le _
theorem unlockStepTimeout : Statement .unlockStepTimeout := fun _ => Nat.zero_le _
theorem unlockedLifeExpiry : Statement .unlockedLifeExpiry := fun _ => Nat.zero_le _
theorem serviceLineDeassert : Statement .serviceLineDeassert := fun _ => Nat.zero_le _
theorem serviceByte (b : Byte) (stopBit : Bool) : Statement (.serviceByte b stopBit) := fun _ => Nat.zero_le _
theorem serviceByteTimeout : Statement .serviceByteTimeout := fun _ => Nat.zero_le _
theorem status : Statement .status := fun _ => Nat.zero_le _
theorem roster : Statement .roster := fun _ => Nat.zero_le _
theorem lens (input : Byte) : Statement (.lens input) := fun _ => Nat.zero_le _
theorem probe (input : Byte) : Statement (.probe input) := fun _ => Nat.zero_le _
theorem unlock (step : Byte) : Statement (.unlock step) := fun _ => Nat.zero_le _
theorem capture (input : Byte) : Statement (.capture input) := fun _ => Nat.zero_le _
theorem clear (input : Byte) : Statement (.clear input) := fun _ => Nat.zero_le _
theorem replySent : Statement .replySent := fun _ => Nat.zero_le _
theorem resetReleased : Statement .resetReleased := fun _ => Nat.zero_le _
theorem driverKeyReleaseAccepted (key : Key) : Statement (.driverKeyReleaseAccepted key) := fun _ => Nat.zero_le _

end Sys2Proof.Laws.LineBound
end

