-- ==== Sys2Proof/Laws/Round.lean ====
section
/-! SUPPORT. Rounds: what beginning a round and a round tick do to the Trunk Port, the interval of the round timer, and the
elements of a vector that a function gives. -/
namespace Sys2Proof.Machine

/-- A round tick reads the trunk state and the half of the Trunk Port, and changes nothing of it. -/
theorem roundTick_setTrunk (s : State) (x : Trunk) (h1 : x.state = s.trunk.state) (h2 : x.half = s.trunk.half) :
    roundTick (s.setTrunk x) = (roundTick s).setTrunk x := by
  have ha : (s.setTrunk x).acting = s.acting := by unfold State.acting; simp [h1]
  have hb : (s.setTrunk x).addr = s.addr := by unfold State.addr; simp [h2]
  unfold roundTick
  rw [ha]
  split
  · rw [hb, State.setTrunk_trunk, h1]; rfl
  · rfl

/-- A round tick leaves the Trunk Port as it is. -/
theorem roundTick_trunk (s : State) : (roundTick s).trunk = s.trunk := by
  unfold roundTick; split <;> rfl

/-- A round tick leaves the configuration as it is. -/
theorem roundTick_cfg (s : State) : (roundTick s).cfg = s.cfg := by
  unfold roundTick; split <;> rfl

/-- The address follows from the configuration and the half. -/
theorem addr_congr {s t : State} (h1 : t.cfg = s.cfg) (h2 : t.trunk.half = s.trunk.half) : t.addr = s.addr := by
  unfold State.addr; simp only [h1, h2]

/-- A round tick leaves the own address as it is. -/
theorem roundTick_addr (s : State) : (roundTick s).addr = s.addr :=
  addr_congr (roundTick_cfg s) (by rw [roundTick_trunk])

/-- The interval of the round timer outside INERT (R2). -/
theorem interval_of_ne {s : State} (h : s.trunk.state ≠ .inert) : s.interval = 5000 + 20 * s.addr.val := by
  unfold State.interval; rw [if_neg h]; rfl

/-- The interval of the round timer in INERT (R169). -/
theorem interval_of_inert {s : State} (h : s.trunk.state = .inert) : s.interval = 5300 := by
  unfold State.interval; rw [if_pos h]; rfl

/-- A round tick leaves local time as it is. -/
theorem roundTick_setNow (s : State) (n : Nat) : roundTick (s.setNow n) = (roundTick s).setNow n := by
  unfold roundTick
  show (if s.acting then _ else _) = _
  split <;> rfl

/-- The round tick of a station that does not act changes nothing (R22). -/
theorem roundTick_idle {s : State} (h : s.acting = false) : roundTick s = s := by
  unfold roundTick; rw [h]; rfl

/-- What beginning a round does (R1, R2, R28). -/
theorem beginRound_eq (s : State) : beginRound s = (roundTick s).setTrunk { s.trunk with
        timer := s.interval, synced := true, offset := 0, overrun := false, heardSince := false, opening := .none
        markInTurn := !s.trunk.synced || decide (4928 ≤ s.trunk.offset), markInListen := s.trunk.state == .listen
        won := false, clashed := false, contending := none, rival := none, filter := none } := by
  unfold beginRound; dsimp only
  rw [roundTick_setTrunk _ _ ?_ ?_] <;> rfl

/-- An offset lies within the field of a position exactly if it is one of the 23 microseconds from its start (R1). -/
theorem inField_iff (o : Nat) : Config.inField o = true ↔ ∃ k : Fin 4, 40 + 70 * k.val ≤ o ∧ o < 63 + 70 * k.val := by
  unfold Config.inField Config.positionStart
  rw [List.any_eq_true]
  constructor
  · rintro ⟨k, hk, h⟩
    simp only [Bool.and_eq_true, decide_eq_true_iff] at h
    simp only [List.mem_cons, List.not_mem_nil, or_false] at hk
    exact ⟨⟨k, by omega⟩, by simp only; omega⟩
  · rintro ⟨k, h⟩
    refine ⟨k.val, ?_, ?_⟩
    · have := k.isLt
      simp only [List.mem_cons, List.not_mem_nil, or_false]
      omega
    · simp only [Bool.and_eq_true, decide_eq_true_iff]
      omega

/-- An element of a vector of sixteen values given by a function. -/
theorem vec16_get {α : Type} (f : Fin 16 → α) (a : Fin 16) : (vec16 f)[a] = f a := by
  fin_cases a <;> rfl

/-- An element of a vector of four values given by a function. -/
theorem vec4_get {α : Type} (f : Fin 4 → α) (a : Fin 4) : (vec4 f)[a] = f a := by
  fin_cases a <;> rfl

/-- The slot that starts at the offset of a slot's start is that slot (R1). -/
theorem slotAt_slotStart (n : Slot) : slotAt (320 + 192 * n.val) = some n := by fin_cases n <;> rfl

/-- A synchronised round at a slot's start that has not been taken owes that start (log 81). -/
theorem slotDue_eq {s : State} {n : Slot} (hy : s.trunk.synced = true) (ho : s.trunk.offset = 320 + 192 * n.val)
    (hf : ∀ f, s.trunk.filter = some f → f.slot ≠ n) : s.slotDue = some n := by
  have hb : s.slotBegun n = false := by
    unfold State.slotBegun
    cases h : s.trunk.filter with
    | none => rfl
    | some f => simpa using hf f h
  unfold State.slotDue
  rw [if_pos hy, ho, slotAt_slotStart]
  simp [hb]

end Sys2Proof.Machine
end

