-- ==== Sys2Proof/Tests/Slice0.lean ====
section
/-! SUPPORT. Tests: the well-formedness smoke, the two CRCs, frames read and built, small tests of single commands, and for
every statement of Obligations.lean that has hypotheses a concrete state and operands that meet them. -/
namespace Sys2Proof.Tests
open Sys2Proof.Machine

set_option Elab.async false

/-! ### Well-formedness: each check refuses an ill-formed term -/

theorem test_wf_control_position : WellFormed (.controlPositionStart 4) = false := by decide
theorem test_wf_pane : WellFormed (.paneStale .left 4) = false := by decide
theorem test_wf_mark : WellFormed (.markBodyReceived { addr := 0, tag := 0, bytes := List.replicate 9 0 }) = false := by
  decide
theorem test_wf_control_long :
    WellFormed (.doorFrameReceived { cls := 0, addr := 0, tag := 0, bytes := List.replicate 265 2 }) = false := by
  decide +kernel
theorem test_wf_control_kind :
    WellFormed (.doorFrameReceived { cls := 0, addr := 0, tag := 0, bytes := [0x03#8] }) = false := by decide
theorem test_wf_tile :
    WellFormed (.slotObservation 0 (.tile { addr := 0, bytes := List.replicate 5776 1 })) = false := by decide +kernel
theorem test_wf_accepts : WellFormed (.lensFrameReceived { cls := 1, addr := 0, tag := 0, bytes := [0x03#8] }) = true := by
  decide

/-! ### Check values and frames, against published check values of the two polynomials -/

/-- The check string "123456789". -/
def nine : List Byte := [0x31, 0x32, 0x33, 0x34, 0x35, 0x36, 0x37, 0x38, 0x39]

/-- CRC-16 of polynomial 1021h, initial value FFFFh. -/
theorem test_crc16 : crc16 nine = 0x29B1#16 := by decide +kernel
/-- CRC-32 of polynomial 04C11DB7h, initial value FFFFFFFFh, not inverted. -/
theorem test_crc32 : crc32 nine = 0x0376E6E7#32 := by decide +kernel

/-- A void ending at class 2 of address 7: one byte 00h and the check value over field and byte. -/
theorem test_void : voidBytes 2 7 0x0200#16 = 0x00#8 :: word32Bytes (crc32 [0x27, 0x02, 0x00, 0x00]) := by decide +kernel
/-- The bytes of a DOOR: kind 02h, length 2, address, tag, channel, phase OPEN. -/
theorem test_door_bytes : (controlBytes { addr := 7, tag := 0x0200#16, body := .door 0x01#8 0x03#8 }).take 7
    = [0x02, 0x02, 0x07, 0x02, 0x00, 0x01, 0x03] := by decide +kernel
/-- No row of the table has bits: no word spells a command. -/
theorem test_no_word : decodeTableWord 16 0 = none := by decide

/-! ### Small states -/

/-- Settings of a cab station at end A with one door camera and one door, its frames of 8 lines of 8 pixels. -/
def cfgA : Settings := { Settings.blank with
  tag := 0x0200#16, localNo := 3, role := .cab, endStation := some .a, filterTime := 10, closingLimit := 20
  lineCount := 8, pixelCount := 8
  cams := #v[some { view := .doorOut 1, side := .left }, none, none, none]
  doors := #v[some { door := 1, side := .left, exterior := some 0 }, none, none, none]
  soiling := { period := 500000, riseConfirm := 2, fallConfirm := 3, suspect := 8, darkFloor := 16, disturbance := 40
               collapse := 4, baseline := Vector.replicate 16 64 }
  layouts := Vector.replicate 16 (some { grid := .single, selectable := true, onLeft := true, onRight := true
                                         panes := [{ selector := .fixed .doorOut false 1, floor := .quarter }] }) }

/-- The boot record of a started station. -/
def started : Boot := { phase := .started, powerOn := false, resetLine := false, powerSinceRead := false
                        startCause := .power, inertCause := .none, readTimer := 0 }

/-- A station that has just entered LISTEN. -/
def listening : State := refreshPins (startState cfgA { State.reset with boot := started })

/-- A station in JOINED at the start of a synchronised round, 1 us after time 0. -/
def joined : State :=
  refreshPins { listening with trunk := { listening.trunk with state := .joined, synced := true, offset := 0 }, now := 1 }

/-- A station in INERT. -/
def inertOne : State := refreshPins { State.reset with boot := started, trunk := { Trunk.reset with state := .inert } }

/-- The cab record of the station. -/
def ownRecord : CabRecord := { addr := 3, tag := 0x0200#16, cabEnd := .a }

/-- The own roster entry as the cab announces it, and a second car with a door and a camera. -/
def car : RosterEntry where
  presence := .present
  tag := 0x0200#16
  localNo := 5
  role := .body
  age := 0
  cams := [{ input := 0, view := .doorOut 2, side := .right, grade := .clean, held := false, unbaselined := false }]
  doors := [{ chan := 0, door := 2, side := .right, exterior := some 0 }]
  coupler := none
  cabActive := false

/-- A JOINED station that hears a second car at address 5, whose door is locked. -/
def paired : State :=
  { joined with tables := { joined.tables with
      roster := joined.tables.roster.set 5 (some car)
      doors := joined.tables.doors ++ [{ id := { addr := 5, chan := 0 }, phase := .locked }] } }

/-- The same with the cab ACTIVE, 1 us after it has offered its WANT. -/
def active : State :=
  (refreshPins (enterActive
    { paired with tables := { paired.tables with cabRecord := some ownRecord }
                  cab := { paired.cab with state := .active, cabOn := { accepted := true, differ := 0, still := 0 } }
                  levels := { paired.levels with cabOn := true } })).setNow 2

/-- The next state of a command. -/
def after (c : Instr) (s : State) : State :=
  match exec c s with
  | .next t => t
  | _ => s

/-- A control frame from address 5 of the own tram. -/
def frame5 (b : FrameBody) : ControlFrame := { addr := 5, tag := 0x0200#16, body := b }

/-- That frame as it is heard. -/
def hear5 (b : FrameBody) : ControlRx :=
  { cls := b.kind.cls, addr := 5, tag := 0x0200#16, bytes := controlBytes (frame5 b) }

theorem test_listening_settled : Settled listening := by unfold Settled; decide +kernel
theorem test_joined_settled : Settled joined := by unfold Settled; decide +kernel
theorem test_paired_settled : Settled paired := by unfold Settled; decide +kernel
theorem test_active_settled : Settled active := by unfold Settled; decide +kernel
theorem test_inert_settled : Settled inertOne := by unfold Settled; decide +kernel
theorem test_hear_door : readControl (hear5 (.door 0x00#8 0x03#8)) = .frame (frame5 (.door 0x00#8 0x03#8)) := by
  decide +kernel

/-! ### The statements' hypotheses are met -/

/-- A station that sends no control frame. -/
theorem idle_no_control (s : State) (h : s.trunk.out = .idle) : ∀ c, s.trunk.out ≠ .control c := by
  intro c
  rw [h]
  exact nofun

/-- A picture of the test camera, and a brighter one. -/
def picA : FrameLines := List.replicate 8 (List.replicate 8 0x8000#16)

/-- A stream of camera 0 at QUARTER. -/
def quarter0 (st : StreamState) : Stream :=
  { state := st, input := 0, cls := .quarter, wanted := .quarter, floor := .quarter, short := false, upgrade := false
    holdCount := 0, seq := 0x01#8, nextBand := 0, picture := none }

/-- A camera in a state, with its newest frame. -/
def camera (st : InputState) (newest : Option FrameLines) : InputRecord :=
  { state := st, frameOpen := true, good := 3, stall := 200000, absence := 0, newest := newest, malformed := 0#16 }

/-- The stream that slot 0 belongs to. -/
def id0 : StreamId := { addr := 3, num := 0, input := 0, cls := .quarter }

/-- The station with camera 0 LIVE. -/
def filming : State := { paired with intake := { inputs := paired.intake.inputs.set 0 (some (camera .live (some picA)))
                                                 request := none } }

/-- The station with stream 0 in a state in slot 0, wanted by address 5. -/
def streaming (st : StreamState) : State :=
  { filming with
    engine := { filming.engine with table := filming.engine.table.set 0 (some (quarter0 st)) }
    tables := { filming.tables with
      slots := filming.tables.slots.set 0 { owner := some id0, silent := 0 }
      wants := filming.tables.wants.set 0 (some { sender := 5, age := 0, list := [
        { cam := { addr := 3, input := 0 }, cls := .quarter, floor := .quarter, carry := false }] }) } }

/-- The station with another trunk. -/
def withTrunk (s : State) (f : Trunk → Trunk) : State := s.setTrunk (f s.trunk)

/-- The station with other tables. -/
def withTables (s : State) (f : Tables → Tables) : State := s.setTables (f s.tables)

/-- The station with another Lens Watch. -/
def withLens (s : State) (f : LensWatch → LensWatch) : State := s.setLens (f s.lens)

/-- The station with another Baseline Store. -/
def withStore (s : State) (f : BaselineStore → BaselineStore) : State := s.setStore (f s.store)

/-- The station with another Cab Control. -/
def withCab (s : State) (f : CabControl → CabControl) : State := s.setCab (f s.cab)

/-- The station with another Composer. -/
def withComp (s : State) (f : Composer → Composer) : State := s.setComp (f s.comp)

/-- A queue entry made at time 0. -/
def entry (sub : Subject) (k : SendKind) : QueueEntry := { subject := sub, kind := k, time := 0 }

/-- The station contending with an entry at the head of its queue. -/
def contends (s : State) (e : QueueEntry) : State :=
  (withTrunk s (fun x => { x with contending := some e.subject })).setQueue [e]

/-- The station sending a control frame of its own for an entry. -/
def sends (s : State) (e : QueueEntry) (b : FrameBody) : State :=
  let f : ControlFrame := { addr := 3, tag := 0x0200#16, body := b }
  (withTrunk s (fun x => { x with
    out := .control { subject := e.subject, kind := e.kind, frame := f, bytes := controlBytes f, again := none } })).setQueue [e]

/-- A MARK from an address with a tag. -/
def markOf (a : Addr) (tag : Word) (n : Byte) : MarkRx := { addr := a, tag := tag, bytes := markBytes a tag n }

/-- A HOLD tile header of address 5 for a slot. -/
def hold5 (slot : Byte) : TileHeader :=
  { picture := false, addr := 5, tag := 0x0200#16, stream := 1, slot := slot, input := 0, cls := .quarter, seq := 0x00#8
    band := 0, last := false }

/-- A tile as it is heard. -/
def tileOf (h : TileHeader) : TileRx := { addr := h.addr, bytes := tileBytes h [] }

/-- A filter that has run out, its level differing from the accepted value. -/
def ran (accepted : Bool) : LineFilter := { accepted := accepted, differ := 10, still := 10 }

/-- A door channel whose line filters are given. -/
def channel (rel shut edge : LineFilter) (settled : Bool) (p : DoorPhase) : Channel :=
  { rel := rel, shut := shut, edge := edge, settled := settled, phase := p, closing := 0, faults := 0#16 }

/-- The station with its door channel and its lines set. -/
def withDoor (c : Channel) (l : DoorLevels) : State :=
  (paired.setChannels (paired.channels.set 0 (some c))).setLevels
    { paired.levels with door := paired.levels.door.set 0 l }

/-- The station at a moment of its own clock. -/
def onClock (s : State) : State := s.setClocked true

/-- The station with its door channel and its lines set, at a moment of its own clock. -/
def clockedDoor (c : Channel) (l : DoorLevels) : State := onClock (withDoor c l)

/-- The levels of no door line. -/
def lowLines : DoorLevels := { rel := false, shut := false, edge := false }

/-- A lens record. -/
def lensRec : LensRecord :=
  { grade := .watch, rise := 0, fall := 0, peak := none, held := false, unbaselined := true, quiet := 0, decisive := false
    due := false, baseline := Vector.replicate 16 64, previous := some picA, last := none }

/-- The station with the lens record of input 0 set. -/
def withRec (r : LensRecord) : State := withLens filming (fun x => { x with records := x.records.set 0 (some r) })

/-- The station with the engine at work on a handed frame. -/
def measuring (e : EngineState) (r : LensRecord) : State :=
  withLens (withRec r) (fun x => { x with engine := e, handed := some picA })

/-- The station in a write of the record of input 0. -/
def writing (k : OpKind) : State :=
  withStore filming (fun x => { x with busy := true, kind := k, input := some 0, phase := .writing, writeTimer := some 50000
                                       writing := recordBytes (Vector.replicate 16 5) })

/-- The cab with a key's level and filter. -/
def withKey (s : State) (k : Key) (level : Bool) (f : LineFilter) : State :=
  (withCab s (fun x => x.setKey k f)).setLevels (s.levels.set (.key k) level)

/-- A service frame's bytes between start byte and check value, for STATUS. -/
def statusBytes : List Byte := [0x01#8, 0x00#8, 0x00#8] ++ wordBytes (crc16 [0x01#8, 0x00#8, 0x00#8])

/-- A control frame of another tram from address 9, as it is heard. -/
def hear9 (tag : Word) (b : FrameBody) : ControlRx :=
  { cls := b.kind.cls, addr := 9, tag := tag, bytes := controlBytes { addr := 9, tag := tag, body := b } }

/-- A HOLD tile header of another tram at address 9, for slot 23. -/
def hold9 (tag : Word) : TileHeader := { hold5 0x17#8 with addr := 9, tag := tag }

/-- The station whose LIVE camera's stall timer stands at 0. -/
def stalling (s : State) : State :=
  s.setIntake { s.intake with inputs := s.intake.inputs.set 0 (some { camera .live (some picA) with stall := 0 }) }

/-- A standing request for frames of input 0. -/
def request0 (run : Bool) : FrameRequest := { input := 0, run := run, size := if run then 8 else 1, handed := 0 }

/-- The stream of address 5 in slot 0. -/
def id5 : StreamId := { addr := 5, num := 1, input := 0, cls := .quarter }

/-- The last band of a picture of that stream. -/
def lastBand5 : TileHeader := { hold5 0x00#8 with picture := true, band := 11, last := true }

/-- The ACTIVE cab whose right pane lacks only the last band of its candidate's picture. -/
def takingOver : State :=
  withComp (withTables active (fun t => { t with slots := t.slots.set 0 { owner := some id5, silent := 0 } })) (fun c =>
    c.setScreen .right { c.right with panes := [{ freshPane .full .quarter .rear (.cam { addr := 5, input := 0 }) with
      candidate := some id5, candidatePicture := some { seq := 0x00#8, bands := (List.range 11).map (fun k => (k, [])) } }] })

theorem test_met_StepTakesFrontCommand :
    (joined.setPending [.status]).pending = [.status] := by
  decide +kernel

theorem test_met_StepOnEmptyQueue :
    joined.pending = [] ∧ joined.nextDue = none ∧ joined.expiry = none
    ∧ (withTables joined (fun t => { t with refresh := 16 })).nextDue = some .rosterRefreshDue
    ∧ (withTrunk joined (fun t => { t with timer := 0 })).nextDue = none
    ∧ (withTrunk joined (fun t => { t with timer := 0 })).expiry.isSome = true
    ∧ (∀ n ∈ [(0 : Slot), 23], let s := withTrunk joined (fun t => { t with offset := 320 + 192 * n.val });
        s.pending = [] ∧ s.nextDue = none ∧ s.acting = true ∧ s.trunk.timer ≠ 0 ∧ s.gapDue = false
          ∧ firstSome s.timerSteps = none ∧ s.trunk.synced = true ∧ s.trunk.filter = none) := by
  decide +kernel

theorem test_met_OutputLinesFollowState :
    (after .status inertOne).pins.fault = true ∧ (after .status active).pins.picture = .layout
    ∧ (after .status listening).isCab = true ∧ active.isCab = true ∧ Settled active ∧ active.admits 5 0x0200#16
    ∧ readControl (hear5 (.lens 0x00#8 0x02#8 0x01#8)) = .frame (frame5 (.lens 0x00#8 0x02#8 0x01#8))
    ∧ lensContent 0x00#8 0x02#8 ≠ none ∧ (after .status active).pins.screen0.isSome = true := by
  unfold Settled State.admits
  decide +kernel

theorem test_met_RoundTimerExpires :
    (∀ st ∈ [TrunkState.listen, .joined, .excluded .clash, .inert],
      OnClock (withTrunk (onClock joined) (fun t => { t with timer := 0, state := st })))
    ∧ (onClock joined).boot.phase = .started ∧ (onClock joined).trunk.heardSince = false := by
  unfold OnClock
  decide +kernel

theorem test_met_RoundTickAges :
    paired.acting = true ∧ (5 : Addr) ≠ paired.addr ∧ paired.tables.roster[(5 : Addr)] = some car
    ∧ paired.tables.roster[(9 : Addr)] = none ∧ (streaming .holding).engine.table[(0 : StreamNo)] = some (quarter0 .holding)
    ∧ (streaming .holding).acting = true := by
  decide +kernel

theorem test_met_MarkStartBeginsRound :
    (∀ s ∈ [joined, inertOne], Settled s ∧ s.boot.phase = .started ∧ s.trunk.out = .idle ∧ s.trunk.contending = none)
    ∧ (∀ o ∈ [40, 62, 250, 272], Settled (withTrunk joined (fun t => { t with contending := some .roster, offset := o })))
    ∧ (∀ x ∈ [TrunkOut.mark [], .voidEnding [], .tile 0 (hold5 0x00#8) []], ∀ o ∈ [0, 1, 2],
      Settled (withTrunk joined (fun t => { t with out := x, offset := o })))
    ∧ Settled (sends joined (entry .roster .plain) (.want [])) := by
  unfold Settled
  decide +kernel

theorem test_met_MarkBodyIntact :
    Settled listening ∧ Settled inertOne ∧ Settled joined ∧ readMark (markOf 5 0x0200#16 0x07#8) = some 0x07#8
    ∧ Settled (withTrunk listening (fun t => { t with markInListen := true, candidate := true, markInTurn := true }))
    ∧ listening.heldBack 5 0x0200#16 = false ∧ listening.heldBack 3 0x0200#16 = true
    ∧ readMark (markOf 3 0x0200#16 0xFF#8) = some 0xFF#8
    ∧ lowerTags 0x0200#16 (takeTag 0x0300#16 joined.tables.foreign) = lowerTags 0x0200#16 joined.tables.foreign := by
  unfold Settled
  decide +kernel

theorem test_met_MarkDamagedOrReadBack :
    readMark { addr := 5, tag := 0x0200#16, bytes := [] } = none ∧ Settled joined ∧ Settled inertOne
    ∧ inertOne.boot.phase = .started ∧ Settled (withTrunk joined (fun t => { t with out := .mark [], rival := some 1 }))
    ∧ (∀ st ∈ [TrunkState.joined, .listen], ∀ c ∈ [true, false],
      Settled (withTrunk joined (fun t => { t with
        state := st, out := .mark [0x01#8], markInListen := true, candidate := c, markInTurn := true })))
    ∧ joined.acting = true := by
  unfold Settled
  decide +kernel

theorem test_met_PositionContention :
    OnClock (contends (onClock joined) (entry .roster .plain)) ∧ OnClock (onClock listening) ∧ (onClock joined).boot.phase = .started := by
  unfold OnClock
  decide +kernel

theorem test_met_WinFixesContent :
    (∀ e ∈ [entry (.door 0) .plain, entry (.lens 0) .plain, entry .cab .take, entry .want .plain, entry .roster .plain],
      Settled (contends filming e) ∧ (contends filming e).trunk.contending = some e.subject
        ∧ queueFind (contends filming e).queue e.subject = some e)
    ∧ filming.channels[(0 : Chan)] ≠ none ∧ filming.lens.records[(0 : Input)] ≠ none ∧ filming.cfg.endStation = some .a
    ∧ Settled (contends (streaming (.draining .noDemand)) (entry (.stream 0) .release))
    ∧ slotsOf (streaming (.draining .noDemand)).tables.slots 3 0 ≠ []
    ∧ Settled (contends (withTables (streaming .live) (fun t => t)) (entry (.deny 0) .plain))
    ∧ State.denyList ((streaming .live).setEngine { (streaming .live).engine with refusals := #v[
        [{ cam := { addr := 3, input := 0 }, cls := .quarter, reason := .noSlots }], [], [], []] }) 0 ≠ []
    ∧ Settled (withTrunk joined (fun t => { t with contending := some .want })) ∧ queueFind joined.queue .want = none
    ∧ slotsOf (withTables (streaming (.draining .noDemand)) (fun t => { t with slots := Vector.replicate 24 SlotEntry.free
        })).tables.slots 3 0 = []
    ∧ Settled (withTables (contends (streaming (.draining .noDemand)) (entry (.stream 0) .release)) (fun t =>
        { t with slots := Vector.replicate 24 SlotEntry.free }))
    ∧ (streaming .live).denyList 0 = [] ∧ Settled (contends (streaming .claiming) (entry (.stream 0) .claim))
    ∧ mergeTarget ((streaming .claiming).engine.table.set 1 (some (quarter0 .live))) 0 (quarter0 .claiming) .quarter = some 1
    ∧ Settled (contends ((streaming .claiming).setEngine { (streaming .claiming).engine with
        table := (streaming .claiming).engine.table.set 1 (some (quarter0 .live)) }) (entry (.stream 0) .claim))
    ∧ mergeTarget (streaming .claiming).engine.table 0 (quarter0 .claiming) .quarter = none
    ∧ freeSlots (Vector.replicate 24 { owner := some id0, silent := 0 }) < SizeClass.quarter.need := by
  unfold Settled
  decide +kernel

theorem test_met_ControlFrameReadBack :
    Settled (sends joined (entry (.door 0) .plain) (.door 0x00#8 0x03#8))
    ∧ (sends joined (entry (.door 0) .plain) (.door 0x00#8 0x03#8)).acting = true
    ∧ doorContent 0x00#8 0x03#8 = some (0, .opened) ∧ (3 : Addr) = joined.addr ∧ 0x0200#16 = joined.cfg.tag
    ∧ Settled (sends joined (entry (.lens 0) .plain) (.lens 0x00#8 0x02#8 0x01#8))
    ∧ lensContent 0x00#8 0x02#8 = some (0, .soiled)
    ∧ ([] : List Byte) ≠ controlBytes { addr := 3, tag := 0x0200#16, body := .door 0x00#8 0x03#8 }
    ∧ Settled (sends joined (entry .roster .plain) joined.rosterBody) ∧ Settled (sends joined (entry .want .plain) (.want []))
    ∧ Settled (sends joined (entry (.deny 0) .plain) (.deny 0x05#8 [])) ∧ denyContent 0x05#8 [] ≠ none
    ∧ Settled (sends joined (entry .cab .leave) (.cab 0x02#8 0x01#8)) ∧ cabContent 0x02#8 0x01#8 = some (false, .a)
    ∧ joined.cab.state = .idle ∧ Settled (withTrunk joined (fun t => { t with out := .voidEnding [] })) := by
  unfold Settled
  decide +kernel

theorem test_met_ClashLimitExcludes :
    (withTrunk active (fun t => { t with consecClash := 8 })).boot.phase = .started
    ∧ (withTrunk active (fun t => { t with consecClash := 8 })).trunk.state = .joined ∧ active.cab.state = .active
    ∧ active.isCab = true ∧ listening.trunk.state = .listen ∧ listening.boot.phase = .started
    ∧ ({ active with cfg := { cfgA with role := .body } }).isCab = false
    ∧ (let s := withTrunk (sends joined (entry (.door 0) .plain) (.door 0x00#8 0x03#8)) (fun t => { t with consecClash := 8 });
        let b := { s with cfg := { cfgA with role := .body } };
        b.isCab = false ∧ b.boot.phase = .started ∧ b.trunk.state = .joined ∧ b.trunk.out.sends (.door 0) = true)
    ∧ active.trunk.out = .idle := by
  decide +kernel

theorem test_met_ForeignTagRenumbers :
    Settled joined ∧ joined.boot.phase = .started ∧ joined.trunk.state = .joined
    ∧ readMark (markOf 9 0x0100#16 0x07#8) = some 0x07#8 ∧ 0x0100#16 ≠ joined.cfg.tag
    ∧ lowerTags 0x0200#16 (takeTag 0x0100#16 joined.tables.foreign) ≠ lowerTags 0x0200#16 joined.tables.foreign
    ∧ requiredHalf (lowerTags 0x0200#16 (takeTag 0x0100#16 joined.tables.foreign)) = some 1 ∧ (1 : Fin 2) ≠ joined.trunk.half
    ∧ Settled (withTrunk joined (fun t => { t with state := .excluded .consist })) ∧ Settled listening := by
  unfold Settled
  decide +kernel

theorem test_met_ForeignTagExcludesOrLeaves :
    Settled (withTables joined (fun t => { t with foreign := [(0x0100#16, 0)] }))
    ∧ readMark (markOf 3 0x0101#16 0x07#8) = some 0x07#8 ∧ joined.heldBack 3 0x0101#16 = true
    ∧ lowerTags 0x0200#16 (takeTag 0x0101#16 [(0x0100#16, 0)]) = 2 ∧ lowerTags 0x0200#16 [(0x0100#16, 0)] = 1
    ∧ lowerTags 0x0200#16 ([(0x0100#16, 48)].filter (fun x => x.1 != 0x0100#16)) = 0
    ∧ lowerTags 0x0200#16 [(0x0100#16, 48)] = 1 ∧ requiredHalf 0 = some joined.trunk.half
    ∧ lowerTags 0x0200#16 ([(0x0300#16, 48)].filter (fun x => x.1 != 0x0300#16)) = lowerTags 0x0200#16 [(0x0300#16, 48)]
    ∧ (let s := withTables (sends joined (entry (.door 0) .plain) (.door 0x00#8 0x03#8)) (fun t =>
          { t with foreign := [(0x0100#16, 0)] });
        let b := { s with cfg := { cfgA with role := .body } };
        Settled b ∧ b.isCab = false ∧ b.boot.phase = .started ∧ b.trunk.state = .joined ∧ b.trunk.out.sends (.door 0) = true
          ∧ b.heldBack 3 0x0101#16 = true) := by
  unfold Settled
  decide +kernel

theorem test_met_StationsDepart :
    paired.tables.roster[(5 : Addr)] = some car ∧ (5 : Addr) ≠ paired.addr ∧ car.presence = .present
    ∧ (withTables joined (fun t => { t with roster := t.roster.set 5 (some { car with age := 48 }) })).goneDue 5 = true
    ∧ 0x0300#16 ∈ (roundTick (withTables joined (fun t => { t with roster := t.roster.set 5 (some
        { car with age := 95, presence := .gone, tag := 0x0300#16 }) }))).tables.departed
    ∧ 0x0300#16 ∉ (roundTick (withTables joined (fun t => { t with roster := t.roster.set 5 (some
        { car with age := 94, presence := .gone, tag := 0x0300#16 }) }))).tables.departed
    ∧ 0x0300#16 ∉ joined.tables.departed := by
  decide +kernel

theorem test_met_RefreshCountsOffer :
    joined.boot.phase = .started ∧ joined.trunk.state = .joined
    ∧ (withTables joined (fun t => { t with refresh := 16 })).tables.refresh = 16 ∧ queueHolds joined.queue .roster = false
    ∧ joined.trunk.out = .idle ∧ active.acting = true ∧ active.cab.state = .active
    ∧ queueHolds ((withComp active (fun c => { c with wantRefresh := 16 })).setQueue []).queue .want = false
    ∧ (withComp active (fun c => { c with wantRefresh := 16 })).comp.wantRefresh = 16 ∧ active.trunk.out = .idle := by
  decide +kernel

theorem test_met_FrameNotApplied :
    Settled paired ∧ paired.acting = true
    ∧ readControl { hear5 (.door 0x00#8 0x03#8) with
        addr := 3, bytes := controlBytes { addr := 3, tag := 0x0200#16, body := .door 0x00#8 0x03#8 } }
      = .frame { addr := 3, tag := 0x0200#16, body := .door 0x00#8 0x03#8 }
    ∧ paired.heldBack 3 0x0200#16 = true ∧ readControl { cls := 0, addr := 5, tag := 0x0200#16, bytes := [] } = .failed
    ∧ readControl { cls := 2, addr := 5, tag := 0x0200#16, bytes := voidBytes 2 5 0x0200#16 } = .empty := by
  unfold Settled
  decide +kernel

theorem test_met_PresenceOfSender :
    paired.admits 5 0x0200#16 ∧ (5 : Addr) ≠ paired.addr ∧ paired.admits 6 0x0200#16
    ∧ paired.tables.roster[(5 : Addr)] = some car ∧ paired.tables.roster[(6 : Addr)] = none ∧ paired.admits 9 0x0300#16
    ∧ 0x0300#16 ≠ paired.cfg.tag ∧ (withTables joined (fun t => { t with roster := t.roster.set 9 (some
        { car with presence := .gone, tag := 0x0400#16 }) })).admits 9 0x0300#16 := by
  unfold State.admits
  decide +kernel

theorem test_met_DoorAndLensFramesApplied :
    Settled paired ∧ paired.admits 5 0x0200#16
    ∧ readControl (hear5 (.door 0x00#8 0x03#8)) = .frame (frame5 (.door 0x00#8 0x03#8))
    ∧ readControl (hear5 (.door 0x04#8 0x03#8)) = .frame (frame5 (.door 0x04#8 0x03#8))
    ∧ readControl (hear5 (.lens 0x00#8 0x02#8 0x01#8)) = .frame (frame5 (.lens 0x00#8 0x02#8 0x01#8))
    ∧ readControl (hear5 (.lens 0x00#8 0x04#8 0x01#8)) = .frame (frame5 (.lens 0x00#8 0x04#8 0x01#8))
    ∧ doorContent 0x00#8 0x03#8 = some (0, .opened) ∧ doorContent 0x04#8 0x03#8 = none
    ∧ lensContent 0x00#8 0x02#8 = some (0, .soiled) ∧ lensContent 0x00#8 0x04#8 = none := by
  unfold Settled State.admits
  decide +kernel

theorem test_met_CabFrameApplied :
    Settled paired ∧ paired.admits 5 0x0200#16
    ∧ readControl (hear5 (.cab 0x01#8 0x01#8)) = .frame (frame5 (.cab 0x01#8 0x01#8))
    ∧ readControl (hear5 (.cab 0x02#8 0x01#8)) = .frame (frame5 (.cab 0x02#8 0x01#8))
    ∧ readControl (hear5 (.cab 0x03#8 0x01#8)) = .frame (frame5 (.cab 0x03#8 0x01#8))
    ∧ cabContent 0x01#8 0x01#8 = some (true, .a) ∧ cabContent 0x02#8 0x01#8 = some (false, .a)
    ∧ cabContent 0x03#8 0x01#8 = none := by
  unfold Settled State.admits
  decide +kernel

theorem test_met_RosterFrameApplied :
    Settled paired ∧ paired.admits 5 0x0200#16 ∧ (5 : Addr) ≠ paired.addr
    ∧ readControl (hear5 (.roster 0x05#8 0x02#8 0x00#8 0x00#8 [] [])) = .frame (frame5 (.roster 0x05#8 0x02#8 0x00#8 0x00#8 [] []))
    ∧ readControl (hear5 (.roster 0x03#8 0x02#8 0x00#8 0x00#8 [] [])) = .frame (frame5 (.roster 0x03#8 0x02#8 0x00#8 0x00#8 [] []))
    ∧ readControl (hear5 (.roster 0x05#8 0x09#8 0x00#8 0x00#8 [] [])) = .frame (frame5 (.roster 0x05#8 0x09#8 0x00#8 0x00#8 [] []))
    ∧ rosterContent 0x05#8 0x09#8 0x00#8 0x00#8 [] [] = none
    ∧ (rosterContent 0x05#8 0x02#8 0x00#8 0x00#8 [] []).map (fun c => c.localNo) = some 5
    ∧ (rosterContent 0x03#8 0x02#8 0x00#8 0x00#8 [] []).map (fun c => c.localNo) = some paired.cfg.localNo.val := by
  unfold Settled State.admits
  decide +kernel

theorem test_met_WantFrameApplied :
    Settled paired ∧ paired.admits 5 0x0200#16
    ∧ readControl (hear5 (.want [{ b0 := 0x03#8, b1 := 0x00#8, b2 := 0x00#8, b3 := 0x00#8 }])) = .frame (frame5 (.want [{ b0 := 0x03#8, b1 := 0x00#8, b2 := 0x00#8, b3 := 0x00#8 }]))
    ∧ readControl (hear5 (.want [])) = .frame (frame5 (.want []))
    ∧ readControl (hear5 (.want [{ b0 := 0x03#8, b1 := 0x04#8, b2 := 0x00#8, b3 := 0x00#8 }])) = .frame (frame5 (.want [{ b0 := 0x03#8, b1 := 0x04#8, b2 := 0x00#8, b3 := 0x00#8 }]))
    ∧ (wantContent [{ b0 := 0x03#8, b1 := 0x00#8, b2 := 0x00#8, b3 := 0x00#8 }]).map List.length = some 1 ∧ wantContent [] = some [] ∧ wantContent [{ b0 := 0x03#8, b1 := 0x04#8, b2 := 0x00#8, b3 := 0x00#8 }] = none
    ∧ senderPosition (paired.heardTables 5 0x0200#16).wants 5 = none
    ∧ freePosition (paired.heardTables 5 0x0200#16).wants = some 0
    ∧ senderPosition ((streaming .live).heardTables 5 0x0200#16).wants 5 = some 0 ∧ Settled (streaming .live)
    ∧ freePosition (Vector.replicate 4 (some { sender := 7, age := 0, list := [] })) = none
    ∧ Settled (withTables paired (fun t => { t with
        wants := Vector.replicate 4 (some { sender := 7, age := 0, list := [] }) })) := by
  unfold Settled State.admits
  decide +kernel

theorem test_met_ClaimFrameApplied :
    Settled paired ∧ paired.admits 5 0x0200#16
    ∧ readControl (hear5 (.claim 0x05#8 0x0200#16 0x01#8 0x00#8 0x02#8 [0x17#8])) = .frame (frame5 (.claim 0x05#8 0x0200#16 0x01#8 0x00#8 0x02#8 [0x17#8]))
    ∧ readControl (hear5 (.claim 0x04#8 0x0200#16 0x01#8 0x00#8 0x02#8 [0x17#8])) = .frame (frame5 (.claim 0x04#8 0x0200#16 0x01#8 0x00#8 0x02#8 [0x17#8]))
    ∧ claimContent 5 0x05#8 0x01#8 0x00#8 0x02#8 [0x17#8]
      = some ({ addr := 5, num := 1, input := 0, cls := .quarter }, [23])
    ∧ claimContent 5 0x04#8 0x01#8 0x00#8 0x02#8 [0x17#8] = none
    ∧ claimContent 5 0x05#8 0x01#8 0x00#8 0x02#8 [0x00#8]
      = some ({ addr := 5, num := 1, input := 0, cls := .quarter }, [0])
    ∧ (paired.heardTables 5 0x0200#16).slots[(23 : Slot)].owner = none ∧ Settled (streaming .live)
    ∧ ((streaming .live).heardTables 5 0x0200#16).slots[(0 : Slot)].owner = some id0
    ∧ ((streaming .live).heardTables 5 0x0200#16).slots[(0 : Slot)].names 5 1 = false ∧ (streaming .live).admits 5 0x0200#16 := by
  unfold Settled State.admits
  decide +kernel

theorem test_met_ReleaseAndDenyFramesApplied :
    Settled paired ∧ paired.admits 5 0x0200#16 ∧ Settled active ∧ active.admits 5 0x0200#16
    ∧ readControl (hear5 (.release 0x05#8 0x0200#16 0x01#8 [0x17#8])) = .frame (frame5 (.release 0x05#8 0x0200#16 0x01#8 [0x17#8]))
    ∧ readControl (hear5 (.release 0x05#8 0x0200#16 0x06#8 [0x17#8])) = .frame (frame5 (.release 0x05#8 0x0200#16 0x06#8 [0x17#8]))
    ∧ readControl (hear5 (.deny 0x03#8 [{ b0 := 0x05#8, b1 := 0x00#8, b2 := 0x00#8, b3 := 0x03#8 }])) = .frame (frame5 (.deny 0x03#8 [{ b0 := 0x05#8, b1 := 0x00#8, b2 := 0x00#8, b3 := 0x03#8 }]))
    ∧ readControl (hear5 (.deny 0x10#8 [])) = .frame (frame5 (.deny 0x10#8 []))
    ∧ releaseContent 5 0x05#8 0x01#8 [0x17#8] = some (1, [23]) ∧ releaseContent 5 0x05#8 0x06#8 [0x17#8] = none
    ∧ (denyContent 0x03#8 [{ b0 := 0x05#8, b1 := 0x00#8, b2 := 0x00#8, b3 := 0x03#8 }]).map (fun x => x.1) = some active.addr
    ∧ denyContent 0x10#8 [] = none ∧ active.isCab = true ∧ active.cab.state = .active := by
  unfold Settled State.admits
  decide +kernel

theorem test_met_SlotObserved :
    OnClock (onClock paired) ∧ (onClock paired).acting = true ∧ (onClock paired).trunk.out = .idle ∧ (onClock paired).trunk.synced = true
    ∧ (onClock paired).trunk.overrun = false
    ∧ (∀ o ∈ [0, 4928], let s := withTrunk (onClock paired) (fun t => { t with
          state := .excluded .clash, offset := o, overrun := true });
        OnClock s ∧ s.acting = true ∧ s.trunk.synced = true ∧ s.trunk.out = .idle)
    ∧ readTile { addr := 5, bytes := [] } = none ∧ readTile (tileOf (hold5 0x17#8)) = some (hold5 0x17#8, [])
    ∧ (onClock paired).admits 5 0x0200#16 ∧ byte (23 : Slot).val = (hold5 0x17#8).slot
    ∧ readTile (tileOf (hold5 0x00#8)) = some (hold5 0x00#8, []) ∧ OnClock (withTrunk (onClock paired) (fun t => { t with synced := false }))
    ∧ OnClock (withTrunk (onClock (streaming .live)) (fun t => { t with out := .tile 0 { hold5 0x00#8 with addr := 3 } [] }))
    ∧ readTile (tileOf { hold5 0x00#8 with addr := 3 }) = some ({ hold5 0x00#8 with addr := 3 }, [])
    ∧ (onClock paired).heldBack 3 0x0200#16 = true ∧ (onClock paired).addr.val ≤ (tileOf (hold5 0x00#8)).addr.val
    ∧ (hold5 0x00#8).slot ≠ byte (23 : Slot).val ∧ (tileOf { hold5 0x00#8 with addr := 2 }).addr.val < (onClock paired).addr.val := by
  unfold OnClock State.admits
  decide +kernel

theorem test_met_CountsRunOut :
    (streaming .live).tables.slots[(0 : Slot)].owner ≠ none
    ∧ (withTables (streaming .live) (fun t => { t with slots := t.slots.set 0 { owner := some id0, silent := 8 } })).reclaimDue 0
      = true
    ∧ (withTables paired (fun t => { t with wants := t.wants.set 0 (some { sender := 5, age := 48, list := [] }) })).wantDue 0
      = true
    ∧ ((streaming .holding).setEngine { (streaming .holding).engine with
        table := (streaming .holding).engine.table.set 0 (some { quarter0 .holding with holdCount := 40 }) }).holdDue 0 = true
    ∧ (streaming .holding).acting = true ∧ (streaming .holding).trunk.out = .idle
    ∧ (∀ k ∈ [SlotEntry.free, { owner := some id0, silent := 0 }],
      let s := withTables (streaming .live) (fun t => { t with
        slots := (t.slots.set 0 { owner := some id0, silent := 8 }).set 1 k });
      s.acting = true ∧ s.trunk.out = .idle ∧ s.tables.slots[(0 : Slot)].names s.addr 0 = true
        ∧ s.tables.slots[(1 : Slot)].names s.addr 0 = k.owner.isSome ∧ s.engine.table[(0 : StreamNo)] = some (quarter0 .live)) := by
  decide +kernel

theorem test_met_DemandMakesStream :
    Settled filming ∧ Settled paired ∧ filming.admits 5 0x0200#16
    ∧ readControl (hear5 (.want [{ b0 := 0x03#8, b1 := 0x00#8, b2 := 0x00#8, b3 := 0x00#8 }])) = .frame (frame5 (.want [{ b0 := 0x03#8, b1 := 0x00#8, b2 := 0x00#8, b3 := 0x00#8 }])) ∧ filming.tables.wants = Vector.replicate 4 none
    ∧ filming.engine = StreamEngine.reset ∧ filming.trunk.out = .idle ∧ filming.tables.roster[(5 : Addr)] = some car
    ∧ wantContent [{ b0 := 0x03#8, b1 := 0x00#8, b2 := 0x00#8, b3 := 0x00#8 }] = some [{ cam := { addr := 3, input := 0 }, cls := .full, floor := .full, carry := false }]
    ∧ (3 : Addr) = filming.addr ∧ filming.inputLive 0 = true ∧ paired.inputLive 0 = false
    ∧ (let x : Stream := { quarter0 .live with wanted := .full, short := true };
      let v : Eval := { table := (Vector.replicate 6 none).set 0 (some x), refusals := Vector.replicate 4 [], ops := [] };
      v.table[(0 : StreamNo)] = some x ∧ x.state = .live ∧ x.short = true ∧ x.wanted.need ≤ 24
        ∧ v.table[(1 : StreamNo)] = none ∧ (v.seekUpgrade 24).table[(1 : StreamNo)] ≠ none) := by
  unfold Settled State.admits
  decide +kernel

theorem test_met_ClaimWinTakesLowestSlots :
    Settled (contends (streaming .claiming) (entry (.stream 0) .claim))
    ∧ (contends (streaming .claiming) (entry (.stream 0) .claim)).trunk.contending = some (.stream 0)
    ∧ queueFind (contends (streaming .claiming) (entry (.stream 0) .claim)).queue (.stream 0)
      = some (entry (.stream 0) .claim)
    ∧ [SizeClass.full, .half, .quarter].filter (fun c =>
        decide (c.rank ≤ (quarter0 .claiming).wanted.rank) && decide ((quarter0 .claiming).floor.rank ≤ c.rank)) = [.quarter]
    ∧ mergeTarget (streaming .claiming).engine.table 0 (quarter0 .claiming) .quarter = none
    ∧ SizeClass.quarter.need ≤ freeSlots (streaming .claiming).tables.slots := by
  unfold Settled
  decide +kernel

theorem test_met_OwnClaimAndReleaseSent :
    (let s := sends { streaming .claiming with tables := filming.tables } (entry (.stream 0) .claim)
        (.claim 0x03#8 0x0200#16 0x00#8 0x00#8 0x02#8 [0x00#8]);
      Settled s ∧ s.acting = true ∧ s.engine.table[(0 : StreamNo)] = some (quarter0 .claiming)
        ∧ claimContent 3 0x03#8 0x00#8 0x00#8 0x02#8 [0x00#8] = some (id0, [0]) ∧ s.tables.slots[(0 : Slot)].owner = none
        ∧ ∀ k : Slot, s.tables.slots[k].names s.addr 0 = false)
    ∧ (let s := sends (withTables (streaming (.draining .holdLimit)) (fun t => { t with wants := Vector.replicate 4 none }))
        (entry (.stream 0) .release) (.release 0x03#8 0x0200#16 0x00#8 [0x00#8]);
      Settled s ∧ s.acting = true ∧ s.engine.table[(0 : StreamNo)] = some (quarter0 (.draining .holdLimit))
        ∧ releaseContent 3 0x03#8 0x00#8 [0x00#8] = some (0, [0])) := by
  unfold Settled
  decide +kernel

theorem test_met_DataSlotTile :
    (∀ st ∈ [StreamState.live, .holding, .draining .lost, .claiming], OnClock (onClock (streaming st)))
    ∧ (onClock (streaming .live)).trunk.state = .joined ∧ (onClock (streaming .live)).trunk.synced = true ∧ (onClock (streaming .live)).trunk.out = .idle
    ∧ (onClock (streaming .live)).tables.slots[(0 : Slot)].owner = some id0 ∧ id0.addr = (onClock (streaming .live)).addr
    ∧ (onClock (streaming .live)).boot.phase = .started ∧ (onClock (streaming .live)).engine.table[(0 : StreamNo)] = some (quarter0 .live)
    ∧ (onClock (streaming .live)).intake.inputs[(0 : Input)] = some (camera .live (some picA))
    ∧ OnClock ((onClock (streaming .live)).setEngine { (onClock (streaming .live)).engine with
        table := (onClock (streaming .live)).engine.table.set 0 (some { quarter0 .live with picture := some picA, nextBand := 11 }) })
    ∧ OnClock (onClock listening) ∧ (onClock listening).trunk.state ≠ .joined ∧ (onClock paired).tables.slots[(23 : Slot)].owner = none
    ∧ OnClock (withTrunk (onClock paired) (fun t => { t with synced := false })) := by
  unfold OnClock
  decide +kernel

theorem test_met_CameraPulseFrameAbsence :
    (∀ st ∈ [InputState.absent, .syncing, .live, .stalled],
      let s := filming.setIntake { inputs := filming.intake.inputs.set 0 (some { camera st none with good := 1 })
                                   request := none };
      Settled s ∧ s.acting = true ∧ s.intake.inputs[(0 : Input)] = some { camera st none with good := 1 })
    ∧ (camera .live none).frameOpen = true ∧ filming.frameOk { lines := picA, length := 40000 } = true
    ∧ filming.frameOk { lines := picA, length := 35999 } = false
    ∧ (∀ x ∈ [(false, 1, 0), (true, 8, 0), (true, 8, 7)], Settled (filming.setIntake { filming.intake with
        request := some { input := 0, run := x.1, size := x.2.1, handed := x.2.2 } }))
    ∧ OnClock ((onClock filming).setIntake { filming.intake with
        inputs := filming.intake.inputs.set 0 (some { camera .stalled none with absence := 2000000 }) }) := by
  unfold Settled OnClock
  decide +kernel

theorem test_met_CameraEntersAndLeavesLive :
    (camera .syncing (some picA)).state = .syncing ∧ 3 ≤ (camera .syncing (some picA)).good
    ∧ ((onClock filming).setIntake { (onClock filming).intake with
        inputs := (onClock filming).intake.inputs.set 0 (some (camera .syncing (some picA))) }).syncedDue 0 = true
    ∧ (onClock filming).trunk.out = .idle ∧ (onClock filming).acting = true
    ∧ OnClock ((onClock (streaming .live)).setIntake { (onClock filming).intake with
        inputs := (onClock filming).intake.inputs.set 0 (some { camera .live (some picA) with stall := 0 }) })
    ∧ (onClock (streaming .live)).engine.table[(0 : StreamNo)] = some (quarter0 .live) := by
  unfold OnClock
  decide +kernel

theorem test_met_LineEdgeRestartsFilter :
    OnClock (onClock active) ∧ (onClock active).acting = true ∧ (onClock active).isCab = true
    ∧ (onClock active).levels.get (.door 0 .rel) = !true ∧ (onClock active).channels[(0 : Chan)] ≠ none
    ∧ (onClock active).levels.get .coupler = !true ∧ (onClock active).couplerFilter.differ < (onClock active).cfg.filterTime
    ∧ (onClock active).levels.get .cabOn = !false ∧ (onClock active).cab.cabOn.differ < (onClock active).cfg.filterTime
    ∧ (onClock active).levels.get .reverse = !true ∧ (onClock active).cab.reverse.differ < (onClock active).cfg.filterTime
    ∧ (∀ k ∈ [Key.nextL, .nextR, .ack], (onClock active).levels.get (.key k) = !true ∧ ((onClock active).cab.key k).differ < (onClock active).cfg.filterTime)
    ∧ (onClock active).levels.get .service = !true ∧ (onClock active).levels.get .service = false
    ∧ (let s := { (onClock paired) with cfg := { cfgA with role := .body } }; OnClock s ∧ s.acting = true ∧ s.isCab = false
        ∧ s.channels[(0 : Chan)] ≠ none)
    ∧ (∀ x ∈ [true, false], let c := channel { ran x with differ := 0 } { ran true with differ := 0 } (ran false) false .unknown;
        let s := clockedDoor c { rel := x, shut := true, edge := true };
        OnClock s ∧ s.acting = true ∧ s.levels.get (.door 0 .edge) = !false ∧ s.channels[(0 : Chan)] = some c
          ∧ s.cfg.filterTime ≤ c.edge.differ ∧ (c.setFilter .edge { c.edge with accepted := true, differ := 0 }).steady
            s.levels.door[(0 : Chan)] s.cfg.filterTime = true ∧ s.trunk.out = .idle) := by
  unfold OnClock
  decide +kernel

theorem test_met_LinePhaseTable :
    (∀ r ∈ [true, false], ∀ h ∈ [true, false], ∀ e ∈ [true, false],
      (channel (ran r) (ran h) (ran e) true .locked).rel.accepted = r
        ∧ (channel (ran r) (ran h) (ran e) true .locked).shut.accepted = h
        ∧ (channel (ran r) (ran h) (ran e) true .locked).edge.accepted = e) := by
  decide +kernel

theorem test_met_DoorLineAcceptedSetsPhase :
    (∀ p ∈ [DoorPhase.locked, .released, .opened, .closing, .obstructed, .fault], ∀ x ∈ [true, false], ∀ y ∈ [true, false],
      let s := clockedDoor (channel (ran x) { ran y with differ := 0 } LineFilter.off true p) { lowLines with rel := !x };
      OnClock s ∧ (s.levels.door[(0 : Chan)]).level .rel ≠ (ran x).accepted ∧ s.cfg.filterTime ≤ (ran x).differ)
    ∧ (clockedDoor (channel { ran false with differ := 0 } { ran false with differ := 0 } { ran false with differ := 0 } false
        .unknown) lowLines).settleDue 0 = true
    ∧ OnClock (clockedDoor (channel (ran false) LineFilter.off LineFilter.off false .unknown) { lowLines with rel := true })
    ∧ OnClock (clockedDoor (channel LineFilter.off LineFilter.off LineFilter.off false .unknown) lowLines)
    ∧ OnClock (clockedDoor { channel LineFilter.off LineFilter.off LineFilter.off true .closing with closing := 20 } lowLines)
    ∧ (onClock paired).cfg.closingLimit = 20 := by
  unfold OnClock
  decide +kernel

theorem test_met_CouplerLineAcceptedOffersRoster :
    (let s := ((onClock paired).setCouplerFilter (ran false)).setLevels { (onClock paired).levels with coupler := true };
      OnClock s ∧ s.acting = true ∧ s.cfg.endStation = some .a ∧ s.levels.coupler ≠ s.couplerFilter.accepted
        ∧ s.cfg.filterTime ≤ s.couplerFilter.differ ∧ s.tables.roster[s.addr] ≠ none) := by
  unfold OnClock
  decide +kernel

theorem test_met_OfferTable :
    paired.trunk.out = .idle ∧ paired.acting = true ∧ queueHolds paired.queue (.door 0) = false
    ∧ queueHolds (paired.setQueue [entry .cab .take]).queue .cab = true ∧ inertOne.trunk.state = .inert := by
  decide +kernel

theorem test_met_PeriodTickOwesPasses :
    (∀ e ∈ [EngineState.free, .rota 0],
      let s := withLens (onClock (withRec lensRec)) (fun x => { x with periodTimer := 0, engine := e });
      OnClock s ∧ s.acting = true ∧ s.lens.periodTimer = 0)
    ∧ (onClock (withRec lensRec)).store.phase ≠ .waiting ∧ (onClock (withRec lensRec)).lens.probeWaiting = none
    ∧ (onClock (withRec lensRec)).inputLive 0 = true := by
  unfold OnClock
  decide +kernel

theorem test_met_VerdictOfPass :
    (filming.passOf { lensRec with previous := none } picA).verdict = .indecisive .noReference
    ∧ (filming.passOf lensRec picA).scored = 16
    ∧ (filming.passOf lensRec (List.replicate 8 (List.replicate 8 0x0000#16))).verdict = .dark := by
  decide +kernel

theorem test_met_RotaPassCounts :
    (measuring (.rota 0) lensRec).lens.engine = .rota 0 ∧ (measuring (.rota 0) lensRec).lens.handed = some picA
    ∧ (measuring (.rota 0) lensRec).lens.records[(0 : Input)] = some lensRec ∧ (measuring (.rota 0) lensRec).acting = true
    ∧ lensRec.rise < 2 ∧ lensRec.fall < 3 ∧ (measuring (.rota 0) { lensRec with held := true }).trunk.out = .idle
    ∧ (∀ g ∈ [Grade.clean, .watch, .soiled, .obscured], ∃ v ∈ [Grade.clean, .watch, .soiled, .obscured],
      g = v ∨ g.rank < v.rank ∨ v.rank < g.rank)
    ∧ ((measuring (.rota 0) lensRec).passOf lensRec picA).verdict = .decisive .obscured
    ∧ ((measuring (.rota 0) lensRec).passOf { lensRec with previous := none } picA).verdict = .indecisive .noReference := by
  decide +kernel

theorem test_met_GradeAndHeldMove :
    (let r := { lensRec with rise := 2, peak := some .soiled };
      (withRec r).lens.records[(0 : Input)] = some r ∧ (withRec r).cfg.soiling.riseConfirm ≤ r.rise ∧ Grade.soiled ≠ r.grade)
    ∧ (∀ g ∈ [Grade.obscured, .soiled, .watch], (withRec { lensRec with fall := 3, grade := g }).cfg.soiling.fallConfirm ≤ 3)
    ∧ (withRec { lensRec with quiet := 10 }).lens.records[(0 : Input)] = some { lensRec with quiet := 10 }
    ∧ lensRec.held = false := by
  decide +kernel

theorem test_met_HandedFrameMeasured :
    (let s := (measuring (.probe 0) lensRec).setService (.answer 0x04#8 none);
      s.lens.engine = .probe 0 ∧ s.lens.handed = some picA ∧ s.lens.records[(0 : Input)] = some lensRec
        ∧ s.store.phase ≠ .waiting ∧ s.lens.probeWaiting = none
        ∧ ∀ j : Input, (s.lens.records[j]).all (fun q => !q.due) = true)
    ∧ (∀ n ∈ [0, 6, 7],
      let s := withStore (measuring (.capture 0) lensRec) (fun x => { x with phase := .measuring, held := n });
      s.lens.engine = .capture 0 ∧ s.lens.handed = some picA ∧ s.store.phase = .measuring ∧ s.lens.probeWaiting = none
        ∧ s.cfg.soiling.darkFloor ≤ brightnessOf (s.zoneMeans picA))
    ∧ brightnessOf (filming.zoneMeans (List.replicate 8 (List.replicate 8 0x0000#16))) < filming.cfg.soiling.darkFloor := by
  decide +kernel

theorem test_met_RecordWriteEnds :
    (∀ k ∈ [OpKind.capture, .clear], Settled (writing k) ∧ OnClock (onClock (writing k)) ∧ ∀ s ∈ [writing k, onClock (writing k)],
      Memory.wf s.confMem = true ∧ s.store.phase = .writing ∧ s.store.input = some 0 ∧ s.store.writeTimer = some 50000)
    ∧ (writing .capture).lens.records[(0 : Input)] ≠ none ∧ (writing .capture).acting = true
    ∧ (writing .capture).trunk.out = .idle := by
  unfold Settled OnClock
  decide +kernel

theorem test_met_UnlockSequenceAndTimers :
    (∀ p ∈ [UnlockProgress.none, .step1, .step2], ∀ on ∈ [true, false],
      let s := (withStore paired (fun x => { x with progress := p, stepTimer := some 0, lifeTimer := some 0 })).setLevels
        { paired.levels with service := on };
      Settled s ∧ OnClock (onClock s) ∧ s.acting = true ∧ s.service = .hunt ∧ (onClock s).store = s.store) := by
  unfold Settled OnClock
  decide +kernel

theorem test_met_CaptureAndClearRequests :
    (∀ u ∈ [true, false], ∀ b ∈ [true, false],
      let s := withStore filming (fun x => { x with unlocked := u, busy := b });
      Settled s ∧ s.acting = true ∧ s.service = .hunt ∧ s.inputLive 0 = true ∧ s.lens.records[(0 : Input)] ≠ none)
    ∧ (∀ i : Input, 0x03#8 = byte i.val → filming.cfg.cams[i] = none) ∧ filming.cfg.cams[(0 : Input)] ≠ none
    ∧ Settled (withLens (withStore filming (fun x => { x with unlocked := true })) (fun x => { x with engine := .rota 0 }))
    ∧ paired.inputLive 0 = false := by
  unfold Settled
  decide +kernel

theorem test_met_CabSwitchAccepted :
    (∀ st ∈ [CabState.idle, .taking, .active, .blocked], ∀ on ∈ [true, false],
      let s := (withCab (onClock active) (fun x => { x with state := st, cabOn := ran (!on) })).setLevels { (onClock active).levels with cabOn := on };
      OnClock s ∧ s.acting = true ∧ s.isCab = true ∧ s.levels.cabOn = on ∧ s.cab.cabOn.accepted = !on
        ∧ s.cfg.filterTime ≤ s.cab.cabOn.differ ∧ s.trunk.out = .idle) := by
  unfold OnClock
  decide +kernel

theorem test_met_OwnTakeSettlesCab :
    (∀ r ∈ [none, some ownRecord, some { addr := 5, tag := 0x0200#16, cabEnd := .b }],
      let s := sends (withCab (withTables paired (fun t => { t with cabRecord := r })) (fun x => { x with state := .taking }))
        (entry .cab .take) (.cab 0x01#8 0x01#8);
      Settled s ∧ s.acting = true ∧ s.isCab = true ∧ s.cab.state = .taking)
    ∧ cabContent 0x01#8 0x01#8 = some (true, .a) ∧ (5 : Addr) ≠ paired.addr ∧ ownRecord.addr = paired.addr := by
  unfold Settled
  decide +kernel

theorem test_met_ReverseJudgesViews :
    (∀ s0 ∈ [(onClock paired), (onClock active)],
      let s := (withCab s0 (fun x => { x with reverse := ran false })).setLevels { s0.levels with reverse := true };
      OnClock s ∧ s.acting = true ∧ s.isCab = true ∧ s.levels.reverse ≠ s.cab.reverse.accepted
        ∧ s.cfg.filterTime ≤ s.cab.reverse.differ)
    ∧ (onClock paired).cab.state ≠ .active ∧ (onClock active).cab.state = .active
    ∧ listHolds ((onClock active).screen .left).list .reverse = false ∧ shownKind ((onClock active).screen .left).list = some .driver
    ∧ (let s := withComp (onClock active) (fun c => c.setScreen .left { c.left with
        linger := some .reverse, list := [{ kind := .driver, shown := false }] });
      listHolds (s.screen .left).list .reverse = false ∧ listHolds (s.screen .left).list .closing = false
        ∧ shownKind (s.screen .left).list = none ∧ (s.screen .left).linger = some .reverse) := by
  unfold OnClock
  decide +kernel

theorem test_met_ComposerTimers :
    (let s := withComp (onClock active) (fun c => c.setScreen .left { c.left with
        linger := some .reverse, lingerTimer := 0, list := [{ kind := .driver, shown := false }] });
      OnClock s ∧ s.cab.state = .active ∧ (s.screen .left).linger ≠ none ∧ (s.screen .left).lingerTimer = 0)
    ∧ (onClock active).acting = true ∧ (onClock active).trunk.out = .idle
    ∧ (withComp (onClock active) (fun c => { c with carry := [
        { cam := { addr := 5, input := 0 }, cls := .half, side := .left,
          age := 40 }] })).carryDue = true
    ∧ Pane.staleDue { freshPane .full .quarter .rear (.cam { addr := 5, input := 0 }) with
        bound := some (id0, .plain), stale := 80, state := .live } = true := by
  unfold OnClock
  decide +kernel

theorem test_met_KeysAccepted :
    (∀ k ∈ [Key.nextL, .nextR, .ack], ∀ s0 ∈ [(onClock paired), (onClock active)],
      let s := withKey s0 k true (ran false);
      OnClock s ∧ s.acting = true ∧ s.isCab = true ∧ s.levels.key k = true ∧ (s.cab.key k).accepted = false
        ∧ s.cfg.filterTime ≤ (s.cab.key k).differ)
    ∧ (∀ k ∈ [Key.nextL, .nextR, .ack], OnClock (withKey (onClock active) k false (ran true)))
    ∧ (onClock active).comp.ackDoor = none ∧ shownKind ((onClock active).screen .left).list = some .driver
    ∧ ((onClock active).screen .left).driverLayout = .index 0 ∧ (onClock active).selectableOn .left 1 = true
    ∧ OnClock (withComp (onClock active) (fun c => { c with left := { c.left with driverLayout := .blank } }))
    ∧ (onClock active).selectableOn .left 0 = true
    ∧ (let s := withComp (onClock active) (fun c => { c with
        spotlight := [{ door := { addr := 5, chan := 0 }, acked := false }]
        left := { c.left with list := [{ kind := .spotlight, shown := true }], spotDoor := some { addr := 5, chan := 0 } } });
      s.comp.ackDoor ≠ none ∧ phaseIn s.tables.doors { addr := 5, chan := 0 } = some .locked ∧ OnClock s)
    ∧ ({ (onClock active) with cfg := { cfgA with layouts := Vector.replicate 16 none } }).selectableOn .left 1 = false := by
  unfold OnClock
  decide +kernel

theorem test_met_ObstructedDoorJoinsSpotlight :
    Settled active ∧ readControl (hear5 (.door 0x00#8 0x05#8)) = .frame (frame5 (.door 0x00#8 0x05#8))
    ∧ active.admits 5 0x0200#16 ∧ doorContent 0x00#8 0x05#8 = some (0, .obstructed)
    ∧ active.tables.roster[(5 : Addr)] = some car ∧ car.presence = .present ∧ active.isCab = true ∧ active.cab.state = .active
    ∧ phaseIn active.tables.doors { addr := 5, chan := 0 } = some .locked
    ∧ (active.tables.doors.map (fun d => d.id)).Nodup ∧ active.comp.spotlight = [] := by
  unfold Settled State.admits
  decide +kernel

theorem test_met_PaneTakesStream :
    (Assembly.missing { seq := 0x00#8, bands := [] } .quarter = 12)
    ∧ Assembly.missing { seq := 0x00#8, bands := (List.range 9).map (fun k => (k, [])) } .quarter = 3
    ∧ Assembly.missing { seq := 0x00#8, bands := (List.range 8).map (fun k => (k, [])) } .quarter = 4
    ∧ (Assembly.hold { seq := 0x00#8, bands := (List.range 11).map (fun k => (k, [])) } 11 []).missing .quarter = 0
    ∧ (hold5 0x00#8).picture = false
    ∧ (let p := freshPane .full .quarter .rear (.cam { addr := 3, input := 0 });
      p.bound = none ∧ p.candidate = none ∧ p.accepts id0 = true ∧ (p.judge [id0]).candidate = some id0
        ∧ ({ p with bound := some (id0, .plain) }.judge [id0]).candidate = none
        ∧ ({ p with bound := some (id0, .plain) }.judge []).bound = none) := by
  decide +kernel

theorem test_met_ResetsHoldTheStation :
    State.reset.boot.phase = .held ∧ (writing .clear).store.phase = .writing ∧ (writing .clear).store.input = some 0
    ∧ Memory.wf (writing .clear).confMem = true ∧ paired.store.phase ≠ .writing := by
  decide +kernel

theorem test_met_ServiceCharacters :
    Settled paired ∧ paired.boot.phase = .started ∧ paired.service = .hunt
    ∧ Settled (paired.setService (.receive (statusBytes.take 4) 20000))
    ∧ statusBytes.take 4 ++ [statusBytes.getD 4 0] = statusBytes
    ∧ statusBytes.drop 3 = wordBytes (crc16 [0x01#8, 0x00#8, 0x00#8])
    ∧ OnClock ((onClock paired).setService (.receive [] 20001)) ∧ (onClock paired).boot.phase = .started
    ∧ Settled (paired.setService (.answer 0x01#8 (some [])))
    ∧ 16 < (joinBytes 0x00#8 0x11#8).toNat ∧ (joinBytes 0x00#8 0x10#8).toNat ≤ 16 := by
  unfold Settled OnClock
  decide +kernel

theorem test_met_ServiceRequests :
    Settled paired ∧ paired.boot.phase = .started ∧ paired.service = .hunt ∧ Settled inertOne
    ∧ inertOne.boot.phase = .started ∧ inertOne.service = .hunt ∧ inertOne.trunk.state = .inert
    ∧ Settled (paired.setService (.answer 0x01#8 none)) ∧ filming.lens.records[(0 : Input)] ≠ none
    ∧ (∀ i : Input, 0x03#8 = byte i.val → filming.lens.records[i] = none) ∧ Settled filming
    ∧ Settled (withStore filming (fun x => { x with busy := true })) ∧ filming.store.busy = false
    ∧ filming.inputLive 0 = true ∧ filming.lens.engine = .free ∧ filming.store.phase = .none
    ∧ Settled (withLens filming (fun x => { x with engine := .rota 0 })) ∧ filming.cfg.cams[(0 : Input)] ≠ none := by
  unfold Settled
  decide +kernel

theorem test_met_StepKeepsForms :
    QueueDistinct paired.queue ∧ QueueOrdered paired.queue ∧ Memory.wf paired.confMem = true := by
  unfold QueueDistinct QueueOrdered
  decide +kernel

theorem test_met_FramesRoundTrip :
    (kindPart (.door 0x00#8 0x03#8)).length ≤ 255 ∧ (hold5 0x00#8).band < (hold5 0x00#8).cls.bands
    ∧ ([] : List Byte).length = payloadLength false ∧ payloadLength true = 5760 := by
  decide +kernel

theorem test_met_StepOnEmptyQueue_tick :
    State.reset.boot.phase = .held ∧ ({ State.reset with boot := { started with phase := .reading } }).boot.phase = .reading
    ∧ joined.boot.phase = .started ∧ joined.acting = true ∧ inertOne.boot.phase = .started ∧ inertOne.acting = false
    ∧ joined.channels[(0 : Chan)] ≠ none ∧ joined.channels[(1 : Chan)] = none ∧ filming.intake.inputs[(0 : Input)] ≠ none
    ∧ (∀ o ∈ [39, 249, 319, 4735], (withTrunk joined (fun t => { t with offset := o })).trunk.synced = true
      ∧ OnClock (tickPorts (tickBlocks (((withTrunk joined (fun t => { t with offset := o })).setNow 2).setClocked true))))
    ∧ 249 + 1 = 40 + 70 * (3 : Fin 4).val ∧ 4735 + 1 = 320 + 192 * (23 : Slot).val
    ∧ (∀ k : Fin 4, (0 + 1 : Nat) ≠ 40 + 70 * k.val) ∧ (∀ n : Slot, (0 + 1 : Nat) ≠ 320 + 192 * n.val) := by
  unfold OnClock
  decide +kernel

theorem test_met_ControlFrameReadBack_applied :
    Settled (sends joined (entry .roster .plain) joined.rosterBody) ∧ joined.tables.roster[joined.addr] ≠ none
    ∧ (match joined.rosterBody with
      | .roster l r cp cf cs ds => (rosterContent l r cp cf cs ds).isSome
      | _ => false) = true
    ∧ (∀ b : Addr, b ≠ joined.addr → joined.tables.roster[b] = none)
    ∧ Settled (sends joined (entry .want .plain) (.want [{ b0 := 0x03#8, b1 := 0x00#8, b2 := 0x00#8, b3 := 0x00#8 }])) ∧ (wantContent [{ b0 := 0x03#8, b1 := 0x00#8, b2 := 0x00#8, b3 := 0x00#8 }]).map List.length = some 1
    ∧ senderPosition joined.tables.wants joined.addr = none ∧ freePosition joined.tables.wants = some 0
    ∧ (let s := withTables joined (fun t => { t with wants := Vector.replicate 4 (some { sender := 7, age := 0, list := [] }) });
      Settled (sends s (entry .want .plain) (.want [{ b0 := 0x03#8, b1 := 0x00#8, b2 := 0x00#8, b3 := 0x00#8 }])) ∧ senderPosition s.tables.wants s.addr = none
        ∧ freePosition s.tables.wants = none)
    ∧ (let s := withTables joined (fun t => { t with wants := t.wants.set 1 (some { sender := 3, age := 9, list := [] }) });
      Settled (sends s (entry .want .plain) (.want [])) ∧ senderPosition s.tables.wants s.addr = some 1)
    ∧ wantContent [] = some [] ∧ joined.acting = true := by
  unfold Settled
  decide +kernel

theorem test_met_ForeignTagRenumbers_items :
    Settled joined ∧ OnClock (onClock joined) ∧ (∀ s ∈ [joined, onClock joined], s.boot.phase = .started
      ∧ s.trunk.synced = true ∧ s.trunk.overrun = false ∧ s.trunk.out = .idle ∧ s.trunk.state = .joined
      ∧ s.tables = joined.tables)
    ∧ readControl (hear9 0x0100#16 (.door 0x00#8 0x03#8))
      = .frame { addr := 9, tag := 0x0100#16, body := .door 0x00#8 0x03#8 }
    ∧ readTile (tileOf (hold9 0x0100#16)) = some (hold9 0x0100#16, []) ∧ (hold9 0x0100#16).slot = byte (23 : Slot).val
    ∧ lowerTags 0x0200#16 (takeTag 0x0100#16 joined.tables.foreign) ≠ lowerTags 0x0200#16 joined.tables.foreign
    ∧ requiredHalf (lowerTags 0x0200#16 (takeTag 0x0100#16 joined.tables.foreign)) = some 1 ∧ (1 : Fin 2) ≠ joined.trunk.half
    ∧ lowerTags 0x0200#16 [(0x0100#16, 48)] = 1
    ∧ requiredHalf (lowerTags 0x0200#16 ([(0x0100#16, 48)].filter (fun x => x.1 != 0x0100#16))) = some 0
    ∧ (0 : Fin 2) ≠ (withTrunk joined (fun t => { t with half := 1 })).trunk.half := by
  unfold Settled OnClock
  decide +kernel

theorem test_met_ForeignTagExcludesOrLeaves_items :
    (let s := withTables joined (fun t => { t with foreign := [(0x0100#16, 0)] });
      Settled s ∧ OnClock (onClock s) ∧ ∀ u ∈ [s, onClock s], u.boot.phase = .started ∧ u.trunk.state = .joined
        ∧ u.trunk.synced = true ∧ u.trunk.overrun = false ∧ u.trunk.out = .idle ∧ u.tables = s.tables)
    ∧ 0x0101#16 ≠ joined.cfg.tag ∧ lowerTags 0x0200#16 (takeTag 0x0101#16 [(0x0100#16, 0)]) = 2
    ∧ lowerTags 0x0200#16 [(0x0100#16, 0)] = 1 ∧ readMark (markOf 9 0x0101#16 0x07#8) = some 0x07#8
    ∧ readControl (hear9 0x0101#16 (.door 0x00#8 0x03#8))
      = .frame { addr := 9, tag := 0x0101#16, body := .door 0x00#8 0x03#8 }
    ∧ readTile (tileOf (hold9 0x0101#16)) = some (hold9 0x0101#16, []) ∧ (hold9 0x0101#16).slot = byte (23 : Slot).val := by
  unfold Settled OnClock
  decide +kernel

theorem test_met_RefreshCountsOffer_moment :
    ownMoment .status = true ∧ clockStep .measurementPeriodTick = true ∧ joined.nextDue = none ∧ joined.acting = true
    ∧ joined.clocked = false ∧ (onClock joined).clocked = true ∧ (onClock joined).nextDue = none
    ∧ (let s := joined.setQueue [{ subject := .door 3, kind := .plain, time := joined.now }];
      QueueOrdered s.queue ∧ queueHolds s.queue (.door 0) = false ∧ s.trunk.out = .idle)
    ∧ (let s := joined.setQueue [entry (.door 0) .plain, entry .roster .plain];
      QueueOrdered s.queue ∧ queueHolds s.queue (.lens 0) = false ∧ s.trunk.out = .idle ∧ ∀ e ∈ s.queue, e.time < s.now) := by
  unfold QueueOrdered
  decide +kernel

theorem test_met_ReleaseAndDenyFramesApplied_refusals :
    Settled active ∧ active.admits 5 0x0200#16 ∧ active.tables.roster[(5 : Addr)] = some car ∧ (5 : Addr) ≠ active.addr
    ∧ (denyContent 0x03#8 [{ b0 := 0x05#8, b1 := 0x00#8, b2 := 0x00#8, b3 := 0x03#8 }]).map (fun x => x.2.length) = some 1
    ∧ active.isCab = true ∧ active.cab.state = .active ∧ car.presence = .present ∧ takingOver.cab.state = .active
    ∧ (takingOver.screen .right).panes.map (fun p => (p.candidate, p.bound)) = [(some id5, none)] ∧ lastBand5.streamId = id5
    ∧ ((composerTile { slot := 0, streams := [id5] } lastBand5 [] takingOver).screen .right).panes.map (fun p => p.bound)
      = [some (id5, .plain)]
    ∧ 0x0300#16 ∈ (withTables active (fun t => { t with departed := [0x0300#16] })).tables.departed
    ∧ (withTables active (fun t => { t with roster := t.roster.set 9 (some { car with tag := 0x0300#16 }) })).tables.roster[
      (9 : Addr)] = some { car with tag := 0x0300#16 } := by
  unfold Settled State.admits
  decide +kernel

theorem test_met_DemandMakesStream_served :
    (∀ st ∈ [StreamState.live, .holding, .claiming],
      Settled (streaming st) ∧ (streaming st).admits 5 0x0200#16 ∧ (streaming st).trunk.out = .idle
        ∧ (streaming st).tables.wants.toList.filterMap (fun r => r.map (fun x => x.sender)) = [5]
        ∧ (streaming st).engine.table[(0 : StreamNo)] = some (quarter0 st))
    ∧ readControl (hear5 (.want [])) = .frame (frame5 (.want []))
    ∧ readControl (hear5 (.want [{ b0 := 0x03#8, b1 := 0x00#8, b2 := 0x0A#8, b3 := 0x00#8 }])) = .frame (frame5 (.want [{ b0 := 0x03#8, b1 := 0x00#8, b2 := 0x0A#8, b3 := 0x00#8 }]))
    ∧ wantContent [{ b0 := 0x03#8, b1 := 0x00#8, b2 := 0x0A#8, b3 := 0x00#8 }] = some [{ cam := { addr := 3, input := 0 }, cls := .quarter, floor := .quarter, carry := false }]
    ∧ (let s := withTables (streaming (.draining .noDemand)) (fun t => { t with wants := Vector.replicate 4 none });
      Settled s ∧ s.admits 5 0x0200#16 ∧ s.addr = 3 ∧ (∀ m : StreamNo, m ≠ 0 → s.engine.table[m] = none)
        ∧ s.tables.roster[(5 : Addr)] = some car)
    ∧ (let d : Demand := { pos := 0, input := 0, entry := {
        cam := { addr := 3, input := 0 }, cls := .quarter, floor := .quarter, carry := false } };
      d.servedBy (streaming .live).engine.table = some 0 ∧ d.servedBy (Vector.replicate 6 none) = none) := by
  unfold Settled State.admits
  decide +kernel

theorem test_met_CameraEntersAndLeavesLive_ends :
    OnClock (stalling (onClock filming)) ∧ (onClock filming).acting = true
    ∧ OnClock (withStore (stalling (onClock filming)) (fun x => { x with busy := true, phase := .waiting, input := some 0 }))
    ∧ (let s := withStore (withLens (stalling (onClock filming)) (fun x => { x with engine := .capture 0 })) (fun x => { x with
        busy := true, phase := .measuring, input := some 0 });
      OnClock (s.setIntake { s.intake with request := some (request0 true) }))
    ∧ (let s := (withLens (stalling (onClock filming)) (fun x => { x with engine := .probe 0 })).setService (.answer 0x04#8 none);
      OnClock (s.setIntake { s.intake with request := some (request0 false) }))
    ∧ OnClock (stalling (onClock (streaming .claiming))) ∧ (onClock (streaming .claiming)).trunk.out = .idle
    ∧ (onClock (streaming .claiming)).engine.table[(0 : StreamNo)] = some (quarter0 .claiming) := by
  unfold OnClock
  decide +kernel

theorem test_met_RotaPassCounts_boundary :
    (measuring (.rota 1) lensRec).lens.handed = some picA ∧ (measuring (.rota 0) lensRec).inputLive 0 = true
    ∧ (withLens (measuring (.rota 1) lensRec) (fun x => { x with records := x.records.set 1 (some lensRec) })).lens.records[
      (1 : Input)] = some lensRec
    ∧ (withStore (measuring (.rota 0) lensRec) (fun x => { x with phase := .waiting, input := some 0 })).store.phase = .waiting
    ∧ (measuring (.rota 0) lensRec).store.phase ≠ .waiting ∧ (measuring (.rota 0) lensRec).lens.probeWaiting = none
    ∧ (withLens (measuring (.rota 0) lensRec) (fun x => { x with probeWaiting := some 0 })).lens.probeWaiting = some 0
    ∧ (withRec { lensRec with due := true }).lens.records[(0 : Input)].map (fun r => r.due) = some true
    ∧ (∀ m : Input, m ≠ 0 → ∀ x, (measuring (.rota 0) lensRec).lens.records[m] = some x → x.due = false) := by
  decide +kernel

theorem test_met_VerdictOfPass_zones :
    picA.length = 8 ∧ (∀ l ∈ picA, l.length = 8) ∧ (zoneLumas 8 8 picA 15).map List.length = [2, 2]
    ∧ zoneLumas 8 8 picA 15 = [[0x80, 0x80], [0x80, 0x80]]
    ∧ (∀ z : Fin 16, (Vector.replicate 16 7)[z] ≤ (Vector.replicate 16 7)[(0 : Fin 16)])
    ∧ (zoneLumas 5 7 picA 15).length = 5 - 15 / 4 * 5 / 4 := by
  decide +kernel

theorem test_met_PaneTakesStream_assembly :
    lastBand5.picture = true ∧ lastBand5.last = true ∧ lastBand5.streamId = id5
    ∧ (freshPane .full .quarter .rear (.cam { addr := 5, input := 0 })).candidate ≠ some id5
    ∧ (takingOver.tileFilter 0).streams = [id5] ∧ takingOver.cab.state = .active ∧ id0 ∉ [id5]
    ∧ (Assembly.hold { seq := 0x00#8, bands := [] } 11 []).missing .quarter ≠ 0 ∧ (0x01#8 : Byte) ≠ lastBand5.seq := by
  decide +kernel

theorem test_met_DataSlotTile_noFrame :
    (let s := (onClock (streaming .live)).setIntake { (onClock (streaming .live)).intake with inputs := ((onClock (streaming .live)).intake.inputs.set 0
        (some (camera .live none))) };
      OnClock s ∧ s.boot.phase = .started ∧ s.trunk.state = .joined ∧ s.trunk.synced = true ∧ s.trunk.out = .idle
        ∧ s.tables.slots[(0 : Slot)].owner = some id0 ∧ id0.addr = s.addr
        ∧ s.engine.table[(0 : StreamNo)] = some (quarter0 .live)
        ∧ (∀ r, s.intake.inputs[(0 : Input)] = some r → r.newest = none)) := by
  unfold OnClock
  decide +kernel

theorem test_met_CaptureAndClearRequests_free :
    (let s := withStore filming (fun x => { x with unlocked := true });
      Settled s ∧ s.acting = true ∧ s.service = .hunt ∧ s.store.unlocked = true ∧ s.store.busy = false
        ∧ s.inputLive 0 = true ∧ s.lens.engine = .free ∧ s.cfg.cams[(0 : Input)] ≠ none) := by
  unfold Settled
  decide +kernel

theorem test_met_OutputLinesFollowState_pictures :
    (after .status (withTrunk paired (fun t => { t with state := .excluded .clash }))).pins.picture = .excluded
    ∧ (after .status (withTrunk paired (fun t => { t with state := .listen, renumbered := true }))).pins.picture = .forming
    ∧ (after .status (withCab paired (fun c => { c with state := .blocked }))).pins.picture = .inUse
    ∧ (∀ st ∈ [CabState.idle, .taking],
      (after .status (withCab paired (fun c => { c with state := st }))).pins.picture = .standby)
    ∧ paired.acting = true ∧ paired.isCab = true ∧ active.doorSide { addr := 5, chan := 0 } = .right := by
  decide +kernel

/-! ### The start read, on an image written out from the layout of R179 -/

/-- Offsets 0 to 75: tag 0200h, local number 3, CAB, end A, LEFT, 20 ms, 5 s, 25 frames, 288 lines of 480 pixels, a door
camera at input 0, a rear camera at input 2, one door with its exterior camera, the default soiling parameters. -/
def imageHead : List Byte :=
  [0x02, 0x00, 3, 1, 1, 1, 2, 5, 25, 0x01, 0x20, 0x01, 0xE0] ++ [1, 1, 1, 0, 0, 0, 3, 3, 2, 0, 0, 0]
    ++ [1, 1, 0, 0, 0, 0, 0, 0, 0, 0, 0, 0] ++ [2, 5, 20, 8, 24, 20, 12]
    ++ (List.replicate 16 ([0x01, 0x40] : List Byte)).flatten

/-- Offsets 76 to 384: entry 0 a DUO of the first left door's camera and the rear, fifteen unusable entries, ranks 1 to 5. -/
def imageCab : List Byte :=
  [2, 7, 1, 0x10, 1, 1, 2, 0, 0, 2] ++ List.replicate 8 0x00#8 ++ List.replicate 270 0x00#8
    ++ [1, 0, 3, 0, 2, 1, 5, 0, 3, 3, 2, 0, 4, 3, 4, 0, 5, 15, 0, 0] ++ [3]

/-- The whole image with its check value. -/
def image : List Byte := (imageHead ++ imageCab) ++ word32Bytes (crc32 (imageHead ++ imageCab))

/-- The cells that hold bytes from address 0 on. -/
def cellsOf (bs : List Byte) : List Host.Cell := (bs.zipIdx.map (fun x => (x.2, x.1))).filter (fun x => x.2 != memUnlisted)

/-- A station at the end of its start read, with that image in its memory. -/
def readingState : State :=
  { State.reset with boot := { started with phase := .reading }, confMem := cellsOf image }

set_option maxRecDepth 100000 in
theorem test_met_StartReadEnds :
    readingState.boot.phase = .reading ∧ image.length = 389 ∧ imageCause (readImage readingState.confMem) = .none
    ∧ imageCause (readImage State.reset.confMem) = .imageCheck ∧ Memory.wf readingState.confMem = true := by
  decide +kernel

/-- What the settings of that image are. -/
theorem test_settings :
    (settingsOf image).tag = 0x0200#16 ∧ (settingsOf image).lineCount = 288 ∧ (settingsOf image).pixelCount = 480
    ∧ (settingsOf image).cams = #v[some { view := .doorOut 1, side := .left }, none,
        some { view := .rear .b, side := .centre }, none]
    ∧ (settingsOf image).doors[(0 : Chan)] = some { door := 1, side := .left, exterior := some 0 }
    ∧ (settingsOf image).filterTime = 20000 ∧ (settingsOf image).soiling.period = 1000000
    ∧ (settingsOf image).soiling.baseline = Vector.replicate 16 320 ∧ (settingsOf image).factoryViews = false
    ∧ (settingsOf image).layouts[(0 : Fin 16)] = some { grid := .duo, selectable := true, onLeft := true, onRight := true, panes :=
        [{ selector := .fixed .doorOut false 1, floor := .half }, { selector := .rear, floor := .quarter }] }
    ∧ (settingsOf image).layouts[(1 : Fin 16)] = none := by
  decide +kernel

set_option maxRecDepth 100000 in
/-- The station enters LISTEN with address 3, FAULT asserted while its cameras are ABSENT. -/
theorem test_start_read_end :
    (after .startReadEnd readingState).trunk.state = .listen ∧ (after .startReadEnd readingState).addr = 3
    ∧ (after .startReadEnd readingState).trunk.timer = 5060 ∧ (after .startReadEnd readingState).pins.fault = true
    ∧ (after .startReadEnd { readingState with confMem := [] }).trunk.state = .inert := by
  decide +kernel

/-! ### Small results -/

/-- A TAKE of the own station settles the cab in ACTIVE, and the picture is driven. -/
theorem test_take_settles :
    (after (.controlFrameSent (controlBytes { addr := 3, tag := 0x0200#16, body := .cab 0x01#8 0x01#8 }))
      (sends (withCab paired (fun x => { x with state := .taking })) (entry .cab .take) (.cab 0x01#8 0x01#8))).pins.picture
      = .layout := by
  decide +kernel

/-- A LENS that grades the second car's camera SOILED puts its mark on the pane of the side it is on, and its warning on both
screens. -/
theorem test_marks_and_strip :
    (let s := after (.lensFrameReceived (hear5 (.lens 0x00#8 0x02#8 0x01#8))) active;
      (s.pins.screen1.map (fun v => v.panes.map (fun p => (p.mark, p.hold)))) = some [(some .soiled, true)]
      ∧ (s.pins.screen0.map (fun v => v.panes.map (fun p => (p.mark, p.hold)))) = some [(none, true)]
      ∧ s.pins.screen0.map (fun v => v.strip)
          = some { shown := [{ cam := { addr := 5, input := 0 }, grade := .soiled }], others := 0 }
      ∧ s.pins.lensLamp = true) := by
  decide +kernel

/-- A header of another slot is GARBLED: its foreign tag is not taken, and its sender gets no entry. -/
theorem test_wrong_slot_garbled :
    (let s := after (.slotObservation 23 (.tile (tileOf { hold5 0x00#8 with tag := 0x0100#16, addr := 9 }))) paired;
      s.tables.foreign = [] ∧ s.tables.roster[(9 : Addr)] = none ∧ s.trunk.state = .joined) := by
  decide +kernel

/-- The loser of a MARK contention counts its round and its timer from the winner's start. -/
theorem test_mark_contention_lost :
    (let s := after .markStartHeard (withTrunk joined (fun t => { t with out := .mark [], offset := 1, timer := 5059 }));
      let t := after (.markBodyReceived (markOf 5 0x0200#16 0x07#8)) (withTrunk s (fun t => { t with offset := 78, timer := 4982 }));
      s.trunk.rival = some 1 ∧ t.trunk.offset = 77 ∧ t.trunk.timer = 4983 ∧ t.trunk.out = .idle) := by
  decide +kernel

/-- A CLAIM at the win takes the lowest free slots and the highest size that fits. -/
theorem test_claim_win :
    (after .arbitrationWin (contends (streaming .claiming) (entry (.stream 0) .claim))).trunk.out
      = .control { subject := .stream 0, kind := .claim, again := none
                   frame := { addr := 3, tag := 0x0200#16, body := .claim 0x03#8 0x0200#16 0x00#8 0x00#8 0x02#8 [0x01#8] }
                   bytes := controlBytes { addr := 3, tag := 0x0200#16
                                           body := .claim 0x03#8 0x0200#16 0x00#8 0x00#8 0x02#8 [0x01#8] } } := by
  decide +kernel

/-- A HOLD tile is sent in the slot of a HOLDING stream. -/
theorem test_hold_tile :
    (after (.dataSlotStart 0) (streaming .holding)).trunk.out
      = .tile 0 { hold5 0x00#8 with addr := 3, stream := 0, seq := 0x01#8 }
          (tileBytes { hold5 0x00#8 with addr := 3, stream := 0, seq := 0x01#8 } []) := by
  decide +kernel

/-- The reply of an INERT station to STATUS: address FFh, cause and counters zero, 25 bytes after the status byte. -/
theorem test_status_inert :
    (after .status inertOne).service = .answer 0x01#8 (some (replyFrame 0x01#8 .accepted
      ([4, 0, 0, 0xFF, 0, 1, 0, 0] ++ List.replicate 17 0x00#8))) := by
  decide +kernel

/-- A rota pass of a clean picture: every zone at or above the baseline gives ratio 255 at most and grade CLEAN. -/
theorem test_pass_clean :
    (filming.passOf { lensRec with baseline := Vector.replicate 16 1 } picA).scored = 16 := by
  decide +kernel

/-- The door channel follows its lines: released while shut, then open. -/
theorem test_door_released :
    (after (.doorLineAccepted 0 .rel)
      (withDoor (channel (ran false) { ran true with differ := 0 } LineFilter.off true .locked)
        { lowLines with rel := true, shut := true })).channels[(0 : Chan)].map (fun c => c.phase) = some .released := by
  decide +kernel

/-- Each event is a moment of its own: a CLEAR of input 2 before one of input 0 puts its LENS first. -/
theorem test_moments :
    (let live := fun (_ : Input) => some { lensRec with unbaselined := false };
      let s := withStore (withLens { filming with cfg := { cfgA with cams := Vector.replicate 4 cfgA.cams[(0 : Input)] } }
        (fun x => { x with records := vec4 live })) (fun x => { x with unlocked := true });
      let t := after (.clear 0x02#8) s;
      let u := after (.clear 0x00#8) ((withStore t (fun x => { x with unlocked := true, busy := false, phase := .none })).setService .hunt);
      u.queue.map (fun e => e.subject) = [.lens 2, .lens 0]) := by
  decide +kernel

/-- The station with SHUT of channel 3 run out and channel 0 at its closing limit. -/
def twoDoors : State :=
  clockedDoor { channel LineFilter.off LineFilter.off LineFilter.off true .closing with closing := 20 } lowLines

/-- The same with channel 3 too. -/
def twoDoors3 : State :=
  (twoDoors.setChannels (twoDoors.channels.set 3 (some { channel { ran false with differ := 0 } (ran false)
      { ran false with differ := 0 } true .closing with closing := 3 }))).setLevels
    { twoDoors.levels with door := twoDoors.levels.door.set 3 { lowLines with shut := true } }

/-- The next state of a step on an empty queue. -/
def idled (s : State) : State :=
  match step s with
  | .next t => t
  | _ => s

/-- One instant of Door Watch: the acceptance at channel 3 taken first and the closing limit of channel 0 leave the DOORs in
channel order, commanded or idling (R12, R86). -/
theorem test_one_instant :
    (after (.closingLimit 0) (after (.doorLineAccepted 3 .shut) twoDoors3)).queue.map (fun e => e.subject)
      = [.door 0, .door 3]
    ∧ (idled twoDoors3).queue.map (fun e => e.subject) = [.door 3]
    ∧ (idled (idled twoDoors3)).queue.map (fun e => e.subject) = [.door 0, .door 3] := by
  decide +kernel

/-- A tile that a MARK out of turn cuts is GARBLED in its slot, and the round stays where it was. -/
theorem test_cut_tile :
    (let s := withTables (streaming .live) (fun t => { t with slots := t.slots.set 0 { owner := some id0, silent := 5 } });
      let t := after (.slotObservation 0 .cut) s;
      t.tables.slots[(0 : Slot)].silent = 0 ∧ t.trunk.offset = s.trunk.offset
        ∧ t.trunk.tileErrors = s.trunk.tileErrors + 1#16) := by
  decide +kernel

/-- The observation of slot 22 moves the round to the start of slot 23, which the next step on an empty queue takes, and the
station's HOLD tile is sent in it (R16; log 81). -/
theorem test_slot_after_observation :
    (let s := withTables (streaming .holding) (fun t => { t with slots := t.slots.set 23 { owner := some id0, silent := 0 } });
      let t := after (.slotObservation 22 .silent) s;
      t.trunk.offset = 4736 ∧ t.trunk.out = .idle
        ∧ (match (idled t).trunk.out with
            | .tile n h _ => n == 23 && !h.picture
            | _ => false) = true
        ∧ (idled t).trunk.offset = 4736 ∧ (idled (idled t)).trunk.offset = 4737) := by
  decide +kernel

/-- An EXCLUDED station that misses a MARK: its timer runs out and stays synchronised, and the slots that follow give no
observation until a MARK begins a round (R3, R18; log 84). -/
theorem test_missed_round_unobserved :
    (let s := withTables (withTrunk (onClock joined) (fun t => { t with state := .excluded .clash, timer := 0, offset := 4928 }))
        (fun t => { t with slots := t.slots.set 0 { owner := some id0, silent := 5 } });
      let missed := after (.roundTimerExpiry false) s;
      let heard := after .markStartHeard missed;
      missed.trunk.synced = true
        ∧ (after (.slotObservation 0 .signal) missed).tables.slots[(0 : Slot)].silent = 5
        ∧ (after (.slotObservation 0 .signal) missed).trunk.heardSince = true
        ∧ (after (.slotObservation 0 .signal) heard).tables.slots[(0 : Slot)].silent = 0
        ∧ (after (.slotObservation 0 .silent) heard).tables.slots[(0 : Slot)].silent = 6) := by
  decide +kernel

/-- An edge as the filter of EDGE runs out in an unsettled channel, SHUT standing: the channel settles LOCKED at the acceptance
that comes first, and EDGE begins its filter anew (R79, R84; log 82). -/
theorem test_edge_after_settling :
    (let s := clockedDoor (channel { ran false with differ := 0 } { ran true with differ := 0 } (ran false) false .unknown)
        { lowLines with shut := true, edge := true };
      let t := after (.vehicleLineEdge (.door 0 .edge) false) s;
      t.channels[(0 : Chan)].map (fun c => (c.phase, c.settled, c.edge.accepted, c.edge.still)) = some (.locked, true, true, 0)
        ∧ queueHolds t.queue (.door 0) = true) := by
  decide +kernel

/-- A BODY station excluded with a RELEASE offered beside its CLAIM on the line keeps the entry in its place as a RELEASE
(R13, R25; log 40). -/
theorem test_excluded_keeps_offer :
    (let s := { sends joined (entry (.stream 0) .claim) (.claim 3 0x0200#16 0 0 0 []) with
        cfg := { cfgA with role := .body } };
      let t := offer (.stream 0) .release (withTrunk s (fun t => { t with consecClash := 8 }));
      (after .clashLimit t).queue = [{ subject := .stream 0, kind := .release, time := 0 }]
        ∧ (after .clashLimit t).trunk.out = .idle) := by
  decide +kernel

/-- The filter of a slot is a set of streams: after a layout switch within the slot the pane that now has the stream bound
takes the tile, at whatever place it stands. -/
theorem test_filter_by_set :
    (let p := freshPane .full .quarter .rear (.cam { addr := 5, input := 0 });
      let s := withComp takingOver (fun c => c.setScreen .right { c.right with
        panes := [p, { p with bound := some (id5, .plain) }] });
      let t := composerTile (takingOver.tileFilter 0) { lastBand5 with band := 3, last := false } [] s;
      (t.screen .right).panes.map (fun p => p.assembly.isSome) = [false, true]) := by
  decide +kernel

end Sys2Proof.Tests
end

