-- ==== Sys2Proof/Proofs/Forms.lean ====
section
/-! SUPPORT. The invariant of a step: the outbound control queue and the configuration memory keep their forms. -/
namespace Sys2Proof.Machine

/-- An event keeps the forms where its operation does. -/
theorem act_form {s : State} (f : State → State) (hf : ∀ t, KeepsForm s t → KeepsForm s (f t)) :
    KeepsForm s (act f s) :=
  refreshPins_form (hf _ (newMoment_form (settle_form (.refl s))))

/-- A step of the clock keeps the forms where its operation does. -/
theorem actClock_form {s : State} (f : State → State) (hf : ∀ t, KeepsForm s t → KeepsForm s (f t)) :
    KeepsForm s (actClock f s) :=
  refreshPins_form (hf _ (clockMoment_form (settle_form (.refl s))))

/-- A due step keeps the forms where its operation does. -/
theorem actDue_form {s : State} (f : State → State) (hf : ∀ t, KeepsForm s t → KeepsForm s (f t)) :
    KeepsForm s (actDue f s) :=
  refreshPins_form (hf _ (.refl s))

/-- Every command keeps the forms (R11, R12, R111). -/
theorem exec_form {c : Instr} {s t : State} (h : exec c s = .next t) : KeepsForm s t := by
  have out : ∀ u : State, exec c s = .next u → KeepsForm s u → KeepsForm s t := by
    intro u hu hk
    rw [hu] at h
    cases h
    exact hk
  cases c with
  | powerOnReset | resetLine | resetReleased | startReadEnd =>
    exact out _ rfl (refreshPins_form (by simp [KeepsForm.refl]))
  | clashLimit | slotReclaim _ | stationGone _ | foreignTagAgedOut _ | foreignTramPurge _ | rosterRefreshDue
    | wantRecordExpiry _ | holdLimit _ | doorChannelSettled _ | carryEntryExpiry | wantRefreshDue | paneStale _ _
    | cameraSynced _ | quietCountFull _ | rotaPass | gradeRise _ | gradeFall _ | probePass | captureFrame =>
    exact out _ rfl (actDue_form _ fun t ht => by simp [ht])
  | roundTimerExpiry _ | controlPositionStart _ | dataSlotStart _ | slotObservation _ _ | vehicleLineEdge _ _
    | doorLineAccepted _ _ | closingLimit _ | couplerLineAccepted | cabOnAccepted | reverseAccepted | lingerExpiry _
    | ackPress | nextKeyPress _ | driverKeyReleaseAccepted _ | cameraStall _ | cameraAbsence _ | measurementPeriodTick
    | baselineWriteTimeout | unlockStepTimeout | unlockedLifeExpiry | serviceByteTimeout =>
    exact out _ rfl (actClock_form _ fun t ht => by simp [ht])
  | _ => exact out _ rfl (act_form _ fun t ht => by simp [ht])

/-- A step on an empty queue keeps the forms: it is a command or one microsecond (log 1). -/
theorem idleStep_form {s t : State} (h : idleStep s = .next t) : KeepsForm s t := by
  unfold idleStep at h
  split at h
  · exact exec_form h
  · split at h
    · exact exec_form h
    · cases h
      exact tick_form (.refl s)

/-- A step keeps the queue's form and the memory's (R11, R12, R111); the waiting command that it takes is in neither. -/
theorem step_keeps_forms {s t : State} (h : step s = .next t) (hq : QueueFormed s.queue)
    (hm : Memory.wf s.confMem = true) : QueueFormed t.queue ∧ Memory.wf t.confMem = true := by
  unfold step at h
  split at h
  · have hk := exec_form h
    exact ⟨hk.queue hq, hk.memory hm⟩
  · have hk := idleStep_form h
    exact ⟨hk.queue hq, hk.memory hm⟩

/-- Settles O58: every command and one microsecond of local time keep both forms. -/
theorem stepKeepsForms : Obligations.StepKeepsForms := by
  intro s t h hd ho hm
  obtain ⟨⟨hd', ho'⟩, hm'⟩ := step_keeps_forms h ⟨hd, ho⟩ hm
  exact ⟨hd', ho', hm', hd'.length_le⟩

end Sys2Proof.Machine
end

