-- ==== Sys2Proof/Proofs/Offers.lean ====
section
/-! SUPPORT. An offer at the outbound control queue (R11 to R13), and the state right after reset. -/
namespace Sys2Proof.Machine

/-- No control frame of a subject is on the line. -/
def TrunkOut.spares (o : TrunkOut) (sub : Subject) : Prop := ∀ c, o = .control c → c.subject ≠ sub

/-- An offer in a station that acts goes to the queue, if the subject's frame is not on the line (R13). -/
theorem offer_eq {s : State} {sub : Subject} (ha : s.acting = true) (ho : s.trunk.out.spares sub) (k : SendKind) :
    offer sub k s = s.setQueue (queueOffer s.queue sub k s.now) := by
  unfold offer
  rw [if_pos ha]
  split
  · next c hc => rw [if_neg (ho c hc)]
  · rfl

/-- A station that does not act makes no offers (R13, R169). -/
theorem offer_of_idle {s : State} (ha : s.acting = false) (sub : Subject) (k : SendKind) : offer sub k s = s := by
  unfold offer
  rw [ha]
  rfl

/-- A station in INERT does not act (R169). -/
theorem acting_of_inert {s : State} (h : s.trunk.state = .inert) : s.acting = false := by
  simp [State.acting, h]

/-- Insertion adds one element. -/
theorem insertBy_perm {α : Type} (before : α → α → Bool) (x : α) (l : List α) : (insertBy before x l).Perm (x :: l) := by
  simpa using map_insertBy_perm before id x l

/-- What alone satisfies a condition is found where it has been put. -/
theorem find?_insertBy {α : Type} (before : α → α → Bool) (p : α → Bool) (x : α) (l : List α) (hx : p x = true)
    (hl : ∀ y ∈ l, p y = false) : (insertBy before x l).find? p = some x := by
  induction l with
  | nil => simp [insertBy, hx]
  | cons y ys ih =>
    unfold insertBy
    split
    · simp [hx]
    · rw [List.find?_cons, hl y (by simp)]
      exact ih fun z hz => hl z (by simp [hz])

/-- The entry of a subject after a change of its kind. -/
theorem queueFind_rekind (q : List QueueEntry) (sub : Subject) (k : SendKind) :
    queueFind (queueRekind q sub k) sub = (queueFind q sub).map (fun e => { e with kind := k }) := by
  unfold queueFind queueRekind
  induction q with
  | nil => rfl
  | cons e q ih =>
    by_cases he : e.subject = sub
    · simp [he]
    · simpa [he] using ih

/-- A subject waits exactly if its entry is found. -/
theorem queueFind_isSome (q : List QueueEntry) (sub : Subject) : (queueFind q sub).isSome = queueHolds q sub := by
  unfold queueFind queueHolds
  rw [Bool.eq_iff_iff, List.find?_isSome, List.any_eq_true]

/-- After an offer the subject's entry has the kind that was offered (R13). -/
theorem queueFind_offer_kind (q : List QueueEntry) (sub : Subject) (k : SendKind) (t : Nat) :
    (queueFind (queueOffer q sub k t) sub).map (fun e => e.kind) = some k := by
  unfold queueOffer
  split
  · next h =>
    rw [← queueFind_isSome] at h
    obtain ⟨e, he⟩ := Option.isSome_iff_exists.mp h
    simp [queueFind_rekind, he]
  · next h =>
    have hq : ∀ e ∈ q, (e.subject == sub) = false := by simpa [queueHolds] using h
    unfold queueFind
    rw [find?_insertBy _ _ _ _ (by simp) hq]
    rfl

/-- A change to the kind that the entry has changes nothing. -/
theorem queueRekind_same (q : List QueueEntry) (sub : Subject) (k : SendKind)
    (h : ∀ e ∈ q, e.subject = sub → e.kind = k) : queueRekind q sub k = q := by
  unfold queueRekind
  refine (List.map_congr_left fun e he => ?_).trans (List.map_id q)
  split
  · next hs =>
    rw [← h e he (by simpa using hs)]
    rfl
  · rfl

/-- An offer for a subject that waits changes the kind of its entry (R13). -/
theorem queueOffer_of_holds {q : List QueueEntry} {sub : Subject} (h : queueHolds q sub = true) (k : SendKind) (t : Nat) :
    queueOffer q sub k t = queueRekind q sub k := by
  unfold queueOffer
  rw [if_pos h]

/-- An offer for a subject that does not wait puts a new entry at its place (R12, R13). -/
theorem queueOffer_of_not_holds {q : List QueueEntry} {sub : Subject} (h : queueHolds q sub = false) (k : SendKind)
    (t : Nat) : queueOffer q sub k t = insertBy QueueEntry.before { subject := sub, kind := k, time := t } q := by
  unfold queueOffer
  rw [h]
  rfl

/-- Settles O38, row by row of R13. -/
theorem offerTable : Obligations.OfferTable := by
  intro s sub k ho
  refine ⟨fun ha hq => ⟨_, offer_eq ha ho k, ?_⟩, fun ha hq hk => ?_, fun ha hq => ?_, fun ha => ?_, fun hi => ?_⟩
  · rw [queueOffer_of_not_holds hq]
    exact insertBy_perm ..
  · rw [offer_eq ha ho, queueOffer_of_holds hq, queueRekind_same _ _ _ hk]
    rfl
  · rw [offer_eq ha ho, queueOffer_of_holds hq]
    simp [queueRekind]
  · rw [offer_eq ha ho]
    exact ⟨queueFind_offer_kind .., rfl⟩
  · exact offer_of_idle (acting_of_inert hi) sub k

/-- Settles O59: the reset state, field by field. -/
theorem resetHasForms : Obligations.ResetHasForms := by
  obtain ⟨hd, ho⟩ := queueFormed_nil
  exact ⟨rfl, rfl, hd, ho, rfl, rfl, fun n => Vector.getElem_replicate .., rfl, rfl, rfl, rfl, rfl, rfl, rfl, rfl, rfl,
    rfl, rfl⟩

end Sys2Proof.Machine
end

