-- ==== Sys2Proof/Proofs/RoundTrip.lean ====
section
/-! SUPPORT. What is built reads back (R175 to R178): bytes, codes, entries, MARKs, control frames and tiles. -/
namespace Sys2Proof.Machine

/-- A 16-bit number is joined again from its two bytes (R175). -/
@[simp] theorem joinBytes_hi_lo (w : Word) : joinBytes (hiByte w) (loByte w) = w := by
  unfold joinBytes hiByte loByte
  rw [BitVec.extractLsb'_append_extractLsb'_eq_extractLsb' (by rfl)]
  simp

/-- A small number as a byte. -/
theorem toNat_byte {n : Nat} (h : n < 256) : (byte n).toNat = n := by
  unfold byte
  rw [BitVec.toNat_ofNat]
  omega

/-- An index below a byte's range is read from its byte. -/
theorem finOfByte_byte {n : Nat} (hn : n ≤ 256) (i : Fin n) : finOfByte n (byte i.val) = some i := by
  have hi : (byte i.val).toNat = i.val := toNat_byte (by omega)
  unfold finOfByte
  rw [dif_pos (by omega)]
  exact congrArg some (Fin.ext hi)

/-- A class is read from its code. -/
@[simp] theorem classOf_classCode (c : SizeClass) : classOf (classCode c) = some c := by cases c <;> rfl

/-- A kind is read from its code. -/
@[simp] theorem frameKindOf_code (k : FrameKind) : frameKindOf k.code = some k := by cases k <;> rfl

/-- What a check value has been put behind passes the check (R175). -/
@[simp] theorem checked32_withCheck32 (field bytes : List Byte) : checked32 field (withCheck32 field bytes) = some bytes := by
  have hl : (withCheck32 field bytes).length - 4 = bytes.length := by simp [withCheck32, word32Bytes]
  unfold checked32
  simp only [hl]
  simp [withCheck32, word32Bytes]

/-- Four-byte entries are read back (R177). -/
theorem readQuads_quadBytes (qs : List Quad) : readQuads qs.length (quadBytes qs) = some qs := by
  induction qs with
  | nil => rfl
  | cons q qs ih => simp [quadBytes, readQuads, ih]

/-- Camera descriptors are read back, with what stands behind them (R177). -/
theorem readCams_camBytes (cs : List CamRaw) (rest : List Byte) :
    readCams cs.length (camBytes cs ++ rest) = some (cs, rest) := by
  induction cs with
  | nil => simp [camBytes, readCams]
  | cons c cs ih => simp [camBytes, readCams, ih]

/-- Door descriptors are read back (R177). -/
theorem readDoors_doorBytes (ds : List DoorRaw) : readDoors ds.length (doorBytes ds) = some ds := by
  induction ds with
  | nil => rfl
  | cons d ds ih => simp [doorBytes, readDoors, ih]

theorem length_quadBytes (qs : List Quad) : (quadBytes qs).length = 4 * qs.length := by
  induction qs with
  | nil => rfl
  | cons q qs ih => simp [quadBytes, ih]; omega

theorem length_camBytes (cs : List CamRaw) : (camBytes cs).length = 6 * cs.length := by
  induction cs with
  | nil => rfl
  | cons c cs ih => simp [camBytes, ih]; omega

theorem length_doorBytes (ds : List DoorRaw) : (doorBytes ds).length = 5 * ds.length := by
  induction ds with
  | nil => rfl
  | cons d ds ih => simp [doorBytes, ih]; omega

/-- A kind part that the length byte can give is read back (R177). -/
theorem readKindPart_kindPart (b : FrameBody) (h : (kindPart b).length ≤ 255) :
    readKindPart b.kind (kindPart b) = some b := by
  cases b with
  | roster l r cp cf cams doors =>
    simp only [kindPart, List.length_cons, List.length_append, length_camBytes, length_doorBytes] at h
    simp only [FrameBody.kind, kindPart, readKindPart]
    rw [toNat_byte (by omega), toNat_byte (by omega), readCams_camBytes]
    simp [readDoors_doorBytes]
  | door c p => rfl
  | lens i g f => rfl
  | cab k e => rfl
  | want es =>
    simp only [kindPart, List.length_cons, length_quadBytes] at h
    simp only [FrameBody.kind, kindPart, readKindPart]
    rw [toNat_byte (by omega), readQuads_quadBytes]
    rfl
  | claim o t n i c sl =>
    simp only [kindPart, wordBytes, List.length_cons, List.length_append] at h
    simp only [FrameBody.kind, kindPart, wordBytes, List.cons_append, List.nil_append, readKindPart]
    rw [toNat_byte (by omega)]
    simp
  | release o t n sl =>
    simp only [kindPart, wordBytes, List.length_cons, List.length_append] at h
    simp only [FrameBody.kind, kindPart, wordBytes, List.cons_append, List.nil_append, readKindPart]
    rw [toNat_byte (by omega)]
    simp
  | deny a es =>
    simp only [kindPart, List.length_cons, length_quadBytes] at h
    simp only [FrameBody.kind, kindPart, readKindPart]
    rw [toNat_byte (by omega), readQuads_quadBytes]
    rfl

/-- A MARK reads back as its count (R176). -/
theorem readMark_markBytes (a : Addr) (tag : Word) (count : Byte) :
    readMark { addr := a, tag := tag, bytes := markBytes a tag count } = some count := by
  simp [readMark, markBytes, wordBytes]

/-- A control frame reads back as itself (R176). -/
theorem readControl_controlBytes (f : ControlFrame) (h : (kindPart f.body).length ≤ 255) :
    readControl { cls := f.body.kind.cls, addr := f.addr, tag := f.tag, bytes := controlBytes f } = .frame f := by
  simp only [readControl, controlBytes, checked32_withCheck32, frameBytes, wordBytes, List.cons_append, List.nil_append]
  simp only [readFrameBytes, frameKindOf_code, joinBytes_hi_lo, toNat_byte (show (kindPart f.body).length < 256 by omega),
    and_self, if_true, readKindPart_kindPart f.body h]

/-- A void ending reads back as an empty position (R9, R176). -/
theorem readControl_voidBytes (c : Fin 4) (a : Addr) (tag : Word) :
    readControl { cls := c, addr := a, tag := tag, bytes := voidBytes c a tag } = .empty := by
  simp [readControl, voidBytes, readFrameBytes]

/-- A tile reads back as its header and payload (R178). -/
theorem readTile_tileBytes (h : TileHeader) (payload : List Byte) (hb : h.band < h.cls.bands)
    (hp : payload.length = payloadLength h.picture) :
    readTile { addr := h.addr, bytes := tileBytes h payload } = some (h, payload) := by
  have hband : (byte h.band).toNat = h.band := toNat_byte (hb.trans_le (by cases h.cls <;> decide))
  have hkind : ((if h.picture then 0x01#8 else 0x02#8) == 0x01#8) = h.picture := by cases h.picture <;> rfl
  have hcode : (if h.picture then 0x01#8 else 0x02#8) = 0x01#8 ∨ (if h.picture then 0x01#8 else 0x02#8) = 0x02#8 := by
    cases h.picture <;> simp
  have hlast : (if h.last then 0x01#8 else 0x00#8).getLsbD 0 = h.last := by cases h.last <;> rfl
  simp only [readTile, tileBytes, checked32_withCheck32, headerBytes, wordBytes, List.cons_append, List.nil_append,
    finOfByte_byte (show (6 : Nat) ≤ 256 by omega), finOfByte_byte (show (4 : Nat) ≤ 256 by omega), classOf_classCode,
    hband, hkind, hlast, joinBytes_hi_lo]
  rw [if_pos ⟨hcode, trivial, hb, hp⟩]

/-- Settles O60: MARK, control frame, void ending and tile, each by its own lemma. -/
theorem framesRoundTrip : Obligations.FramesRoundTrip :=
  ⟨readMark_markBytes, readControl_controlBytes, readControl_voidBytes, readTile_tileBytes⟩

end Sys2Proof.Machine
end

