-- ==== Sys2Proof/Proofs/Rounds.lean ====
section
/-! SUPPORT. What can be read from what stands beside the blocks that read the tables. -/
namespace Sys2Proof.Machine

/-! ### What the driving of the output lines leaves -/

@[simp] theorem refreshPins_trunk (s : State) : (refreshPins s).trunk = s.trunk := rfl
@[simp] theorem refreshPins_tables (s : State) : (refreshPins s).tables = s.tables := rfl
@[simp] theorem refreshPins_now (s : State) : (refreshPins s).now = s.now := rfl
@[simp] theorem refreshPins_cfg (s : State) : (refreshPins s).cfg = s.cfg := rfl
@[simp] theorem refreshPins_engine (s : State) : (refreshPins s).engine = s.engine := rfl
@[simp] theorem refreshPins_queue (s : State) : (refreshPins s).queue = s.queue := rfl
@[simp] theorem refreshPins_cab (s : State) : (refreshPins s).cab = s.cab := rfl
@[simp] theorem refreshPins_comp (s : State) : (refreshPins s).comp = s.comp := rfl
@[simp] theorem refreshPins_channels (s : State) : (refreshPins s).channels = s.channels := rfl
@[simp] theorem refreshPins_lens (s : State) : (refreshPins s).lens = s.lens := rfl
@[simp] theorem refreshPins_store (s : State) : (refreshPins s).store = s.store := rfl
@[simp] theorem refreshPins_intake (s : State) : (refreshPins s).intake = s.intake := rfl
@[simp] theorem refreshPins_confMem (s : State) : (refreshPins s).confMem = s.confMem := rfl
@[simp] theorem refreshPins_addr (s : State) : (refreshPins s).addr = s.addr := rfl

/-! ### The Trunk Port, local time and offers -/

/-- A transmission that is no control frame stands beside them as it is. -/
theorem base_of_not_control {o : TrunkOut} (h : ∀ c, o ≠ .control c) : o.base = o := by
  cases o with
  | control c => exact absurd rfl (h c)
  | _ => rfl

/-- A transmission and what it is beside them are control frames together. -/
theorem not_control_of_base {o p : TrunkOut} (hb : o.base = p.base) (h : ∀ c, p ≠ .control c) : o = p := by
  rw [base_of_not_control h] at hb
  cases o with
  | control c => exact absurd hb.symm (h _)
  | _ => exact hb

/-- The Trunk Port of a station that sends no control frame stands beside them whole. -/
theorem trunk_of_beside {r s : State} (h : s.beside = r.beside) (ho : ∀ c, r.trunk.out ≠ .control c) :
    s.trunk = r.trunk := by
  have ht : { s.trunk with out := s.trunk.out.base } = { r.trunk with out := r.trunk.out.base } :=
    congrArg State.trunk h
  have hb : s.trunk.out.base = r.trunk.out.base := congrArg Trunk.out ht
  have hs := not_control_of_base hb ho
  calc s.trunk = { ({ s.trunk with out := s.trunk.out.base } : Trunk) with out := s.trunk.out } := rfl
    _ = { ({ r.trunk with out := r.trunk.out.base } : Trunk) with out := r.trunk.out } := by rw [ht, hs]
    _ = r.trunk := rfl

/-- The Trunk Port of a station that sends nothing stands beside them whole. -/
theorem trunk_of_beside_idle {r s : State} (h : s.beside = r.beside) (ho : r.trunk.out = .idle) : s.trunk = r.trunk :=
  trunk_of_beside h (by simp [ho])

/-- States that are equal beside those parts have started, or been held, together. -/
theorem boot_of_beside {r s : State} (h : s.beside = r.beside) : s.boot = r.boot := by
  have e := congrArg State.boot h
  exact e

/-- States that are equal beside those parts act together. -/
theorem acting_of_beside {r s : State} (h : s.beside = r.beside) : s.acting = r.acting := by
  unfold State.acting
  rw [boot_of_beside h, trunkState_of_beside h]

/-- States that are equal beside those parts have the same local time. -/
theorem now_of_beside {r s : State} (h : s.beside = r.beside) : s.now = r.now := by
  have e := congrArg State.now h
  exact e

/-- An offer changes nothing beside those parts. -/
@[simp] theorem offer_beside (sub : Subject) (k : SendKind) (s : State) : (offer sub k s).beside = s.beside := by
  unfold offer
  split
  · split
    · next c hc =>
      split
      · unfold State.beside
        simp [hc, TrunkOut.base]
      · rfl
    · rfl
  · rfl

/-- New tables in states that are equal beside those parts. -/
theorem setTables_beside {r s : State} (h : s.beside = r.beside) (t : Tables) :
    (s.setTables t).beside = (r.setTables t).beside := by
  show { s.beside with tables := t } = { r.beside with tables := t }
  rw [h]

/-- A Trunk Port that is new but for its transmission, in states that are equal beside those parts. -/
theorem setTrunk_beside {r s : State} (h : s.beside = r.beside) (f : Trunk → Trunk)
    (hf : ∀ (x : Trunk) (o : TrunkOut), f { x with out := o } = { f x with out := o })
    (ho : ∀ x, (f x).out = x.out) :
    (s.setTrunk (f s.trunk)).beside = (r.setTrunk (f r.trunk)).beside := by
  have key : ∀ u : State, (u.setTrunk (f u.trunk)).beside = { u.beside with trunk := f u.beside.trunk } := by
    intro u
    have hu : { f u.trunk with out := (f u.trunk).out.base } = f { u.trunk with out := u.trunk.out.base } := by
      rw [ho]
      exact (hf _ _).symm
    show { u.beside with trunk := { f u.trunk with out := (f u.trunk).out.base } } = _
    rw [hu]
    rfl
  rw [key, key, h]

/-- An item that leaves the number of lower tags as it is: its tag is taken, and, unless the filters hold it back, its
sender is given presence and the rest is applied (R29, R35 to R37). -/
theorem takeItem_quiet {s : State} {a : Addr} {tag : Word} (ha : s.acting = true) (hk : tag = s.cfg.tag
      ∨ lowerTags s.cfg.tag (takeTag tag s.tables.foreign) = lowerTags s.cfg.tag s.tables.foreign) (f : State → State) :
    takeItem false a tag f s =
      if s.heldBack a tag then s.tagged tag else f (changeTables (s.heardTables a tag) (s.tagged tag)) := by
  have hh : (s.tagged tag).heldBack a tag = s.heldBack a tag := by
    unfold State.tagged
    split <;> rfl
  by_cases hb : s.heldBack a tag = true
  · have ht : hearTag tag s = s.tagged tag := by
      unfold hearTag State.tagged
      split
      · rfl
      · next hn => exact if_pos (hk.resolve_left hn)
    unfold takeItem
    rw [if_pos ha]
    simp [ht, hh, hb]
  · rw [takeItem_admitted ⟨ha, by simpa using hb, hk⟩, if_neg hb]

end Sys2Proof.Machine
end

section
/-! SUPPORT. The rounds of the Trunk Port: the round timer, the start and the end of a MARK, control positions
(R1 to R8). -/
namespace Sys2Proof.Machine

/-- How far the round and local time go to an offset (R1; logs 4, 45). -/
theorem reach_eq (off : Nat) (s : State) :
    reach off s = (s.setNow (if s.trunk.synced then s.now + (off - s.trunk.offset) else s.now)).setTrunk { s.trunk with
      offset := if s.trunk.synced then max s.trunk.offset off else s.trunk.offset } := by
  unfold reach
  split <;> rfl

/-- In a synchronised round it goes there (R1). -/
theorem reach_of_synced {s : State} (h : s.trunk.synced = true) (off : Nat) :
    reach off s = (s.setNow (s.now + (off - s.trunk.offset))).setTrunk
      { s.trunk with offset := max s.trunk.offset off } := by
  rw [reach_eq, h]
  rfl

/-- A station contends in JOINED, in a synchronised round in which it has neither won nor clashed, sending nothing (R8). -/
theorem mayContend_iff {s : State} (h : s.boot.phase = .started) : s.mayContend = true ↔ s.trunk.state = .joined
    ∧ s.trunk.synced = true ∧ s.trunk.won = false ∧ s.trunk.clashed = false ∧ s.trunk.out = .idle := by
  simp [State.mayContend, h, and_assoc]

/-- What the start of a control position leaves (R8). -/
theorem positionStart_eq {s : State} (h : s.boot.phase = .started) (k : Nat) : positionStart k s =
    (s.setNow (if s.trunk.synced then s.now + (40 + 70 * k - s.trunk.offset) else s.now)).setTrunk { s.trunk with
      offset := if s.trunk.synced then max s.trunk.offset (40 + 70 * k) else s.trunk.offset
      contending :=
        if s.trunk.state = .joined ∧ s.trunk.synced = true ∧ s.trunk.won = false ∧ s.trunk.clashed = false
            ∧ s.trunk.out = .idle then
          s.queue.head?.map (fun e => e.subject)
        else none } := by
  have hm := mayContend_iff (s := reach (Config.positionStart k) s) (by rw [reach_eq]; exact h)
  simp only [reach_eq, State.setTrunk_trunk] at hm
  unfold positionStart
  simp only [reach_eq, hm]
  split <;> rfl

/-- Settles O10: the start of a position is a step of the clock. -/
theorem positionContention : Obligations.PositionContention := by
  intro s k hs hb
  rw [← positionStart_eq hb]
  exact exec_actClock hs rfl

/-! ### The round timer -/

/-- The interval of the round timer by the trunk state (R2). -/
theorem interval_eq (s : State) : s.interval = if s.trunk.state = .inert then 5300 else 5000 + 20 * s.addr.val := rfl

/-- A round that begins with a Trunk Port of the same state and half (R1, R2, R28). -/
theorem beginRound_setTrunk (s : State) (x : Trunk) (h1 : x.state = s.trunk.state) (h2 : x.half = s.trunk.half) :
    beginRound (s.setTrunk x) = (roundTick s).setTrunk { x with
        timer := s.interval, synced := true, offset := 0, overrun := false, heardSince := false, opening := .none
        markInTurn := !x.synced || decide (4928 ≤ x.offset), markInListen := x.state == .listen
        won := false, clashed := false, contending := none, rival := none, filter := none } := by
  have ha : (s.setTrunk x).addr = s.addr := addr_congr rfl h2
  have hi : (s.setTrunk x).interval = s.interval := by rw [interval_eq, ha, State.setTrunk_trunk, h1, ← interval_eq]
  rw [beginRound_eq, roundTick_setTrunk _ _ h1 h2, hi]
  rfl

/-- What the sending of a MARK leaves (R1, R3, R4). -/
theorem sendMark_eq (s : State) : sendMark s = (roundTick s).setTrunk { s.trunk with
        timer := s.interval, synced := true, offset := 0, overrun := false, heardSince := false, opening := .none
        markInTurn := !s.trunk.synced || decide (4928 ≤ s.trunk.offset), markInListen := s.trunk.state == .listen
        won := false, clashed := false, contending := none, rival := none, filter := none
        roundCount := s.trunk.roundCount + 1#8
        out := .mark (markBytes s.addr s.cfg.tag (s.trunk.roundCount + 1#8)) } := by
  have hc : (beginRound s).cfg = s.cfg := by rw [beginRound_eq]; exact roundTick_cfg s
  have ha : (beginRound s).addr = s.addr := addr_congr hc (by rw [beginRound_eq]; rfl)
  unfold sendMark
  simp only [ha, hc]
  rw [beginRound_eq]
  rfl

/-- What a missed MARK leaves (R3). -/
theorem missMark_eq (s : State) : missMark s = (roundTick s).setTrunk { s.trunk with
    missedMarks := s.trunk.missedMarks + 1#16, timer := s.interval, synced := false, overrun := true
    heardSince := false, candidate := false, contending := none } :=
  roundTick_setTrunk s _ rfl rfl

/-- The round timer runs out in LISTEN or JOINED (R3). -/
theorem roundTimerExpiry_taking {s : State} (hb : s.boot.phase = .started) (ht : s.trunk.timer = 0)
    (hs : s.trunk.state = .listen ∨ s.trunk.state = .joined) (signal : Bool) :
    roundTimerExpiry signal s = if s.trunk.heardSince || signal then missMark s else sendMark s := by
  unfold roundTimerExpiry
  rw [if_pos ⟨hb, ht⟩]
  rcases hs with hs | hs <;> rw [hs]

/-- The round timer runs out in EXCLUDED (R3, R28). -/
theorem roundTimerExpiry_excluded {s : State} {r : ExclReason} (hb : s.boot.phase = .started) (ht : s.trunk.timer = 0)
    (hs : s.trunk.state = .excluded r) (signal : Bool) : roundTimerExpiry signal s = roundTick (reloadTimer s) := by
  unfold roundTimerExpiry
  rw [if_pos ⟨hb, ht⟩, hs]

/-- The round timer runs out in INERT (R169). -/
theorem roundTimerExpiry_inert {s : State} (hb : s.boot.phase = .started) (ht : s.trunk.timer = 0)
    (hs : s.trunk.state = .inert) (signal : Bool) : roundTimerExpiry signal s = reloadTimer s := by
  unfold roundTimerExpiry
  rw [if_pos ⟨hb, ht⟩, hs]

/-- A station in LISTEN or JOINED is not INERT. -/
theorem not_inert_of_taking {s : State} (h : s.trunk.state = .listen ∨ s.trunk.state = .joined) :
    s.trunk.state ≠ .inert := by
  rcases h with h | h <;> simp [h]

/-- Settles O5, by the trunk state. -/
theorem roundTimerExpires : Obligations.RoundTimerExpires := by
  refine ⟨fun s hs hb ht hst hh => ?_, fun s signal hs hb ht => ⟨fun hst hh => ?_, fun r hr => ?_, fun hi => ?_⟩⟩
  · rw [exec_actClock hs (f := roundTimerExpiry false) rfl, roundTimerExpiry_taking hb ht hst, hh, sendMark_eq,
      interval_of_ne (not_inert_of_taking hst)]
    rfl
  · rw [exec_actClock hs (f := roundTimerExpiry signal) rfl, roundTimerExpiry_taking hb ht hst, if_pos hh, missMark_eq,
      interval_of_ne (not_inert_of_taking hst)]
  · rw [exec_actClock hs (f := roundTimerExpiry signal) rfl, roundTimerExpiry_excluded hb ht hr]
    unfold reloadTimer
    rw [roundTick_setTrunk s _ ?_ ?_, interval_of_ne (by simp [hr])] <;> rfl
  · rw [exec_actClock hs (f := roundTimerExpiry signal) rfl, roundTimerExpiry_inert hb ht hi]
    unfold reloadTimer
    rw [interval_of_inert hi]

end Sys2Proof.Machine
end

