-- ==== Sys2Proof/Proofs/Marks.lean ====
section
/-! SUPPORT. The start and the end of a MARK (R1, R4 to R6, R24). -/
namespace Sys2Proof.Machine

/-! ### The start of a MARK -/

/-- A round tick leaves the slot map copy as it is (R28). -/
theorem roundTick_slots (s : State) : (roundTick s).tables.slots = s.tables.slots := by
  unfold roundTick
  split <;> rfl

/-- A round tick leaves local time as it is. -/
theorem roundTick_now (s : State) : (roundTick s).now = s.now := by
  unfold roundTick
  split <;> rfl

/-- A MARK start that contends with the own MARK is kept as the rival's (R4). -/
theorem markStartHeard_rival {s : State} (hb : s.boot.phase = .started) (hc : s.markContends = true) :
    markStartHeard s = s.setTrunk { s.trunk with rival := some s.trunk.offset } := by
  unfold markStartHeard
  rw [if_pos hb, if_pos hc]

/-- Any other MARK start begins a round, and damages what the station is sending (R1, R6). -/
theorem markStartHeard_begins {s : State} (hb : s.boot.phase = .started) (hc : s.markContends = false) :
    markStartHeard s = beginRound (damageOut s) := by
  unfold markStartHeard
  rw [if_pos hb, hc]
  rfl

/-- Only an own MARK contends with a MARK (R4). -/
theorem markContends_of_not_mark {s : State} (h : ∀ b, s.trunk.out ≠ .mark b) : s.markContends = false := by
  unfold State.markContends
  split
  · next b hb => exact absurd hb (h b)
  · rfl

/-- The own MARK contends within its first bit time (R4; log 13). -/
theorem markContends_of_mark {s : State} {b : List Byte} (h : s.trunk.out = .mark b) :
    s.markContends = decide (s.trunk.offset ≤ 1) := by
  unfold State.markContends
  rw [h]

/-- A station that sends nothing and contends for no position within its field is not hurt (R6; log 42). -/
theorem damageOut_idle {s : State} (h : s.trunk.out = .idle) (hq : s.trunk.contending = none
      ∨ ∀ k : Fin 4, s.trunk.offset < 40 + 70 * k.val ∨ 63 + 70 * k.val ≤ s.trunk.offset) : damageOut s = s := by
  unfold damageOut
  rw [h]
  refine if_neg fun hc => ?_
  obtain ⟨hs, hin⟩ := (Bool.and_eq_true ..).mp hc
  rcases hq with hq | hq
  · simp [hq] at hs
  · obtain ⟨k, h1, h2⟩ := (inField_iff _).mp hin
    rcases hq k with h | h <;> omega

/-- One that contends for a position within its field counts as sending a control frame (R6; log 42). -/
theorem damageOut_contending {s : State} (h : s.trunk.out = .idle) (hc : s.trunk.contending ≠ none)
    (hk : ∃ k : Fin 4, 40 + 70 * k.val ≤ s.trunk.offset ∧ s.trunk.offset < 63 + 70 * k.val) :
    damageOut s = clash s := by
  unfold damageOut
  rw [h]
  exact if_pos ((Bool.and_eq_true ..).mpr ⟨Option.isSome_iff_ne_none.mpr hc, (inField_iff _).mpr hk⟩)

theorem damageOut_mark {s : State} {b : List Byte} (h : s.trunk.out = .mark b) :
    damageOut s = hearingDamaged (clash s) := by
  unfold damageOut
  rw [h]

theorem damageOut_control {s : State} {c : Sending} (h : s.trunk.out = .control c) : damageOut s = clashControl c s := by
  unfold damageOut
  rw [h]

theorem damageOut_void {s : State} {b : List Byte} (h : s.trunk.out = .voidEnding b) : damageOut s = clash s := by
  unfold damageOut
  rw [h]

theorem damageOut_tile {s : State} {n : Slot} {h : TileHeader} {b : List Byte} (ho : s.trunk.out = .tile n h b) :
    damageOut s = ownTileFails n s := by
  unfold damageOut
  rw [ho]

/-- An observation changes the entry of its slot, and nothing else beside the blocks that read the tables (R43). -/
theorem observe_beside (n : Slot) (f : SlotEntry → SlotEntry) (s : State) : (observe n f s).beside =
    (s.setTables { s.tables with slots := s.tables.slots.set n (f s.tables.slots[n]) }).beside :=
  changeTables_beside _ s

/-- What a round that begins leaves of the Trunk Port. -/
theorem beginRound_trunk (s : State) : (beginRound s).trunk = { s.trunk with
    timer := s.interval, synced := true, offset := 0, overrun := false, heardSince := false, opening := .none
    markInTurn := !s.trunk.synced || decide (4928 ≤ s.trunk.offset), markInListen := s.trunk.state == .listen
    won := false, clashed := false, contending := none, rival := none, filter := none } := by
  rw [beginRound_eq]
  rfl

/-- The interval follows from the configuration, the half and the trunk state (R2). -/
theorem interval_congr {s t : State} (h1 : t.cfg = s.cfg) (h2 : t.trunk.half = s.trunk.half)
    (h3 : t.trunk.state = s.trunk.state) : t.interval = s.interval := by
  unfold State.interval
  rw [addr_congr h1 h2, h3]

/-- The damage of an own tile, and the round that then begins, in the Trunk Port and the slot map copy (R6, R17). -/
theorem beginRound_ownTileFails (s : State) (n : Slot) :
    (beginRound (ownTileFails n s)).trunk = { s.trunk with
        timer := s.interval, synced := true, offset := 0, overrun := false, heardSince := false, opening := .none
        markInTurn := !s.trunk.synced || decide (4928 ≤ s.trunk.offset), markInListen := s.trunk.state == .listen
        won := false, clashed := false, contending := none, rival := none, filter := none
        out := .idle, tileErrors := s.trunk.tileErrors + 1#16 }
      ∧ (beginRound (ownTileFails n s)).now = s.now
      ∧ (beginRound (ownTileFails n s)).tables.slots =
          s.tables.slots.set n { s.tables.slots[n] with silent := 0 } := by
  have hk : (ownTileFails n s).beside = ((s.setTrunk { s.trunk with
      tileErrors := bump s.trunk.tileErrors, out := .idle }).setTables { s.tables with
        slots := s.tables.slots.set n (garbledEntry s.tables.slots[n]) }).beside := observe_beside n garbledEntry _
  have htr : (ownTileFails n s).trunk = { s.trunk with tileErrors := bump s.trunk.tileErrors, out := .idle } :=
    trunk_of_beside_idle hk rfl
  have hc : (ownTileFails n s).cfg = s.cfg := (cfg_of_beside hk :)
  have hi : (ownTileFails n s).interval = s.interval := interval_congr hc (by rw [htr]) (by rw [htr])
  refine ⟨?_, ?_, ?_⟩
  · rw [beginRound_trunk, htr, hi]
    rfl
  · rw [beginRound_eq, State.setTrunk_now, roundTick_now, now_of_beside hk]
    rfl
  · rw [beginRound_eq, State.setTrunk_tables, roundTick_slots, tables_of_beside hk]
    rfl

/-- A clash, and the round that then begins (R6, R10). -/
theorem beginRound_clash (s : State) : beginRound (clash s) = (roundTick s).setTrunk { s.trunk with
    timer := s.interval, synced := true, offset := 0, overrun := false, heardSince := false, opening := .none
    markInTurn := !s.trunk.synced || decide (4928 ≤ s.trunk.offset), markInListen := s.trunk.state == .listen
    won := false, clashed := false, contending := none, rival := none, filter := none
    out := .idle, clashes := s.trunk.clashes + 1#16, consecClash := min 8 (s.trunk.consecClash + 1) } :=
  beginRound_setTrunk s _ rfl rfl

/-- Settles O7, by what the station is sending. -/
theorem markStartBeginsRound : Obligations.MarkStartBeginsRound := by
  intro s tr hs hb htr
  have key : ∀ u : State, markStartHeard s = u → exec .markStartHeard s = .next (refreshPins u) := fun u hu => by
    rw [exec_act hs (f := markStartHeard) rfl, hu]
  rw [← interval_eq] at htr
  subst htr
  refine ⟨fun ho hq => key _ ?_, fun ho hc hk => key _ ?_, fun b ho => ⟨fun hr => key _ ?_, fun hr => key _ ?_⟩,
    fun c ho => key _ ?_, fun b ho => key _ ?_, fun n h b ho => ?_⟩
  · rw [markStartHeard_begins hb (markContends_of_not_mark (by simp [ho])), damageOut_idle ho hq]
    exact beginRound_eq s
  · rw [markStartHeard_begins hb (markContends_of_not_mark (by simp [ho])), damageOut_contending ho hc hk]
    rw [beginRound_clash]
    simp only [ho]
  · exact markStartHeard_rival hb ((markContends_of_mark ho).trans (decide_eq_true hr))
  · rw [markStartHeard_begins hb ((markContends_of_mark ho).trans (decide_eq_false (by omega))), damageOut_mark ho]
    exact beginRound_setTrunk s _ rfl rfl
  · rw [markStartHeard_begins hb (markContends_of_not_mark (by simp [ho])), damageOut_control ho]
    exact beginRound_setTrunk (s.setQueue (queueClashed s.queue c)) _ rfl rfl
  · rw [markStartHeard_begins hb (markContends_of_not_mark (by simp [ho])), damageOut_void ho]
    exact beginRound_clash s
  · refine ⟨_, key _ (markStartHeard_begins hb (markContends_of_not_mark (by simp [ho]))), ?_⟩
    rw [damageOut_tile ho, refreshPins_trunk, refreshPins_now, refreshPins_tables]
    exact beginRound_ownTileFails s n

/-! ### The end of a MARK -/

/-- The Trunk Port of the loser of a MARK contention, whose round counts from the winner's MARK start, and of any other
station that hears a MARK (R4). -/
def Trunk.lost (t : Trunk) : Trunk :=
  match t.out, t.rival with
  | .mark _, some late => { t with out := .idle, rival := none, timer := t.timer + late, offset := t.offset - late }
  | .mark _, none => { t with out := .idle, rival := none }
  | _, _ => t

/-- What losing a MARK contention leaves is the loser's Trunk Port (R4). -/
theorem loseMark_eq (s : State) : loseMark s = s.setTrunk s.trunk.lost := by
  unfold loseMark Trunk.lost
  split
  · next b hb => cases s.trunk.rival <;> simp [hb]
  · next hn =>
    split
    · next h _ => exact absurd h (hn _)
    · next h _ => exact absurd h (hn _)
    · rfl

/-- The loser sends nothing more, and any other station what it sent (R4). -/
theorem Trunk.lost_out (t : Trunk) : t.lost.out = .idle ∨ t.lost.out = t.out := by
  unfold Trunk.lost
  split <;> simp

/-- A lost contention changes the transmission, the timer and the place in the round alone (R4). -/
theorem Trunk.lost_frame (t : Trunk) : t.lost = { t with
    out := t.lost.out, rival := t.lost.rival, timer := t.lost.timer, offset := t.lost.offset } := by
  unfold Trunk.lost
  split <;> rfl

@[simp] theorem Trunk.lost_state (t : Trunk) : t.lost.state = t.state := by rw [Trunk.lost_frame]
@[simp] theorem Trunk.lost_half (t : Trunk) : t.lost.half = t.half := by rw [Trunk.lost_frame]
@[simp] theorem Trunk.lost_markErrors (t : Trunk) : t.lost.markErrors = t.markErrors := by rw [Trunk.lost_frame]
@[simp] theorem Trunk.lost_roundCount (t : Trunk) : t.lost.roundCount = t.roundCount := by rw [Trunk.lost_frame]
@[simp] theorem Trunk.lost_renumbered (t : Trunk) : t.lost.renumbered = t.renumbered := by rw [Trunk.lost_frame]
@[simp] theorem Trunk.lost_candidate (t : Trunk) : t.lost.candidate = t.candidate := by rw [Trunk.lost_frame]
@[simp] theorem Trunk.lost_markInListen (t : Trunk) : t.lost.markInListen = t.markInListen := by rw [Trunk.lost_frame]
@[simp] theorem Trunk.lost_markInTurn (t : Trunk) : t.lost.markInTurn = t.markInTurn := by rw [Trunk.lost_frame]

/-- Is the station in the hearing round of R24? -/
def Trunk.hearing (t : Trunk) : Bool := t.state == .listen && t.markInListen

/-- Does an intact MARK join the station (R24)? -/
def Trunk.joins (t : Trunk) : Bool := t.hearing && t.candidate && t.markInTurn

/-- The Trunk Port after an intact MARK in the hearing round (R24). -/
def Trunk.afterIntact (t : Trunk) : Trunk :=
  { t with
    state := if t.joins then .joined else t.state
    renumbered := if t.joins then false else t.renumbered
    candidate := if t.joins then false else if t.hearing then true else t.candidate }

/-- The tables after an intact MARK, which may join the station (R24). -/
def Tables.afterIntact (joins : Bool) (t : Tables) : Tables := { t with refresh := if joins then 0 else t.refresh }

/-- An intact MARK that joins (R24). -/
theorem hearingIntact_joins {s : State} (h : s.trunk.joins = true) : hearingIntact s = join s := by
  simp only [Trunk.joins, Trunk.hearing, Bool.and_eq_true, beq_iff_eq] at h
  obtain ⟨⟨⟨hl, hm⟩, hc⟩, ht⟩ := h
  simp [hearingIntact, hl, hm, hc, ht]

/-- An intact MARK that does not join (R24). -/
theorem hearingIntact_stays {s : State} (h : s.trunk.joins = false) :
    hearingIntact s = s.setTrunk { s.trunk with candidate := s.trunk.hearing || s.trunk.candidate } := by
  unfold hearingIntact
  split
  · next hh =>
    have hg : s.trunk.hearing = true := by simp [Trunk.hearing, hh]
    have hn : (s.trunk.candidate && s.trunk.markInTurn) = false := by simpa [Trunk.joins, hg] using h
    simp [hn, hg]
  · next hh =>
    have hg : s.trunk.hearing = false := by simpa [Trunk.hearing] using hh
    rw [hg, Bool.false_or]
    rfl

/-- What an intact MARK in the hearing round does beside the blocks that read the tables (R24). -/
theorem hearingIntact_beside (s : State) : (hearingIntact s).beside =
    ((s.setTrunk s.trunk.afterIntact).setTables (s.tables.afterIntact s.trunk.joins)).beside := by
  cases h : s.trunk.joins with
  | true =>
    rw [hearingIntact_joins h, join]
    simp [Trunk.afterIntact, Tables.afterIntact, h]
  | false =>
    rw [hearingIntact_stays h]
    cases hg : s.trunk.hearing <;> simp [Trunk.afterIntact, Tables.afterIntact, h, hg] <;> rfl

/-- Two stations that are equal beside those parts take an intact MARK alike (R24). -/
theorem hearingIntact_beside_of {r s : State} (h : s.beside = r.beside) : (hearingIntact s).beside =
    ((r.setTrunk r.trunk.afterIntact).setTables (r.tables.afterIntact r.trunk.joins)).beside := by
  have hj : s.trunk.joins = r.trunk.joins := (congrArg (fun x : State => x.trunk.joins) h :)
  rw [hearingIntact_beside, hj, tables_of_beside h]
  exact setTables_beside (setTrunk_beside h Trunk.afterIntact (fun _ _ => rfl) fun _ => rfl) _

/-- What joining leaves in a station that sends no control frame (R24). -/
theorem join_eq {s : State} (hb : s.boot.phase = .started) (ho : ∀ c, s.trunk.out ≠ .control c) :
    join s = ((s.setTrunk { s.trunk with state := .joined, renumbered := false, candidate := false }).setTables
      { s.tables with refresh := 0 }).setQueue (queueOffer s.queue .roster .plain s.now) := by
  have ha : ((s.setTrunk { s.trunk with state := .joined, renumbered := false, candidate := false }).setTables
      { s.tables with refresh := 0 }).acting = true := by simp [State.acting, hb]
  exact offer_eq ha (fun c hc => absurd hc (ho c)) .plain

/-- A station that joins offers its ROSTER, if it sends no control frame (R24). -/
theorem queueHolds_join {s : State} (hb : s.boot.phase = .started) (ho : ∀ c, s.trunk.out ≠ .control c) :
    queueHolds (join s).queue .roster = true := by
  rw [join_eq hb ho]
  exact queueHolds_offer ..

/-- The tables once an item has been heard that is no reason to move the station (R29, R35, R169). -/
def State.heardQuietly (s : State) (a : Addr) (tag : Word) : Tables :=
  if s.trunk.state = .inert then s.tables
  else if s.heldBack a tag = true then (s.tagged tag).tables else s.heardTables a tag

/-- The filters look at no more of the Trunk Port than the half (R35, R36). -/
theorem heldBack_setTrunk (s : State) (x : Trunk) (h : x.half = s.trunk.half) (a : Addr) (tag : Word) :
    (s.setTrunk x).heldBack a tag = s.heldBack a tag := by
  have ha : (s.setTrunk x).addr = s.addr := addr_congr rfl h
  unfold State.heldBack
  rw [ha, State.setTrunk_trunk, h]
  rfl

/-- Presence looks at no more of the Trunk Port than the half (R29). -/
theorem heardTables_setTrunk (s : State) (x : Trunk) (h : x.half = s.trunk.half) (a : Addr) (tag : Word) :
    (s.setTrunk x).heardTables a tag = s.heardTables a tag := by
  have ha : (s.setTrunk x).addr = s.addr := addr_congr rfl h
  unfold State.heardTables
  rw [ha]
  rfl

/-- What an item makes of the tables depends on no more of the Trunk Port than state and half. -/
theorem heardQuietly_setTrunk (s : State) (x : Trunk) (h1 : x.state = s.trunk.state) (h2 : x.half = s.trunk.half)
    (a : Addr) (tag : Word) : (s.setTrunk x).heardQuietly a tag = s.heardQuietly a tag := by
  have ht : ((s.setTrunk x).tagged tag).tables = (s.tagged tag).tables := by
    unfold State.tagged
    split <;> simp_all
  unfold State.heardQuietly
  rw [heldBack_setTrunk s x h2, heardTables_setTrunk s x h2, State.setTrunk_trunk, h1, State.setTrunk_tables, ht]

/-- What an item that is applied no further leaves beside the blocks that read the tables (R29, R35, R169). -/
theorem takeItem_id_beside {s : State} {a : Addr} {tag : Word} (hb : s.boot.phase = .started)
    (hk : s.trunk.state = .inert ∨ tag = s.cfg.tag
      ∨ lowerTags s.cfg.tag (takeTag tag s.tables.foreign) = lowerTags s.cfg.tag s.tables.foreign) :
    (takeItem false a tag id s).beside = (s.setTables (s.heardQuietly a tag)).beside := by
  unfold State.heardQuietly
  by_cases hi : s.trunk.state = .inert
  · have ha : s.acting = false := acting_of_inert hi
    simp only [takeItem, ha, hi, if_true]
    rfl
  · have ha : s.acting = true := by simp [State.acting, hb, hi]
    rw [takeItem_quiet ha (hk.resolve_left hi), if_neg hi]
    split
    · unfold State.tagged
      split <;> rfl
    · exact presence_beside s a tag

/-- What a heard MARK with a matching check does (R5). -/
theorem markBodyReceived_intact {s : State} {rx : MarkRx} {count : Byte} (hb : s.boot.phase = .started)
    (hr : readMark rx = some count) : markBodyReceived rx s = hearingIntact (takeItem false rx.addr rx.tag id
      (s.setTrunk { s.trunk.lost with roundCount := count, opening := .intact })) := by
  unfold markBodyReceived
  rw [if_pos hb, hr, loseMark_eq]
  rfl

/-- What a damaged MARK does (R5). -/
theorem markBodyReceived_damaged {s : State} {rx : MarkRx} (hb : s.boot.phase = .started) (hr : readMark rx = none) :
    markBodyReceived rx s = s.setTrunk { s.trunk.lost with
      markErrors := s.trunk.markErrors + 1#16, roundCount := s.trunk.roundCount + 1#8, opening := .damaged
      candidate := false } := by
  unfold markBodyReceived
  rw [if_pos hb, hr, loseMark_eq, ← Trunk.lost_markErrors, ← Trunk.lost_roundCount]
  rfl

/-- Settles O8: the item, and then the hearing round. -/
theorem markBodyIntact : Obligations.MarkBodyIntact := by
  intro s rx count hearing joins heard tr hs hb hr hk hheard hhear hjoin htr
  have htr : tr = s.trunk.lost := htr
  subst htr
  have hg : s.trunk.lost.hearing = hearing := by rw [hhear]; simp [Trunk.hearing]
  have hj : s.trunk.lost.joins = joins := by rw [hjoin]; simp [Trunk.joins, hg]
  generalize hx : ({ s.trunk.lost with roundCount := count, opening := .intact } : Trunk) = x
  have hxg : x.hearing = hearing := by rw [← hx]; exact hg
  have hxj : x.joins = joins := by rw [← hx]; exact hj
  have hxs : x.state = s.trunk.state := by rw [← hx]; exact s.trunk.lost_state
  have hxh : x.half = s.trunk.half := by rw [← hx]; exact s.trunk.lost_half
  have hxr : x.renumbered = s.trunk.renumbered := by rw [← hx]; exact s.trunk.lost_renumbered
  have hxc : x.candidate = s.trunk.candidate := by rw [← hx]; exact s.trunk.lost_candidate
  have hquiet : (s.setTrunk x).heardQuietly rx.addr rx.tag = heard := by
    rw [hheard]
    exact heardQuietly_setTrunk s x hxs hxh rx.addr rx.tag
  generalize hu : takeItem false rx.addr rx.tag id (s.setTrunk x) = u
  have hub : u.beside = ((s.setTrunk x).setTables heard).beside := by
    rw [← hu, takeItem_id_beside (s := s.setTrunk x) hb (by simpa [hxs] using hk), hquiet]
  refine ⟨_, (exec_act hs (f := markBodyReceived rx) rfl).trans (by rw [markBodyReceived_intact hb hr, hx, hu]), ?_,
    fun h ho => ?_⟩
  · rw [beside_refreshPins, hearingIntact_beside_of hub]
    have hafter : x.afterIntact = { x with
        state := if joins then .joined else s.trunk.state
        renumbered := if joins then false else s.trunk.renumbered
        candidate := if joins then false else if hearing then true else s.trunk.candidate } := by
      unfold Trunk.afterIntact
      rw [hxj, hxg, hxs, hxr, hxc]
    rw [State.setTables_trunk, State.setTrunk_trunk, State.setTables_tables, hafter, hxj, ← hx]
    rfl
  · have hj : u.trunk.joins = true := (congrArg (fun x : State => x.trunk.joins) hub :).trans (hxj.trans h)
    have hxo : ∀ c, x.out ≠ .control c := by
      rcases s.trunk.lost_out with hl | hl
      · simp [← hx, hl]
      · simpa [← hx, hl] using ho
    rw [refreshPins_queue, hearingIntact_joins hj]
    refine queueHolds_join ?_ ?_
    · rw [boot_of_beside hub]
      exact hb
    · rw [trunk_of_beside hub hxo]
      exact hxo

/-- Settles O9: the damaged body, and the read-back by what it is and whether it joins the station. -/
theorem markDamagedOrReadBack : Obligations.MarkDamagedOrReadBack := by
  refine ⟨fun s rx tr hs hb hr htr => ?_, fun s b r hearing joins hs ha ho hhear hjoin => ?_⟩
  · have htr : tr = s.trunk.lost := htr
    rw [exec_act hs (f := markBodyReceived rx) rfl, markBodyReceived_damaged hb hr, htr]
  have hb : s.boot.phase = .started := by
    have h := ha
    simp only [State.acting, Bool.and_eq_true, beq_iff_eq] at h
    exact h.1
  have hg : s.trunk.hearing = hearing := hhear.symm
  have hj : s.trunk.joins = joins := by rw [hjoin, ← hg]; rfl
  have key : ∀ u : State, markReadbackEnd r s = u → exec (.markReadbackEnd r) s = .next (refreshPins u) := fun u hu => by
    rw [exec_act hs (f := markReadbackEnd r) rfl, hu]
  generalize hx : ({ s.trunk with out := .idle, marksSent := bump s.trunk.marksSent, consecClash := 0, opening := .intact } :
    Trunk) = x
  have hxg : x.hearing = hearing := by rw [← hx]; exact hg
  have hxj : x.joins = joins := by rw [← hx]; exact hj
  have same : r = b → markReadbackEnd r s = hearingIntact (s.setTrunk x) := by
    rintro rfl
    simp [markReadbackEnd, ho, hx]
  refine ⟨fun hrb hnj => key _ ?_, fun hrb hjj => ?_, fun hrb => key _ ?_⟩
  · rw [same hrb, hearingIntact_stays (hxj.trans hnj), State.setTrunk_trunk, hxg, ← hx]
    rfl
  · refine ⟨_, key _ ((same hrb).trans (hearingIntact_joins (hxj.trans hjj))), ?_, ?_, ?_⟩
    all_goals
      have hxo : ∀ c, (s.setTrunk x).trunk.out ≠ .control c := by simp [← hx]
    · rw [refreshPins_trunk, join_eq (s := s.setTrunk x) hb hxo, ← hx]
      rfl
    · rw [refreshPins_tables, join_eq (s := s.setTrunk x) hb hxo]
      rfl
    · rw [refreshPins_queue]
      exact queueHolds_join hb hxo
  · simp [markReadbackEnd, ho, hrb, hearingDamaged, clash, bump]
    rfl

end Sys2Proof.Machine
end

