-- ==== Sys2Proof/Proofs/HeardFrames.lean ====
section
/-! SUPPORT. Control frames that are heard and applied (R20, R29, R88, R106, R126). -/
namespace Sys2Proof.Machine

/-- A station that acts has started. -/
theorem started_of_acting {s : State} (h : s.acting = true) : s.boot.phase = .started := by
  simp only [State.acting, Bool.and_eq_true, beq_iff_eq] at h
  exact h.1

/-- The end of another station's frame changes nothing that the admission of an item looks at (R35 to R37). -/
theorem admits_frameEnded {s : State} {a : Addr} {tag : Word} (h : s.admits a tag) : s.frameEnded.admits a tag := by
  obtain ⟨ha, hh, hk⟩ := h
  exact ⟨ha, (heldBack_setTrunk s _ (by rfl) a tag).trans hh, hk⟩

/-- A command that brings a control frame hears it (log 9). -/
theorem exec_heardBy {s : State} (hs : Settled s) (k : FrameKind) (rx : ControlRx) :
    exec (heardBy k rx) s = .next (refreshPins (frameHeard k rx s)) := by
  cases k <;> exact exec_act hs rfl

/-- An admitted control frame gives its sender presence, and is applied to what that leaves (R20, R29). -/
theorem exec_heardBy_admitted {s : State} {k : FrameKind} {rx : ControlRx} {f : ControlFrame} (hs : Settled s)
    (hr : readControl rx = .frame f) (hk : f.body.kind = k) (ha : s.admits f.addr f.tag) :
    ∃ u, exec (heardBy k rx) s = .next (refreshPins (applyBody f.addr f.tag f.body u))
      ∧ u.beside = (s.frameEnded.setTables (s.heardTables f.addr f.tag)).beside := by
  refine ⟨_, ?_, presence_beside s.frameEnded f.addr f.tag |>.trans ?_⟩
  · rw [exec_heardBy hs, frameHeard_frame (started_of_acting ha.1) hr hk, takeFrame,
      takeItem_admitted (admits_frameEnded ha)]
  · have ht : s.frameEnded.heardTables f.addr f.tag = s.heardTables f.addr f.tag :=
      heardTables_setTrunk s _ (by rfl) f.addr f.tag
    rw [ht]

/-- The tables of a state that is another one beside those parts, with its tables replaced. -/
theorem tables_of_beside_setTables {r s : State} {t : Tables} (h : s.beside = (r.setTables t).beside) : s.tables = t :=
  tables_of_beside h

/-- A change of the tables after another one (R45, R48). -/
theorem changeTables_beside_again {r s : State} {t : Tables} (h : s.beside = (r.setTables t).beside) (t' : Tables) :
    (changeTables t' s).beside = (r.setTables t').beside := changeTables_beside_of h t'

/-- What a well-formed DOOR leaves (R88). -/
theorem applyDoor_beside {r s : State} {t : Tables} (h : s.beside = (r.setTables t).beside) (a : Addr) (c : Chan)
    (p : DoorPhase) : (applyDoor a (some (c, p)) s).beside =
      (r.setTables { t with doors := setPhase { addr := a, chan := c } p t.doors }).beside := by
  unfold applyDoor
  rw [changeTables_beside_again h, tables_of_beside_setTables h]

/-- What a DOOR outside its codes leaves (R88). -/
theorem applyDoor_none_beside {r s : State} {t : Tables} (h : s.beside = (r.setTables t).beside) (a : Addr) :
    (applyDoor a none s).beside = (r.setTables { t with doorRejects := t.doorRejects + 1#16 }).beside := by
  unfold applyDoor
  rw [setTables_beside h, tables_of_beside_setTables h]
  rfl

/-- What a well-formed LENS leaves (R106). -/
theorem applyLens_beside {r s : State} {t : Tables} (h : s.beside = (r.setTables t).beside) (a : Addr) (i : Input)
    (g : Grade) (flags : Byte) : (applyLens a (some (i, g)) flags s).beside = (r.setTables { t with
      roster := t.roster.set a ((t.roster[a]).map
        (fun e => e.setGrade i g (flags.getLsbD 0) (flags.getLsbD 1))) }).beside := by
  unfold applyLens
  simp only [changeTables_beside_again h, tables_of_beside_setTables h]

/-- What a LENS outside its codes leaves (R106). -/
theorem applyLens_none_beside {r s : State} {t : Tables} (h : s.beside = (r.setTables t).beside) (a : Addr)
    (flags : Byte) : (applyLens a none flags s).beside =
      (r.setTables { t with lensRejects := t.lensRejects + 1#16 }).beside := by
  unfold applyLens
  rw [setTables_beside h, tables_of_beside_setTables h]
  rfl

/-- What a CAB TAKE leaves (R126). -/
theorem applyCab_take_beside {r s : State} {t : Tables} (h : s.beside = (r.setTables t).beside) (a : Addr) (tag : Word)
    (e : TramEnd) : (applyCab a tag (some (true, e)) s).beside =
      (r.setTables { t with cabRecord := takeCab a tag e t.cabRecord }).beside := by
  unfold applyCab
  rw [changeTables_beside_again h, tables_of_beside_setTables h]

/-- What a CAB LEAVE leaves (R126). -/
theorem applyCab_leave_beside {r s : State} {t : Tables} (h : s.beside = (r.setTables t).beside) (a : Addr) (tag : Word)
    (e : TramEnd) : (applyCab a tag (some (false, e)) s).beside =
      (r.setTables { t with cabRecord := dropCab t.cabRecord a, wants := dropSender t.wants a }).beside := by
  unfold applyCab
  rw [changeTables_beside_again h, tables_of_beside_setTables h]

/-- What a CAB frame outside its codes leaves (R126). -/
theorem applyCab_none_beside {r s : State} {t : Tables} (h : s.beside = (r.setTables t).beside) (a : Addr) (tag : Word) :
    (applyCab a tag none s).beside = (r.setTables { t with cabRejects := t.cabRejects + 1#16 }).beside := by
  unfold applyCab
  rw [setTables_beside h, tables_of_beside_setTables h]
  rfl

/-- Settles O20: presence, and then the door table, the sender's camera or the rejects counter. -/
theorem doorAndLensFramesApplied : Obligations.DoorAndLensFramesApplied := by
  refine ⟨fun s rx f cb pb hs hr hf ha => ?_, fun s rx f ib gb fb hs hr hf ha => ?_⟩
  · obtain ⟨u, hu, hub⟩ := exec_heardBy_admitted (k := .door) hs hr (by rw [hf]; rfl) ha
    rw [hf] at hu
    refine ⟨fun c p hc => ⟨_, hu, ?_⟩, fun hc => ⟨_, hu, ?_⟩⟩
    · rw [beside_refreshPins, applyBody, hc]
      exact applyDoor_beside hub f.addr c p
    · rw [beside_refreshPins, applyBody, hc]
      exact applyDoor_none_beside hub f.addr
  · obtain ⟨u, hu, hub⟩ := exec_heardBy_admitted (k := .lens) hs hr (by rw [hf]; rfl) ha
    rw [hf] at hu
    refine ⟨fun i g hc => ⟨_, hu, ?_⟩, fun hc => ⟨_, hu, ?_⟩⟩
    · rw [beside_refreshPins, applyBody, hc]
      exact applyLens_beside hub f.addr i g fb
    · rw [beside_refreshPins, applyBody, hc]
      exact applyLens_none_beside hub f.addr fb

/-- Settles O21: presence, and then the cab record and the want table, or the rejects counter. -/
theorem cabFrameApplied : Obligations.CabFrameApplied := by
  intro s rx f kb eb hs hr hf ha
  obtain ⟨u, hu, hub⟩ := exec_heardBy_admitted (k := .cab) hs hr (by rw [hf]; rfl) ha
  rw [hf] at hu
  refine ⟨fun e hc => ⟨_, hu, ?_⟩, fun e hc => ⟨_, hu, ?_⟩, fun hc => ⟨_, hu, ?_⟩⟩
  · rw [beside_refreshPins, applyBody, hc]
    exact applyCab_take_beside hub f.addr f.tag e
  · rw [beside_refreshPins, applyBody, hc]
    exact applyCab_leave_beside hub f.addr f.tag e
  · rw [beside_refreshPins, applyBody, hc]
    exact applyCab_none_beside hub f.addr f.tag

end Sys2Proof.Machine
end

