-- ==== Sys2Proof/Proofs/Wins.lean ====
section
/-! SUPPORT. The win of a control position: content fixed, or the owner declines (R9, R32, R54, R57, R61). -/
namespace Sys2Proof.Machine

/-- A station as its win is recorded (R9). -/
def State.winning (s : State) : State := s.setTrunk { s.trunk with contending := none, won := true }

/-- The win of an entry that waits (R9). -/
theorem arbitrationWin_entry {s : State} {sub : Subject} {e : QueueEntry} (hc : s.trunk.contending = some sub)
    (hq : queueFind s.queue sub = some e) : arbitrationWin s = winEntry e s.winning := by
  simp [arbitrationWin, hc, hq, State.winning]

/-- The win of an entry that has left the queue (R9; log 38). -/
theorem arbitrationWin_gone {s : State} {sub : Subject} (hc : s.trunk.contending = some sub)
    (hq : queueFind s.queue sub = none) : arbitrationWin s = beginVoid sub s.winning := by
  simp [arbitrationWin, hc, hq, State.winning]

/-- The cab state ACTIVE, in both of its forms. -/
theorem isActive_iff (s : State) : s.isActive = true ↔ s.cab.state = .active := by simp [State.isActive]

/-! ### What each owner supplies -/

theorem winEntry_door {s : State} {e : QueueEntry} {c : Chan} {ch : Channel} (he : e.subject = .door c)
    (hc : s.channels[c] = some ch) : winEntry e s = beginFrame e (.door (byte c.val) (phaseCode ch.phase)) s := by
  simp only [winEntry, he, State.channelPhase, hc]

theorem winEntry_lens {s : State} {e : QueueEntry} {i : Input} {r : LensRecord} (he : e.subject = .lens i)
    (hr : s.lens.records[i] = some r) :
    winEntry e s = beginFrame e (.lens (byte i.val) (gradeCode r.grade) (flagsByte r.held r.unbaselined)) s := by
  simp only [winEntry, he, hr]

theorem winEntry_cab {s : State} {e : QueueEntry} {x : TramEnd} (he : e.subject = .cab)
    (hx : s.cfg.endStation = some x) :
    winEntry e s = beginFrame e (.cab (if e.kind = .take then 0x01#8 else 0x02#8) (endCode x)) s := by
  simp only [winEntry, he, hx]

theorem winEntry_want {s : State} {e : QueueEntry} (he : e.subject = .want) : winEntry e s =
    beginFrame e (.want ((if s.cab.state = .active then s.comp.wantList else []).map wantQuad)) s := by
  simp only [winEntry, he, isActive_iff]

theorem winEntry_roster {s : State} {e : QueueEntry} (he : e.subject = .roster) :
    winEntry e s = beginFrame e s.rosterBody s := by
  simp only [winEntry, he]

theorem winEntry_claim {s : State} {e : QueueEntry} {n : StreamNo} {x : Stream} (he : e.subject = .stream n)
    (hk : e.kind = .claim) (hx : s.engine.table[n] = some x) : winEntry e s = winClaim e n x s := by
  simp only [winEntry, he, hx, hk, if_true]

theorem winEntry_release {s : State} {e : QueueEntry} {n : StreamNo} {x : Stream} (he : e.subject = .stream n)
    (hk : e.kind = .release) (hx : s.engine.table[n] = some x) : winEntry e s = winRelease e n s := by
  simp [winEntry, he, hx, hk]

theorem winEntry_deny {s : State} {e : QueueEntry} {p : WantPos} (he : e.subject = .deny p) :
    winEntry e s = winDeny e p s := by
  simp only [winEntry, he]

/-- A RELEASE of a stream that owns slots is sent (R61). -/
theorem winRelease_sends {s : State} {n : StreamNo} (h : slotsOf s.tables.slots s.addr n ≠ []) (e : QueueEntry) :
    winRelease e n s = beginFrame e
      (.release (byte s.addr.val) s.cfg.tag (byte n.val) (slotBytes (slotsOf s.tables.slots s.addr n))) s := by
  unfold winRelease
  exact if_neg (by simpa using h)

/-- A RELEASE of a stream that owns none declines, and the stream is removed (R61). -/
theorem winRelease_declines {s : State} {n : StreamNo} (h : slotsOf s.tables.slots s.addr n = []) (e : QueueEntry) :
    winRelease e n s = evaluateDemand ((declineEntry e.subject s).setStream n none) := by
  unfold winRelease
  exact if_pos (by simp [h])

/-- A DENY that has something to refuse is sent (R57). -/
theorem winDeny_sends {s : State} {p : WantPos} {r : WantRecord} (hr : s.tables.wants[p] = some r)
    (h : s.denyList p ≠ []) (e : QueueEntry) :
    winDeny e p s = beginFrame e (.deny (byte r.sender.val) ((s.denyList p).map denyQuad)) s := by
  obtain ⟨x, xs, hx⟩ := List.exists_cons_of_ne_nil h
  simp only [winDeny, hr, hx]

/-- A DENY that has nothing to refuse declines (R57). -/
theorem winDeny_declines {s : State} {p : WantPos} (h : s.tables.wants[p] = none ∨ s.denyList p = []) (e : QueueEntry) :
    winDeny e p s = declineEntry e.subject s := by
  unfold winDeny
  split
  · next hr hd => rcases h with h | h <;> simp_all
  · rfl

/-! ### The outcome of a CLAIM -/

/-- A candidate class that neither merges nor fits is passed over (R54). -/
theorem claimOutcome_skip (t : StreamTable) (m : Vector SlotEntry 24) (n : StreamNo) (x : Stream)
    (before rest : List SizeClass) (h : ∀ c ∈ before, mergeTarget t n x c = none ∧ freeSlots m < c.need) :
    claimOutcome t m n x (before ++ rest) = claimOutcome t m n x rest := by
  induction before with
  | nil => rfl
  | cons c cs ih =>
    obtain ⟨hm, hf⟩ := h c (by simp)
    rw [List.cons_append, claimOutcome, hm]
    exact (if_neg (by omega)).trans (ih fun d hd => h d (by simp [hd]))

/-- Where no candidate class merges or fits, the CLAIM is declined (R54). -/
theorem claimOutcome_none (t : StreamTable) (m : Vector SlotEntry 24) (n : StreamNo) (x : Stream) (ks : List SizeClass)
    (h : ∀ c ∈ ks, mergeTarget t n x c = none ∧ freeSlots m < c.need) : claimOutcome t m n x ks = .none := by
  have hs := claimOutcome_skip t m n x ks [] h
  rwa [List.append_nil] at hs

/-- A CLAIM is merged into another stream than its own (R54). -/
theorem mergeTarget_ne {t : StreamTable} {n o : StreamNo} {x : Stream} {k : SizeClass}
    (h : mergeTarget t n x k = some o) : o ≠ n := by
  unfold mergeTarget at h
  obtain ⟨p, hp, rfl⟩ := Option.map_eq_some_iff.mp h
  have := List.find?_some hp
  simp only [Bool.and_eq_true, bne_iff_ne] at this
  exact this.1.1.1

/-- The DENY offers of an evaluation that applies no WANT (R57). -/
theorem denyOps_none (old new : Vector (List Refused) 4) : denyOps none old new =
    (allPositions.filter (fun p => refusalJoins old[p] new[p])).map (fun p => .offer (.deny p) .plain) := by
  unfold denyOps
  simp

/-! ### Refusing what a declined stream served -/

/-- The reason of an entry in a list from which the entries of a camera and class have been taken, with one refusal behind
(R57). -/
theorem refusalOf_replace (l : List Refused) (cam cam' : CamId) (cls cls' : SizeClass) (r : RefusalReason) :
    refusalOf (l.filter (fun x => !(x.cam == cam' && x.cls == cls')) ++ [{ cam := cam', cls := cls', reason := r }]) cam cls
      = if cam' = cam ∧ cls' = cls then some r else refusalOf l cam cls := by
  unfold refusalOf
  rw [List.find?_append, List.find?_filter]
  by_cases h : cam' = cam ∧ cls' = cls
  · obtain ⟨rfl, rfl⟩ := h
    rw [List.find?_eq_none.mpr fun y _ => by simp only [decide_eq_true_eq]; rintro ⟨h1, h2⟩; simp [h2] at h1]
    simp
  · have hp : ∀ y : Refused, (decide ((!(y.cam == cam' && y.cls == cls')) = true ∧ (y.cam == cam && y.cls == cls) = true))
        = (y.cam == cam && y.cls == cls) := by
      intro y
      rw [Bool.eq_iff_iff, decide_eq_true_iff]
      refine ⟨fun hy => hy.2, fun hy => ⟨?_, hy⟩⟩
      simp only [Bool.and_eq_true, beq_iff_eq] at hy
      obtain ⟨rfl, rfl⟩ := hy
      have hn : ¬(y.cam = cam' ∧ y.cls = cls') := fun e => h ⟨e.1.symm, e.2.symm⟩
      have hb : (y.cam == cam' && y.cls == cls') = false := by simpa using hn
      rw [hb]
      rfl
    have hn : (cam' == cam && cls' == cls) = false := by simpa using h
    simp only [hp]
    rw [List.find?_singleton, hn, if_neg h]
    simp

/-- An element of a vector after one of its places has been set. -/
theorem getElem_set_fin {α : Type} {n : Nat} (v : Vector α n) (i j : Fin n) (x : α) :
    (v.set i x)[j] = if i = j then x else v[j] := by
  simp only [Fin.getElem_fin, Vector.getElem_set, Fin.ext_iff]

/-- Is a demand entry one whose refusal stands in the list of a position for a camera and class (R57)? -/
def Demand.refusedAt (d : Demand) (p : WantPos) (cam : CamId) (cls : SizeClass) : Prop :=
  d.entry.carry = false ∧ d.pos = p ∧ d.entry.cam = cam ∧ d.entry.cls = cls

/-- A carry entry is not refused (R57). -/
theorem refuseServed_carry {d : Demand} (h : d.entry.carry = true) (r : Vector (List Refused) 4) :
    refuseServed [d] r = r := if_pos h

/-- A non-carry entry is refused NO_SLOTS in the list of its position (R54, R57). -/
theorem refuseServed_one {d : Demand} (h : d.entry.carry = false) (r : Vector (List Refused) 4) :
    refuseServed [d] r = r.set d.pos ((r[d.pos]).filter (fun x => !(x.cam == d.entry.cam && x.cls == d.entry.cls))
      ++ [{ cam := d.entry.cam, cls := d.entry.cls, reason := .noSlots }]) := if_neg (by simp [h])

/-- What is refused once one demand entry has been refused NO_SLOTS, unless it carries (R54, R57). -/
theorem refusalOf_refuseServed_one (d : Demand) (r : Vector (List Refused) 4) (p : WantPos) (cam : CamId)
    (cls : SizeClass) [Decidable (d.refusedAt p cam cls)] : refusalOf (refuseServed [d] r)[p] cam cls =
      if d.refusedAt p cam cls then some .noSlots else refusalOf r[p] cam cls := by
  cases hc : d.entry.carry with
  | true => rw [refuseServed_carry hc, if_neg fun h => by simp [h.1] at hc]
  | false =>
    rw [refuseServed_one hc, getElem_set_fin]
    by_cases hp : d.pos = p
    · subst hp
      rw [if_pos rfl, refusalOf_replace]
      simp [Demand.refusedAt, hc]
    · rw [if_neg hp, if_neg fun h => hp h.2.1]

open Classical in
/-- What is refused once the non-carry entries of a list of demand have been refused NO_SLOTS (R54, R57). -/
theorem refusalOf_refuseServed (ds : List Demand) (r : Vector (List Refused) 4) (p : WantPos) (cam : CamId)
    (cls : SizeClass) : refusalOf (refuseServed ds r)[p] cam cls =
      if ∃ d ∈ ds, d.refusedAt p cam cls then some .noSlots else refusalOf r[p] cam cls := by
  induction ds generalizing r with
  | nil => simp [refuseServed]
  | cons d ds ih =>
    have hs : refuseServed (d :: ds) r = refuseServed ds (refuseServed [d] r) := rfl
    rw [hs, ih, refusalOf_refuseServed_one]
    by_cases h : ∃ x ∈ ds, x.refusedAt p cam cls <;> simp [h]

/-! ### The win, whole -/

/-- The win of a CLAIM that fits (R54). -/
theorem winClaim_fits {s : State} {n : StreamNo} {x : Stream} {k : SizeClass} {before after : List SizeClass}
    (hc : x.candidates = before ++ k :: after)
    (hb : ∀ c ∈ before, mergeTarget s.engine.table n x c = none ∧ freeSlots s.tables.slots < c.need)
    (hm : mergeTarget s.engine.table n x k = none) (hf : k.need ≤ freeSlots s.tables.slots) (e : QueueEntry) :
    winClaim e n x s =
      beginFrame e (s.claimBody n x k ((freeList s.tables.slots).take k.need)) (fitClaim n k x s) := by
  simp only [winClaim, hc, claimOutcome_skip _ _ _ _ _ _ hb, claimOutcome, hm, hf, if_true]

/-- The win of a CLAIM that is merged into another stream (R54). -/
theorem winClaim_merges {s : State} {n o : StreamNo} {x : Stream} {k : SizeClass} {before after : List SizeClass}
    (hc : x.candidates = before ++ k :: after)
    (hb : ∀ c ∈ before, mergeTarget s.engine.table n x c = none ∧ freeSlots s.tables.slots < c.need)
    (hm : mergeTarget s.engine.table n x k = some o) (e : QueueEntry) :
    winClaim e n x s = mergeClaim n o x (declineEntry e.subject s) := by
  simp only [winClaim, hc, claimOutcome_skip _ _ _ _ _ _ hb, claimOutcome, hm]

/-- The win of a CLAIM that fits nowhere (R54). -/
theorem winClaim_declines {s : State} {n : StreamNo} {x : Stream}
    (hb : ∀ c ∈ x.candidates, mergeTarget s.engine.table n x c = none ∧ freeSlots s.tables.slots < c.need)
    (e : QueueEntry) : winClaim e n x s = declineClaim n x (declineEntry e.subject s) := by
  simp only [winClaim, claimOutcome_none _ _ _ _ _ hb]

/-- The stream table after a merge (R54). -/
theorem mergeClaim_eq {s : State} {n o : StreamNo} {x y : Stream} (hn : o ≠ n) (hy : s.engine.table[o] = some y) :
    mergeClaim n o x s = evaluateDemand (s.setEngine { s.engine with
      table := (s.engine.table.set n none).set o (some (y.mergeWanted x.wanted)) }) := by
  have ho : (s.engine.table.set n none)[o] = some y := by rw [getElem_set_fin, if_neg hn.symm, hy]
  simp only [mergeClaim, ho, Option.map_some]

/-- The refusal lists after a CLAIM has been declined (R54, R57). -/
def State.declinedRefusals (s : State) (n : StreamNo) (x : Stream) : Vector (List Refused) 4 :=
  if x.upgrade then s.engine.refusals else refuseServed (servedEntries s.demand s.engine.table n) s.engine.refusals

/-- What a CLAIM declined for want of slots leaves (R54, R57). -/
theorem declineClaim_eq (n : StreamNo) (x : Stream) (s : State) : declineClaim n x s = evaluateDemand (applyQueueOps
    ((allPositions.filter (fun p => refusalJoins s.engine.refusals[p] (s.declinedRefusals n x)[p])).map
      (fun p => .offer (.deny p) .plain))
    (s.setEngine { table := s.engine.table.set n none, refusals := s.declinedRefusals n x })) := by
  rw [← denyOps_none]
  rfl

/-- Which entries a declined CLAIM has refused (R57). -/
theorem refusalOf_declinedRefusals {s : State} {n : StreamNo} {x : Stream} (hx : x.upgrade = false) (p : WantPos)
    (cam : CamId) (cls : SizeClass) [Decidable (∃ d ∈ s.demand, d.servedBy s.engine.table = some n
      ∧ d.entry.carry = false ∧ d.pos = p ∧ d.entry.cam = cam ∧ d.entry.cls = cls)] :
    refusalOf (s.declinedRefusals n x)[p] cam cls =
      if ∃ d ∈ s.demand, d.servedBy s.engine.table = some n ∧ d.entry.carry = false ∧ d.pos = p ∧ d.entry.cam = cam
        ∧ d.entry.cls = cls then some .noSlots
      else refusalOf s.engine.refusals[p] cam cls := by
  have hr : s.declinedRefusals n x = refuseServed (servedEntries s.demand s.engine.table n) s.engine.refusals :=
    if_neg (by simp [hx])
  have he : (∃ d ∈ servedEntries s.demand s.engine.table n, d.refusedAt p cam cls) ↔ ∃ d ∈ s.demand,
      d.servedBy s.engine.table = some n ∧ d.entry.carry = false ∧ d.pos = p ∧ d.entry.cam = cam ∧ d.entry.cls = cls := by
    simp [servedEntries, Demand.refusedAt, and_assoc]
  rw [hr, refusalOf_refuseServed]
  simp only [he]

/-- The command of a win answers what winning does (R9). -/
theorem exec_arbitrationWin {s t : State} (hs : Settled s) (h : arbitrationWin s = t) :
    exec .arbitrationWin s = .next (refreshPins t) := by
  rw [exec_act hs (f := arbitrationWin) rfl, h]

/-- Settles O29: the CLAIM takes the first candidate class that fits. -/
theorem claimWinTakesLowestSlots : Obligations.ClaimWinTakesLowestSlots := by
  intro s e n x before after k hs hc hq he hk hx hcand hb hm hf f hframe
  subst hframe
  refine exec_arbitrationWin hs ?_
  rw [arbitrationWin_entry hc hq, winEntry_claim (s := s.winning) he hk hx, winClaim_fits (s := s.winning) hcand hb hm hf]
  unfold beginFrame
  rw [he, hk]
  rfl

/-- The content that an owner fixes at the win is sent (R9). -/
theorem winFixesContent_sent {s : State} {e : QueueEntry} {b : FrameBody} (hs : Settled s)
    (hc : s.trunk.contending = some e.subject) (hq : queueFind s.queue e.subject = some e)
    (h : winEntry e s.winning = beginFrame e b s.winning) :
    exec .arbitrationWin s = .next (refreshPins (s.setTrunk { s.trunk with
      contending := none, won := true
      out := .control { subject := e.subject, kind := e.kind, again := none
                        frame := { addr := s.addr, tag := s.cfg.tag, body := b }
                        bytes := controlBytes { addr := s.addr, tag := s.cfg.tag, body := b } } })) :=
  exec_arbitrationWin hs ((arbitrationWin_entry hc hq).trans h)

/-- The station's ROSTER, with the cab flag by the cab state (R32). -/
theorem rosterBody_eq (s : State) : s.rosterBody = .roster (byte s.cfg.localNo.val) (roleCode s.cfg.role)
    (couplerCode s.ownCoupler) (if s.cab.state = .active then 0x01#8 else 0x00#8) (allInputs.filterMap s.camRaw)
    (allChans.filterMap s.doorRaw) := by
  simp only [State.rosterBody, isActive_iff]

/-- Settles O11: the owners that supply content, the entry that has left the queue, and the owners that decline. -/
theorem winFixesContent : Obligations.WinFixesContent := by
  refine ⟨fun s e b hs hc hq hb => winFixesContent_sent hs hc hq ?_, fun s sub hs hc hq => ?_,
    fun s u e hs hc hq hu => ?_⟩
  · obtain ⟨c, ch, he, hch, rfl⟩ | ⟨i, r, he, hr, rfl⟩ | ⟨x, he, hx, rfl⟩ | ⟨he, rfl⟩ | ⟨he, rfl⟩
      | ⟨n, x, he, hk, hx, hsl, rfl⟩ | ⟨p, r, he, hr, hd, rfl⟩ := hb
    · exact winEntry_door he hch
    · exact winEntry_lens he hr
    · exact winEntry_cab he hx
    · exact winEntry_want he
    · rw [winEntry_roster (s := s.winning) he, rosterBody_eq]
      refine congrArg (fun b => beginFrame e b s.winning) ?_
      congr 1
      refine List.filterMap_congr fun c _ => ?_
      show s.doorRaw c = _
      unfold State.doorRaw State.channelPhase
      cases s.cfg.doors[c] <;> rfl
    · rw [winEntry_release (s := s.winning) he hk hx]
      exact winRelease_sends (s := s.winning) hsl e
    · rw [winEntry_deny (s := s.winning) he]
      exact winDeny_sends (s := s.winning) hr hd e
  · exact exec_arbitrationWin hs (arbitrationWin_gone hc hq)
  · have hw := arbitrationWin_entry hc hq
    have hdec : declineEntry e.subject s.winning = u := by rw [hu]; rfl
    refine ⟨fun n o x y before after k he hk hx hcand hbef hm hy => exec_arbitrationWin hs ?_,
      fun n x he hk hx hall => ⟨s.declinedRefusals n x, exec_arbitrationWin hs ?_, fun hup => if_pos hup,
        fun hup p cam cls => refusalOf_declinedRefusals hup p cam cls⟩,
      fun n x he hk hx hsl => exec_arbitrationWin hs ?_, fun p he hd => exec_arbitrationWin hs ?_⟩
    · rw [hw, winEntry_claim (s := s.winning) he hk hx, winClaim_merges (s := s.winning) hcand hbef hm, hdec,
        mergeClaim_eq (mergeTarget_ne hm) (y := y) (by rw [hu]; exact hy), hu]
      rfl
    · rw [hw, winEntry_claim (s := s.winning) he hk hx, winClaim_declines (s := s.winning) hall, hdec, declineClaim_eq, hu]
      rfl
    · rw [hw, winEntry_release (s := s.winning) he hk hx, winRelease_declines (s := s.winning) hsl, hdec, hu]
      rfl
    · rw [hw, winEntry_deny (s := s.winning) he, winDeny_declines (s := s.winning) hd, hdec]

end Sys2Proof.Machine
end

