-- ==== Sys2Proof/Proofs/SlotTiles.lean ====
section
/-! SUPPORT. The start of a data slot, and the tile that is sent in it (R16, R20, R59, R72 to R74). -/
namespace Sys2Proof.Machine

/-- A station as a slot starts, before a tile (R1, R16, R20; logs 4, 45, 46). -/
def State.atSlot (s : State) (n : Slot) : State :=
  (s.setNow (if s.trunk.synced then s.now + (320 + 192 * n.val - s.trunk.offset) else s.now)).setTrunk { s.trunk with
    offset := if s.trunk.synced then max s.trunk.offset (320 + 192 * n.val) else s.trunk.offset
    filter := some (s.tileFilter n) }

/-- The filter and the place in the round that the start of a slot leaves. -/
theorem noteFilter_reach (n : Slot) (s : State) : noteFilter n (reach (Config.slotStart n.val) s) = s.atSlot n := by
  rw [reach_eq]
  rfl

/-- What the start of a slot leaves in a station that may send a tile for one of its streams (R16, R73). -/
theorem slotStart_sends {s : State} {n : Slot} {k : StreamNo} {x : Stream} (hm : (s.atSlot n).maySendTile = true)
    (hx : s.slotStream n = some (k, x)) : slotStart n s =
      ((s.atSlot n).setStream k (some (s.supplyTile n k x).2.2)).setTrunk { (s.atSlot n).trunk with
        out := .tile n (s.supplyTile n k x).1 (tileBytes (s.supplyTile n k x).1 (s.supplyTile n k x).2.1) } := by
  have hx' : (s.atSlot n).slotStream n = some (k, x) := hx
  simp only [slotStart, noteFilter_reach, hm, if_true, hx']
  rfl

/-- A station that may send no tile, or has no stream for the slot, sends none (R16). -/
theorem slotStart_silent {s : State} {n : Slot} (h : (s.atSlot n).maySendTile = false ∨ s.slotStream n = none) :
    slotStart n s = s.atSlot n := by
  unfold slotStart
  simp only [noteFilter_reach]
  rcases h with h | h
  · simp [h]
  · have hx : (s.atSlot n).slotStream n = none := h
    simp [hx]

/-- A slot's stream is the one of the station that the copy shows there, unless it claims (R16). -/
theorem slotStream_some {s : State} {n : Slot} {id : StreamId} {x : Stream} (ho : s.tables.slots[n].owner = some id)
    (ha : id.addr = s.addr) (hx : s.engine.table[id.num] = some x) (hc : x.state ≠ .claiming) :
    s.slotStream n = some (id.num, x) := by
  simp only [State.slotStream, ho, ha, hx, hc, if_true, if_false]

/-- Where the copy shows no stream of the station that has left CLAIMING, there is none for the slot (R16). -/
theorem slotStream_none {s : State} {n : Slot} (h : s.tables.slots[n].owner = none
      ∨ ∃ id, s.tables.slots[n].owner = some id ∧ (id.addr ≠ s.addr ∨ s.engine.table[id.num] = none
          ∨ ∃ x, s.engine.table[id.num] = some x ∧ x.state = .claiming)) : s.slotStream n = none := by
  unfold State.slotStream
  rcases h with h | ⟨id, h, h' | h' | ⟨x, hx, hc⟩⟩
  · simp only [h]
  · simp only [h, h', if_false]
  · simp only [h, h', ite_self]
  · simp only [h, hx, hc, if_true, ite_self]

/-- A tile of a LIVE stream with a picture open carries its next band (R72, R73). -/
theorem supplyTile_open {s : State} {x : Stream} {pic : FrameLines} (hl : x.state = .live) (hp : x.picture = some pic)
    (n : Slot) (k : StreamNo) : s.supplyTile n k x =
      (s.tileHeader k x n true x.nextBand (x.nextBand + 1 == x.cls.bands), bandBytes x.cls pic x.nextBand,
        if x.nextBand + 1 = x.cls.bands then { x with nextBand := 0, picture := none }
        else { x with nextBand := x.nextBand + 1 }) := by
  simp [State.supplyTile, hl, hp]

/-- The frame of which a stream starts a picture (R72; log 65). -/
def State.frameFor (s : State) (x : Stream) : FrameLines :=
  match s.intake.inputs[x.input] with
  | some r => r.newest.getD []
  | none => []

/-- A picture that is started (R72). -/
theorem startPicture_eq (s : State) (x : Stream) : s.startPicture x = { x with
    seq := x.seq + 1#8, nextBand := 0
    picture := some (scaleFrame x.cls s.cfg.lineCount s.cfg.pixelCount (s.frameFor x)) } := rfl

/-- Every picture has more than one band (R71). -/
theorem one_lt_bands (c : SizeClass) : 1 < c.bands := by cases c <;> decide

/-- A tile of a LIVE stream with none open carries band 0 of a new one (R72, R73). -/
theorem supplyTile_new {s : State} {x : Stream} (hl : x.state = .live) (hp : x.picture = none) (n : Slot)
    (k : StreamNo) : s.supplyTile n k x =
      (s.tileHeader k { x with seq := x.seq + 1#8 } n true 0 false,
        bandBytes x.cls (scaleFrame x.cls s.cfg.lineCount s.cfg.pixelCount (s.frameFor x)) 0,
        { x with seq := x.seq + 1#8, nextBand := 1
                 picture := some (scaleFrame x.cls s.cfg.lineCount s.cfg.pixelCount (s.frameFor x)) }) := by
  have hb : (1 == x.cls.bands) = false := by simpa using (one_lt_bands x.cls).ne
  simp [State.supplyTile, hl, hp, startPicture_eq, hb]
  rfl

/-- A tile of a HOLDING or DRAINING stream carries nothing (R59, R74). -/
theorem supplyTile_hold {s : State} {x : Stream} (hx : x.state = .holding ∨ ∃ d, x.state = .draining d) (n : Slot)
    (k : StreamNo) : s.supplyTile n k x = (s.tileHeader k x n false 0 false, [], x) := by
  rcases hx with hx | ⟨d, hx⟩ <;> simp [State.supplyTile, hx]

/-- A stream put where it stands changes nothing. -/
theorem setStream_same {s : State} {n : StreamNo} {x : Stream} (h : s.engine.table[n] = some x) :
    s.setStream n (some x) = s := by
  have ht : s.engine.table.set n (some x) = s.engine.table := by
    rw [← h]
    exact Vector.set_getElem_self ..
  unfold State.setStream
  rw [ht]
  rfl

/-- Settles O31: the four tiles, and the silent slots. -/
theorem dataSlotTile : Obligations.DataSlotTile := by
  refine ⟨fun s n id x hs hb hj hy ho hown ha hx late hlate => ?_, fun s n hs h => ?_⟩
  · have hat : s.atSlot n = late := by
      rw [hlate, State.atSlot, hy]
      rfl
    have hm : (s.atSlot n).maySendTile = true := by
      simp [State.maySendTile, State.atSlot, hb, hj, hy, ho]
    have key : x.state ≠ .claiming → exec (.dataSlotStart n) s = .next (refreshPins
        ((late.setStream id.num (some (s.supplyTile n id.num x).2.2)).setTrunk { late.trunk with
          out := .tile n (s.supplyTile n id.num x).1
            (tileBytes (s.supplyTile n id.num x).1 (s.supplyTile n id.num x).2.1) })) := fun hc => by
      rw [exec_actClock hs (f := slotStart n) rfl, slotStart_sends hm (slotStream_some hown ha hx hc), hat]
    refine ⟨fun pic h hl hp hh => ?_, fun r frame pic h hl hp hr hf hpic hh => ?_, fun pic h hl hp hf hpic hh => ?_,
      fun h hst hh => ?_⟩
    · rw [key (by simp [hl]), supplyTile_open hl hp, hh, hlate]
      rfl
    · have hfr : s.frameFor x = frame := by simp [State.frameFor, hr, hf]
      rw [key (by simp [hl]), supplyTile_new hl hp, hh, hfr, ← hpic, hlate]
      rfl
    · have hfr : s.frameFor x = [] := by
        unfold State.frameFor
        split
        · next r hr => simp [hf r hr]
        · rfl
      rw [key (by simp [hl]), supplyTile_new hl hp, hh, hfr, ← hpic, hlate]
      rfl
    · rw [key (by rcases hst with hst | ⟨d, hst⟩ <;> simp [hst]), supplyTile_hold hst, hh]
      rw [setStream_same (by rw [hlate]; exact hx)]
      rfl
  · have hq : (s.atSlot n).maySendTile = false ∨ s.slotStream n = none := by
      rcases h with h | h | h
      · exact .inl (by simp [State.maySendTile, State.atSlot, h])
      · exact .inl (by simp [State.maySendTile, State.atSlot, h])
      · exact .inr (slotStream_none h)
    rw [exec_actClock hs (f := slotStart n) rfl, slotStart_silent hq]
    rfl

end Sys2Proof.Machine
end

