-- ==== Sys2Proof/Proofs/OrderAndClash.lean ====
section
/-! SUPPORT. The order of the queue, refresh offers, and the moment of a command (R12, R28, R32, R155; logs 35, 45). -/
namespace Sys2Proof.Machine

/-! ### The place of a new entry -/

/-- A subject is told by its place in the rows of R11. -/
theorem place_injective {a b : Subject} (h : a.place = b.place) : a = b := by
  have key : ∀ x ∈ allSubjects, ∀ y ∈ allSubjects, x.place = y.place → x = y := by decide
  exact key a (mem_allSubjects a) b (mem_allSubjects b) h

/-- An element put into a list in order stands behind exactly what it is not before. -/
theorem insertBy_eq_filter {α : Type} (before : α → α → Bool)
    (trans : ∀ a b c, before b a = false → before c b = false → before c a = false) (x : α) (l : List α)
    (h : l.Pairwise (fun a b => before b a = false)) :
    insertBy before x l = l.filter (fun y => !before x y) ++ x :: l.filter (before x) := by
  induction l with
  | nil => rfl
  | cons y ys ih =>
    obtain ⟨hy, hys⟩ := List.pairwise_cons.mp h
    cases hxy : before x y with
    | true =>
      have hall : ∀ z ∈ y :: ys, before x z = true := by
        intro z hz
        rcases List.mem_cons.mp hz with rfl | hz
        · exact hxy
        · by_contra hn
          simp [trans y z x (hy z hz) (by simpa using hn)] at hxy
      have hf : (y :: ys).filter (fun z => !before x z) = [] :=
        List.filter_eq_nil_iff.mpr fun z hz => by simp [hall z hz]
      rw [hf, List.filter_eq_self.mpr hall]
      simp [insertBy, hxy]
    | false => simp [insertBy, hxy, ih hys]

/-- An entry of another subject is ahead of a new one by class, time and place (R12). -/
theorem not_before_iff {x e : QueueEntry} (h : e.subject ≠ x.subject) : x.before e = false ↔
    e.subject.cls < x.subject.cls ∨ (e.subject.cls = x.subject.cls ∧
      (e.time < x.time ∨ (e.time = x.time ∧ e.subject.place < x.subject.place))) := by
  have hp : e.subject.place ≠ x.subject.place := fun hp => h (place_injective hp)
  rw [Bool.eq_false_iff, ne_eq, before_iff]
  omega

/-- A change of kind leaves the order of the queue (R12). -/
theorem QueueOrdered.rekind {q : List QueueEntry} (h : QueueOrdered q) (sub : Subject) (k : SendKind) :
    QueueOrdered (queueRekind q sub k) := by
  refine List.pairwise_map.mpr (h.imp fun {a b} hab => ?_)
  refine (before_congr _ _ b a ?_ ?_ ?_ ?_).trans hab <;> split <;> rfl

/-- A new entry leaves the order of the queue (R12). -/
theorem QueueOrdered.insert {q : List QueueEntry} (h : QueueOrdered q) (e : QueueEntry) :
    QueueOrdered (insertBy QueueEntry.before e q) := pairwise_insertBy _ before_asymm not_before_trans e q h

/-- An offer leaves the order of the queue (R12, R13). -/
theorem QueueOrdered.offer {q : List QueueEntry} (h : QueueOrdered q) (sub : Subject) (k : SendKind) (t : Nat) :
    QueueOrdered (queueOffer q sub k t) := by
  unfold queueOffer
  split
  · exact h.rekind sub k
  · exact h.insert _

/-- An offer of a subject that does not wait makes an entry, and leaves the order (R12, R13). -/
theorem offer_new {s : State} {sub : Subject} (ha : s.acting = true) (ho : s.trunk.out.spares sub)
    (hq : queueHolds s.queue sub = false) (k : SendKind) : ∃ q, offer sub k s = s.setQueue q
      ∧ q.Perm ({ subject := sub, kind := k, time := s.now } :: s.queue) ∧ (QueueOrdered s.queue → QueueOrdered q) := by
  refine ⟨_, offer_eq ha ho k, ?_, fun h => h.offer sub k s.now⟩
  rw [queueOffer_of_not_holds hq]
  exact insertBy_perm ..

/-- What makes a ROSTER refresh due (R28, R32). -/
theorem rosterRefresh_of_due {s : State} (hj : s.trunk.state = .joined) (hr : 16 ≤ s.tables.refresh)
    (hq : queueHolds s.queue .roster = false) : rosterRefresh s = offer .roster .plain s := by
  simp [rosterRefresh, State.rosterRefreshDue, hj, hr, hq]

/-- What makes a WANT refresh due (R155). -/
theorem wantRefresh_of_due {s : State} (hc : s.cab.state = .active) (hr : 16 ≤ s.comp.wantRefresh)
    (hq : queueHolds s.queue .want = false) : wantRefresh s = offer .want .plain s := by
  simp [wantRefresh, State.wantRefreshDue, (isActive_iff s).mpr hc, hr, hq]

/-- In a queue in order a new entry stands behind exactly the entries ahead of it (R12). -/
theorem offer_place {s : State} {sub : Subject} {k : SendKind} {ahead : QueueEntry → Bool} (ha : s.acting = true)
    (hord : QueueOrdered s.queue) (hq : queueHolds s.queue sub = false) (ho : s.trunk.out.spares sub)
    (hah : ∀ e, ahead e = true ↔ e.subject.cls < sub.cls ∨ (e.subject.cls = sub.cls
      ∧ (e.time < s.now ∨ (e.time = s.now ∧ e.subject.place < sub.place)))) :
    offer sub k s = s.setQueue (s.queue.filter ahead
      ++ { subject := sub, kind := k, time := s.now } :: s.queue.filter (fun e => !ahead e)) := by
  have hb : ∀ e ∈ s.queue, (!QueueEntry.before { subject := sub, kind := k, time := s.now } e) = ahead e := by
    intro e he
    have hne : e.subject ≠ sub := fun h => not_mem_of_not_holds _ _ hq (List.mem_map.mpr ⟨e, he, h⟩)
    rw [Bool.eq_iff_iff, Bool.not_eq_true', hah]
    exact not_before_iff hne
  have hb' : ∀ e ∈ s.queue, QueueEntry.before { subject := sub, kind := k, time := s.now } e = !ahead e := fun e he => by
    rw [← hb e he, Bool.not_not]
  rw [offer_eq ha ho, queueOffer_of_not_holds hq, insertBy_eq_filter _ not_before_trans _ _ hord,
    List.filter_congr hb, List.filter_congr hb']

/-! ### The moment of a command -/

/-- A moment at which an offer that waits was made (R11, R12; log 12). -/
theorem mem_waitingTimes (s : State) (t : Nat) : t ∈ s.waitingTimes ↔
    (∃ e ∈ s.queue, e.time = t) ∨ ∃ x k, s.trunk.out = .control x ∧ x.again = some (k, t) := by
  unfold State.waitingTimes
  cases s.trunk.out with
  | control c =>
    rcases hc : c.again with _ | ⟨k, u⟩ <;> simp [hc, eq_comm]
  | _ => simp

/-- A moment that is not before the present one and later than every offer that waits, and the present one where that is
itself later than each (R12; log 45). -/
def State.laterMoment (s : State) (m : Nat) : Prop :=
  s.now ≤ m ∧ (∀ t ∈ s.waitingTimes, t < m) ∧ ((∀ t ∈ s.waitingTimes, t < s.now) → m = s.now)

/-- An event acts at such a moment (R12). -/
theorem newMoment_laterMoment (s : State) : ∃ m, s.newMoment = (s.setNow m).setClocked false ∧ s.laterMoment m := by
  obtain ⟨m, hm, h1, h2⟩ := newMoment_later s
  refine ⟨m, hm, h1, h2, fun h => ?_⟩
  have := newMoment_of_before h
  rw [hm] at this
  exact congrArg State.now this

/-- The moment in the words of the statement: by the entries of the queue and the offer beside a frame. -/
theorem laterMoment_iff (s : State) (m : Nat) : s.laterMoment m ↔ s.now ≤ m ∧ (∀ e ∈ s.queue, e.time < m)
    ∧ (∀ x k t, s.trunk.out = .control x → x.again = some (k, t) → t < m)
    ∧ ((∀ e ∈ s.queue, e.time < s.now) → (∀ x k t, s.trunk.out = .control x → x.again = some (k, t) → t < s.now) →
        m = s.now) := by
  have key : ∀ b, (∀ t ∈ s.waitingTimes, t < b) ↔ (∀ e ∈ s.queue, e.time < b)
      ∧ ∀ x k t, s.trunk.out = .control x → x.again = some (k, t) → t < b := by
    intro b
    simp only [mem_waitingTimes]
    constructor
    · exact fun h => ⟨fun e he => h _ (.inl ⟨e, he, rfl⟩), fun x k t hx hk => h t (.inr ⟨x, k, hx, hk⟩)⟩
    · rintro ⟨h1, h2⟩ t (⟨e, he, rfl⟩ | ⟨x, k, hx, hk⟩)
      · exact h1 e he
      · exact h2 x k t hx hk
  unfold State.laterMoment
  rw [key, key]
  exact ⟨fun ⟨h1, ⟨h2, h3⟩, h4⟩ => ⟨h1, h2, h3, fun h5 h6 => h4 ⟨h5, h6⟩⟩,
    fun ⟨h1, h2, h3, h4⟩ => ⟨h1, ⟨h2, h3⟩, fun ⟨h5, h6⟩ => h4 h5 h6⟩⟩

/-- Settles O17: the two refreshes, the order, the place of a new entry, and the moment. -/
theorem refreshCountsOffer : Obligations.RefreshCountsOffer := by
  refine ⟨fun s hb hj hr hq ho => ?_, fun s ha hc hr hq ho => ?_, fun s sub k ho hord => ?_,
    fun s sub k ahead ha hord hq ho hah => ⟨offer_place ha hord hq ho hah, fun ht => ?_, ?_, ?_, ?_, ?_, ?_⟩,
    fun c s later hn hl => ⟨fun hc => ?_, fun hc => ⟨fun hcl => ⟨hn, hcl⟩, fun hcl => ?_⟩⟩⟩
  · obtain ⟨q, h1, h2⟩ := offer_new (sub := .roster) (by simp [State.acting, hb, hj]) ho hq .plain
    exact ⟨q, congrArg (fun t => Host.Outcome.next (refreshPins t)) ((rosterRefresh_of_due hj hr hq).trans h1), h2⟩
  · obtain ⟨q, h1, h2⟩ := offer_new (sub := .want) ha ho hq .plain
    exact ⟨q, congrArg (fun t => Host.Outcome.next (refreshPins t)) ((wantRefresh_of_due hc hr hq).trans h1), h2⟩
  · cases ha : s.acting with
    | true =>
      rw [offer_eq ha ho]
      exact hord.offer sub k s.now
    | false => rwa [offer_of_idle ha]
  · refine List.filter_congr fun e he => ?_
    have := ht e he
    rw [Bool.eq_iff_iff, hah, decide_eq_true_iff]
    omega
  · exact fun c d => Iff.rfl
  · exact fun i j => by simp [Subject.place]
  · exact fun m n => by simp [Subject.place]
  · exact fun p q => by simp [Subject.place]
  · intro n p
    have := n.isLt
    simp only [Subject.place]
    omega
  · obtain ⟨m, hm, hlm⟩ := newMoment_laterMoment s
    refine ⟨m, (hl m).mpr ((laterMoment_iff s m).mp hlm), ?_, ?_⟩
    · rw [← hm]
      exact exec_newMoment hc hn
    · rw [← hm]
      exact newMoment_settled hn
  · obtain ⟨m, hm, hlm⟩ := newMoment_laterMoment s
    have hcm : s.clockMoment = (s.setNow m).setClocked true := by
      rw [clockMoment_of_event hcl, hm]
      rfl
    refine ⟨m, (hl m).mpr ((laterMoment_iff s m).mp hlm), ?_, ?_⟩
    · rw [← hcm]
      exact exec_clockMoment hc hn
    · rw [← hcm]
      exact clockMoment_onClock hn

end Sys2Proof.Machine
end

section
/-! SUPPORT. The clash limit: EXCLUDED, and what Cab Control makes of it (R10, R25, R124). -/
namespace Sys2Proof.Machine

/-- A change to a cab state other than ACTIVE touches the cab state and the Composer alone (R121, R139). -/
theorem setCabState_of_ne_active {c : CabState} (hc : c ≠ .active) (s : State) :
    ∃ comp, setCabState c s = (s.setCab { s.cab with state := c }).setComp comp := by
  unfold setCabState leaveActive
  simp only [hc, if_false]
  split
  · exact ⟨_, rfl⟩
  · exact ⟨s.comp, rfl⟩

/-- Clearing the own record touches the cab record alone (R124). -/
theorem clearOwnRecord_eq (s : State) : ∃ r, clearOwnRecord s = s.setTables { s.tables with cabRecord := r } := by
  unfold clearOwnRecord
  split
  · exact ⟨none, rfl⟩
  · exact ⟨s.tables.cabRecord, rfl⟩

/-- After it the record does not name the station (R124). -/
theorem namesSelf_clearOwnRecord (s : State) : (clearOwnRecord s).namesSelf = false := by
  unfold clearOwnRecord
  split
  · rfl
  · next h => simpa using h

/-- A cab in ACTIVE or BLOCKED that is excluded takes again (R124). -/
theorem cabExcluded_taking {s : State} (ha : s.acting = true) (ho : ∀ c, s.trunk.out ≠ .control c)
    (hc : s.isCab = true) (hs : s.cab.state = .active ∨ s.cab.state = .blocked) :
    ∃ comp r, cabExcluded s = (((s.setCab { s.cab with state := .taking }).setComp comp).setTables
        { s.tables with cabRecord := r }).setQueue (queueOffer s.queue .cab .take s.now)
      ∧ (cabExcluded s).namesSelf = false := by
  have hcond : (s.isCab && (s.cab.state == .active || s.cab.state == .blocked)) = true := by
    rcases hs with hs | hs <;> simp [hc, hs]
  have he : cabExcluded s = offer .cab .take (clearOwnRecord (setCabState .taking s)) := if_pos hcond
  have hn := namesSelf_clearOwnRecord (setCabState .taking s)
  obtain ⟨comp, h1⟩ := setCabState_of_ne_active (c := .taking) (by simp) s
  rw [h1] at he hn
  obtain ⟨r, h2⟩ := clearOwnRecord_eq ((s.setCab { s.cab with state := .taking }).setComp comp)
  rw [h2] at he hn
  generalize hu : ((s.setCab { s.cab with state := .taking }).setComp comp).setTables
    { ((s.setCab { s.cab with state := .taking }).setComp comp).tables with cabRecord := r } = u at he hn
  have hq := he.trans (offer_eq (s := u) (by rw [← hu]; exact ha) (by rw [← hu]; exact fun c hcc => absurd hcc (ho c)) .take)
  refine ⟨comp, r, ?_, by rw [hq]; exact hn⟩
  rw [hq, ← hu]
  rfl

/-- Any other station that is excluded changes nothing in its cab (R124). -/
theorem cabExcluded_of_not {s : State} (h : ¬(s.isCab = true ∧ (s.cab.state = .active ∨ s.cab.state = .blocked))) :
    cabExcluded s = s := if_neg (by simpa using h)

/-- The Trunk Port of a station that enters EXCLUDED from LISTEN or JOINED (R25). -/
def Trunk.excludedBy (r : ExclReason) (t : Trunk) : Trunk :=
  { t with state := .excluded r, renumbered := false, candidate := false, contending := none, out := t.out.keepMark }

/-- A transmission that is kept over an exclusion is no control frame (R25; log 40). -/
theorem keepMark_not_control (o : TrunkOut) (c : Sending) : o.keepMark ≠ .control c := by
  cases o <;> simp [TrunkOut.keepMark]

/-- A station that enters EXCLUDED from LISTEN or JOINED (R25). -/
theorem enterExcluded_taking {s : State} (h : s.trunk.state = .listen ∨ s.trunk.state = .joined) (r : ExclReason) :
    enterExcluded r s = cabExcluded ((s.setQueue (s.trunk.out.endedQueue s.queue)).setTrunk (s.trunk.excludedBy r)) := by
  unfold enterExcluded
  rcases h with h | h <;> rw [h] <;> rfl

/-- FAULT is asserted in EXCLUDED (R22). -/
theorem fault_of_excluded {s : State} {r : ExclReason} (h : s.trunk.state = .excluded r) :
    (refreshPins s).pins.fault = true := by
  show s.faultLine = true
  simp [State.faultLine, h]

/-- Settles O13, by whether the station is a cab in ACTIVE or BLOCKED. -/
theorem clashLimitExcludes : Obligations.ClashLimitExcludes := by
  intro s hb hst hcc
  have hact : s.acting = true := by rcases hst with h | h <;> simp [State.acting, hb, h]
  have hne : s.trunk.state ≠ .excluded .clash := by rcases hst with h | h <;> simp [h]
  generalize hx : (s.setQueue (s.trunk.out.endedQueue s.queue)).setTrunk (s.trunk.excludedBy .clash) = x
  have hxt : x.trunk = s.trunk.excludedBy .clash := by rw [← hx]; rfl
  have hxb : x.tables = s.tables := by rw [← hx]; rfl
  have hxe : x.engine = s.engine := by rw [← hx]; rfl
  have hxc : x.channels = s.channels := by rw [← hx]; rfl
  have hxl : x.lens = s.lens := by rw [← hx]; rfl
  have hxst : x.store = s.store := by rw [← hx]; rfl
  have hxi : x.intake = s.intake := by rw [← hx]; rfl
  have hxm : x.confMem = s.confMem := by rw [← hx]; rfl
  have hl : clashLimit s = cabExcluded x := by
    rw [← hx, ← enterExcluded_taking hst]
    exact if_pos ⟨hact, hcc, hne⟩
  have hex : exec .clashLimit s = .next (refreshPins (cabExcluded x)) :=
    congrArg (fun t => Host.Outcome.next (refreshPins t)) hl
  have hq : s.isCab = false → (∀ c, s.trunk.out = .control c → x.queue = queueClashed s.queue c)
      ∧ ((∀ c, s.trunk.out ≠ .control c) → x.queue = s.queue) := fun _ => by
    rw [← hx]
    exact ⟨fun c hc => by simp [hc], fun hc => endedQueue_of_not_control hc _⟩
  refine ⟨_, hex, ?_⟩
  by_cases hcab : s.isCab = true ∧ (s.cab.state = .active ∨ s.cab.state = .blocked)
  · obtain ⟨hic, hcs⟩ := hcab
    obtain ⟨comp, r, he, hn⟩ := cabExcluded_taking (s := x) (by rw [← hx]; simp [State.acting, hb, Trunk.excludedBy])
      (by rw [← hx]; exact keepMark_not_control _) (by rw [← hx]; exact hic) (by rw [← hx]; exact hcs)
    have ht : (cabExcluded x).trunk = s.trunk.excludedBy .clash := by rw [he]; simp [hxt]
    refine ⟨ht, ?_, ?_, ?_, ?_, ?_, ?_, ?_, fault_of_excluded (r := .clash) (congrArg Trunk.state ht),
      fun h => by simp [hic] at h, fun _ _ => ⟨?_, ?_, hn⟩⟩ <;> rw [he]
    · simp [hxb]
    · simp [hxe]
    · simp [hxc]
    · simp [hxl]
    · simp [hxst]
    · simp [hxi]
    · simp [hxm]
    · rfl
    · exact queueHolds_offer ..
  · rw [cabExcluded_of_not (s := x) (by rw [← hx]; exact hcab)]
    refine ⟨hxt, ?_, hxe, hxc, hxl, hxst, hxi, hxm, fault_of_excluded (r := .clash) (congrArg Trunk.state hxt),
      fun h => ⟨by rw [← hx]; rfl, hq h⟩, fun h1 h2 => absurd ⟨h1, h2⟩ hcab⟩
    rw [refreshPins_tables, hxb]

end Sys2Proof.Machine
end

