-- ==== Sys2Proof/Proofs/SlotEnds.lean ====
section
/-! SUPPORT. The observation of a data slot, and the end of the own tile (R17 to R20, R43). -/
namespace Sys2Proof.Machine

/-- A station whose round has come to the end of a slot (R1, R18; logs 4, 45). -/
def State.atSlotEnd (s : State) (n : Slot) : State :=
  (s.setNow (s.now + (320 + 192 * (n.val + 1) - s.trunk.offset))).setTrunk
    { s.trunk with offset := max s.trunk.offset (320 + 192 * (n.val + 1)) }

/-- A synchronised station that has missed no MARK knows its round (R18; log 84). -/
theorem knowsRound_iff (s : State) : s.knowsRound = true ↔ s.trunk.synced = true ∧ s.trunk.overrun = false := by
  simp [State.knowsRound]

theorem knowsRound_false_iff (s : State) : s.knowsRound = false ↔ s.trunk.synced = false ∨ s.trunk.overrun = true := by
  cases hy : s.trunk.synced <;> simp [State.knowsRound, hy]

/-- In a round that the station knows, the place of an observation is the slot's end, but at a tile that is cut (R18). -/
theorem reachSlotEnd_known {s : State} (h : s.knowsRound = true) {line : SlotLine} (hl : line ≠ .cut) (n : Slot) :
    reachSlotEnd n line s = s.atSlotEnd n := by
  have hr : reach (Config.slotStart (n.val + 1)) s = s.atSlotEnd n :=
    reach_of_synced ((knowsRound_iff s).mp h).1 _
  cases line with
  | cut => exact absurd rfl hl
  | _ => simp only [reachSlotEnd, h, if_true, hr]

/-- In another round an observation moves nothing (R18; log 84). -/
theorem reachSlotEnd_unknown {s : State} (h : s.knowsRound = false) (n : Slot) (line : SlotLine) :
    reachSlotEnd n line s = s := by
  cases line <;> simp [reachSlotEnd, h]

/-- What stands on the line in a slot of a round that the station knows, where it sends no tile (R18). -/
theorem slotObservation_known {s : State} {n : Slot} (ha : s.acting = true) (hk : s.knowsRound = true)
    (ho : ∀ h b, s.trunk.out ≠ .tile n h b) {line : SlotLine} (hl : line ≠ .cut) :
    slotObservation n line s = slotHeard n line (s.atSlotEnd n) := by
  have hout : ∀ h b, (s.atSlotEnd n).trunk.out ≠ .tile n h b := ho
  unfold slotObservation
  simp only [started_of_acting ha, if_true, hk, Bool.not_true, Bool.and_false, Bool.false_eq_true, if_false,
    reachSlotEnd_known hk hl]
  split
  · next m h b hm =>
    rw [if_neg]
    rintro rfl
    exact hout h b hm
  · rfl

/-- The same of a tile that is cut (R18; log 52). -/
theorem slotObservation_known_cut {s : State} {n : Slot} (ha : s.acting = true) (hk : s.knowsRound = true)
    (ho : ∀ h b, s.trunk.out ≠ .tile n h b) : slotObservation n .cut s = tileCut n s := by
  unfold slotObservation
  simp only [started_of_acting ha, if_true, hk, Bool.not_true, Bool.and_false, Bool.false_eq_true, if_false,
    reachSlotEnd]
  split
  · next m h b hm =>
    rw [if_neg]
    · rfl
    · rintro rfl
      exact ho h b hm
  · rfl

/-- The end of a slot in which the station sent a tile, in a round that it knows (R17). -/
theorem slotObservation_own {s : State} {n : Slot} {h : TileHeader} {b : List Byte} (ha : s.acting = true)
    (hk : s.knowsRound = true) (ho : s.trunk.out = .tile n h b) {line : SlotLine} (hl : line ≠ .cut) :
    slotObservation n line s = ownSlotEnd n h b line (s.atSlotEnd n) := by
  unfold slotObservation
  simp only [started_of_acting ha, if_true, hk, Bool.not_true, Bool.and_false, Bool.false_eq_true, if_false,
    reachSlotEnd_known hk hl]
  have hout : (s.atSlotEnd n).trunk.out = .tile n h b := ho
  generalize s.atSlotEnd n = u at hout
  simp only [hout, if_true]

/-- The same of a tile that is cut (R17; log 52). -/
theorem slotObservation_own_cut {s : State} {n : Slot} {h : TileHeader} {b : List Byte} (ha : s.acting = true)
    (hk : s.knowsRound = true) (ho : s.trunk.out = .tile n h b) : slotObservation n .cut s = ownTileFails n s := by
  unfold slotObservation
  simp only [started_of_acting ha, if_true, hk, Bool.not_true, Bool.and_false, Bool.false_eq_true, if_false,
    reachSlotEnd, ho]
  rfl

/-- The Trunk Port after a signal that another command does not report (R3). -/
def Trunk.heardSignal (t : Trunk) : Trunk :=
  { t with heardSince := t.heardSince || !t.synced || decide (4928 ≤ t.offset) }

/-- A signal is recorded where the check point has passed (R3). -/
theorem hearSignal_heardSignal (s : State) : hearSignal s = s.setTrunk s.trunk.heardSignal := by
  rw [hearSignal_eq, ← Bool.or_assoc]
  rfl

/-- The Trunk Port as a slot of a round whose MARK was missed ends: what it carries counts as a signal (R3; log 84). -/
def Trunk.afterUnknown (line : SlotLine) (t : Trunk) : Trunk := if lineSignal line then t.heardSignal else t

/-- The state of a slot's end in a round that the station does not know: a signal is recorded, and nothing moves
(R3, R18; log 84). -/
theorem signal_unknown {s : State} (n : Slot) (hk : s.knowsRound = false) (line : SlotLine) :
    reachSlotEnd n line (if lineSignal line && !s.knowsRound then hearSignal s else s) =
      s.setTrunk (s.trunk.afterUnknown line) := by
  have hs : (if lineSignal line && !s.knowsRound then hearSignal s else s) = s.setTrunk (s.trunk.afterUnknown line) := by
    unfold Trunk.afterUnknown
    rw [hk, Bool.not_false, Bool.and_true]
    split
    · exact hearSignal_heardSignal s
    · rfl
  have hk' : (s.setTrunk (s.trunk.afterUnknown line)).knowsRound = false := by
    unfold Trunk.afterUnknown
    split <;> exact hk
  rw [hs, reachSlotEnd_unknown hk']

/-- A signal is no transmission (R3). -/
theorem Trunk.afterUnknown_out (line : SlotLine) (t : Trunk) : (t.afterUnknown line).out = t.out := by
  unfold Trunk.afterUnknown
  split <;> rfl

/-- What stands in a slot of a round that the station does not know, where it sends no tile (R18; log 84). -/
theorem slotObservation_unknown {s : State} {n : Slot} (ha : s.acting = true) (hk : s.knowsRound = false)
    (ho : ∀ h b, s.trunk.out ≠ .tile n h b) (line : SlotLine) :
    slotObservation n line s = slotHeard n line (s.setTrunk (s.trunk.afterUnknown line)) := by
  unfold slotObservation
  simp only [started_of_acting ha, if_true, signal_unknown n hk, State.setTrunk_trunk, Trunk.afterUnknown_out]
  split
  · next m h b hm =>
    rw [if_neg]
    rintro rfl
    exact ho h b hm
  · rfl

/-- The end of a slot of such a round in which the station sent a tile (R17; log 84). -/
theorem slotObservation_own_unknown {s : State} {n : Slot} {h : TileHeader} {b : List Byte} (ha : s.acting = true)
    (hk : s.knowsRound = false) (ho : s.trunk.out = .tile n h b) (line : SlotLine) :
    slotObservation n line s = ownSlotEnd n h b line (s.setTrunk (s.trunk.afterUnknown line)) := by
  unfold slotObservation
  simp only [started_of_acting ha, if_true, signal_unknown n hk, State.setTrunk_trunk, Trunk.afterUnknown_out, ho]

/-! ### What a tile does to the copy -/

/-- A tile that is not intact is counted, and its slot is GARBLED (R18, R19). -/
theorem tileHeard_damaged {s : State} {rx : TileRx} {n : Slot} (ha : s.acting = true) (hk : s.knowsRound = true)
    (hr : readTile rx = none) : tileHeard n rx s =
      observe n garbledEntry (s.setTrunk { s.trunk with tileErrors := s.trunk.tileErrors + 1#16 }) := by
  unfold tileHeard
  simp only [ha, hk, hr, Bool.and_self, if_true]
  rfl

/-- An intact tile is taken in a round that the station knows (R18). -/
theorem tileHeard_intact {s : State} {rx : TileRx} {n : Slot} {h : TileHeader} {payload : List Byte}
    (ha : s.acting = true) (hk : s.knowsRound = true) (hr : readTile rx = some (h, payload)) :
    tileHeard n rx s = takeTile false n h payload s := by
  unfold tileHeard
  simp only [ha, hk, hr, Bool.and_self, if_true]

/-- In another round an intact tile does nothing (R18; log 84). -/
theorem tileHeard_intact_unknown {s : State} {rx : TileRx} (n : Slot) (hk : s.knowsRound = false)
    (hr : readTile rx ≠ none) : tileHeard n rx s = s := by
  obtain ⟨⟨h, payload⟩, hr⟩ := Option.ne_none_iff_exists'.mp hr
  unfold tileHeard
  simp only [hk, hr, Bool.and_false, Bool.false_eq_true, if_false]

/-- One that is not intact is counted there too (R19). -/
theorem tileHeard_damaged_unknown {s : State} {rx : TileRx} (n : Slot) (hk : s.knowsRound = false)
    (hr : readTile rx = none) : tileHeard n rx s =
      s.setTrunk { s.trunk with tileErrors := s.trunk.tileErrors + 1#16 } := by
  unfold tileHeard
  simp only [hk, hr, Bool.and_false, Bool.false_eq_true, if_false]
  rfl

/-- A tile with the header of another slot leaves its slot GARBLED (R178; log 39). -/
theorem takeTile_other {n : Slot} {h : TileHeader} (own : Bool) (payload : List Byte) (s : State)
    (hn : h.slot ≠ byte n.val) : takeTile own n h payload s = observe n garbledEntry s := if_neg hn

/-- A tile of its slot is observed, beside what the Composer makes of its payload (R20, R43). -/
theorem takeTile_beside {n : Slot} {h : TileHeader} (own : Bool) (payload : List Byte) (s : State)
    (hn : h.slot = byte n.val) : (takeTile own n h payload s).beside = (observeHeader own n h s).beside := by
  unfold takeTile
  rw [if_pos hn]
  exact (composerTile_keeps _ h payload (Keeps.refl _)).same

/-- The header of an item observed in its slot, beside the blocks that read the tables (R43). -/
theorem observe_header_beside {r s : State} {t : Tables} (n : Slot) (h : TileHeader) (hs : s.beside = (r.setTables t).beside) :
    (observe n (headerEntry h.streamId) s).beside = (r.setTables { t with
      slots := t.slots.set n
        { owner := some { addr := h.addr, num := h.stream, input := h.input, cls := h.cls }, silent := 0 } }).beside := by
  unfold observe
  rw [changeTables_beside_again hs, tables_of_beside hs]
  rfl

/-! ### The own tile -/

/-- What a tile with a failed read-back leaves (R17). -/
theorem ownTileFails_beside (n : Slot) (s : State) : (ownTileFails n s).beside =
    ((s.setTrunk { s.trunk with tileErrors := s.trunk.tileErrors + 1#16, out := .idle }).setTables { s.tables with
      slots := s.tables.slots.set n { s.tables.slots[n] with silent := 0 } }).beside := observe_beside n garbledEntry _

/-- A read-back that is not the sent tile, without a tile of a lower address, fails (R17). -/
theorem ownSlotEnd_fails {s : State} {n : Slot} {h : TileHeader} {b : List Byte} {line : SlotLine}
    (hl : ∀ rx, line = .tile rx → s.addr.val ≤ rx.addr.val ∧ (rx.addr = s.addr → rx.bytes ≠ b)) :
    ownSlotEnd n h b line s = ownTileFails n s := by
  cases line with
  | tile rx =>
    obtain ⟨hle, hne⟩ := hl rx rfl
    unfold ownSlotEnd
    simp only
    rw [if_neg (by omega), if_neg fun hc => hne hc.1 hc.2]
  | _ => rfl

/-- A tile of a lower address stands in place of the own (R17). -/
theorem ownSlotEnd_lower {s : State} {n : Slot} {h : TileHeader} {b : List Byte} {rx : TileRx}
    (hl : rx.addr.val < s.addr.val) :
    ownSlotEnd n h b (.tile rx) s = tileHeard n rx (s.setTrunk { s.trunk with out := .idle }) := if_pos hl

/-- A read-back that is the sent tile (R17). -/
theorem ownSlotEnd_same {s : State} (n : Slot) (h : TileHeader) (b : List Byte) :
    ownSlotEnd n h b (.tile { addr := s.addr, bytes := b }) s = ownTileSent n h (tilePayload b) s := by
  unfold ownSlotEnd
  simp only [lt_irrefl, if_false, and_self, if_true]

/-! ### The observation as a command -/

/-- An observation of a slot, as a command on the clock (R18). -/
theorem exec_slotObservation {s : State} (hs : OnClock s) (n : Slot) (line : SlotLine) :
    exec (.slotObservation n line) s = .next (refreshPins (slotObservation n line s)) :=
  exec_actClock hs rfl

/-- A slot's end is no reason to do anything about an item: the round's place alone has moved. -/
theorem atSlotEnd_admits {s : State} {n : Slot} {a : Addr} {tag : Word} (h : s.admits a tag) :
    (s.atSlotEnd n).admits a tag := by
  obtain ⟨ha, hb, hk⟩ := h
  exact ⟨ha, (heldBack_setTrunk _ _ rfl a tag).trans hb, hk⟩

/-- What stands in a slot of a round that the station knows, one kind of line at a time (R18, R43). -/
theorem slotHeard_known {s : State} (n : Slot) (ha : s.acting = true) (hk : s.knowsRound = true) :
    slotHeard n .silent s = observe n silentEntry s ∧ slotHeard n .signal s = observe n garbledEntry s
      ∧ tileCut n s =
          observe n garbledEntry (s.setTrunk { s.trunk with tileErrors := s.trunk.tileErrors + 1#16 }) := by
  refine ⟨?_, ?_, ?_⟩
  · exact if_pos (by rw [ha, hk]; rfl)
  · exact if_pos (by rw [ha, hk]; rfl)
  · exact if_pos (by rw [ha, hk]; rfl)

/-- The same in a round that it does not know (R18, R19; log 84). -/
theorem slotHeard_unknown {s : State} (n : Slot) (hk : s.knowsRound = false) :
    slotHeard n .silent s = s ∧ slotHeard n .signal s = s
      ∧ tileCut n s = s.setTrunk { s.trunk with tileErrors := s.trunk.tileErrors + 1#16 } := by
  refine ⟨?_, ?_, ?_⟩
  · exact if_neg (by simp [hk])
  · exact if_neg (by simp [hk])
  · exact if_neg (by simp [hk])

/-- The header of an admitted tile in its slot, beside the blocks that read the tables (R29, R43). -/
theorem takeTile_admitted_beside {s : State} {n : Slot} {h : TileHeader} (payload : List Byte)
    (hn : h.slot = byte n.val) (hd : s.admits h.addr h.tag) : (takeTile false n h payload s).beside =
      (s.setTables { s.heardTables h.addr h.tag with
        slots := (s.heardTables h.addr h.tag).slots.set n
          { owner := some { addr := h.addr, num := h.stream, input := h.input, cls := h.cls }, silent := 0 } }).beside := by
  rw [takeTile_beside false payload s hn, observeHeader, takeItem_admitted hd]
  exact observe_header_beside n h (presence_beside s h.addr h.tag)

/-- A tile that the identity filters hold back leaves its tag (R35 to R37). -/
theorem takeTile_held_beside {s : State} {n : Slot} {h : TileHeader} (payload : List Byte) (ha : s.acting = true)
    (hn : h.slot = byte n.val) (hb : s.heldBack h.addr h.tag = true) (hk : h.tag = s.cfg.tag
      ∨ lowerTags s.cfg.tag (takeTag h.tag s.tables.foreign) = lowerTags s.cfg.tag s.tables.foreign) :
    (takeTile false n h payload s).beside = (s.tagged h.tag).beside := by
  rw [takeTile_beside false payload s hn, observeHeader, takeItem_quiet ha hk, if_pos hb]

/-- A tile that the station sent itself, beside the blocks that read the tables (R29, R43). -/
theorem takeTile_own_beside {s : State} {n : Slot} {h : TileHeader} (payload : List Byte) (ha : s.acting = true)
    (h1 : h.addr = s.addr) (h2 : h.tag = s.cfg.tag) (hn : h.slot = byte n.val) : (takeTile true n h payload s).beside =
      (s.setTables { s.tables with
        slots := s.tables.slots.set n
          { owner := some { addr := h.addr, num := h.stream, input := h.input, cls := h.cls }, silent := 0 } }).beside := by
  rw [takeTile_beside true payload s hn, observeHeader, takeItem_own ha h1 h2]
  exact observe_header_beside n h (changeTables_beside _ s)

/-- A silence counts up to 8 in a slot that has an owner (R43, R44). -/
theorem silentEntry_eq (e : SlotEntry) : silentEntry e =
    { e with silent := if e.owner = none then e.silent else min 8 (e.silent + 1) } := by
  obtain ⟨owner, silent⟩ := e
  cases owner <;> rfl

/-- The own tile with its read-back: it is counted, and observed as its own station's (R17, R43). -/
theorem ownTileSent_beside {s : State} {n : Slot} {h : TileHeader} (payload : List Byte) (ha : s.acting = true)
    (h1 : h.addr = s.addr) (h2 : h.tag = s.cfg.tag) (hn : h.slot = byte n.val) : (ownTileSent n h payload s).beside =
      ((s.setTrunk { s.trunk with out := .idle, tilesSent := s.trunk.tilesSent + 1#16 }).setTables { s.tables with
        slots := s.tables.slots.set n
          { owner := some { addr := h.addr, num := h.stream, input := h.input, cls := h.cls }, silent := 0 } }).beside := by
  unfold ownTileSent bump
  generalize hx : ({ s.trunk with out := .idle, tilesSent := s.trunk.tilesSent + 1#16 } : Trunk) = x
  have hu : (s.setTrunk x).addr = s.addr := addr_congr rfl (by rw [← hx]; rfl)
  have hst : x.state = s.trunk.state := by rw [← hx]
  have hxa : (s.setTrunk x).acting = true := by
    rw [← ha]
    simp [State.acting, hst]
  exact takeTile_own_beside payload hxa (h1.trans hu.symm) h2 hn

/-- What stands on the line in a slot that the station does not fill, in a round that it knows (R18, R43). -/
theorem slotObservation_beside {s late : State} {n : Slot} (hs : OnClock s) (ha : s.acting = true)
    (hlate : late = s.atSlotEnd n) (hk : s.knowsRound = true) (ho : ∀ h b, s.trunk.out ≠ .tile n h b) :
    (∃ t, exec (.slotObservation n .silent) s = .next t
      ∧ t.beside = (late.setTables { s.tables with slots := s.tables.slots.set n { s.tables.slots[n] with
          silent := if s.tables.slots[n].owner = none then s.tables.slots[n].silent
            else min 8 (s.tables.slots[n].silent + 1) } }).beside)
    ∧ (∃ t, exec (.slotObservation n .signal) s = .next t
      ∧ t.beside = (late.setTables { s.tables with
          slots := s.tables.slots.set n { s.tables.slots[n] with silent := 0 } }).beside) := by
  subst hlate
  have hka : (s.atSlotEnd n).knowsRound = true := hk
  obtain ⟨hsil, hsig, -⟩ := slotHeard_known n (s := s.atSlotEnd n) ha hka
  refine ⟨⟨_, exec_slotObservation hs n _, ?_⟩, ⟨_, exec_slotObservation hs n _, ?_⟩⟩
  · rw [beside_refreshPins, slotObservation_known ha hk ho (by simp), hsil, observe_beside]
    rw [← silentEntry_eq]
    rfl
  · rw [beside_refreshPins, slotObservation_known ha hk ho (by simp), hsig, observe_beside]
    rfl

/-- A tile in such a slot: one that is not intact, one of another slot, one that is admitted and one that is held back
(R18, R35, R43). -/
theorem slotObservation_tile_beside {s late : State} {n : Slot} (hs : OnClock s) (ha : s.acting = true)
    (hlate : late = s.atSlotEnd n) (hk : s.knowsRound = true) (ho : ∀ h b, s.trunk.out ≠ .tile n h b) :
    (∀ rx, readTile rx = none → ∃ t, exec (.slotObservation n (.tile rx)) s = .next t
      ∧ t.beside = ((late.setTrunk { late.trunk with tileErrors := s.trunk.tileErrors + 1#16 }).setTables
          { s.tables with slots := s.tables.slots.set n { s.tables.slots[n] with silent := 0 } }).beside)
    ∧ ∀ rx h payload, readTile rx = some (h, payload) → ∃ t, exec (.slotObservation n (.tile rx)) s = .next t
      ∧ t.beside = (takeTile false n h payload late).beside := by
  subst hlate
  have hka : (s.atSlotEnd n).knowsRound = true := hk
  have key : ∀ rx, slotObservation n (.tile rx) s = tileHeard n rx (s.atSlotEnd n) := fun rx =>
    slotObservation_known ha hk ho (by simp)
  refine ⟨fun rx hr => ⟨_, exec_slotObservation hs n _, ?_⟩, fun rx h payload hr =>
    ⟨_, exec_slotObservation hs n _, ?_⟩⟩
  · rw [beside_refreshPins, key, tileHeard_damaged (s := s.atSlotEnd n) ha hka hr, observe_beside]
    rfl
  · rw [beside_refreshPins, key, tileHeard_intact (s := s.atSlotEnd n) ha hka hr]

/-- The end of the own tile: sent, or failed, or cut (R17). -/
theorem slotObservation_own_beside {s late : State} {n : Slot} {h : TileHeader} {b : List Byte} (hs : OnClock s)
    (ha : s.acting = true) (hk : s.knowsRound = true) (ho : s.trunk.out = .tile n h b)
    (hlate : late = (s.atSlotEnd n).setTrunk { (s.atSlotEnd n).trunk with out := .idle }) :
    (h.addr = s.addr → h.tag = s.cfg.tag → h.slot = byte n.val →
        ∃ t, exec (.slotObservation n (.tile { addr := s.addr, bytes := b })) s = .next t
          ∧ t.beside = ((late.setTrunk { late.trunk with tilesSent := s.trunk.tilesSent + 1#16 }).setTables
              { s.tables with slots := (s.tables.slots.set n
                  { owner := some { addr := h.addr, num := h.stream, input := h.input, cls := h.cls },
                    silent := 0 }) }).beside)
      ∧ (∀ line, line ≠ .cut → (∀ rx, line = .tile rx → s.addr.val ≤ rx.addr.val ∧ (rx.addr = s.addr → rx.bytes ≠ b)) →
        ∃ t, exec (.slotObservation n line) s = .next t
          ∧ t.beside = ((late.setTrunk { late.trunk with tileErrors := s.trunk.tileErrors + 1#16 }).setTables
              { s.tables with slots := s.tables.slots.set n { s.tables.slots[n] with silent := 0 } }).beside)
      ∧ (∃ t, exec (.slotObservation n .cut) s = .next t
          ∧ t.beside = ((s.setTrunk { s.trunk with out := .idle, tileErrors := s.trunk.tileErrors + 1#16 }).setTables
              { s.tables with slots := s.tables.slots.set n { s.tables.slots[n] with silent := 0 } }).beside) := by
  subst hlate
  have haddr : (s.atSlotEnd n).addr = s.addr := addr_congr rfl rfl
  refine ⟨fun h1 h2 h3 => ⟨_, exec_slotObservation hs n _, ?_⟩, fun line hl hne =>
    ⟨_, exec_slotObservation hs n _, ?_⟩, ⟨_, exec_slotObservation hs n _, ?_⟩⟩
  · rw [beside_refreshPins, slotObservation_own ha hk ho (by simp), ← haddr, ownSlotEnd_same,
      ownTileSent_beside (s := s.atSlotEnd n) _ ha (h1.trans haddr.symm) h2 h3]
    rfl
  · rw [beside_refreshPins, slotObservation_own ha hk ho hl, ownSlotEnd_fails (by rw [haddr]; exact hne),
      ownTileFails_beside]
    rfl
  · rw [beside_refreshPins, slotObservation_own_cut ha hk ho, ownTileFails_beside]

/-- In a round that the station does not know a slot moves nothing but the record of a signal and the error count
(R3, R18, R19; log 84). -/
theorem slotObservation_unknown_exec {s : State} {n : Slot} (hs : OnClock s) (ha : s.acting = true)
    (hk : s.knowsRound = false) (ho : ∀ h b, s.trunk.out ≠ .tile n h b) :
    exec (.slotObservation n .silent) s = .next (refreshPins s)
      ∧ exec (.slotObservation n .signal) s = .next (refreshPins (s.setTrunk s.trunk.heardSignal))
      ∧ (∀ rx, readTile rx ≠ none →
          exec (.slotObservation n (.tile rx)) s = .next (refreshPins (s.setTrunk s.trunk.heardSignal)))
      ∧ ∀ line, line = .cut ∨ (∃ rx, line = .tile rx ∧ readTile rx = none) →
          exec (.slotObservation n line) s = .next (refreshPins (s.setTrunk
            { s.trunk.heardSignal with tileErrors := s.trunk.tileErrors + 1#16 })) := by
  have hk' : (s.setTrunk s.trunk.heardSignal).knowsRound = false := hk
  have key : ∀ line, exec (.slotObservation n line) s =
      .next (refreshPins (slotHeard n line (s.setTrunk (s.trunk.afterUnknown line)))) := fun line => by
    rw [exec_slotObservation hs, slotObservation_unknown ha hk ho]
  refine ⟨(key _).trans ?_, (key _).trans ?_, fun rx hr => (key _).trans ?_, ?_⟩
  · exact congrArg (fun u => Host.Outcome.next (refreshPins u)) (slotHeard_unknown (s := s.setTrunk s.trunk) n hk).1
  · exact congrArg (fun u => Host.Outcome.next (refreshPins u)) (slotHeard_unknown n hk').2.1
  · exact congrArg (fun u => Host.Outcome.next (refreshPins u)) (tileHeard_intact_unknown n hk' hr)
  · rintro line (rfl | ⟨rx, rfl, hr⟩)
    · exact (key _).trans (congrArg (fun u => Host.Outcome.next (refreshPins u)) (slotHeard_unknown n hk').2.2)
    · exact (key _).trans (congrArg (fun u => Host.Outcome.next (refreshPins u)) (tileHeard_damaged_unknown n hk' hr))

/-- A tile of a lower address is taken as if the station had sent none (R17). -/
theorem slotObservation_lower {s : State} {n : Slot} {h : TileHeader} {b : List Byte} {rx : TileRx} (ha : s.acting = true)
    (ho : s.trunk.out = .tile n h b) (hl : rx.addr.val < s.addr.val) : slotObservation n (.tile rx) s =
      slotObservation n (.tile rx) (s.setTrunk { s.trunk with out := .idle }) := by
  have hid : ∀ h b, (s.setTrunk { s.trunk with out := .idle }).trunk.out ≠ .tile n h b := by simp
  cases hk : s.knowsRound with
  | true =>
    have haddr : (s.atSlotEnd n).addr = s.addr := addr_congr rfl rfl
    rw [slotObservation_own ha hk ho (by simp), ownSlotEnd_lower (by rw [haddr]; exact hl),
      slotObservation_known (s := s.setTrunk { s.trunk with out := .idle }) ha hk hid (by simp)]
    rfl
  | false =>
    have haddr : (s.setTrunk (s.trunk.afterUnknown (.tile rx))).addr = s.addr := addr_congr rfl rfl
    rw [slotObservation_own_unknown ha hk ho, ownSlotEnd_lower (by rw [haddr]; exact hl),
      slotObservation_unknown (s := s.setTrunk { s.trunk with out := .idle }) ha hk hid]
    rfl

/-- Settles O26, by whether the station knows the round and whether it sent the tile of the slot. -/
theorem slotObserved : Obligations.SlotObserved := by
  refine ⟨fun s late n hs ha hlate => ⟨fun ho hy hv => ?_, fun heard ho hu hh => ?_, fun ho hy hv => ?_,
    fun h b rx ho hy hl => ?_⟩, fun s late n h b hs ha hy hv ho hlate => ?_⟩
  · have hk : s.knowsRound = true := (knowsRound_iff s).mpr ⟨hy, hv⟩
    have hlate : late = s.atSlotEnd n := hlate
    obtain ⟨hsil, hsig⟩ := slotObservation_beside hs ha hlate hk ho
    obtain ⟨hdam, hint⟩ := slotObservation_tile_beside hs ha hlate hk ho
    refine ⟨hsil, hsig, hdam, fun rx h payload hr hn hd => ?_, fun rx h payload hr hn => ?_,
      fun rx h payload hr hn hb hq => ?_⟩
    all_goals
      obtain ⟨t, ht, htb⟩ := hint rx h payload hr
      refine ⟨t, ht, htb.trans ?_⟩
      subst hlate
    · have hq : (s.atSlotEnd n).heardTables h.addr h.tag = s.heardTables h.addr h.tag := heardTables_setTrunk _ _ rfl _ _
      rw [takeTile_admitted_beside payload hn (atSlotEnd_admits hd), hq]
    · rw [takeTile_other false payload _ hn, observe_beside]
      rfl
    · exact takeTile_held_beside payload ha hn ((heldBack_setTrunk _ _ rfl _ _).trans hb) hq
  · subst hh
    exact slotObservation_unknown_exec hs ha ((knowsRound_false_iff s).mpr hu) ho
  · have hk : s.knowsRound = true := (knowsRound_iff s).mpr ⟨hy, hv⟩
    refine ⟨_, exec_slotObservation hs n _, ?_⟩
    rw [beside_refreshPins, slotObservation_known_cut ha hk ho, (slotHeard_known n ha hk).2.2, observe_beside]
    rfl
  · have hs' : OnClock (s.setTrunk { s.trunk with out := .idle }) := hs
    rw [exec_slotObservation hs, exec_slotObservation hs', slotObservation_lower ha ho hl]
  · exact slotObservation_own_beside hs ha ((knowsRound_iff s).mpr ⟨hy, hv⟩) ho hlate

end Sys2Proof.Machine
end

