-- ==== Sys2Proof/Proofs/BlockSteps.lean ====
section
/-! SUPPORT. What the Screen Composer and the Stream Engine do in a station that sends no control frame: a step of one block
changes its own part and the queue's entries for its own subjects, and nothing else. -/
namespace Sys2Proof.Machine

/-- No control frame of the station is on the line, and so no offer waits beside it (log 12). -/
def State.lineFree (s : State) : Prop := ∀ c, s.trunk.out ≠ .control c

/-- An offer is then one to the queue (R13). -/
theorem offer_of_lineFree {s : State} (ho : s.lineFree) (sub : Subject) (k : SendKind) :
    offer sub k s = s.setQueue (if s.acting then queueOffer s.queue sub k s.now else s.queue) := by
  cases ha : s.acting with
  | true => exact offer_eq ha (fun c hc => absurd hc (ho c)) k
  | false => exact offer_of_idle ha sub k

/-- A withdrawal is then one from the queue (R14). -/
theorem withdraw_of_lineFree {s : State} (ho : s.lineFree) (sub : Subject) :
    withdraw sub s = s.setQueue (queueRemove s.queue sub) := by
  unfold withdraw
  split
  · next c hc => exact absurd hc (ho c)
  · rfl

/-- An offer leaves the other subjects' entries (R13). -/
theorem queueHolds_offered {s : State} {sub x : Subject} (k : SendKind) (h : x ≠ sub) :
    queueHolds (if s.acting then queueOffer s.queue sub k s.now else s.queue) x = queueHolds s.queue x := by
  split
  · exact queueHolds_offer_other _ _ _ _ _ h
  · rfl

/-! ### The Screen Composer -/

/-- From r to s only the Composer changes, and the queue's entry for the WANT; if no control frame is on the line. -/
def ComposerStep (r s : State) : Prop := r.lineFree → ∃ c q, s = (r.setComp c).setQueue q
  ∧ ∀ sub, sub ≠ .want → queueHolds q sub = queueHolds r.queue sub

theorem ComposerStep.refl (s : State) : ComposerStep s s := fun _ => ⟨s.comp, s.queue, rfl, fun _ _ => rfl⟩

theorem ComposerStep.trans {r s t : State} (h : ComposerStep r s) (h' : ComposerStep s t) : ComposerStep r t := by
  intro ho
  obtain ⟨c, q, rfl, hq⟩ := h ho
  obtain ⟨c', q', rfl, hq'⟩ := h' ho
  exact ⟨c', q', rfl, fun sub hs => (hq' sub hs).trans (hq sub hs)⟩

theorem ComposerStep.foldl {α : Type} {r s : State} (f : State → α → State) (l : List α)
    (hf : ∀ t x, ComposerStep r t → ComposerStep r (f t x)) (h : ComposerStep r s) : ComposerStep r (l.foldl f s) := by
  induction l generalizing s with
  | nil => exact h
  | cons x xs ih => exact ih (hf s x h)

section
variable {r s : State} (h : ComposerStep r s)
include h

theorem setComp_composer (c : Composer) : ComposerStep r (s.setComp c) :=
  h.trans fun _ => ⟨c, s.queue, rfl, fun _ _ => rfl⟩

theorem offerWant_composer (k : SendKind) : ComposerStep r (offer .want k s) :=
  h.trans fun ho => ⟨s.comp, _, offer_of_lineFree ho _ k, fun _ hs => queueHolds_offered k hs⟩

theorem setScreen_composer (side : Side) (x : Screen) : ComposerStep r (s.setScreen side x) := setComp_composer h _

theorem judgePanes_composer : ComposerStep r (judgePanes s) := setComp_composer h _

theorem settlePanes_composer : ComposerStep r (settlePanes s) := by
  unfold settlePanes
  dsimp only
  split
  · split
    · exact setComp_composer h _
    · exact offerWant_composer (setComp_composer h _) _
  · exact h

theorem layoutSwitch_composer (side : Side) (lay : ShownLayout) : ComposerStep r (layoutSwitch side lay s) :=
  settlePanes_composer (judgePanes_composer (setComp_composer h _))

theorem showLayout_composer (side : Side) (lay : ShownLayout) : ComposerStep r (showLayout side lay s) := by
  unfold showLayout
  split
  · exact h
  · exact layoutSwitch_composer h side lay

theorem reresolve_composer : ComposerStep r (reresolve s) := by
  unfold reresolve
  split
  · exact setComp_composer h _
  · exact h

theorem showKind_composer (side : Side) (k : ViewKind) : ComposerStep r (showKind side k s) :=
  showLayout_composer (setScreen_composer h side _) side _

theorem raise_composer (side : Side) (k : ViewKind) : ComposerStep r (raise side k s) := by
  have hs : ∀ x, ComposerStep r (s.setScreen side x) := setScreen_composer h side
  unfold raise
  dsimp only
  split
  · exact h
  · split
    · split
      · exact showKind_composer (hs _) side k
      · exact hs _
    · split
      · split
        · exact showKind_composer (hs _) side k
        · exact hs _
      · exact hs _

theorem lingerEnd_composer (side : Side) : ComposerStep r (lingerEnd side s) := by
  unfold lingerEnd
  split
  · exact showKind_composer h side _
  · exact setScreen_composer h side _

theorem clear_composer (side : Side) (k : ViewKind) : ComposerStep r (clear side k s) := by
  have hs : ∀ x, ComposerStep r (s.setScreen side x) := setScreen_composer h side
  unfold clear
  dsimp only
  split
  · split
    · split
      · exact lingerEnd_composer (hs _) side
      · exact hs _
    · exact hs _
  · exact h

theorem followSpotDoor_composer (side : Side) : ComposerStep r (followSpotDoor side s) := by
  unfold followSpotDoor
  split
  · exact setScreen_composer h side _
  · exact h

theorem judgeSide_composer (side : Side) : ComposerStep r (judgeSide side s) := by
  unfold judgeSide
  refine ComposerStep.foldl _ _ (fun t k ht => ?_)
    (ComposerStep.foldl _ _ (fun t k ht => ?_) (followSpotDoor_composer h side))
  · split
    · exact ht
    · exact clear_composer ht side k
  · split
    · exact raise_composer ht side k
    · exact ht

theorem judgeViews_composer : ComposerStep r (judgeViews s) :=
  judgeSide_composer (judgeSide_composer h .left) .right

theorem settleViews_composer : ComposerStep r (settleViews s) := by
  unfold settleViews
  split
  · exact settlePanes_composer (judgePanes_composer (reresolve_composer (judgeViews_composer h)))
  · exact h

theorem enterScreen_composer (side : Side) : ComposerStep r (enterScreen side s) := by
  have hs : ∀ x, ComposerStep r (s.setScreen side x) := setScreen_composer h side
  unfold enterScreen
  dsimp only
  split
  · exact showLayout_composer (hs _) side _
  · exact hs _

theorem enterActive_composer : ComposerStep r (enterActive s) :=
  settlePanes_composer (enterScreen_composer (enterScreen_composer (setComp_composer h _) .left) .right)

theorem leaveActive_composer : ComposerStep r (leaveActive s) := setComp_composer h _

theorem settleWarnings_composer : ComposerStep r (settleWarnings s) := setComp_composer h _

theorem composerTables_composer (old : Tables) : ComposerStep r (composerTables old s) := by
  unfold composerTables
  dsimp only
  split
  · split
    · exact settleViews_composer (setComp_composer (settleWarnings_composer h) _)
    · exact settleWarnings_composer h
  · exact h

end

/-- A cab that is not ACTIVE takes a change of the tables into its warning list alone (R93, R133). -/
theorem composerTables_inactive {s : State} (h : s.cab.state ≠ .active) (old : Tables) :
    composerTables old s = if s.isCab then settleWarnings s else s := by
  have hi : (settleWarnings s).isActive = false := by
    show (s.cab.state == .active) = false
    simpa using h
  unfold composerTables
  dsimp only
  split
  · rw [if_neg (by simp [hi])]
  · rfl

/-! ### The Stream Engine -/

/-- The subjects that the Stream Engine offers and withdraws (R49, R57). -/
def Subject.ofEngine : Subject → Bool
  | .stream _ => true
  | .deny _ => true
  | _ => false

/-- From r to s only the Stream Engine changes, and the queue's entries for streams and DENYs; if no control frame is on
the line. -/
def EngineStep (r s : State) : Prop := r.lineFree → ∃ e q, s = (r.setEngine e).setQueue q
  ∧ ∀ sub : Subject, sub.ofEngine = false → queueHolds q sub = queueHolds r.queue sub

/-- Queue operations for streams and DENYs. -/
def EngineOps (ops : List QueueOp) : Prop := ∀ o ∈ ops, o.subject.ofEngine = true

theorem EngineStep.refl (s : State) : EngineStep s s := fun _ => ⟨s.engine, s.queue, rfl, fun _ _ => rfl⟩

theorem EngineStep.trans {r s t : State} (h : EngineStep r s) (h' : EngineStep s t) : EngineStep r t := by
  intro ho
  obtain ⟨e, q, rfl, hq⟩ := h ho
  obtain ⟨e', q', rfl, hq'⟩ := h' ho
  exact ⟨e', q', rfl, fun sub hs => (hq' sub hs).trans (hq sub hs)⟩

theorem EngineStep.foldl {α : Type} {r s : State} (f : State → α → State) (l : List α)
    (hf : ∀ t x, EngineStep r t → EngineStep r (f t x)) (h : EngineStep r s) : EngineStep r (l.foldl f s) := by
  induction l generalizing s with
  | nil => exact h
  | cons x xs ih => exact ih (hf s x h)

/-- A subject of the engine is none of the others. -/
theorem ne_of_ofEngine {sub x : Subject} (hs : sub.ofEngine = true) (hx : x.ofEngine = false) : x ≠ sub := by
  rintro rfl
  rw [hs] at hx
  exact absurd hx (by simp)

section
variable {r s : State} (h : EngineStep r s)
include h

theorem setEngine_engine (e : StreamEngine) : EngineStep r (s.setEngine e) :=
  h.trans fun _ => ⟨e, s.queue, rfl, fun _ _ => rfl⟩

theorem setStream_engine (n : StreamNo) (x : Option Stream) : EngineStep r (s.setStream n x) := setEngine_engine h _

theorem offer_engine {sub : Subject} (hs : sub.ofEngine = true) (k : SendKind) : EngineStep r (offer sub k s) :=
  h.trans fun ho => ⟨s.engine, _, offer_of_lineFree ho _ k, fun _ hx => queueHolds_offered k (ne_of_ofEngine hs hx)⟩

theorem withdraw_engine {sub : Subject} (hs : sub.ofEngine = true) : EngineStep r (withdraw sub s) :=
  h.trans fun ho => ⟨s.engine, _, withdraw_of_lineFree ho _,
    fun _ hx => queueHolds_remove_other _ _ _ (ne_of_ofEngine hs hx)⟩

theorem applyQueueOps_engine {ops : List QueueOp} (hops : EngineOps ops) : EngineStep r (applyQueueOps ops s) := by
  unfold applyQueueOps
  induction ops generalizing s with
  | nil => exact h
  | cons o os ih =>
    have h1 : o.subject.ofEngine = true := hops o (by simp)
    refine ih ?_ (fun x hx => hops x (by simp [hx]))
    cases o with
    | offer sub k => exact offer_engine h h1 k
    | withdraw sub => exact withdraw_engine h h1

end

theorem EngineOps.append {a b : List QueueOp} (ha : EngineOps a) (hb : EngineOps b) : EngineOps (a ++ b) := by
  intro o ho
  rcases List.mem_append.mp ho with h | h
  · exact ha o h
  · exact hb o h

/-- One more operation for a stream. -/
theorem EngineOps.snoc {a : List QueueOp} (ha : EngineOps a) {o : QueueOp} (ho : o.subject.ofEngine = true) :
    EngineOps (a ++ [o]) := by
  refine ha.append fun x hx => ?_
  rw [List.mem_singleton.mp hx]
  exact ho

theorem denyOps_engine (applied : Option WantPos) (old new : Vector (List Refused) 4) :
    EngineOps (denyOps applied old new) := by
  intro o ho
  obtain ⟨p, _, rfl⟩ := List.mem_map.mp ho
  rfl

/-! ### The edits of an evaluation (R49 to R53, R56, R57) -/

/-- What an evaluation does to its table, its refusals and its operations, one edit at a time. -/
inductive EvalEdit : Eval → Eval → Prop
  /-- An entry is refused (R51). -/
  | refuse (v : Eval) (r : Vector (List Refused) 4) : EvalEdit v { v with refusals := r }
  /-- A stream is made at an unused number (R51, R56). -/
  | make (v : Eval) (n : StreamNo) (i : Input) (k f : SizeClass) (u : Bool) (hn : v.table[n] = none) : EvalEdit v
      { v with table := v.table.set n (some (newStream i k f u)), ops := v.ops ++ [.offer (.stream n) .claim] }
  /-- A stream in CLAIMING that nothing wants is removed (R52). -/
  | drop (v : Eval) (n : StreamNo) (x : Stream) (hn : v.table[n] = some x) (hx : x.state = .claiming) : EvalEdit v
      { v with table := v.table.set n none, ops := v.ops ++ [.withdraw (.stream n)] }
  /-- A stream that drains for want of demand is wanted again (R52). -/
  | resume (v : Eval) (n : StreamNo) (x : Stream) (live : Bool) (hn : v.table[n] = some x)
      (hx : x.state = .draining .noDemand) : EvalEdit v
      { v with table := v.table.set n (some (x.resume live)), ops := v.ops ++ [.withdraw (.stream n)] }
  /-- A stream that serves nothing drains (R52). -/
  | drain (v : Eval) (n : StreamNo) (x : Stream) (hn : v.table[n] = some x) (hx : x.state = .live ∨ x.state = .holding) :
      EvalEdit v
      { v with table := v.table.set n (some (x.drain .noDemand)), ops := v.ops ++ [.offer (.stream n) .release] }
  /-- The wanted class of a stream beyond CLAIMING is judged (R53). -/
  | want (v : Eval) (n : StreamNo) (x : Stream) (w : SizeClass) (b : Bool) (hn : v.table[n] = some x)
      (hx : x.state ≠ .claiming) : EvalEdit v { v with table := v.table.set n (some { x with wanted := w, short := b }) }
  /-- The DENYs are offered (R57). -/
  | deny (v : Eval) (p : Option WantPos) (old new : Vector (List Refused) 4) :
      EvalEdit v { v with ops := v.ops ++ denyOps p old new }

/-- Some edits in a row. -/
abbrev EvalEdits : Eval → Eval → Prop := Relation.ReflTransGen EvalEdit

theorem unusedNumber_free {t : StreamTable} {n : StreamNo} (h : unusedNumber t = some n) : t[n] = none := by
  have hs := List.find?_some h
  simpa using hs

theorem refuse_edits (v : Eval) (d : Demand) (r : RefusalReason) : EvalEdits v (v.refuse d r) := by
  unfold Eval.refuse
  split
  · exact .refl
  · exact .single (.refuse v _)

theorem take_edits (held : Vector (List Refused) 4) (live : Input → Bool) (v : Eval) (d : Demand) :
    EvalEdits v (v.take held live d) := by
  unfold Eval.take
  repeat' split
  · exact .refl
  · exact refuse_edits v d _
  · exact refuse_edits v d _
  · exact refuse_edits v d _
  · next n hn => exact .single (.make v n _ _ _ _ (unusedNumber_free hn))

theorem settleStream_edits (ds : List Demand) (t : StreamTable) (live : Input → Bool) (v : Eval) (n : StreamNo) :
    EvalEdits v (v.settleStream ds t live n) := by
  unfold Eval.settleStream
  split
  · exact .refl
  · next x hx =>
    split
    · next hs =>
      split
      · exact .refl
      · exact .single (.drop v n x hx hs)
    · next hs =>
      split
      · exact .refl
      · exact .single (.resume v n x _ hx hs)
    · exact .refl
    · next h1 h2 h3 =>
      split
      · refine .single (.drain v n x hx ?_)
        cases hs : x.state with
        | claiming => exact absurd hs h1
        | live => exact .inl rfl
        | holding => exact .inr rfl
        | draining c => exact absurd hs (h3 c)
      · exact .refl

theorem settleWanted_edits (ds : List Demand) (t : StreamTable) (v : Eval) (n : StreamNo) :
    EvalEdits v (v.settleWanted ds t n) := by
  unfold Eval.settleWanted
  split
  · exact .refl
  · next x hx =>
    split
    · exact .refl
    · next hs => exact .single (.want v n x _ _ hx hs)

theorem seekUpgrade_edits (free : Nat) (v : Eval) : EvalEdits v (v.seekUpgrade free) := by
  unfold Eval.seekUpgrade
  split
  · exact .refl
  · split
    · next p n _ hn => exact .single (.make v n _ _ _ _ (unusedNumber_free hn))
    · exact .refl

theorem foldl_edits {α : Type} (f : Eval → α → Eval) (hf : ∀ v x, EvalEdits v (f v x)) (l : List α) (v : Eval) :
    EvalEdits v (l.foldl f v) := by
  induction l generalizing v with
  | nil => exact .refl
  | cons x xs ih => exact (hf v x).trans (ih _)

/-- An evaluation is such edits, from the table that stands (R49). -/
theorem evaluation_edits (s : State) (lift : WantPos → Bool) (applied : Option WantPos) :
    EvalEdits { table := s.engine.table, refusals := Vector.replicate 4 [], ops := [] } (s.evaluation lift applied) := by
  unfold State.evaluation
  dsimp only
  refine .tail ?_ (.deny _ applied _ _)
  refine .trans ?_ (seekUpgrade_edits _ _)
  refine .trans ?_ (foldl_edits _ (fun v n => settleWanted_edits _ _ v n) _ _)
  refine .trans ?_ (foldl_edits _ (fun v n => settleStream_edits _ _ _ v n) _ _)
  exact foldl_edits _ (fun v d => take_edits _ _ v d) _ _

/-- What every edit keeps, an evaluation keeps. -/
theorem evaluation_keeps_of_edits {P : Eval → Prop} (hP : ∀ v w, EvalEdit v w → P v → P w) (s : State)
    (lift : WantPos → Bool) (applied : Option WantPos)
    (h : P { table := s.engine.table, refusals := Vector.replicate 4 [], ops := [] }) : P (s.evaluation lift applied) := by
  have key : ∀ w, EvalEdits { table := s.engine.table, refusals := Vector.replicate 4 [], ops := [] } w → P w := by
    intro w hw
    induction hw with
    | refl => exact h
    | tail _ he ih => exact hP _ _ he ih
  exact key _ (evaluation_edits s lift applied)

/-- An edit offers and withdraws entries of streams and DENYs (R49, R57). -/
theorem EvalEdit.ops {v w : Eval} (h : EvalEdit v w) (hv : EngineOps v.ops) : EngineOps w.ops := by
  cases h with
  | refuse => exact hv
  | make => exact hv.snoc rfl
  | drop => exact hv.snoc rfl
  | resume => exact hv.snoc rfl
  | drain => exact hv.snoc rfl
  | want => exact hv
  | deny => exact hv.append (denyOps_engine _ _ _)

theorem evaluation_engineOps (s : State) (lift : WantPos → Bool) (applied : Option WantPos) :
    EngineOps (s.evaluation lift applied).ops :=
  evaluation_keeps_of_edits (P := fun v => EngineOps v.ops) (fun _ _ he hv => he.ops hv) s lift applied
    (fun _ ho => absurd ho List.not_mem_nil)

section
variable {r s : State} (h : EngineStep r s)
include h

theorem evaluateOnce_engine (lift : WantPos → Bool) (applied : Option WantPos) :
    EngineStep r (evaluateOnce lift applied s) :=
  applyQueueOps_engine (setEngine_engine h _) (evaluation_engineOps s lift applied)

theorem evaluateAgain_engine (n : Nat) : EngineStep r (evaluateAgain n s) := by
  induction n generalizing s with
  | zero => exact h
  | succ n ih =>
    unfold evaluateAgain
    dsimp only
    split
    · exact evaluateOnce_engine h _ _
    · exact ih (evaluateOnce_engine h _ _)

theorem evaluate_engine (lift : WantPos → Bool) (applied : Option WantPos) : EngineStep r (evaluate lift applied s) := by
  unfold evaluate
  dsimp only
  split
  · exact evaluateOnce_engine h _ _
  · exact evaluateAgain_engine (evaluateOnce_engine h _ _) _

theorem evaluateDemand_engine : EngineStep r (evaluateDemand s) := evaluate_engine h _ _

theorem loseSlot_engine (n : StreamNo) (left : List Slot) : EngineStep r (loseSlot n left s) := by
  unfold loseSlot
  repeat' split
  · exact h
  · exact h
  · exact withdraw_engine (setStream_engine h n none) rfl
  · exact h
  · exact offer_engine (setStream_engine h n _) rfl _

theorem loseSlots_engine (a : Addr) (old : Vector SlotEntry 24) : EngineStep r (loseSlots a old s) := by
  unfold loseSlots
  exact EngineStep.foldl _ _ (fun t n ht => loseSlot_engine ht n _) h

theorem dropWants_engine (ps : List WantPos) : EngineStep r (dropWants ps s) := by
  refine applyQueueOps_engine (setEngine_engine h _) (fun o ho => ?_)
  obtain ⟨p, _, rfl⟩ := List.mem_map.mp ho
  rfl

theorem engineTables_engine (applied : Option WantPos) (old : Tables) : EngineStep r (engineTables applied old s) := by
  unfold engineTables
  dsimp only
  split
  · exact evaluate_engine (loseSlots_engine (dropWants_engine h _) _ _) _ _
  · exact loseSlots_engine (dropWants_engine h _) _ _

theorem claimSent_engine (n : StreamNo) : EngineStep r (claimSent n s) := by
  unfold claimSent
  dsimp only
  repeat' split
  · exact h
  · exact setStream_engine h n _
  · exact setStream_engine h n _
  · exact offer_engine (setStream_engine h n _) rfl _
  · exact h

theorem releaseSent_engine (n : StreamNo) : EngineStep r (releaseSent n s) := by
  unfold releaseSent
  repeat' split
  · exact setStream_engine h n _
  · exact h
  · exact h

end

end Sys2Proof.Machine
end

