-- ==== Sys2Proof/Proofs/SentFrames.lean ====
section
/-! SUPPORT. The station's own control frame, read back right: it leaves the queue, counts, and is applied like a heard one
(R9, R20). -/
namespace Sys2Proof.Machine

/-! ### New tables, and what they hand on -/

theorem setTables_keeps_of {r s : State} {t : Tables} (h : Keeps (r.setTables t) s) (t' : Tables) :
    Keeps (r.setTables t') (s.setTables t') :=
  ⟨setTables_beside (t := t') (setTables_beside h.same t'), h.queue, h.lines, h.fresh⟩

theorem changeTables_keeps_of {r s : State} {t : Tables} (h : Keeps (r.setTables t) s) (t' : Tables) :
    Keeps (r.setTables t') (changeTables t' s) := (setTables_keeps_of h t').trans (changeTables_keeps t' s)

theorem handTables_keeps_of {r s : State} {t : Tables} (h : Keeps (r.setTables t) s) (t' : Tables) (p : Option WantPos)
    (b : State) : Keeps (r.setTables t') (handTables p b (s.setTables t')) := handTables_keeps p b (setTables_keeps_of h t')

section
variable {r s : State} {t : Tables} (h : Keeps (r.setTables t) s)
include h

theorem applyRoster_keeps_some (a : Addr) (tag : Word) (c : Option RosterContent) :
    ∃ t', Keeps (r.setTables t') (applyRoster a tag c s) := by
  unfold applyRoster
  split
  · exact ⟨_, setTables_keeps_of h _⟩
  · split
    · exact ⟨t, h⟩
    · exact ⟨_, changeTables_keeps_of (changeTables_keeps_of (changeTables_keeps_of h _) _) _⟩

theorem putWant_keeps_some (p : WantPos) (a : Addr) (ws : List WantEntry) :
    ∃ t', Keeps (r.setTables t') (putWant p a ws s) := ⟨_, handTables_keeps_of h _ _ _⟩

theorem applyWant_keeps_some (a : Addr) (c : Option (List WantEntry)) :
    ∃ t', Keeps (r.setTables t') (applyWant a c s) := by
  unfold applyWant
  split
  · exact ⟨_, setTables_keeps_of h _⟩
  · exact ⟨_, evaluateDemand_keeps (changeTables_keeps_of h _)⟩
  · split
    · exact putWant_keeps_some h _ a _
    · split
      · exact putWant_keeps_some h _ a _
      · exact ⟨_, setTables_keeps_of h _⟩

theorem applyDeny_keeps_some (a : Addr) (c : Option (Addr × List Refused)) :
    ∃ t', Keeps (r.setTables t') (applyDeny a c s) := by
  unfold applyDeny
  split
  · exact ⟨_, setTables_keeps_of h _⟩
  · split
    · exact ⟨t, settlePanes_keeps (setComp_keeps _ h)⟩
    · exact ⟨t, h⟩

/-- A control frame applied changes the tables, and hands the change to the blocks that read them (R45, R93, R124, R133). -/
theorem applyBody_keeps_some (a : Addr) (tag : Word) (b : FrameBody) :
    ∃ t', Keeps (r.setTables t') (applyBody a tag b s) := by
  cases b with
  | roster => exact applyRoster_keeps_some h a tag _
  | door c p =>
    show ∃ t', Keeps (r.setTables t') (applyDoor a (doorContent c p) s)
    unfold applyDoor
    split
    · exact ⟨_, setTables_keeps_of h _⟩
    · exact ⟨_, changeTables_keeps_of h _⟩
  | lens i g f =>
    show ∃ t', Keeps (r.setTables t') (applyLens a (lensContent i g) f s)
    unfold applyLens
    split
    · exact ⟨_, setTables_keeps_of h _⟩
    · exact ⟨_, changeTables_keeps_of h _⟩
  | cab k e =>
    show ∃ t', Keeps (r.setTables t') (applyCab a tag (cabContent k e) s)
    unfold applyCab
    split
    · exact ⟨_, setTables_keeps_of h _⟩
    · exact ⟨_, changeTables_keeps_of h _⟩
    · exact ⟨_, changeTables_keeps_of h _⟩
  | want es => exact applyWant_keeps_some h a _
  | claim o ot n i c sl =>
    show ∃ t', Keeps (r.setTables t') (applyClaim (claimContent a o n i c sl) s)
    unfold applyClaim
    split
    · exact ⟨_, setTables_keeps_of h _⟩
    · exact ⟨_, changeTables_keeps_of h _⟩
  | release o ot n sl =>
    show ∃ t', Keeps (r.setTables t') (applyRelease a (releaseContent a o n sl) s)
    unfold applyRelease
    split
    · exact ⟨_, setTables_keeps_of h _⟩
    · exact ⟨_, changeTables_keeps_of h _⟩
  | deny d es => exact applyDeny_keeps_some h a _

end

/-! ### The end of a sent frame -/

/-- The Trunk Port and the queue as the station's own control frame has been transmitted (R9). -/
def State.sent (s : State) (c : Sending) : State :=
  (s.setQueue (queueSent s.queue c)).setTrunk
    { s.trunk with out := .idle, framesSent := s.trunk.framesSent + 1#16, consecClash := 0 }

/-- The tables handed as they are: what the presence of the station's own item comes to (R20, R27). -/
def State.rehanded (s : State) : State := changeTables s.tables s

theorem rehanded_keeps (s : State) : Keeps s s.rehanded := changeTables_keeps s.tables s

theorem sent_lineFree (s : State) (c : Sending) : (s.sent c).lineFree := fun _ h => TrunkOut.noConfusion h

/-- A frame that is not a stream's does nothing before it is taken (R55, R61). -/
theorem streamFrameSent_other {c : Sending} (h : ∀ n, c.subject ≠ .stream n) (s : State) : streamFrameSent c s = s := by
  unfold streamFrameSent
  split
  · next n hn => exact absurd hn (h n)
  · rfl

/-- The own frame is taken, before its owner is told, as an item that nothing filters (R9, R20). -/
theorem takeFrame_own {s : State} {f : ControlFrame} (ha : s.acting = true) (h1 : f.addr = s.addr) (h2 : f.tag = s.cfg.tag) :
    takeFrame true f s = applyBody s.addr s.cfg.tag f.body s.rehanded := by
  unfold takeFrame
  rw [takeItem_own ha h1 h2, h1, h2]
  rfl

/-- The end of a control frame that is read back as it was sent (R9). -/
theorem exec_controlFrameSent {s : State} {c : Sending} (hs : Settled s) (hc : s.trunk.out = .control c) :
    exec (.controlFrameSent c.bytes) s =
      .next (refreshPins (ownerFrameSent c (takeFrame true c.frame (streamFrameSent c (s.sent c))))) := by
  rw [exec_act hs (f := controlFrameSent c.bytes) rfl]
  unfold controlFrameSent
  simp only [hc, if_true]
  rfl

/-- A frame of the station's own that is not a stream's (R9, R20). -/
theorem exec_frameSent_own {s : State} {c : Sending} (hs : Settled s) (ha : s.acting = true) (hc : s.trunk.out = .control c)
    (h1 : c.frame.addr = s.addr) (h2 : c.frame.tag = s.cfg.tag) (hn : ∀ n, c.subject ≠ .stream n) :
    exec (.controlFrameSent c.bytes) s =
      .next (refreshPins (ownerFrameSent c (applyBody s.addr s.cfg.tag c.frame.body (s.sent c).rehanded))) := by
  have haddr : (s.sent c).addr = s.addr := addr_congr rfl rfl
  rw [exec_controlFrameSent hs hc, streamFrameSent_other hn,
    takeFrame_own (s := s.sent c) ha (h1.trans haddr.symm) h2, haddr]
  rfl

/-- Whatever a sent frame is, its end leaves the Trunk Port, beside the count, at rest (R9). -/
theorem trunk_of_sent {s u : State} {c : Sending} {t : Tables} (h : Keeps ((s.sent c).setTables t) u) :
    u.trunk = { s.trunk with out := .idle, framesSent := s.trunk.framesSent + 1#16, consecClash := 0 } :=
  trunk_of_beside_idle h.same rfl

/-- The won entry has left the queue, if nothing was offered for its subject since the win (R9). -/
theorem queueHolds_sent {s : State} {c : Sending} (h : c.again = none) :
    queueHolds (s.sent c).queue c.subject = false := by
  show queueHolds (queueSent s.queue c) c.subject = false
  unfold queueSent
  rw [h]
  exact queueHolds_remove _ _

/-- No entry of a door, a lens or the ROSTER is made as the frame's content is handed on. -/
theorem queueHolds_of_sent {s u : State} {c : Sending} {t : Tables} (h : Keeps ((s.sent c).setTables t) u)
    (hl : c.subject.isLine = true) (ha : c.again = none) : queueHolds u.queue c.subject = false :=
  (h.lines _ hl).trans (queueHolds_sent ha)

/-- Any other entry for the frame's subject has just been made. -/
theorem fresh_of_sent {s u : State} {c : Sending} {t : Tables} (h : Keeps ((s.sent c).setTables t) u)
    (ha : c.again = none) : ∀ e ∈ u.queue, e.subject = c.subject → e.time = s.now := by
  intro e he hsub
  rcases h.fresh e he with ⟨d, hd, hds, -⟩ | ht
  · have hno : queueHolds (s.sent c).queue c.subject = false := queueHolds_sent ha
    refine absurd (List.any_eq_true.mpr ⟨d, hd, ?_⟩) (Bool.eq_false_iff.mp hno)
    simp [hds, hsub]
  · exact ht

/-- The state as the frame's content is applied: nothing but the queue, the count and the line differ from before. -/
theorem rehanded_beside (s : State) (c : Sending) : (s.sent c).rehanded.beside =
    ((s.setTrunk { s.trunk with out := .idle, framesSent := s.trunk.framesSent + 1#16, consecClash := 0 }).setTables
      s.tables).beside := (rehanded_keeps (s.sent c)).same

/-- The frame's content applied, beside the tables that it leaves. -/
theorem sent_body_keeps (s : State) (c : Sending) (a : Addr) (tag : Word) (b : FrameBody) :
    ∃ t', Keeps ((s.sent c).setTables t') (applyBody a tag b (s.sent c).rehanded) :=
  applyBody_keeps_some (r := s.sent c) (t := (s.sent c).tables) (rehanded_keeps (s.sent c)) a tag b

/-! ### What a change of the tables offers -/

/-- The handing of a change leaves the line free. -/
theorem lineFree_of_keeps {r s : State} (h : Keeps r s) (ho : r.lineFree) : s.lineFree := by
  have ht : s.trunk = r.trunk := trunk_of_beside h.same ho
  intro c
  rw [ht]
  exact ho c

/-- A cab at rest or TAKING takes no change of the cab record (R124). -/
theorem cabRecordChanged_resting {s : State} (h : s.cab.state = .idle ∨ s.cab.state = .taking) (old : Option CabRecord)
    (named : Bool) : cabRecordChanged old named s = s := by
  unfold cabRecordChanged
  rcases h with h | h <;> simp [h]

/-- A BLOCKED cab may turn to TAKING, and offers its CAB then (R124). -/
theorem cabRecordChanged_blocked {s : State} (ho : s.lineFree) (h : s.cab.state = .blocked) (old : Option CabRecord)
    (named : Bool) : cabRecordChanged old named s = s ∨ ∃ q, cabRecordChanged old named s =
      (s.setCab { s.cab with state := .taking }).setQueue q
        ∧ ∀ sub, sub ≠ .cab → queueHolds q sub = queueHolds s.queue sub := by
  unfold cabRecordChanged
  simp only [h]
  split
  · split
    · right
      have hst : setCabState .taking s = s.setCab { s.cab with state := .taking } := by simp [setCabState, h]
      rw [hst, offer_of_lineFree (s := s.setCab { s.cab with state := .taking }) ho]
      exact ⟨_, rfl, fun sub hs => queueHolds_offered (s := s.setCab { s.cab with state := .taking }) _ hs⟩
    · exact .inl rfl
  · exact .inl rfl

/-- The warning list is all that an inactive cab's Composer takes (R133). -/
theorem composerTables_inactive_frame {s : State} (h : s.cab.state ≠ .active) (old : Tables) :
    ∃ c, composerTables old s = s.setComp c := by
  rw [composerTables_inactive h]
  split
  · exact ⟨_, rfl⟩
  · exact ⟨s.comp, rfl⟩

/-- With a cab at rest or TAKING a change of the tables reaches the Stream Engine and the warning list (R45, R133). -/
theorem handTables_resting {s : State} (ho : s.lineFree) (h : s.cab.state = .idle ∨ s.cab.state = .taking)
    (p : Option WantPos) (b : State) : (handTables p b s).cab = s.cab
      ∧ ∀ sub : Subject, sub.ofEngine = false → queueHolds (handTables p b s).queue sub = queueHolds s.queue sub := by
  obtain ⟨e, q, hq, hsub⟩ := engineTables_engine (EngineStep.refl s) p b.tables ho
  unfold handTables
  rw [hq, cabRecordChanged_resting (s := (s.setEngine e).setQueue q) h]
  have hna : ((s.setEngine e).setQueue q).cab.state ≠ .active := by
    show s.cab.state ≠ .active
    rcases h with h | h <;> simp [h]
  obtain ⟨c, hc⟩ := composerTables_inactive_frame hna b.tables
  rw [hc]
  exact ⟨rfl, hsub⟩

/-- An inactive cab offers no WANT as a change of the tables is handed on, and stays inactive (R155). -/
theorem handTables_inactive {s : State} (ho : s.lineFree) (h : s.cab.state ≠ .active) (p : Option WantPos) (b : State) :
    (handTables p b s).cab.state ≠ .active ∧ queueHolds (handTables p b s).queue .want = queueHolds s.queue .want := by
  obtain ⟨e, q, hq, hsub⟩ := engineTables_engine (EngineStep.refl s) p b.tables ho
  have hw : queueHolds q .want = queueHolds s.queue .want := hsub .want rfl
  unfold handTables
  rw [hq]
  have hna : ((s.setEngine e).setQueue q).cab.state ≠ .active := h
  have key : ∀ u : State, u.cab.state ≠ .active → queueHolds u.queue .want = queueHolds q .want →
      (composerTables b.tables u).cab.state ≠ .active
        ∧ queueHolds (composerTables b.tables u).queue .want = queueHolds s.queue .want := by
    intro u hu huq
    obtain ⟨c, hc⟩ := composerTables_inactive_frame hu b.tables
    rw [hc]
    exact ⟨hu, huq.trans hw⟩
  cases hs : s.cab.state with
  | active => exact absurd hs h
  | blocked =>
    rcases cabRecordChanged_blocked (s := (s.setEngine e).setQueue q) ho hs b.tables.cabRecord b.namesSelf with
      hc | ⟨q', hc, hq'⟩
    · rw [hc]
      exact key _ hna rfl
    · rw [hc]
      exact key _ (by simp) (hq' .want (by simp))
  | idle =>
    rw [cabRecordChanged_resting (s := (s.setEngine e).setQueue q) (.inl hs)]
    exact key _ hna rfl
  | taking =>
    rw [cabRecordChanged_resting (s := (s.setEngine e).setQueue q) (.inr hs)]
    exact key _ hna rfl

/-- The same of new tables. -/
theorem changeTables_inactive {s : State} (ho : s.lineFree) (h : s.cab.state ≠ .active) (t : Tables) :
    (changeTables t s).cab.state ≠ .active ∧ queueHolds (changeTables t s).queue .want = queueHolds s.queue .want :=
  handTables_inactive (s := s.setTables t) ho h none s

/-- New tables with a cab at rest or TAKING. -/
theorem changeTables_resting {s : State} (ho : s.lineFree) (h : s.cab.state = .idle ∨ s.cab.state = .taking) (t : Tables) :
    (changeTables t s).cab = s.cab
      ∧ ∀ sub : Subject, sub.ofEngine = false → queueHolds (changeTables t s).queue sub = queueHolds s.queue sub :=
  handTables_resting (s := s.setTables t) ho h none s

/-- New tables leave the line free. -/
theorem changeTables_lineFree {s : State} (ho : s.lineFree) (t : Tables) : (changeTables t s).lineFree :=
  lineFree_of_keeps (changeTables_keeps t s) ho

/-- Nothing is lost where the copy stays (R45). -/
theorem lostSlot_same (a : Addr) (m : Vector SlotEntry 24) (n : StreamNo) : lostSlot a m m n = false := by
  unfold lostSlot
  rw [List.any_eq_false]
  intro k hk
  have hn : (m[k]).names a n = true := by
    unfold slotsOf at hk
    exact (List.mem_filter.mp hk).2
  rw [hn]
  decide

/-- No record is emptied where the want table stays (R48). -/
theorem wantsEmptied_same (w : Vector (Option WantRecord) 4) : wantsEmptied w w = [] := by
  unfold wantsEmptied
  rw [List.filter_eq_nil_iff]
  intro p _
  cases w[p] <;> simp

/-- A change of neither the copy nor the want table is none to the Stream Engine (R45, R48, R49). -/
theorem engineTables_quiet {s : State} {old : Tables} (hs : old.slots = s.tables.slots) (hw : old.wants = s.tables.wants) :
    engineTables none old s = s := by
  have hlost : List.filter (lostSlot s.addr s.tables.slots s.tables.slots) allStreams = [] :=
    List.filter_eq_nil_iff.mpr fun n _ => by simp [lostSlot_same]
  have hany : allStreams.any (lostSlot s.addr s.tables.slots s.tables.slots) = false := by
    rw [List.any_eq_false]
    intro n _
    simp [lostSlot_same]
  have hvec : vec4 (fun p => s.engine.refusals[p]) = s.engine.refusals := by
    ext1 i hi
    exact vec4_get _ ⟨i, hi⟩
  have hdrop : dropWants [] s = s := by
    simp only [dropWants, List.map_nil, List.not_mem_nil, if_false, hvec]
    rfl
  unfold engineTables
  simp only [hs, hw, wantsEmptied_same, hany, lt_irrefl, decide_false, Bool.false_or, List.isEmpty_nil, Bool.not_true,
    Option.isSome_none, Bool.false_eq_true, if_false]
  rw [hdrop]
  unfold loseSlots
  rw [hlost]
  rfl

/-- A cab record that stays changes nothing (R124). -/
theorem cabRecordChanged_same {s : State} : cabRecordChanged s.tables.cabRecord s.namesSelf s = s := by
  unfold cabRecordChanged
  split
  · split
    · rw [if_neg]
      cases s.tables.cabRecord <;> simp
    · rw [if_neg]
      cases s.namesSelf <;> simp
    · rfl
  · rfl

/-- Tables that are handed as they are bring no offer but a WANT. -/
theorem rehanded_queue {s : State} (ho : s.lineFree) {sub : Subject} (hs : sub ≠ .want) :
    queueHolds s.rehanded.queue sub = queueHolds s.queue sub := by
  have hr : s.rehanded = composerTables s.tables s := by
    show composerTables s.tables (cabRecordChanged s.tables.cabRecord s.namesSelf (engineTables none s.tables s)) = _
    rw [engineTables_quiet rfl rfl, cabRecordChanged_same]
  rw [hr]
  obtain ⟨c, q, hq, hsub⟩ := composerTables_composer (ComposerStep.refl s) s.tables ho
  rw [hq]
  exact hsub sub hs

end Sys2Proof.Machine
end

