-- ==== Sys2Proof/Proofs/ReadBack.lean ====
section
/-! SUPPORT. The station's own control frame read back, kind by kind (R9, R10, R32, R33, R46, R88, R106, R123, R126, R155). -/
namespace Sys2Proof.Machine

/-! ### What a frame of each kind leaves -/

/-- One of the sorted is one of the unsorted. -/
theorem mem_sortBy {α : Type} (before : α → α → Bool) (y : α) (l : List α) : y ∈ sortBy before l ↔ y ∈ l := by
  have key : ∀ acc : List α, y ∈ l.foldl (fun acc x => insertBy before x acc) acc ↔ y ∈ acc ∨ y ∈ l := by
    induction l with
    | nil => simp
    | cons x xs ih =>
      intro acc
      rw [List.foldl_cons, ih, mem_insertBy]
      simp only [List.mem_cons]
      tauto
  exact (key []).trans (by simp)

/-- The door table after a ROSTER: the other stations' doors, and the sender's as it lists them (R90). -/
theorem mem_setDoors (a : Addr) (ds : List (DoorDesc × DoorPhase)) (t : List DoorEntry) (d : DoorEntry) :
    d ∈ setDoors a ds t ↔ (d ∈ t ∧ d.id.addr ≠ a)
      ∨ ∃ y ∈ ds, d = { id := { addr := a, chan := y.1.chan }, phase := y.2 } := by
  unfold setDoors
  rw [mem_sortBy, List.mem_append, List.mem_filter, List.mem_map]
  constructor
  · rintro (⟨h1, h2⟩ | ⟨y, hy, rfl⟩)
    · exact .inl ⟨h1, by simpa using h2⟩
    · exact .inr ⟨y, hy, rfl⟩
  · rintro (⟨h1, h2⟩ | ⟨y, hy, rfl⟩)
    · exact .inl ⟨h1, by simpa using h2⟩
    · exact .inr ⟨y, hy, rfl⟩

/-- Does the roster give another address than the sender's the identity of a ROSTER (R31, R33)? -/
def Tables.twins (t : Tables) (a : Addr) (tag : Word) (localNo : Nat) : Prop :=
  ∃ (b : Addr) (y : RosterEntry), b ≠ a ∧ t.roster[b] = some y ∧ y.tag = tag ∧ y.localNo.val = localNo

/-- An identity that no other address holds removes nothing from the station's own roster (R33). -/
theorem rosterIdentity_own {own : Addr} {tag : Word} {localNo : Nat} {t : Tables} (h : ¬ t.twins own tag localNo) :
    rosterIdentity own own tag localNo t = t := by
  unfold rosterIdentity
  dsimp only
  rw [List.foldl_fixed' (a := t) fun b => ?_]
  · split
    · exact if_neg fun hc => hc.1 rfl
    · rfl
  · split
    · rfl
    · next hb =>
      split
      · next e he => exact if_neg fun hc => h ⟨b, e, fun hbo => hb (.inl hbo), he, hc.1, hc.2⟩
      · rfl

/-- What the station's own ROSTER leaves of its tables (R33). -/
theorem applyRoster_own_beside {r s : State} {t : Tables} (h : s.beside = (r.setTables t).beside) {x : RosterContent}
    {e : RosterEntry} {own : Addr} {tag : Word} (ho : s.addr = own) (he : t.roster[own] = some e)
    (hn : ¬ t.twins own tag x.localNo) :
    (applyRoster own tag (some x) s).beside = (r.setTables (rosterFields own tag x t)).beside := by
  subst ho
  have ht : s.tables = t := tables_of_beside_setTables h
  have h1 : rosterIdentity s.addr s.addr tag x.localNo t = t := rosterIdentity_own hn
  have h2 : rosterRenew s.addr tag t = t := by
    unfold rosterRenew
    rw [he]
    rfl
  unfold applyRoster
  simp only [ne_eq, not_true_eq_false, and_false, if_false, ht, h1, changeTables_tables, h2]
  exact changeTables_beside_again (changeTables_beside_again (changeTables_beside_again h _) _) _

/-- What an own WANT that fills a record leaves (R46, R47). -/
theorem applyWant_put_beside {r s : State} {t : Tables} (h : s.beside = (r.setTables t).beside) {a : Addr} {w : WantEntry}
    {ws : List WantEntry} {p : WantPos} (hp : senderPosition t.wants a = some p
      ∨ (senderPosition t.wants a = none ∧ freePosition t.wants = some p)) :
    (applyWant a (some (w :: ws)) s).beside =
      (r.setTables { t with wants := t.wants.set p (some { sender := a, age := 0, list := w :: ws }) }).beside := by
  have ht : s.tables = t := tables_of_beside_setTables h
  have hput : ∀ p, (putWant p a (w :: ws) s).beside =
      (r.setTables { t with wants := t.wants.set p (some { sender := a, age := 0, list := w :: ws }) }).beside := by
    intro p
    unfold putWant
    rw [handTables_beside, setTables_beside h, ht]
    rfl
  unfold applyWant
  rw [ht]
  rcases hp with hp | ⟨hp, hf⟩
  · simp only [hp]
    exact hput p
  · simp only [hp, hf]
    exact hput p

/-- One that finds no place is counted (R47). -/
theorem applyWant_full_beside {r s : State} {t : Tables} (h : s.beside = (r.setTables t).beside) {a : Addr} (w : WantEntry)
    (ws : List WantEntry) (hp : senderPosition t.wants a = none) (hf : freePosition t.wants = none) :
    (applyWant a (some (w :: ws)) s).beside =
      (r.setTables { t with wantOverflows := t.wantOverflows + 1#16 }).beside := by
  have ht : s.tables = t := tables_of_beside_setTables h
  unfold applyWant
  rw [ht]
  simp only [hp, hf]
  exact setTables_beside h _

/-- An empty one empties its sender's record (R46). -/
theorem applyWant_empty_beside {r s : State} {t : Tables} (h : s.beside = (r.setTables t).beside) (a : Addr) :
    (applyWant a (some []) s).beside = (r.setTables { t with wants := dropSender t.wants a }).beside := by
  have ht : s.tables = t := tables_of_beside_setTables h
  unfold applyWant
  rw [ht, (evaluateDemand_keeps (Keeps.refl _)).same]
  exact changeTables_beside_again h _

/-! ### The commands -/

/-- A read-back that differs is a clash, and the entry stays (R10; log 12). -/
theorem controlFrameSent_clash {s : State} {c : Sending} {r : List Byte} (hc : s.trunk.out = .control c) (hr : r ≠ c.bytes) :
    controlFrameSent r s = clashControl c s := by
  unfold controlFrameSent
  simp only [hc]
  exact if_neg hr

/-- A void ending has no frame: read back right it ends, and otherwise it clashes (R15; log 11). -/
theorem exec_voidEnding {s : State} {b r : List Byte} (hs : Settled s) (ho : s.trunk.out = .voidEnding b) :
    (r = b → exec (.controlFrameSent r) s = .next (refreshPins (s.setTrunk { s.trunk with out := .idle })))
    ∧ (r ≠ b → exec (.controlFrameSent r) s = .next (refreshPins (s.setTrunk { s.trunk with
        clashes := s.trunk.clashes + 1#16, consecClash := min 8 (s.trunk.consecClash + 1), clashed := true
        contending := none, out := .idle }))) := by
  have key : ∀ u, controlFrameSent r s = u → exec (.controlFrameSent r) s = .next (refreshPins u) := fun u hu => by
    rw [exec_act hs (f := controlFrameSent r) rfl, hu]
  constructor
  all_goals
    intro hr
    refine key _ ?_
    unfold controlFrameSent
    simp only [ho, hr, if_true, if_false]
  rfl

/-- A WANT applied in an inactive cab brings no offer of one (R155). -/
theorem applyWant_inactive {u : State} (ho : u.lineFree) (hna : u.cab.state ≠ .active) (hw : queueHolds u.queue .want = false)
    (a : Addr) (x : Option (List WantEntry)) : queueHolds (applyWant a x u).queue .want = false := by
  have hput : ∀ p ws, queueHolds (putWant p a ws u).queue .want = false := by
    intro p ws
    unfold putWant
    exact (handTables_inactive (s := u.setTables { u.tables with
      wants := u.tables.wants.set p (some { sender := a, age := 0, list := ws }) }) ho hna (some p) u).2.trans hw
  unfold applyWant
  split
  · exact hw
  · obtain ⟨e, q, hq, hsub⟩ := evaluateDemand_engine (EngineStep.refl (changeTables
      { u.tables with wants := dropSender u.tables.wants a } u)) (changeTables_lineFree ho _)
    rw [hq]
    exact (hsub .want rfl).trans ((changeTables_inactive ho hna _).2.trans hw)
  · split
    · exact hput _ _
    · split
      · exact hput _ _
      · exact hw

/-- A well-formed DENY reaches the Composer alone (R57, R162). -/
theorem applyDeny_composer (s : State) (a : Addr) (x : Addr × List Refused) : ComposerStep s (applyDeny a (some x) s) := by
  unfold applyDeny
  dsimp only
  split
  · exact settlePanes_composer (setComp_composer (ComposerStep.refl s) _)
  · exact ComposerStep.refl s

/-- A LEAVE of the station's own leaves a cab at rest as it is, and offers no CAB (R124). -/
theorem leave_resting (s : State) (c : Sending) (a : Addr) (tag : Word) (e : TramEnd) (hi : s.cab.state = .idle) :
    (applyCab a tag (some (false, e)) (s.sent c).rehanded).cab.state = .idle
      ∧ queueHolds (applyCab a tag (some (false, e)) (s.sent c).rehanded).queue .cab = queueHolds (s.sent c).queue .cab := by
  have ho : (s.sent c).lineFree := sent_lineFree s c
  obtain ⟨hcab, hq⟩ := changeTables_resting (s := s.sent c) ho (.inl hi) (s.sent c).tables
  have hvo : (s.sent c).rehanded.lineFree := changeTables_lineFree ho _
  have hvc : (s.sent c).rehanded.cab.state = .idle := (congrArg CabControl.state hcab).trans hi
  have hvq : queueHolds (s.sent c).rehanded.queue .cab = queueHolds (s.sent c).queue .cab := hq .cab rfl
  generalize (s.sent c).rehanded = v at hvo hvc hvq
  unfold applyCab
  dsimp only
  obtain ⟨hcab', hq'⟩ := changeTables_resting hvo (.inl hvc)
    { v.tables with cabRecord := dropCab v.tables.cabRecord a, wants := dropSender v.tables.wants a }
  exact ⟨(congrArg CabControl.state hcab').trans hvc, (hq' .cab rfl).trans hvq⟩

section
variable {s : State} {c : Sending} (hs : Settled s) (ha : s.acting = true) (hc : s.trunk.out = .control c)
  (h1 : c.frame.addr = s.addr) (h2 : c.frame.tag = s.cfg.tag)
include hs ha hc h1 h2

/-- The station's own DOOR (R88). -/
theorem exec_doorSent {cb pb : Byte} {ch ch' : Chan} {p : DoorPhase} (hsub : c.subject = .door ch')
    (hb : c.frame.body = .door cb pb) (hd : doorContent cb pb = some (ch, p)) :
    ∃ t, exec (.controlFrameSent c.bytes) s = .next t
      ∧ t.beside = ((s.setTrunk { s.trunk with
          out := .idle, framesSent := s.trunk.framesSent + 1#16, consecClash := 0 }).setTables { s.tables with
            doors := setPhase { addr := s.addr, chan := ch } p s.tables.doors }).beside
      ∧ (c.again = none → queueHolds t.queue c.subject = false) := by
  have hown : ∀ u, ownerFrameSent c u = u := fun u => by unfold ownerFrameSent; rw [hsub]
  have hbody : applyBody s.addr s.cfg.tag c.frame.body = applyDoor s.addr (some (ch, p)) := by
    rw [hb, ← hd]
    rfl
  refine ⟨_, exec_frameSent_own hs ha hc h1 h2 (by simp [hsub]), ?_, fun hag => ?_⟩
  · rw [beside_refreshPins, hown, hbody]
    exact applyDoor_beside (rehanded_beside s c) s.addr ch p
  · rw [refreshPins_queue, hown]
    obtain ⟨t', ht'⟩ := sent_body_keeps s c s.addr s.cfg.tag c.frame.body
    exact queueHolds_of_sent ht' (by rw [hsub]; rfl) hag

/-- The station's own LENS (R106). -/
theorem exec_lensSent {ib gb fb : Byte} {i i' : Input} {g : Grade} (hsub : c.subject = .lens i')
    (hb : c.frame.body = .lens ib gb fb) (hd : lensContent ib gb = some (i, g)) :
    ∃ t, exec (.controlFrameSent c.bytes) s = .next t
      ∧ t.beside = ((s.setTrunk { s.trunk with
          out := .idle, framesSent := s.trunk.framesSent + 1#16, consecClash := 0 }).setTables { s.tables with
            roster := s.tables.roster.set s.addr
              ((s.tables.roster[s.addr]).map (fun e => e.setGrade i g (fb.getLsbD 0) (fb.getLsbD 1))) }).beside
      ∧ (c.again = none → queueHolds t.queue c.subject = false) := by
  have hown : ∀ u, ownerFrameSent c u = u := fun u => by unfold ownerFrameSent; rw [hsub]
  have hbody : applyBody s.addr s.cfg.tag c.frame.body = applyLens s.addr (some (i, g)) fb := by
    rw [hb, ← hd]
    rfl
  refine ⟨_, exec_frameSent_own hs ha hc h1 h2 (by simp [hsub]), ?_, fun hag => ?_⟩
  · rw [beside_refreshPins, hown, hbody]
    exact applyLens_beside (rehanded_beside s c) s.addr i g fb
  · rw [refreshPins_queue, hown]
    obtain ⟨t', ht'⟩ := sent_body_keeps s c s.addr s.cfg.tag c.frame.body
    exact queueHolds_of_sent ht' (by rw [hsub]; rfl) hag

/-- The station's own ROSTER, whatever it carries (R32). -/
theorem exec_rosterSent (hsub : c.subject = .roster) : ∃ t, exec (.controlFrameSent c.bytes) s = .next t
    ∧ t.trunk = { s.trunk with out := .idle, framesSent := s.trunk.framesSent + 1#16, consecClash := 0 }
    ∧ t.tables.refresh = 0 ∧ (c.again = none → queueHolds t.queue .roster = false) := by
  obtain ⟨t', ht'⟩ := sent_body_keeps s c s.addr s.cfg.tag c.frame.body
  generalize hu : applyBody s.addr s.cfg.tag c.frame.body (s.sent c).rehanded = u at ht'
  have hown : ownerFrameSent c u = u.setTables { u.tables with refresh := 0 } := by unfold ownerFrameSent; rw [hsub]
  refine ⟨_, exec_frameSent_own hs ha hc h1 h2 (by simp [hsub]), ?_, ?_, fun hag => ?_⟩
  · rw [refreshPins_trunk, hu, hown, State.setTables_trunk]
    exact trunk_of_sent ht'
  · rw [refreshPins_tables, hu, hown]
    rfl
  · rw [refreshPins_queue, hu, hown, ← hsub, State.setTables_queue]
    exact queueHolds_of_sent ht' (by rw [hsub]; rfl) hag

/-- The station's own WANT, whatever it carries (R155). -/
theorem exec_wantSent {es : List Quad} (hsub : c.subject = .want) (hb : c.frame.body = .want es) :
    ∃ t, exec (.controlFrameSent c.bytes) s = .next t
      ∧ t.trunk = { s.trunk with out := .idle, framesSent := s.trunk.framesSent + 1#16, consecClash := 0 }
      ∧ t.comp.wantRefresh = 0
      ∧ (c.again = none → (∀ e ∈ t.queue, e.subject = .want → e.time = s.now)
        ∧ (s.cab.state ≠ .active → queueHolds t.queue .want = false)) := by
  obtain ⟨t', ht'⟩ := sent_body_keeps s c s.addr s.cfg.tag c.frame.body
  have hq : c.again = none → s.cab.state ≠ .active →
      queueHolds (applyBody s.addr s.cfg.tag c.frame.body (s.sent c).rehanded).queue .want = false := by
    intro hag hna
    have ho : (s.sent c).lineFree := sent_lineFree s c
    obtain ⟨hna', hw⟩ := changeTables_inactive (s := s.sent c) ho hna (s.sent c).tables
    rw [hb]
    refine applyWant_inactive (changeTables_lineFree ho _) hna' (hw.trans ?_) s.addr (wantContent es)
    rw [← hsub]
    exact queueHolds_sent hag
  generalize hu : applyBody s.addr s.cfg.tag c.frame.body (s.sent c).rehanded = u at ht' hq
  have hown : ownerFrameSent c u = u.setComp { u.comp with wantRefresh := 0 } := by unfold ownerFrameSent; rw [hsub]
  refine ⟨_, exec_frameSent_own hs ha hc h1 h2 (by simp [hsub]), ?_, ?_, fun hag => ⟨?_, fun hna => ?_⟩⟩
  · rw [refreshPins_trunk, hu, hown, State.setComp_trunk]
    exact trunk_of_sent ht'
  · rw [refreshPins_comp, hu, hown]
    rfl
  · rw [refreshPins_queue, hu, hown, State.setComp_queue, ← hsub]
    exact fresh_of_sent ht' hag
  · rw [refreshPins_queue, hu, hown, State.setComp_queue]
    exact hq hag hna

/-- The station's own DENY (R57). -/
theorem exec_denySent {p : WantPos} {ab : Byte} {es : List Quad} (hsub : c.subject = .deny p)
    (hb : c.frame.body = .deny ab es) (hd : denyContent ab es ≠ none) :
    ∃ t, exec (.controlFrameSent c.bytes) s = .next t
      ∧ t.trunk = { s.trunk with out := .idle, framesSent := s.trunk.framesSent + 1#16, consecClash := 0 }
      ∧ t.tables = s.tables ∧ (c.again = none → queueHolds t.queue (.deny p) = false) := by
  obtain ⟨x, hx⟩ := Option.ne_none_iff_exists'.mp hd
  have hbody : applyBody s.addr s.cfg.tag c.frame.body = applyDeny s.addr (some x) := by
    rw [hb, ← hx]
    rfl
  have hown : ∀ u, ownerFrameSent c u = u := fun u => by unfold ownerFrameSent; rw [hsub]
  have hexec := exec_frameSent_own hs ha hc h1 h2 (by simp [hsub])
  have ho : (s.sent c).lineFree := sent_lineFree s c
  have hk : Keeps (s.sent c) (s.sent c).rehanded := rehanded_keeps (s.sent c)
  have hvo : (s.sent c).rehanded.lineFree := changeTables_lineFree ho _
  have hvq : queueHolds (s.sent c).rehanded.queue (.deny p) = queueHolds (s.sent c).queue (.deny p) :=
    rehanded_queue ho (by simp)
  rw [hown, hbody] at hexec
  generalize (s.sent c).rehanded = v at hexec hk hvo hvq
  obtain ⟨k, q, hq, hqs⟩ := applyDeny_composer v s.addr x hvo
  refine ⟨_, hexec, ?_, ?_, fun hag => ?_⟩
  · rw [refreshPins_trunk, hq, State.setQueue_trunk, State.setComp_trunk]
    exact trunk_of_beside_idle hk.same rfl
  · rw [refreshPins_tables, hq, State.setQueue_tables, State.setComp_tables]
    exact tables_of_beside (r := s.sent c) hk.same
  · rw [refreshPins_queue, hq, State.setQueue_queue, hqs _ (by simp), hvq, ← hsub]
    exact queueHolds_sent hag

/-- The station's own CAB LEAVE (R123, R126). -/
theorem exec_leaveSent {kb eb : Byte} {e : TramEnd} (hsub : c.subject = .cab) (hkind : c.kind = .leave)
    (hb : c.frame.body = .cab kb eb) (hd : cabContent kb eb = some (false, e)) :
    ∃ t, exec (.controlFrameSent c.bytes) s = .next t
      ∧ t.trunk = { s.trunk with out := .idle, framesSent := s.trunk.framesSent + 1#16, consecClash := 0 }
      ∧ t.tables = { s.tables with
          cabRecord := dropCab s.tables.cabRecord s.addr, wants := dropSender s.tables.wants s.addr }
      ∧ (c.again = none → ∀ e ∈ t.queue, e.subject = .cab → e.time = s.now)
      ∧ (s.cab.state = .idle → t.cab.state = .idle ∧ (c.again = none → queueHolds t.queue .cab = false)) := by
  have hbody : applyBody s.addr s.cfg.tag c.frame.body = applyCab s.addr s.cfg.tag (some (false, e)) := by
    rw [hb, ← hd]
    rfl
  have hown : ∀ u, ownerFrameSent c u = u := fun u => by
    unfold ownerFrameSent
    rw [hsub, hkind]
    rfl
  have hexec := exec_frameSent_own hs ha hc h1 h2 (by simp [hsub])
  have hbes := applyCab_leave_beside (rehanded_beside s c) s.addr s.cfg.tag e
  have hrest := leave_resting s c s.addr s.cfg.tag e
  obtain ⟨t', ht'⟩ := sent_body_keeps s c s.addr s.cfg.tag c.frame.body
  rw [hbody] at ht'
  rw [hown, hbody] at hexec
  generalize applyCab s.addr s.cfg.tag (some (false, e)) (s.sent c).rehanded = u at hexec hbes hrest ht'
  refine ⟨_, hexec, ?_, ?_, fun hag => ?_, fun hi => ⟨?_, fun hag => ?_⟩⟩
  · rw [refreshPins_trunk]
    exact trunk_of_sent ht'
  · rw [refreshPins_tables]
    exact tables_of_beside_setTables hbes
  · rw [refreshPins_queue, ← hsub]
    exact fresh_of_sent ht' hag
  · rw [refreshPins_cab]
    exact (hrest hi).1
  · rw [refreshPins_queue, (hrest hi).2, ← hsub]
    exact queueHolds_sent hag

/-- The station's own ROSTER, whose identity no other address holds (R32, R33). -/
theorem exec_rosterSent_fields {l r cp cf : Byte} {cs : List CamRaw} {ds : List DoorRaw} {x : RosterContent} {e : RosterEntry}
    (hsub : c.subject = .roster) (hb : c.frame.body = .roster l r cp cf cs ds)
    (hd : rosterContent l r cp cf cs ds = some x) (he : s.tables.roster[s.addr] = some e)
    (hn : ¬ s.tables.twins s.addr s.cfg.tag x.localNo) :
    ∃ t, exec (.controlFrameSent c.bytes) s = .next t
      ∧ t.beside = ((s.setTrunk { s.trunk with
          out := .idle, framesSent := s.trunk.framesSent + 1#16, consecClash := 0 }).setTables
          { rosterFields s.addr s.cfg.tag x s.tables with refresh := 0 }).beside := by
  have hbody : applyBody s.addr s.cfg.tag c.frame.body = applyRoster s.addr s.cfg.tag (some x) := by
    rw [hb, ← hd]
    rfl
  have hk : Keeps (s.sent c) (s.sent c).rehanded := rehanded_keeps (s.sent c)
  have haddr : (s.sent c).rehanded.addr = s.addr := (addr_of_beside hk.same).trans (addr_congr rfl rfl)
  have hv := rehanded_beside s c
  have hexec := exec_frameSent_own hs ha hc h1 h2 (by simp [hsub])
  rw [hbody] at hexec
  generalize (s.sent c).rehanded = v at hexec hv haddr
  have hbes := applyRoster_own_beside hv haddr he hn
  generalize applyRoster s.addr s.cfg.tag (some x) v = u at hexec hbes
  have hown : ownerFrameSent c u = u.setTables { u.tables with refresh := 0 } := by unfold ownerFrameSent; rw [hsub]
  refine ⟨_, hexec, ?_⟩
  rw [beside_refreshPins, hown, setTables_beside hbes, tables_of_beside_setTables hbes]
  rfl

/-- The station's own WANT, as it is applied (R46, R47). -/
theorem exec_wantSent_beside {es : List Quad} {ws : List WantEntry} {T : Tables} (hsub : c.subject = .want)
    (hb : c.frame.body = .want es) (hd : wantContent es = some ws)
    (hT : ∀ r v : State, v.beside = (r.setTables s.tables).beside →
      (applyWant s.addr (some ws) v).beside = (r.setTables T).beside) :
    ∃ t, exec (.controlFrameSent c.bytes) s = .next t
      ∧ t.beside = ((s.setTrunk { s.trunk with
          out := .idle, framesSent := s.trunk.framesSent + 1#16, consecClash := 0 }).setTables T).beside := by
  have hbody : applyBody s.addr s.cfg.tag c.frame.body = applyWant s.addr (some ws) := by
    rw [hb, ← hd]
    rfl
  have hexec := exec_frameSent_own hs ha hc h1 h2 (by simp [hsub])
  have hbes := hT _ _ (rehanded_beside s c)
  rw [hbody] at hexec
  generalize applyWant s.addr (some ws) (s.sent c).rehanded = u at hexec hbes
  have hown : (ownerFrameSent c u).beside = u.beside := by unfold ownerFrameSent; rw [hsub]; rfl
  exact ⟨_, hexec, by rw [beside_refreshPins, hown, hbes]⟩

end

/-- The fields that a ROSTER gives its sender's entry (R33, R90, R127). -/
theorem rosterFields_eq {a : Addr} {tag : Word} {x : RosterContent} {t : Tables} {e : RosterEntry}
    (he : t.roster[a] = some e) : rosterFields a tag x t = { t with
      roster := t.roster.set a (some { e with
        role := x.role, cams := x.cams, doors := x.doors.map (fun d => d.1), coupler := x.coupler
        cabActive := x.cabActive })
      doors := setDoors a x.doors t.doors
      cabRecord := repairCab a tag x.cabActive x.coupler t.cabRecord } := by
  unfold rosterFields
  rw [he]

/-- Settles O12, kind by kind. -/
theorem controlFrameReadBack : Obligations.ControlFrameReadBack := by
  refine ⟨fun s c r hs hc hr => ?_, fun s c hs ha hc h1 h2 => ⟨?_, ?_⟩, fun s hs ha => ⟨?_, ?_⟩, ?_⟩
  · rw [exec_act hs (f := controlFrameSent r) rfl, controlFrameSent_clash hc hr]
    rfl
  · intro cb pb ch p hsub hb hd
    exact exec_doorSent hs ha hc h1 h2 hsub hb hd
  · intro ib gb fb i g hsub hb hd
    exact exec_lensSent hs ha hc h1 h2 hsub hb hd
  · rintro c tr hc h1 h2 rfl
    refine ⟨fun _ _ _ _ _ _ hsub _ => exec_rosterSent hs ha hc h1 h2 hsub,
      fun es hsub hb => exec_wantSent hs ha hc h1 h2 hsub hb,
      fun p ab es hsub hb hd => exec_denySent hs ha hc h1 h2 hsub hb hd,
      fun kb eb e hsub hk hb hd => ?_⟩
    exact exec_leaveSent hs ha hc h1 h2 hsub hk hb hd
  · intro b r ho
    exact exec_voidEnding hs ho
  · rintro s sent c hs ha hc h1 h2 rfl
    refine ⟨fun l r cp cf cs ds x e hsub hb hd he hn => ?_, fun es hsub hb => ⟨fun w ws p hd hp => ?_,
      fun w ws hd hp hf => ?_, fun hd => ?_⟩⟩
    · have htw : ¬ s.tables.twins s.addr s.cfg.tag x.localNo := fun ⟨b, y, hb, hy, hi⟩ => hn b y hb hy hi
      obtain ⟨t, ht, htb⟩ := exec_rosterSent_fields hs ha hc h1 h2 hsub hb hd he htw
      rw [rosterFields_eq he] at htb
      have htd : t.tables.doors = setDoors s.addr x.doors s.tables.doors :=
        congrArg Tables.doors (tables_of_beside_setTables htb)
      refine ⟨t, ht, htb.trans ?_, fun d => by rw [htd]; exact mem_setDoors ..⟩
      rw [htd]
      generalize s.tables.cabRecord = q
      obtain ⟨localNo, role, coupler, cabActive, cams, doors⟩ := x
      cases cabActive with
      | false => cases coupler <;> cases q <;> rfl
      | true =>
        cases coupler with
        | none => cases q <;> rfl
        | some z => cases q <;> rfl
    · exact exec_wantSent_beside hs ha hc h1 h2 hsub hb hd fun r v hv => applyWant_put_beside hv hp
    · exact exec_wantSent_beside hs ha hc h1 h2 hsub hb hd fun r v hv => applyWant_full_beside hv w ws hp hf
    · exact exec_wantSent_beside hs ha hc h1 h2 hsub hb hd fun r v hv => applyWant_empty_beside hv s.addr

end Sys2Proof.Machine
end

