-- ==== Sys2Proof/Proofs/OwnTake.lean ====
section
/-! SUPPORT. The station's own CAB TAKE read back (R123, R126). -/
namespace Sys2Proof.Machine

/-- Entering ACTIVE makes the cab ACTIVE, and leaves the tables and the Trunk Port (R121, R139). -/
theorem setCabState_active {s : State} (ho : s.lineFree) (h : s.cab.state ≠ .active) :
    (setCabState .active s).cab.state = .active ∧ (setCabState .active s).tables = s.tables
      ∧ (setCabState .active s).trunk = s.trunk := by
  obtain ⟨c, q, hq, -⟩ := enterActive_composer (ComposerStep.refl (s.setCab { s.cab with state := .active })) ho
  have he : setCabState .active s = ((s.setCab { s.cab with state := .active }).setComp c).setQueue q := by
    unfold setCabState
    rw [if_pos rfl, if_neg h]
    exact hq
  rw [he]
  exact ⟨rfl, rfl, rfl⟩

/-- A TAKING cab may turn to BLOCKED, and the Composer takes no note of it (R121). -/
theorem setCabState_blocked {s : State} (h : s.cab.state = .taking) :
    setCabState .blocked s = s.setCab { s.cab with state := .blocked } := by
  simp [setCabState, h]

/-- The own TAKE settles a TAKING cab by whether the record names its station (R123). -/
theorem ownCabSent_taking {s : State} (h : s.cab.state = .taking) :
    ownCabSent true s = if s.namesSelf then setCabState .active s else setCabState .blocked s := by
  unfold ownCabSent
  simp only [h, if_true]

/-- What the own TAKE leaves a TAKING cab with, before its owner is told (R124, R126). -/
theorem take_resting (s : State) (c : Sending) (a : Addr) (tag : Word) (e : TramEnd) (hi : s.cab.state = .taking) :
    (applyCab a tag (some (true, e)) (s.sent c).rehanded).cab.state = .taking
      ∧ (applyCab a tag (some (true, e)) (s.sent c).rehanded).lineFree := by
  have ho : (s.sent c).lineFree := sent_lineFree s c
  obtain ⟨hcab, -⟩ := changeTables_resting (s := s.sent c) ho (.inr hi) (s.sent c).tables
  have hvo : (s.sent c).rehanded.lineFree := changeTables_lineFree ho _
  have hvc : (s.sent c).rehanded.cab.state = .taking := (congrArg CabControl.state hcab).trans hi
  generalize (s.sent c).rehanded = v at hvo hvc
  unfold applyCab
  dsimp only
  obtain ⟨hcab', -⟩ := changeTables_resting hvo (.inr hvc) { v.tables with cabRecord := takeCab a tag e v.tables.cabRecord }
  exact ⟨(congrArg CabControl.state hcab').trans hvc, changeTables_lineFree hvo _⟩

/-- The end of the own TAKE, as the owner is told (R9, R123). -/
theorem exec_takeSent {s : State} {c : Sending} {kb eb : Byte} {e : TramEnd} (hs : Settled s) (ha : s.acting = true)
    (hc : s.trunk.out = .control c) (hsub : c.subject = .cab) (hk : c.kind = .take) (h1 : c.frame.addr = s.addr)
    (h2 : c.frame.tag = s.cfg.tag) (hb : c.frame.body = .cab kb eb) (hd : cabContent kb eb = some (true, e))
    (hi : s.cab.state = .taking) : ∃ u : State, exec (.controlFrameSent c.bytes) s =
        .next (refreshPins (if u.namesSelf then setCabState .active u else setCabState .blocked u))
      ∧ u.cab.state = .taking ∧ u.lineFree
      ∧ u.beside = ((s.setTrunk { s.trunk with
          out := .idle, framesSent := s.trunk.framesSent + 1#16, consecClash := 0 }).setTables { s.tables with
            cabRecord := takeCab s.addr s.cfg.tag e s.tables.cabRecord }).beside := by
  have hbody : applyBody s.addr s.cfg.tag c.frame.body = applyCab s.addr s.cfg.tag (some (true, e)) := by
    rw [hb, ← hd]
    rfl
  have hexec := exec_frameSent_own hs ha hc h1 h2 (by simp [hsub])
  have hbes := applyCab_take_beside (rehanded_beside s c) s.addr s.cfg.tag e
  obtain ⟨hut, huo⟩ := take_resting s c s.addr s.cfg.tag e hi
  rw [hbody] at hexec
  generalize applyCab s.addr s.cfg.tag (some (true, e)) (s.sent c).rehanded = u at hexec hbes hut huo
  have hown : ownerFrameSent c u = ownCabSent true u := by
    unfold ownerFrameSent
    rw [hsub, hk]
    rfl
  rw [hown, ownCabSent_taking hut] at hexec
  exact ⟨u, hexec, hut, huo, hbes⟩

/-- Settles O48, by whether the record then names the station. -/
theorem ownTakeSettlesCab : Obligations.OwnTakeSettlesCab := by
  intro s c kb eb e hs ha _ hc hsub hk _ h1 h2 hb hd hi
  obtain ⟨u, hexec, hut, huo, hbes⟩ := exec_takeSent hs ha hc hsub hk h1 h2 hb hd hi
  have htab := tables_of_beside_setTables hbes
  have htr := trunk_of_beside_idle hbes rfl
  have haddr : u.addr = s.addr := (addr_of_beside hbes).trans (addr_congr rfl rfl)
  have hcfg : u.cfg = s.cfg := (cfg_of_beside hbes).trans rfl
  have hrec : u.tables.cabRecord = takeCab s.addr s.cfg.tag e s.tables.cabRecord := congrArg Tables.cabRecord htab
  refine ⟨fun hr => ?_, fun r hr hne => ?_⟩
  · have hrec' : u.tables.cabRecord = some { addr := s.addr, tag := s.cfg.tag, cabEnd := e } := by
      rcases hr with hr | ⟨x, hr⟩ <;> rw [hrec, hr]
      · rfl
      · exact if_pos rfl
    have hname : u.namesSelf = true := by simp [State.namesSelf, hrec', haddr, hcfg]
    obtain ⟨hca, hta, htra⟩ := setCabState_active huo (by simp [hut])
    rw [if_pos hname] at hexec
    refine ⟨_, hexec, ?_, ?_, ?_, ?_⟩
    · rw [refreshPins_cab, hca]
    · rw [refreshPins_tables, hta, hrec']
    · rw [refreshPins_trunk, htra, htr]
      rfl
    · rw [refreshPins_trunk, htra, htr]
      rfl
  · have hrec' : u.tables.cabRecord = some r := by
      rw [hrec, hr]
      exact if_neg hne
    have hname : u.namesSelf = false := by simp [State.namesSelf, hrec', haddr, hne]
    rw [hname, setCabState_blocked hut] at hexec
    refine ⟨_, hexec, ?_, ?_, ?_, ?_⟩
    · rw [refreshPins_cab]
      rfl
    · rw [refreshPins_tables]
      exact hrec'
    · rw [refreshPins_trunk, if_neg (by simp), State.setCab_trunk, htr]
      rfl
    · rw [refreshPins_trunk, if_neg (by simp), State.setCab_trunk, htr]
      rfl

end Sys2Proof.Machine
end

