-- ==== Sys2Proof/Proofs/OneStream.lean ====
section
/-! SUPPORT. The station's own CLAIM and RELEASE read back (R41, R42, R45, R55, R61). -/
namespace Sys2Proof.Machine

/-! ### One stream over an evaluation -/

/-- The offers and withdrawals of a station leave its Stream Engine. -/
@[simp] theorem offer_engine_eq (sub : Subject) (k : SendKind) (s : State) : (offer sub k s).engine = s.engine := by
  unfold offer
  repeat' split
  all_goals rfl

@[simp] theorem withdraw_engine_eq (sub : Subject) (s : State) : (withdraw sub s).engine = s.engine := by
  unfold withdraw
  repeat' split
  all_goals rfl

theorem applyQueueOps_engine_eq (ops : List QueueOp) (s : State) : (applyQueueOps ops s).engine = s.engine := by
  unfold applyQueueOps
  induction ops generalizing s with
  | nil => rfl
  | cons o os ih =>
    rw [List.foldl_cons, ih]
    cases o with
    | offer sub k => exact offer_engine_eq sub k s
    | withdraw sub => exact withdraw_engine_eq sub s

/-- One evaluation leaves the table that it works out (R49). -/
theorem evaluateOnce_engine_eq (lift : WantPos → Bool) (applied : Option WantPos) (s : State) :
    (evaluateOnce lift applied s).engine.table = (s.evaluation lift applied).table := by
  unfold evaluateOnce
  generalize s.evaluation lift applied = v
  dsimp only
  rw [applyQueueOps_engine_eq, State.setEngine_engine]

/-- A property of stream tables that every edit of an evaluation keeps. -/
def KeptByEdits (P : StreamTable → Prop) : Prop := ∀ v w, EvalEdit v w → P v.table → P w.table

section
variable {P : StreamTable → Prop} (hP : KeptByEdits P) {s : State}
include hP

theorem evaluateOnce_table (lift : WantPos → Bool) (applied : Option WantPos) (h : P s.engine.table) :
    P (evaluateOnce lift applied s).engine.table := by
  rw [evaluateOnce_engine_eq]
  exact evaluation_keeps_of_edits (P := fun v => P v.table) hP s lift applied h

theorem evaluateAgain_table (n : Nat) (h : P s.engine.table) : P (evaluateAgain n s).engine.table := by
  induction n generalizing s with
  | zero => exact h
  | succ n ih =>
    unfold evaluateAgain
    dsimp only
    split
    · exact evaluateOnce_table hP _ _ h
    · exact ih (evaluateOnce_table hP _ _ h)

theorem evaluate_table (lift : WantPos → Bool) (applied : Option WantPos) (h : P s.engine.table) :
    P (evaluate lift applied s).engine.table := by
  unfold evaluate
  dsimp only
  split
  · exact evaluateOnce_table hP _ _ h
  · exact evaluateAgain_table hP _ (evaluateOnce_table hP _ _ h)

theorem evaluateDemand_table (h : P s.engine.table) : P (evaluateDemand s).engine.table := by
  unfold evaluateDemand
  exact evaluate_table hP _ _ h

/-- What the edits and the losses of slots keep, the engine's part in a change of the tables keeps (R45, R48, R49). -/
theorem engineTables_table (applied : Option WantPos) (old : Tables)
    (hl : ∀ n, lostSlot s.addr old.slots s.tables.slots n = true →
      ∀ left u, P u.engine.table → P (loseSlot n left u).engine.table) (h : P s.engine.table) :
    P (engineTables applied old s).engine.table := by
  have hd : ∀ ps, (dropWants ps s).engine.table = s.engine.table := fun ps => by
    unfold dropWants
    rw [applyQueueOps_engine_eq]
    rfl
  have hds : ∀ ps, (dropWants ps s).tables = s.tables := fun ps => tables_of_beside (dropWants_keeps ps (Keeps.refl s)).same
  have hfold : ∀ (l : List StreamNo) (u : State), (∀ n ∈ l, lostSlot s.addr old.slots s.tables.slots n = true) →
      P u.engine.table →
      P (l.foldl (fun t n => loseSlot n (slotsOf t.tables.slots s.addr n) t) u).engine.table := by
    intro l
    induction l with
    | nil => exact fun u _ hu => hu
    | cons n l ih =>
      intro u hln hu
      exact ih _ (fun m hm => hln m (List.mem_cons_of_mem _ hm)) (hl n (hln n (List.mem_cons_self ..)) _ u hu)
  have hlose : ∀ ps, P (loseSlots s.addr old.slots (dropWants ps s)).engine.table := fun ps => by
    unfold loseSlots
    rw [hds]
    refine hfold _ _ (fun n hn => (List.mem_filter.mp hn).2) ?_
    rw [hd]
    exact h
  unfold engineTables
  dsimp only
  split
  · exact evaluate_table hP _ _ (hlose _)
  · exact hlose _

end

/-- The rest of the handing leaves the Stream Engine (R93, R124, R133). -/
theorem cabRecordChanged_engine_eq (s : State) (old : Option CabRecord) (named : Bool) :
    (cabRecordChanged old named s).engine = s.engine := by
  have hset : ∀ x : CabState, x ≠ .active → (setCabState x s).engine = s.engine := by
    intro x hx
    unfold setCabState
    rw [if_neg hx]
    split <;> rfl
  unfold cabRecordChanged
  repeat' split
  · rw [offer_engine_eq, hset _ (by simp)]
  · rfl
  · rw [offer_engine_eq, hset _ (by simp)]
  · rfl
  · rfl
  · rfl

/-- A change of the tables reaches the Stream Engine by its own part alone (R45). -/
theorem handTables_engine_eq {s : State} (ho : s.lineFree) (p : Option WantPos) (b : State) :
    (handTables p b s).engine = (engineTables p b.tables s).engine := by
  have he := lineFree_of_keeps (engineTables_keeps p b.tables (Keeps.refl s)) ho
  have hc := lineFree_of_keeps (cabRecordChanged_keeps b.tables.cabRecord b.namesSelf
    (Keeps.refl (engineTables p b.tables s))) he
  obtain ⟨k, q, hq, -⟩ := composerTables_composer (ComposerStep.refl _) b.tables hc
  unfold handTables
  rw [hq, State.setQueue_engine, State.setComp_engine, cabRecordChanged_engine_eq]

/-- New tables in which a kept property of the stream table survives the losses of slots. -/
theorem changeTables_table {P : StreamTable → Prop} (hP : KeptByEdits P) {s : State} (ho : s.lineFree) (t : Tables)
    (hl : ∀ n, lostSlot s.addr s.tables.slots t.slots n = true →
      ∀ left u, P u.engine.table → P (loseSlot n left u).engine.table) (h : P s.engine.table) :
    P (changeTables t s).engine.table := by
  unfold changeTables
  rw [handTables_engine_eq (s := s.setTables t) ho]
  exact engineTables_table hP (s := s.setTables t) none s.tables hl h

/-- Tables handed as they are lose no slot. -/
theorem rehanded_table {P : StreamTable → Prop} (hP : KeptByEdits P) {s : State} (ho : s.lineFree) (h : P s.engine.table) :
    P s.rehanded.engine.table :=
  changeTables_table hP ho s.tables (fun n hn => absurd hn (by simp [lostSlot_same])) h

/-! ### A stream that stands, and a number that is vacant -/

/-- Stream n stands with the camera, class and sequence number of x, beyond CLAIMING, in a state that evaluations keep (R52). -/
def Standing (n : StreamNo) (x : Stream) (t : StreamTable) : Prop := ∃ y, t[n] = some y ∧ y.input = x.input ∧ y.cls = x.cls
  ∧ y.seq = x.seq ∧ (y.state = .live ∨ y.state = .holding ∨ y.state = .draining .noDemand)

/-- Number n is not in use, or is by a stream that is being claimed (R51). -/
def Vacant (n : StreamNo) (t : StreamTable) : Prop := ∀ y, t[n] = some y → y.state = .claiming

/-- Another stream's place is not this one's. -/
theorem standing_set_other {n m : StreamNo} {x : Stream} {t : StreamTable} (h : m ≠ n) (y : Option Stream)
    (hs : Standing n x t) : Standing n x (t.set m y) := by
  obtain ⟨z, hz, hr⟩ := hs
  refine ⟨z, ?_, hr⟩
  rw [getElem_set_fin, if_neg h]
  exact hz

theorem standing_set_same {n : StreamNo} {x y : Stream} {t : StreamTable} (hi : y.input = x.input) (hc : y.cls = x.cls)
    (hq : y.seq = x.seq) (hst : y.state = .live ∨ y.state = .holding ∨ y.state = .draining .noDemand) :
    Standing n x (t.set n (some y)) := ⟨y, by rw [getElem_set_fin, if_pos rfl], hi, hc, hq, hst⟩

theorem vacant_set_other {n m : StreamNo} {t : StreamTable} (h : m ≠ n) (y : Option Stream) (hs : Vacant n t) :
    Vacant n (t.set m y) := by
  intro z hz
  rw [getElem_set_fin, if_neg h] at hz
  exact hs z hz

/-- An evaluation keeps a stream that stands (R50 to R53). -/
theorem standing_kept (n : StreamNo) (x : Stream) : KeptByEdits (Standing n x) := by
  intro v w h hs
  have hs' := hs
  obtain ⟨z, hz, hi, hc, hq, hst⟩ := hs'
  cases h with
  | refuse => exact hs
  | deny => exact hs
  | make m i k f u hm =>
    refine standing_set_other ?_ _ hs
    rintro rfl
    rw [hz] at hm
    exact absurd hm (by simp)
  | drop m y hm hy =>
    refine standing_set_other ?_ _ hs
    rintro rfl
    obtain rfl : z = y := Option.some.inj (hz.symm.trans hm)
    rw [hy] at hst
    simp at hst
  | resume m y live hm hy =>
    by_cases hmn : m = n
    · subst hmn
      obtain rfl : z = y := Option.some.inj (hz.symm.trans hm)
      refine standing_set_same hi hc hq ?_
      cases live
      · exact .inr (.inl rfl)
      · exact .inl rfl
    · exact standing_set_other hmn _ hs
  | drain m y hm hy =>
    by_cases hmn : m = n
    · subst hmn
      obtain rfl : z = y := Option.some.inj (hz.symm.trans hm)
      exact standing_set_same hi hc hq (.inr (.inr rfl))
    · exact standing_set_other hmn _ hs
  | want m y w b hm hy =>
    by_cases hmn : m = n
    · subst hmn
      obtain rfl : z = y := Option.some.inj (hz.symm.trans hm)
      exact standing_set_same hi hc hq hst
    · exact standing_set_other hmn _ hs

/-- An evaluation makes streams in CLAIMING alone (R51). -/
theorem vacant_kept (n : StreamNo) : KeptByEdits (Vacant n) := by
  intro v w h hs
  cases h with
  | refuse => exact hs
  | deny => exact hs
  | make m i k f u hm =>
    by_cases hmn : m = n
    · subst hmn
      intro z hz
      rw [getElem_set_fin, if_pos rfl] at hz
      rw [← Option.some.inj hz]
      rfl
    · exact vacant_set_other hmn _ hs
  | drop m y hm hy =>
    by_cases hmn : m = n
    · subst hmn
      intro z hz
      rw [getElem_set_fin, if_pos rfl] at hz
      exact absurd hz (by simp)
    · exact vacant_set_other hmn _ hs
  | resume m y live hm hy =>
    refine vacant_set_other ?_ _ hs
    rintro rfl
    rw [hs y hm] at hy
    exact absurd hy (by simp)
  | drain m y hm hy =>
    refine vacant_set_other ?_ _ hs
    rintro rfl
    rw [hs y hm] at hy
    simp at hy
  | want m y w b hm hy =>
    refine vacant_set_other ?_ _ hs
    rintro rfl
    exact hy (hs y hm)

/-- A stream's loss of a slot is its own (R62). -/
theorem loseSlot_other {n m : StreamNo} (h : m ≠ n) (left : List Slot) (u : State) :
    (loseSlot m left u).engine.table[n] = u.engine.table[n] := by
  have hset : ∀ y, (u.setStream m y).engine.table[n] = u.engine.table[n] := fun y => by
    show (u.engine.table.set m y)[n] = _
    rw [getElem_set_fin, if_neg h]
  unfold loseSlot
  repeat' split
  · rfl
  · rfl
  · exact (congrArg (fun e : StreamEngine => e.table[n]) (withdraw_engine_eq _ _)).trans (hset _)
  · rfl
  · exact (congrArg (fun e : StreamEngine => e.table[n]) (offer_engine_eq _ _ _)).trans (hset _)

/-- A vacant number has no slot to lose (R62). -/
theorem loseSlot_vacant {n : StreamNo} (m : StreamNo) (left : List Slot) {u : State} (h : Vacant n u.engine.table) :
    Vacant n (loseSlot m left u).engine.table := by
  by_cases hmn : m = n
  · subst hmn
    have hsame : loseSlot m left u = u := by
      unfold loseSlot
      split
      · rfl
      · next x hx => rw [h x hx]
    rw [hsame]
    exact h
  · intro y hy
    rw [loseSlot_other hmn] at hy
    exact h y hy

end Sys2Proof.Machine
end

