-- ==== Sys2Proof/Proofs/OwnClaimRelease.lean ====
section
/-! SUPPORT. The station's own CLAIM and RELEASE in the copy and in the stream table (R41, R42, R55, R61). -/
namespace Sys2Proof.Machine

/-! ### CLAIM and RELEASE in the copy -/

/-- Several slots set to one entry. -/
theorem getElem_setSlots (sl : List Slot) (v : SlotEntry) (m : Vector SlotEntry 24) (q : Slot) :
    (sl.foldl (fun (m : Vector SlotEntry 24) (k : Slot) => m.set k v) m)[q] = if q ∈ sl then v else m[q] := by
  induction sl generalizing m with
  | nil => simp
  | cons k sl ih =>
    rw [List.foldl_cons, ih, getElem_set_fin]
    by_cases hq : q ∈ sl
    · simp [hq]
    · by_cases hk : k = q
      · simp [hk]
      · rw [if_neg hq, if_neg hk, if_neg]
        simp [hq, Ne.symm hk]

/-- Nothing is freed where no entry satisfies the condition. -/
theorem freeWhere_none {m : Vector SlotEntry 24} {p : SlotEntry → Bool} (h : ∀ q : Slot, p m[q] = false) :
    freeWhere m p = m := by
  unfold freeWhere
  ext1 i hi
  rw [Vector.getElem_map]
  exact if_neg (by simpa using h ⟨i, hi⟩)

/-- A CLAIM of free slots by a stream that owns none (R41). -/
theorem claimSlots_free {id : StreamId} {sl : List Slot} {m : Vector SlotEntry 24}
    (hn : ∀ q : Slot, m[q].names id.addr id.num = false) (hf : ∀ q ∈ sl, m[q].owner = none) :
    (claimSlots id sl m).1 = true ∧ ∀ q : Slot, (claimSlots id sl m).2[q] =
      if q ∈ sl then { owner := some id, silent := 0 } else m[q] := by
  have hall : sl.all (fun k => (m[k]).owner.isNone) = true := List.all_eq_true.mpr fun q hq => by rw [hf q hq]; rfl
  have hfw : freeWhere m (fun e => e.names id.addr id.num) = m := freeWhere_none hn
  unfold claimSlots
  simp only [hfw, hall, if_true]
  exact ⟨trivial, getElem_setSlots sl _ m⟩

/-- A RELEASE frees the listed slots that its stream owns (R42). -/
theorem getElem_releaseSlots (a : Addr) (n : StreamNo) (sl : List Slot) (m : Vector SlotEntry 24) (q : Slot) :
    (releaseSlots a n sl m)[q] = if q ∈ sl ∧ m[q].names a n = true then SlotEntry.free else m[q] := by
  have hfree : SlotEntry.free.names a n = false := rfl
  unfold releaseSlots
  induction sl generalizing m with
  | nil => simp
  | cons k sl ih =>
    rw [List.foldl_cons, ih]
    by_cases hk : (m[k]).names a n = true
    · rw [if_pos hk, getElem_set_fin]
      by_cases hkq : k = q
      · subst hkq
        rw [if_pos rfl, hfree, if_neg (by simp), if_pos ⟨List.mem_cons_self .., hk⟩]
      · rw [if_neg hkq]
        simp [Ne.symm hkq]
    · rw [if_neg hk]
      by_cases hkq : q = k
      · subst hkq
        rw [if_neg fun h => hk h.2, if_neg fun h => hk h.2]
      · simp [hkq]

/-- A stream that owns no slot loses none (R45). -/
theorem lostSlot_of_owns_none {a : Addr} {m : Vector SlotEntry 24} {n : StreamNo}
    (h : ∀ q : Slot, m[q].names a n = false) (m' : Vector SlotEntry 24) : lostSlot a m m' n = false := by
  have hs : slotsOf m a n = [] := List.filter_eq_nil_iff.mpr fun q _ => by rw [h q]; decide
  unfold lostSlot
  rw [hs]
  rfl

/-! ### CLAIM and RELEASE in the stream table -/

/-- A sent CLAIM makes its stream stand, with a fresh sequence number (R55, R72). -/
theorem claimSent_standing {s : State} {n : StreamNo} {x : Stream} (hx : s.engine.table[n] = some x)
    (hc : x.state = .claiming) : Standing n { x with seq := 0xFF#8 } (claimSent n s).engine.table := by
  have hset : ∀ (y : Stream), y.input = x.input → y.cls = x.cls → y.seq = 0xFF#8 →
      (y.state = .live ∨ y.state = .holding ∨ y.state = .draining .noDemand) →
      Standing n { x with seq := 0xFF#8 } (s.setStream n (some y)).engine.table := fun y hi hk hq hst =>
    standing_set_same (x := { x with seq := 0xFF#8 }) hi hk hq hst
  unfold claimSent
  simp only [hx, hc, if_true]
  split
  · refine hset _ rfl rfl rfl ?_
    by_cases hl : s.inputLive x.input = true
    · exact .inl (if_pos hl)
    · exact .inr (.inl (if_neg hl))
  · rw [offer_engine_eq]
    exact hset _ rfl rfl rfl (.inr (.inr rfl))

/-- A sent RELEASE leaves its number vacant (R61). -/
theorem releaseSent_vacant {s : State} {n : StreamNo} {x : Stream} {d : DrainCause} (hx : s.engine.table[n] = some x)
    (hd : x.state = .draining d) : Vacant n (releaseSent n s).engine.table := by
  unfold releaseSent
  simp only [hx, hd]
  intro y hy
  have hnone : (s.engine.table.set n none)[n] = none := by rw [getElem_set_fin, if_pos rfl]
  rw [State.setStream, State.setEngine_engine] at hy
  exact absurd (hnone.symm.trans hy) (by simp)

/-! ### The end of a stream's frame -/

section
variable {s s1 : State} {c : Sending} {n : StreamNo}

/-- A stream's frame as it has been transmitted: what the copy, the Trunk Port and the stream table show once it is
applied and the demand evaluated, `s1` being the state after the stream's own part (R9, R20, R55, R61). -/
theorem exec_streamSent (hs : Settled s) (ha : s.acting = true) (hc : s.trunk.out = .control c) (hsub : c.subject = .stream n)
    (h1 : c.frame.addr = s.addr) (h2 : c.frame.tag = s.cfg.tag) (hst : streamFrameSent c (s.sent c) = s1)
    (hk : Keeps (s.sent c) s1) : exec (.controlFrameSent c.bytes) s =
      .next (refreshPins (evaluateDemand (applyBody s.addr s.cfg.tag c.frame.body s1.rehanded))) := by
  have ha1 : s1.acting = true := (acting_of_beside hk.same).trans ha
  have haddr : s1.addr = s.addr := (addr_of_beside hk.same).trans (addr_congr rfl rfl)
  have hcfg : s1.cfg = s.cfg := (cfg_of_beside hk.same :)
  have hown : ∀ u, ownerFrameSent c u = evaluateDemand u := fun u => by unfold ownerFrameSent; rw [hsub]
  have htake : takeFrame true c.frame s1 = applyBody s.addr s.cfg.tag c.frame.body s1.rehanded := by
    rw [takeFrame_own ha1 (h1.trans haddr.symm) (h2.trans (by rw [hcfg])), haddr, hcfg]
  have hexec := exec_controlFrameSent hs hc
  rw [hst, htake, hown] at hexec
  exact hexec

/-- A change of the tables to `T` that keeps a property of the stream table, and the evaluation that follows it (R41, R42,
R45). -/
theorem streamSent_applied {P : StreamTable → Prop} (hP : KeptByEdits P) (hk : Keeps (s.sent c) s1)
    (hs1 : P s1.engine.table) {T : Tables}
    (hl : ∀ m, lostSlot s.addr s.tables.slots T.slots m = true →
      ∀ left u, P u.engine.table → P (loseSlot m left u).engine.table) :
    (refreshPins (evaluateDemand (changeTables T s1.rehanded))).trunk =
        { s.trunk with out := .idle, framesSent := s.trunk.framesSent + 1#16, consecClash := 0 }
      ∧ (refreshPins (evaluateDemand (changeTables T s1.rehanded))).tables = T
      ∧ P (refreshPins (evaluateDemand (changeTables T s1.rehanded))).engine.table := by
  have ho : s1.lineFree := lineFree_of_keeps hk (sent_lineFree s c)
  have hkr : Keeps (s.sent c) s1.rehanded := hk.trans (rehanded_keeps s1)
  have hvo : s1.rehanded.lineFree := lineFree_of_keeps hkr (sent_lineFree s c)
  have hvP : P s1.rehanded.engine.table := rehanded_table hP ho hs1
  have hvt : s1.rehanded.tables = s.tables := (tables_of_beside hkr.same).trans rfl
  have hva : s1.rehanded.addr = s.addr := (addr_of_beside hkr.same).trans (addr_congr rfl rfl)
  generalize s1.rehanded = v at hkr hvo hvP hvt hva
  have hkeep : Keeps ((s.sent c).setTables T) (evaluateDemand (changeTables T v)) :=
    evaluateDemand_keeps (changeTables_keeps_of (r := s.sent c) (t := (s.sent c).tables) hkr T)
  have htab : (evaluateDemand (changeTables T v)).tables = T :=
    tables_of_beside (r := (s.sent c).setTables T) hkeep.same
  have hch : P (changeTables T v).engine.table := changeTables_table hP hvo T (fun m hm => hl m (by
    rw [hva, hvt] at hm
    exact hm)) hvP
  rw [refreshPins_trunk, refreshPins_tables, refreshPins_engine]
  exact ⟨trunk_of_sent hkeep, htab, evaluateDemand_table hP hch⟩

end

/-- What a well-formed CLAIM or RELEASE names (R41, R42). -/
theorem addr_of_claimContent {a : Addr} {o n i k : Byte} {sb : List Byte} {id : StreamId} {sl : List Slot}
    (h : claimContent a o n i k sb = some (id, sl)) : id.addr = a := by
  unfold claimContent at h
  split at h
  · split at h
    · obtain ⟨rfl, -⟩ := Prod.mk.inj (Option.some.inj h)
      rfl
    · exact absurd h (by simp)
  · exact absurd h (by simp)

/-- The own CLAIM of free slots, applied (R41). -/
theorem applyClaim_free {s : State} {id : StreamId} {sl : List Slot}
    (hn : ∀ q : Slot, s.tables.slots[q].names id.addr id.num = false) (hf : ∀ q ∈ sl, s.tables.slots[q].owner = none) :
    applyClaim (some (id, sl)) s =
      changeTables { s.tables with slots := (claimSlots id sl s.tables.slots).2 } s := by
  have hfree := (claimSlots_free hn hf).1
  unfold applyClaim
  simp only [hfree, if_true]

/-- A vacant number is free, or its stream is being claimed. -/
theorem vacant_cases {n : StreamNo} {t : StreamTable} (h : Vacant n t) :
    t[n] = none ∨ ∃ y, t[n] = some y ∧ y.state = .claiming := by
  cases hn : t[n] with
  | none => exact .inl rfl
  | some y => exact .inr ⟨y, rfl, h y hn⟩

/-- Settles O30: the CLAIM, whose stream stands, and the RELEASE, whose number is vacant. -/
theorem ownClaimAndReleaseSent : Obligations.OwnClaimAndReleaseSent := by
  intro s c n x hs ha hc hsub _ h1 h2 hx
  have hrt : ∀ s1, Keeps (s.sent c) s1 → s1.rehanded.tables = s.tables := fun s1 hk =>
    (tables_of_beside (hk.trans (rehanded_keeps s1)).same).trans rfl
  refine ⟨fun o ot nb ib kb sb id sl hkind hcl hb hd hid hfree hnone => ?_, fun o ot nb sb sl d hkind hdr hb hd => ?_⟩
  · have hst : streamFrameSent c (s.sent c) = claimSent n (s.sent c) := by
      unfold streamFrameSent
      rw [hsub]
      exact if_pos hkind
    have hk : Keeps (s.sent c) (claimSent n (s.sent c)) := claimSent_keeps n (Keeps.refl _)
    have hstand : Standing n { x with seq := 0xFF#8 } (claimSent n (s.sent c)).engine.table :=
      claimSent_standing (s := s.sent c) hx hcl
    have hexec := exec_streamSent hs ha hc hsub h1 h2 hst hk
    have hbody : applyBody s.addr s.cfg.tag c.frame.body = applyClaim (some (id, sl)) := by
      rw [hb, ← hd]
      rfl
    have hnames : ∀ q : Slot, s.tables.slots[q].names id.addr id.num = false := by
      rw [addr_of_claimContent hd, hid]
      exact hnone
    have hrt1 := hrt _ hk
    rw [hbody, applyClaim_free (by rw [hrt1]; exact hnames) (by rw [hrt1]; exact hfree), hrt1] at hexec
    have hsent := streamSent_applied (standing_kept n _) hk hstand
      (T := { s.tables with slots := (claimSlots id sl s.tables.slots).2 }) (fun m hm left u hu => by
        obtain ⟨y, hy, hr⟩ := hu
        refine ⟨y, ?_, hr⟩
        rw [loseSlot_other ?_]
        · exact hy
        · rintro rfl
          rw [lostSlot_of_owns_none hnone] at hm
          exact absurd hm (by simp))
    have hslots := (claimSlots_free hnames hfree).2
    generalize refreshPins _ = t at hexec hsent
    obtain ⟨htr, hta, y, hy, hi, hk, hq, hst⟩ := hsent
    refine ⟨t, hexec, by rw [htr], by rw [htr], by rw [htr], fun q hqs => ?_, fun q hqs => ?_, y, hy, hi, hk, hq, hst⟩
    · rw [hta]
      exact (hslots q).trans (if_pos hqs)
    · rw [hta]
      exact (hslots q).trans (if_neg hqs)
  · have hst : streamFrameSent c (s.sent c) = releaseSent n (s.sent c) := by
      unfold streamFrameSent
      rw [hsub]
      exact if_neg (by simp [hkind])
    have hk : Keeps (s.sent c) (releaseSent n (s.sent c)) := releaseSent_keeps n (Keeps.refl _)
    have hvac : Vacant n (releaseSent n (s.sent c)).engine.table := releaseSent_vacant (s := s.sent c) hx hdr
    have hexec := exec_streamSent hs ha hc hsub h1 h2 hst hk
    have hbody : applyBody s.addr s.cfg.tag c.frame.body = applyRelease s.addr (some (n, sl)) := by
      rw [hb, ← hd]
      rfl
    have happ : ∀ u : State, applyRelease s.addr (some (n, sl)) u =
        changeTables { u.tables with slots := releaseSlots s.addr n sl u.tables.slots } u := fun _ => rfl
    rw [hbody, happ, hrt _ hk] at hexec
    have hsent := streamSent_applied (vacant_kept n) hk hvac
      (T := { s.tables with slots := releaseSlots s.addr n sl s.tables.slots })
      (fun m _ left u hu => loseSlot_vacant m left hu)
    generalize refreshPins _ = t at hexec hsent
    obtain ⟨htr, hta, hvac'⟩ := hsent
    refine ⟨t, hexec, by rw [htr], by rw [htr], by rw [htr], fun q => ?_, vacant_cases hvac'⟩
    rw [hta]
    exact getElem_releaseSlots s.addr n sl s.tables.slots q

end Sys2Proof.Machine
end

