-- ==== Sys2Proof/Proofs/Renumbering.lean ====
section
/-! SUPPORT. A renumbering (R37, R38). -/
namespace Sys2Proof.Machine

/-! ### What a renumbering leaves -/

/-- The station's address in a half (R22). -/
def State.addrAt (s : State) (h : Fin 2) : Addr := ⟨s.cfg.localNo.val + 8 * h.val, by omega⟩

/-- The Trunk Port renumbered to a half: LISTEN, with a MARK that has begun going on (R38; log 40). -/
def Trunk.moved (h : Fin 2) (t : Trunk) : Trunk :=
  { t with half := h, contending := none, out := t.out.keepMark, state := .listen, renumbered := true, consecClash := 0
           candidate := false, markInListen := false }

/-- The queue after a renumbering: the CAB TAKE of a cab that is switched on (R38). -/
def State.movedQueue (s : State) : List QueueEntry :=
  if s.isCab = true ∧ s.cab.cabOn.accepted = true then [{ subject := .cab, kind := .take, time := s.now }] else []

/-- A station that acts has an offer taken, where no control frame of its own is on the line (R13). -/
theorem offer_nil {s : State} (ha : s.acting = true) (ho : s.lineFree) (hq : s.queue = []) (sub : Subject) (k : SendKind) :
    offer sub k s = s.setQueue [{ subject := sub, kind := k, time := s.now }] := by
  rw [offer_of_lineFree ho, if_pos ha, hq]
  rfl

/-- A renumbering's part in the cab (R38, R124). -/
theorem cabRenumbered_eq {s : State} (ha : s.acting = true) (ho : s.lineFree) (hq : s.queue = []) :
    ∃ cb k, cabRenumbered s = ((s.setQueue s.movedQueue).setCab cb).setComp k
      ∧ (s.isCab = true → cb.state = .idle ∨ cb.state = .taking) := by
  unfold cabRenumbered State.movedQueue
  by_cases hc : s.isCab = true
  · by_cases hon : s.cab.cabOn.accepted = true
    · obtain ⟨k, hk⟩ := setCabState_of_ne_active (c := .taking) (by simp) s
      have hof : offer .cab .take ((s.setCab { s.cab with state := .taking }).setComp k) =
          ((s.setCab { s.cab with state := .taking }).setComp k).setQueue
            [{ subject := .cab, kind := .take, time := s.now }] :=
        offer_nil (s := (s.setCab { s.cab with state := .taking }).setComp k) ha ho hq .cab .take
      rw [if_pos hc, if_pos hon, if_pos ⟨hc, hon⟩, hk, hof]
      exact ⟨_, k, rfl, fun _ => .inr rfl⟩
    · obtain ⟨k, hk⟩ := setCabState_of_ne_active (c := .idle) (by simp) s
      rw [if_pos hc, if_neg hon, if_neg (fun h => hon h.2), hk, ← hq]
      exact ⟨_, k, rfl, fun _ => .inl rfl⟩
  · rw [if_neg hc, if_neg (fun h => hc h.1), ← hq]
    exact ⟨s.cab, s.comp, rfl, fun h => absurd h hc⟩

/-- A renumbering, part by part (R38). -/
theorem renumber_eq {s : State} (ha : s.acting = true) (h : Fin 2) :
    ∃ cb k, renumber h s = (((((s.setEngine StreamEngine.reset).setQueue s.movedQueue).setTrunk (s.trunk.moved h)).setTables
        (renumberTables s.addr (s.addrAt h) s.tables)).setCab cb).setComp k
      ∧ (s.isCab = true → cb.state = .idle ∨ cb.state = .taking) := by
  have h3 : ∃ x : State, x = (((s.setEngine StreamEngine.reset).setQueue []).setTrunk
      { s.trunk with half := h, contending := none, out := s.trunk.out.keepMark }).setTables
        (renumberTables s.addr (s.addrAt h) s.tables) := ⟨_, rfl⟩
  obtain ⟨x, hx⟩ := h3
  have hr : renumber h s = settleWarnings (enterListen true (cabRenumbered x)) := by rw [hx]; rfl
  have hxa : x.acting = true := by rw [hx]; exact ha
  have hxo : x.lineFree := by
    rw [hx]
    exact fun c => keepMark_not_control s.trunk.out c
  have hxq : x.queue = [] := by rw [hx]; rfl
  obtain ⟨cb, k, hc, hcb⟩ := cabRenumbered_eq hxa hxo hxq
  refine ⟨cb, { k with warnings := (enterListen true (cabRenumbered x)).warningList }, ?_, ?_⟩
  · have hs : ∀ u : State, settleWarnings u = u.setComp { u.comp with warnings := u.warningList } := fun _ => rfl
    rw [hr, hs, hc, hx]
    rfl
  · intro hcab
    exact hcb (by rw [hx]; exact hcab)

/-- The station has been renumbered from `s` to half h, with a set of foreign tags, and has heard at most address `a` since. -/
structure Arrived (s : State) (h : Fin 2) (a : Addr) (F : List (Word × Nat)) (u : State) : Prop where
  trunk : u.trunk = s.trunk.moved h
  cfg : u.cfg = s.cfg
  channels : u.channels = s.channels
  lens : u.lens = s.lens
  store : u.store = s.store
  confMem : u.confMem = s.confMem
  engine : u.engine = StreamEngine.reset
  queue : u.queue = s.movedQueue
  inactive : u.isCab = true → u.cab.state ≠ .active
  foreign : u.tables.foreign = F
  slots : u.tables.slots = Vector.replicate 24 SlotEntry.free
  wants : u.tables.wants = Vector.replicate 4 none
  cabRecord : u.tables.cabRecord = none
  rejects : u.tables.rosterRejects = s.tables.rosterRejects
  own : u.tables.roster[s.addrAt h] = s.tables.roster[s.addr]
  others : ∀ b, b ≠ s.addrAt h → b ≠ a → u.tables.roster[b] = none

/-- The address after a renumbering (R22). -/
theorem Arrived.addr {s u : State} {h : Fin 2} {a : Addr} {F : List (Word × Nat)} (hu : Arrived s h a F u) :
    u.addr = s.addrAt h := by
  apply Fin.ext
  show u.cfg.localNo.val + 8 * u.trunk.half.val = s.cfg.localNo.val + 8 * h.val
  rw [hu.cfg, hu.trunk]
  rfl

/-- No control frame of a renumbered station is on the line (log 40). -/
theorem Arrived.lineFree {s u : State} {h : Fin 2} {a : Addr} {F : List (Word × Nat)} (hu : Arrived s h a F u) :
    u.lineFree := by
  intro c
  rw [hu.trunk]
  exact keepMark_not_control s.trunk.out c

/-- A renumbered station hears no MARK that it has been waiting for (R24). -/
theorem Arrived.hearingIntact {s u : State} {h : Fin 2} {a : Addr} {F : List (Word × Nat)} (hu : Arrived s h a F u) :
    hearingIntact u = u := by
  unfold Machine.hearingIntact
  refine if_neg fun hc => ?_
  rw [hu.trunk] at hc
  exact absurd hc.2 (by simp [Trunk.moved])

/-- The role follows from the configuration (R22). -/
theorem isCab_congr {s t : State} (h : t.cfg = s.cfg) : t.isCab = s.isCab := by
  unfold State.isCab
  rw [h]

/-- A renumbering empties the roster but for the own entry, and the other tables (R38). -/
theorem renumber_arrived {s : State} (ha : s.acting = true) (h : Fin 2) (a : Addr) (F : List (Word × Nat)) :
    Arrived s h a F (renumber h (s.setTables { s.tables with foreign := F })) := by
  obtain ⟨cb, k, hr, hcb⟩ := renumber_eq (s := s.setTables { s.tables with foreign := F }) ha h
  have hcfg : (renumber h (s.setTables { s.tables with foreign := F })).cfg = s.cfg := by
    rw [hr]
    simp
  have htab : (renumber h (s.setTables { s.tables with foreign := F })).tables =
      renumberTables s.addr (s.addrAt h) { s.tables with foreign := F } := by
    rw [hr]
    simp only [State.setComp_tables, State.setCab_tables, State.setTables_tables]
    rfl
  exact
    { trunk := by rw [hr]; simp only [State.setComp_trunk, State.setCab_trunk, State.setTables_trunk, State.setTrunk_trunk]
      cfg := hcfg
      channels := by rw [hr]; simp
      lens := by rw [hr]; simp
      store := by rw [hr]; simp
      confMem := by rw [hr]; simp
      engine := by rw [hr]; simp
      queue := by
        rw [hr]
        simp only [State.setComp_queue, State.setCab_queue, State.setTables_queue, State.setTrunk_queue,
          State.setQueue_queue]
        rfl
      inactive := fun hc => by
        have hcab : s.isCab = true := (isCab_congr hcfg).symm.trans hc
        rw [hr]
        simp only [State.setComp_cab, State.setCab_cab]
        rcases hcb hcab with h | h <;> simp [h]
      foreign := by rw [htab]; rfl
      slots := by rw [htab]; rfl
      wants := by rw [htab]; rfl
      cabRecord := by rw [htab]; rfl
      rejects := by rw [htab]; rfl
      own := by
        rw [htab]
        show ((Vector.replicate 16 none).set (s.addrAt h) s.tables.roster[s.addr])[s.addrAt h] = _
        rw [getElem_set_fin, if_pos rfl]
      others := fun b hb _ => by
        rw [htab]
        show ((Vector.replicate 16 none).set (s.addrAt h) s.tables.roster[s.addr])[b] = none
        rw [getElem_set_fin, if_neg hb.symm]
        exact Vector.getElem_replicate .. }

end Sys2Proof.Machine
end

