-- ==== Sys2Proof/Proofs/ForeignTags.lean ====
section
/-! SUPPORT. The items that renumber a station (R29, R35 to R38). -/
namespace Sys2Proof.Machine

/-! ### What brings a renumbering about -/

/-- The trunk states in which a foreign tag may renumber the station (R26, R37). -/
def Trunk.renumbers (t : Trunk) : Prop := t.state = .listen ∨ t.state = .joined ∨ t.state = .excluded .consist

/-- A station in one of them has started and acts. -/
theorem acting_of_renumbers {s : State} (hb : s.boot.phase = .started) (ht : s.trunk.renumbers) : s.acting = true := by
  unfold State.acting
  rcases ht with h | h | h <;> simp [hb, h]

/-- A number of lower tags that requires the other half renumbers the station (R37). -/
theorem foreignChanged_renumbers {s : State} {h : Fin 2} {k : Nat} (ht : s.trunk.renumbers)
    (hk : lowerTags s.cfg.tag s.tables.foreign ≠ k) (hr : requiredHalf (lowerTags s.cfg.tag s.tables.foreign) = some h)
    (hh : h ≠ s.trunk.half) : foreignChanged k s = renumber h s := by
  unfold foreignChanged
  dsimp only
  rw [if_neg hk, hr]
  rcases ht with ht | ht | ht <;> rw [ht] <;> exact if_neg hh

/-- A tag that is heard, and requires it, renumbers the station (R37). -/
theorem hearTag_renumbers {s : State} {tag : Word} {h : Fin 2} (ht : s.trunk.renumbers) (hn : tag ≠ s.cfg.tag)
    (hk : lowerTags s.cfg.tag (takeTag tag s.tables.foreign) ≠ lowerTags s.cfg.tag s.tables.foreign)
    (hr : requiredHalf (lowerTags s.cfg.tag (takeTag tag s.tables.foreign)) = some h) (hh : h ≠ s.trunk.half) :
    hearTag tag s = renumber h (s.setTables { s.tables with foreign := takeTag tag s.tables.foreign }) := by
  unfold hearTag
  rw [if_neg hn]
  exact foreignChanged_renumbers (s := s.setTables { s.tables with foreign := takeTag tag s.tables.foreign }) ht hk hr hh

/-- A tag that leaves the set, and requires it, renumbers the station (R37). -/
theorem dropTag_renumbers {s : State} {tag : Word} {h : Fin 2} (ht : s.trunk.renumbers)
    (hk : lowerTags s.cfg.tag (s.tables.foreign.filter (fun x => x.1 != tag)) ≠ lowerTags s.cfg.tag s.tables.foreign)
    (hr : requiredHalf (lowerTags s.cfg.tag (s.tables.foreign.filter (fun x => x.1 != tag))) = some h)
    (hh : h ≠ s.trunk.half) : dropTag tag s =
      renumber h (s.setTables { s.tables with foreign := s.tables.foreign.filter (fun x => x.1 != tag) }) :=
  foreignChanged_renumbers (s := s.setTables { s.tables with foreign := s.tables.foreign.filter (fun x => x.1 != tag) })
    ht hk hr hh

/-! ### Presence after a renumbering -/

/-- New tables that touch neither copy, want table nor cab record reach an inactive cab's warning list alone (R133). -/
theorem changeTables_quiet {s : State} {t : Tables} (hs : t.slots = s.tables.slots) (hw : t.wants = s.tables.wants)
    (hc : t.cabRecord = none) (hsc : s.tables.cabRecord = none) (hi : s.isCab = true → s.cab.state ≠ .active) :
    ∃ k, changeTables t s = (s.setTables t).setComp k := by
  have hcab : cabRecordChanged s.tables.cabRecord s.namesSelf (s.setTables t) = s.setTables t := by
    have hname : s.namesSelf = (s.setTables t).namesSelf := by
      unfold State.namesSelf
      rw [State.setTables_tables, hc, hsc]
    have hrec : s.tables.cabRecord = (s.setTables t).tables.cabRecord := hsc.trans hc.symm
    rw [hname, hrec]
    exact cabRecordChanged_same
  have heng : engineTables none s.tables (s.setTables t) = s.setTables t :=
    engineTables_quiet (s := s.setTables t) hs.symm hw.symm
  have hch : changeTables t s = composerTables s.tables (s.setTables t) := by
    unfold changeTables handTables
    rw [heng, hcab]
  rw [hch]
  by_cases hcb : s.isCab = true
  · exact composerTables_inactive_frame (s := s.setTables t) (hi hcb) s.tables
  · refine ⟨s.comp, ?_⟩
    unfold composerTables
    exact if_neg hcb

/-- Presence makes the sender's entry, and no other one, in a roster that does not hold it (R29). -/
theorem presence_new {own a : Addr} {tag : Word} {t : Tables} (h : a ≠ own → t.roster[a] = none) :
    ∃ ro : Vector (Option RosterEntry) 16, presence own a tag t = { t with roster := ro } ∧ ro[own] = t.roster[own]
      ∧ ∀ b, b ≠ a → ro[b] = t.roster[b] := by
  by_cases ha : a = own
  · exact ⟨t.roster, if_pos ha, rfl, fun _ _ => rfl⟩
  · refine ⟨t.roster.set a (some (newEntry a tag)), ?_, ?_, fun b hb => ?_⟩
    · unfold presence
      rw [if_neg ha, h ha]
    · rw [getElem_set_fin, if_neg ha]
    · rw [getElem_set_fin, if_neg hb.symm]

/-- The sender of the item that renumbered the station may then get an entry (R29, R38). -/
theorem Arrived.presence {s u : State} {h : Fin 2} {a : Addr} {F : List (Word × Nat)} {tag : Word}
    (hu : Arrived s h (s.addrAt h) F u) : Arrived s h a F (changeTables (Machine.presence u.addr a tag u.tables) u) := by
  obtain ⟨ro, hp, hown, hoth⟩ := presence_new (own := u.addr) (a := a) (tag := tag) (t := u.tables) fun ha => by
    rw [hu.addr] at ha
    exact hu.others a ha ha
  obtain ⟨k, hk⟩ := changeTables_quiet (s := u) (t := { u.tables with roster := ro }) rfl rfl hu.cabRecord hu.cabRecord
    hu.inactive
  rw [hp, hk]
  rw [hu.addr] at hown
  exact
    { trunk := hu.trunk
      cfg := hu.cfg
      channels := hu.channels
      lens := hu.lens
      store := hu.store
      confMem := hu.confMem
      engine := hu.engine
      queue := hu.queue
      inactive := hu.inactive
      foreign := hu.foreign
      slots := hu.slots
      wants := hu.wants
      cabRecord := hu.cabRecord
      rejects := hu.rejects
      own := hown.trans hu.own
      others := fun b hb hba => (hoth b hba).trans (hu.others b hb hb) }

/-- What has heard only itself has heard at most another address too. -/
theorem Arrived.mono {s u : State} {h : Fin 2} {F : List (Word × Nat)} (hu : Arrived s h (s.addrAt h) F u) (a : Addr) :
    Arrived s h a F u :=
  { hu with others := fun b hb _ => hu.others b hb hb }

/-- An item whose tag renumbers the station is then held back, or gives its sender presence and is applied (R29, R35 to
R38). -/
theorem takeItem_renumbers {s : State} {a : Addr} {tag : Word} {h : Fin 2} (ha : s.acting = true) (ht : s.trunk.renumbers)
    (hn : tag ≠ s.cfg.tag) (hk : lowerTags s.cfg.tag (takeTag tag s.tables.foreign) ≠ lowerTags s.cfg.tag s.tables.foreign)
    (hr : requiredHalf (lowerTags s.cfg.tag (takeTag tag s.tables.foreign)) = some h) (hh : h ≠ s.trunk.half) :
    ∃ u, Arrived s h a (takeTag tag s.tables.foreign) u
      ∧ ∀ f, takeItem false a tag f s = u ∨ takeItem false a tag f s = f u := by
  have hear := hearTag_renumbers ht hn hk hr hh
  have harr := renumber_arrived ha h (s.addrAt h) (takeTag tag s.tables.foreign)
  generalize renumber h (s.setTables { s.tables with foreign := takeTag tag s.tables.foreign }) = r at hear harr
  have hitem : ∀ f, takeItem false a tag f s =
      if r.heldBack a tag then r else f (changeTables (presence r.addr a tag r.tables) r) := fun f => by
    unfold takeItem
    rw [if_pos ha, hear]
    rfl
  by_cases hb : r.heldBack a tag = true
  · exact ⟨r, harr.mono a, fun f => .inl ((hitem f).trans (if_pos hb))⟩
  · exact ⟨_, harr.presence, fun f => .inr ((hitem f).trans (if_neg hb))⟩

end Sys2Proof.Machine
end

