-- ==== Sys2Proof/Proofs/AfterForeignTag.lean ====
section
/-! SUPPORT. What an item leaves of the roster and the foreign tags, and the renumbering by each kind of item (R37, R38). -/
namespace Sys2Proof.Machine

/-! ### The roster and the foreign tags over a frame applied -/

/-- From t to t' an item of address a leaves the foreign tags, makes no entry but its sender's, and leaves the own entry, if
its sender is another station. -/
structure Follows (own a : Addr) (t t' : Tables) : Prop where
  foreign : t'.foreign = t.foreign
  others : ∀ b, b ≠ a → t.roster[b] = none → t'.roster[b] = none
  own : a ≠ own → t'.roster[own] = t.roster[own]

theorem Follows.refl (own a : Addr) (t : Tables) : Follows own a t t := ⟨rfl, fun _ _ h => h, fun _ => rfl⟩

theorem Follows.trans {own a : Addr} {t t' t'' : Tables} (h : Follows own a t t') (h' : Follows own a t' t'') :
    Follows own a t t'' :=
  ⟨h'.foreign.trans h.foreign, fun b hb hn => h'.others b hb (h.others b hb hn), fun ho => (h'.own ho).trans (h.own ho)⟩

/-- Tables with the same roster and foreign tags. -/
theorem Follows.of_eq {own a : Addr} {t t' : Tables} (hr : t'.roster = t.roster) (hf : t'.foreign = t.foreign) :
    Follows own a t t' := ⟨hf, fun b _ h => by rw [hr]; exact h, fun _ => by rw [hr]⟩

/-- A new entry of the sender. -/
theorem Follows.of_set {own a : Addr} {t t' : Tables} {e : Option RosterEntry} (hr : t'.roster = t.roster.set a e)
    (hf : t'.foreign = t.foreign) : Follows own a t t' := by
  refine ⟨hf, fun b hb h => ?_, fun ho => ?_⟩
  · rw [hr, getElem_set_fin, if_neg hb.symm]
    exact h
  · rw [hr, getElem_set_fin, if_neg ho]

/-- An entry removed that is not the own one. -/
theorem Follows.of_remove {own a b : Addr} {t : Tables} (hb : b ≠ own) : Follows own a t (removeEntry b t) := by
  have hr : (removeEntry b t).roster = t.roster.set b none := rfl
  refine ⟨rfl, fun c _ h => ?_, fun _ => ?_⟩
  · rw [hr, getElem_set_fin]
    split
    · rfl
    · exact h
  · rw [hr, getElem_set_fin, if_neg hb]

theorem Follows.foldl {α : Type} {own a : Addr} {t u : Tables} (f : Tables → α → Tables) (l : List α)
    (hf : ∀ t x, Follows own a t (f t x)) (h : Follows own a t u) : Follows own a t (l.foldl f u) := by
  induction l generalizing u with
  | nil => exact h
  | cons x xs ih => exact ih (h.trans (hf u x))

theorem rosterIdentity_follows (own a : Addr) (tag : Word) (localNo : Nat) (t : Tables) :
    Follows own a t (rosterIdentity own a tag localNo t) := by
  unfold rosterIdentity
  dsimp only
  generalize hx : List.foldl _ t allAddrs = x
  have hfold : Follows own a t x := by
    rw [← hx]
    refine Follows.foldl _ _ (fun t b => ?_) (Follows.refl own a t)
    split
    · exact Follows.refl own a t
    · next hb =>
      split
      · split
        · exact Follows.of_remove fun h => hb (.inr h)
        · exact Follows.refl own a t
      · exact Follows.refl own a t
  split
  · split
    · next hc => exact hfold.trans (Follows.of_remove hc.1)
    · exact hfold
  · exact hfold

theorem rosterRenew_follows (own a : Addr) (tag : Word) (t : Tables) : Follows own a t (rosterRenew a tag t) := by
  unfold rosterRenew
  split
  · exact Follows.of_set rfl rfl
  · exact Follows.refl own a t

theorem rosterFields_follows (own a : Addr) (tag : Word) (c : RosterContent) (t : Tables) :
    Follows own a t (rosterFields a tag c t) := by
  unfold rosterFields
  split
  · exact Follows.refl own a t
  · exact Follows.of_set rfl rfl

/-- New tables that follow. -/
theorem changeTables_follows {own a : Addr} {t t' : Tables} (s : State) (h : Follows own a t t') :
    Follows own a t (changeTables t' s).tables := by
  rw [changeTables_tables]
  exact h

theorem applyRoster_follows (a : Addr) (tag : Word) (c : Option RosterContent) (s : State) :
    Follows s.addr a s.tables (applyRoster a tag c s).tables := by
  unfold applyRoster
  split
  · exact Follows.of_eq rfl rfl
  · split
    · exact Follows.refl ..
    · simp only [changeTables_tables]
      exact ((rosterIdentity_follows ..).trans (rosterRenew_follows ..)).trans (rosterFields_follows ..)

theorem applyWant_follows (own a : Addr) (c : Option (List WantEntry)) (s : State) :
    Follows own a s.tables (applyWant a c s).tables := by
  have hput : ∀ p ws, Follows own a s.tables (putWant p a ws s).tables := fun p ws => by
    unfold putWant
    rw [tables_of_beside (handTables_beside (some p) s _)]
    exact Follows.of_eq rfl rfl
  unfold applyWant
  split
  · exact Follows.of_eq rfl rfl
  · rw [tables_of_beside (evaluateDemand_keeps (Keeps.refl _)).same]
    exact changeTables_follows s (Follows.of_eq rfl rfl)
  · split
    · exact hput _ _
    · split
      · exact hput _ _
      · exact Follows.of_eq rfl rfl

/-- A control frame applied leaves the foreign tags, and of the roster all but the entries that it removes and its sender's
(R33, R88, R106, R126). -/
theorem applyBody_follows (a : Addr) (tag : Word) (b : FrameBody) (s : State) :
    Follows s.addr a s.tables (applyBody a tag b s).tables := by
  cases b with
  | roster => exact applyRoster_follows a tag _ s
  | door c p =>
    show Follows s.addr a s.tables (applyDoor a (doorContent c p) s).tables
    unfold applyDoor
    split
    · exact Follows.of_eq rfl rfl
    · exact changeTables_follows s (Follows.of_eq rfl rfl)
  | lens i g f =>
    show Follows s.addr a s.tables (applyLens a (lensContent i g) f s).tables
    unfold applyLens
    split
    · exact Follows.of_eq rfl rfl
    · exact changeTables_follows s (Follows.of_set rfl rfl)
  | cab k e =>
    show Follows s.addr a s.tables (applyCab a tag (cabContent k e) s).tables
    unfold applyCab
    split
    · exact Follows.of_eq rfl rfl
    · exact changeTables_follows s (Follows.of_eq rfl rfl)
    · exact changeTables_follows s (Follows.of_eq rfl rfl)
  | want es => exact applyWant_follows s.addr a _ s
  | claim o ot n i c sl =>
    show Follows s.addr a s.tables (applyClaim (claimContent a o n i c sl) s).tables
    unfold applyClaim
    split
    · exact Follows.of_eq rfl rfl
    · exact changeTables_follows s (Follows.of_eq rfl rfl)
  | release o ot n sl =>
    show Follows s.addr a s.tables (applyRelease a (releaseContent a o n sl) s).tables
    unfold applyRelease
    split
    · exact Follows.of_eq rfl rfl
    · exact changeTables_follows s (Follows.of_eq rfl rfl)
  | deny d es =>
    show Follows s.addr a s.tables (applyDeny a (denyContent d es) s).tables
    unfold applyDeny
    split
    · exact Follows.of_eq rfl rfl
    · split
      · rw [tables_of_beside (settlePanes_keeps (Keeps.refl _)).same]
        exact Follows.of_eq rfl rfl
      · exact Follows.refl ..

/-! ### Where a renumbering leads -/

/-- The counters of the Trunk Port, which a renumbering leaves (R38). -/
def Trunk.sameCounts (x y : Trunk) : Prop := x.marksSent = y.marksSent ∧ x.framesSent = y.framesSent
  ∧ x.tilesSent = y.tilesSent ∧ x.markErrors = y.markErrors ∧ x.missedMarks = y.missedMarks
  ∧ x.frameErrors = y.frameErrors ∧ x.tileErrors = y.tileErrors ∧ x.clashes = y.clashes

/-- A station that has been renumbered, by the parts that do not depend on what brought it about (R38). -/
structure Moved (s : State) (h : Fin 2) (t : State) : Prop where
  trunk : t.trunk = s.trunk.moved h
  cfg : t.cfg = s.cfg
  channels : t.channels = s.channels
  lens : t.lens = s.lens
  store : t.store = s.store
  confMem : t.confMem = s.confMem

theorem Arrived.moved {s u : State} {h : Fin 2} {a : Addr} {F : List (Word × Nat)} (hu : Arrived s h a F u) :
    Moved s h u := ⟨hu.trunk, hu.cfg, hu.channels, hu.lens, hu.store, hu.confMem⟩

theorem Moved.refreshPins {s t : State} {h : Fin 2} (ht : Moved s h t) : Moved s h (refreshPins t) :=
  ⟨(refreshPins_trunk t).trans ht.trunk, (refreshPins_cfg t).trans ht.cfg, (refreshPins_channels t).trans ht.channels,
    (refreshPins_lens t).trans ht.lens, (refreshPins_store t).trans ht.store, (refreshPins_confMem t).trans ht.confMem⟩

theorem Moved.addr {s t : State} {h : Fin 2} (ht : Moved s h t) : t.addr = s.addrAt h := by
  apply Fin.ext
  show t.cfg.localNo.val + 8 * t.trunk.half.val = s.cfg.localNo.val + 8 * h.val
  rw [ht.cfg, ht.trunk]
  rfl

/-- What is handed on from a renumbered station's tables leaves it where it is. -/
theorem Moved.of_beside {s u t : State} {h : Fin 2} {T : Tables} (hu : Moved s h u) (hb : t.beside = (u.setTables T).beside) :
    Moved s h t := by
  have ho : ∀ c, (u.setTables T).trunk.out ≠ .control c := fun c => by
    rw [State.setTables_trunk, hu.trunk]
    exact keepMark_not_control s.trunk.out c
  have hch : t.channels = u.channels := (congrArg State.channels hb :)
  have hle : t.lens = u.lens := (congrArg State.lens hb :)
  have hst : t.store = u.store := (congrArg State.store hb :)
  have hcm : t.confMem = u.confMem := (congrArg State.confMem hb :)
  have hcf : t.cfg = u.cfg := (congrArg State.cfg hb :)
  exact ⟨(trunk_of_beside hb ho).trans hu.trunk, hcf.trans hu.cfg, hch.trans hu.channels, hle.trans hu.lens,
    hst.trans hu.store, hcm.trans hu.confMem⟩

/-- The Trunk Port and the address of a renumbered station (R22, R38). -/
theorem Moved.port {s t : State} {h : Fin 2} (ht : Moved s h t) : t.trunk.half = h
    ∧ t.addr.val = s.cfg.localNo.val + 8 * h.val ∧ t.trunk.state = .listen ∧ t.trunk.renumbered = true
    ∧ t.trunk.consecClash = 0 ∧ t.trunk.candidate = false ∧ t.trunk.roundCount = s.trunk.roundCount := by
  rw [ht.addr, ht.trunk]
  exact ⟨rfl, rfl, rfl, rfl, rfl, rfl, rfl⟩

/-- Its counters (R38). -/
theorem Moved.counts {s t : State} {h : Fin 2} (ht : Moved s h t) : t.trunk.sameCounts s.trunk := by
  rw [ht.trunk]
  exact ⟨rfl, rfl, rfl, rfl, rfl, rfl, rfl, rfl⟩

theorem Trunk.sameCounts.trans {x y z : Trunk} (h : x.sameCounts y) (h' : y.sameCounts z) : x.sameCounts z := by
  obtain ⟨a1, a2, a3, a4, a5, a6, a7, a8⟩ := h
  obtain ⟨b1, b2, b3, b4, b5, b6, b7, b8⟩ := h'
  exact ⟨a1.trans b1, a2.trans b2, a3.trans b3, a4.trans b4, a5.trans b5, a6.trans b6, a7.trans b7, a8.trans b8⟩

/-- The state in which an item is taken differs from `s` in the place of the round, the line and the contention alone. -/
structure Beside (s b : State) : Prop where
  cfg : b.cfg = s.cfg
  tables : b.tables = s.tables
  half : b.trunk.half = s.trunk.half
  counts : b.trunk.sameCounts s.trunk
  channels : b.channels = s.channels
  lens : b.lens = s.lens
  store : b.store = s.store
  confMem : b.confMem = s.confMem

theorem Beside.addr {s b : State} (hb : Beside s b) : b.addr = s.addr := addr_congr hb.cfg hb.half

/-- A station that is renumbered there has the roster of `s` but for its own entry and the sender's (R29, R38). -/
theorem Arrived.roster {s b u : State} {h : Fin 2} {a : Addr} {F : List (Word × Nat)} (hu : Arrived b h a F u)
    (hb : Beside s b) : u.tables.roster[u.addr] = s.tables.roster[s.addr]
      ∧ ∀ c, c ≠ u.addr → c ≠ a → u.tables.roster[c] = none := by
  have hown : u.tables.roster[u.addr] = s.tables.roster[s.addr] := calc
    u.tables.roster[u.addr] = u.tables.roster[b.addrAt h] := getElem_congr_idx hu.addr
    _ = b.tables.roster[b.addr] := hu.own
    _ = b.tables.roster[s.addr] := getElem_congr_idx hb.addr
    _ = s.tables.roster[s.addr] := getElem_congr_coll (congrArg Tables.roster hb.tables)
  exact ⟨hown, fun c hc hca => hu.others c (fun h => hc (h.trans hu.addr.symm)) hca⟩

/-- A renumbering by a control frame (R20, R37, R38). -/
theorem takeFrame_renumbers {s b w : State} {f : ControlFrame} {h : Fin 2} (hb : Beside s b) (ha : b.acting = true)
    (ht : b.trunk.renumbers) (hn : f.tag ≠ s.cfg.tag)
    (hk : lowerTags s.cfg.tag (takeTag f.tag s.tables.foreign) ≠ lowerTags s.cfg.tag s.tables.foreign)
    (hr : requiredHalf (lowerTags s.cfg.tag (takeTag f.tag s.tables.foreign)) = some h) (hh : h ≠ s.trunk.half)
    (hw : takeFrame false f b = w) : Moved b h w ∧ w.tables.foreign = takeTag f.tag s.tables.foreign
      ∧ (f.addr ≠ w.addr → w.tables.roster[w.addr] = s.tables.roster[s.addr])
      ∧ ∀ c, c ≠ w.addr → c ≠ f.addr → w.tables.roster[c] = none := by
  obtain ⟨u, hu, hcase⟩ := takeItem_renumbers (s := b) (a := f.addr) (tag := f.tag) (h := h) ha ht (by rwa [hb.cfg])
    (by rwa [hb.cfg, hb.tables]) (by rwa [hb.cfg, hb.tables]) (by rwa [hb.half])
  obtain ⟨hown, hoth⟩ := hu.roster hb
  have hF : u.tables.foreign = takeTag f.tag s.tables.foreign := by rw [hu.foreign, hb.tables]
  have hdef : takeFrame false f b = takeItem false f.addr f.tag (applyBody f.addr f.tag f.body) b := rfl
  rcases hcase (applyBody f.addr f.tag f.body) with hc | hc
  · obtain rfl : u = w := hc.symm.trans (hdef.symm.trans hw)
    exact ⟨hu.moved, hF, fun _ => hown, hoth⟩
  · obtain ⟨T, hT⟩ := applyBody_keeps_some (r := u) (t := u.tables) (Keeps.refl u) f.addr f.tag f.body
    have hfol := applyBody_follows f.addr f.tag f.body u
    rw [← hc, ← hdef, hw] at hT hfol
    have hmov : Moved b h w := hu.moved.of_beside hT.same
    have haddr : w.addr = u.addr := hmov.addr.trans hu.addr.symm
    refine ⟨hmov, hfol.foreign.trans hF, fun hne => ?_, fun c hc hca => ?_⟩
    · calc
        w.tables.roster[w.addr] = w.tables.roster[u.addr] := getElem_congr_idx haddr
        _ = u.tables.roster[u.addr] := hfol.own fun he => hne (he.trans haddr.symm)
        _ = s.tables.roster[s.addr] := hown
    · exact hfol.others c hca (hoth c (fun he => hc (he.trans haddr.symm)) hca)

/-- A renumbering by a tile's header (R20, R37, R38, R43). -/
theorem takeTile_renumbers {s b w : State} {n : Slot} {hd : TileHeader} {payload : List Byte} {h : Fin 2} (hb : Beside s b)
    (ha : b.acting = true) (ht : b.trunk.renumbers) (hslot : hd.slot = byte n.val) (hn : hd.tag ≠ s.cfg.tag)
    (hk : lowerTags s.cfg.tag (takeTag hd.tag s.tables.foreign) ≠ lowerTags s.cfg.tag s.tables.foreign)
    (hr : requiredHalf (lowerTags s.cfg.tag (takeTag hd.tag s.tables.foreign)) = some h) (hh : h ≠ s.trunk.half)
    (hw : w.beside = (takeTile false n hd payload b).beside) :
    Moved b h w ∧ w.tables.foreign = takeTag hd.tag s.tables.foreign ∧ w.tables.roster[w.addr] = s.tables.roster[s.addr]
      ∧ ∀ c, c ≠ w.addr → c ≠ hd.addr → w.tables.roster[c] = none := by
  obtain ⟨u, hu, hcase⟩ := takeItem_renumbers (s := b) (a := hd.addr) (tag := hd.tag) (h := h) ha ht (by rwa [hb.cfg])
    (by rwa [hb.cfg, hb.tables]) (by rwa [hb.cfg, hb.tables]) (by rwa [hb.half])
  obtain ⟨hown, hoth⟩ := hu.roster hb
  have hF : u.tables.foreign = takeTag hd.tag s.tables.foreign := by rw [hu.foreign, hb.tables]
  rw [takeTile_beside false payload b hslot, observeHeader] at hw
  obtain ⟨T, hT, hro, hfo⟩ : ∃ T, w.beside = (u.setTables T).beside ∧ T.roster = u.tables.roster
      ∧ T.foreign = u.tables.foreign := by
    rcases hcase (observe n (headerEntry hd.streamId)) with hc | hc
    · rw [hc] at hw
      exact ⟨u.tables, hw, rfl, rfl⟩
    · rw [hc, observe_beside] at hw
      exact ⟨_, hw, rfl, rfl⟩
  have hmov : Moved b h w := hu.moved.of_beside hT
  have haddr : w.addr = u.addr := hmov.addr.trans hu.addr.symm
  have htab : w.tables = T := tables_of_beside_setTables hT
  have hwr : w.tables.roster = u.tables.roster := (congrArg Tables.roster htab).trans hro
  refine ⟨hmov, (congrArg Tables.foreign htab).trans (hfo.trans hF), ?_, fun c hc hca => ?_⟩
  · calc
      w.tables.roster[w.addr] = w.tables.roster[u.addr] := getElem_congr_idx haddr
      _ = u.tables.roster[u.addr] := getElem_congr_coll hwr
      _ = s.tables.roster[s.addr] := hown
  · exact (getElem_congr_coll hwr).trans (hoth c (fun he => hc (he.trans haddr.symm)) hca)

/-- The obligation's record of a station that has been moved. -/
theorem Moved.record {s b t : State} {h : Fin 2} (hb : Beside s b) (hc : b.trunk.roundCount = s.trunk.roundCount)
    (ht : Moved b h t) : t.trunk.half = h ∧ t.addr.val = s.cfg.localNo.val + 8 * h.val ∧ t.trunk.state = .listen
      ∧ t.trunk.renumbered = true ∧ t.trunk.consecClash = 0 ∧ t.trunk.candidate = false
      ∧ t.trunk.marksSent = s.trunk.marksSent ∧ t.trunk.framesSent = s.trunk.framesSent
      ∧ t.trunk.tilesSent = s.trunk.tilesSent ∧ t.trunk.markErrors = s.trunk.markErrors
      ∧ t.trunk.missedMarks = s.trunk.missedMarks ∧ t.trunk.frameErrors = s.trunk.frameErrors
      ∧ t.trunk.tileErrors = s.trunk.tileErrors ∧ t.trunk.clashes = s.trunk.clashes
      ∧ t.trunk.roundCount = s.trunk.roundCount
      ∧ t.channels = s.channels ∧ t.lens = s.lens ∧ t.store = s.store ∧ t.confMem = s.confMem := by
  obtain ⟨p1, p2, p3, p4, p5, p6, p7⟩ := ht.port
  obtain ⟨c1, c2, c3, c4, c5, c6, c7, c8⟩ := ht.counts.trans hb.counts
  rw [hb.cfg] at p2
  exact ⟨p1, p2, p3, p4, p5, p6, c1, c2, c3, c4, c5, c6, c7, c8, p7.trans hc, ht.channels.trans hb.channels,
    ht.lens.trans hb.lens, ht.store.trans hb.store, ht.confMem.trans hb.confMem⟩

end Sys2Proof.Machine
end

