-- ==== Sys2Proof/Proofs/ForeignTagRenumbers.lean ====
section
/-! SUPPORT. A foreign tag renumbers the station, by the command that brings it (R37, R38). -/
namespace Sys2Proof.Machine

/-- Driving the output lines leaves what a renumbering has left. -/
theorem Arrived.refreshPins {s u : State} {h : Fin 2} {a : Addr} {F : List (Word × Nat)} (hu : Arrived s h a F u) :
    Arrived s h a F (refreshPins u) :=
  { hu with }

theorem Beside.refl (s : State) : Beside s s :=
  ⟨rfl, rfl, rfl, ⟨rfl, rfl, rfl, rfl, rfl, rfl, rfl, rfl⟩, rfl, rfl, rfl, rfl⟩

/-- The station as a heard control frame's content is taken (R3, R8). -/
theorem beside_frameEnded (s : State) : Beside s s.frameEnded :=
  ⟨rfl, rfl, rfl, ⟨rfl, rfl, rfl, rfl, rfl, rfl, rfl, rfl⟩, rfl, rfl, rfl, rfl⟩

/-- The station as a tile's content is taken (R18). -/
theorem beside_atSlotEnd (s : State) (n : Slot) : Beside s (s.atSlotEnd n) :=
  ⟨rfl, rfl, rfl, ⟨rfl, rfl, rfl, rfl, rfl, rfl, rfl, rfl⟩, rfl, rfl, rfl, rfl⟩

/-- The Trunk Port as a heard MARK's content is taken (R4, R5). -/
theorem lost_sameCounts (t : Trunk) : t.lost.sameCounts t := by
  rw [Trunk.lost_frame]
  exact ⟨rfl, rfl, rfl, rfl, rfl, rfl, rfl, rfl⟩

/-- A renumbering by a heard MARK (R5, R37, R38). -/
theorem markBodyReceived_renumbers {s : State} {rx : MarkRx} {count : Byte} {h : Fin 2} (hb : s.boot.phase = .started)
    (ht : s.trunk.renumbers) (hr : readMark rx = some count) (hn : rx.tag ≠ s.cfg.tag)
    (hk : lowerTags s.cfg.tag (takeTag rx.tag s.tables.foreign) ≠ lowerTags s.cfg.tag s.tables.foreign)
    (hreq : requiredHalf (lowerTags s.cfg.tag (takeTag rx.tag s.tables.foreign)) = some h) (hh : h ≠ s.trunk.half) :
    ∃ b, Beside s b ∧ b.trunk.roundCount = count ∧ b.movedQueue = s.movedQueue
      ∧ Arrived b h rx.addr (takeTag rx.tag s.tables.foreign) (markBodyReceived rx s) := by
  generalize hx : ({ s.trunk.lost with roundCount := count, opening := .intact } : Trunk) = x
  have hxs : x.state = s.trunk.state := by rw [← hx]; exact s.trunk.lost_state
  have hxh : x.half = s.trunk.half := by rw [← hx]; exact s.trunk.lost_half
  have hxc : x.sameCounts s.trunk := by rw [← hx]; exact lost_sameCounts s.trunk
  have hxt : (s.setTrunk x).trunk.renumbers := by
    unfold Trunk.renumbers
    rw [State.setTrunk_trunk, hxs]
    exact ht
  have hxa : (s.setTrunk x).acting = true := acting_of_renumbers hb hxt
  obtain ⟨u, hu, hcase⟩ := takeItem_renumbers (s := s.setTrunk x) (a := rx.addr) (tag := rx.tag) (h := h) hxa hxt hn hk
    hreq (by rw [State.setTrunk_trunk, hxh]; exact hh)
  have htake : takeItem false rx.addr rx.tag id (s.setTrunk x) = u := by
    rcases hcase id with hc | hc <;> exact hc
  refine ⟨s.setTrunk x, ⟨rfl, rfl, hxh, hxc, rfl, rfl, rfl, rfl⟩, by rw [← hx]; rfl, rfl, ?_⟩
  rw [markBodyReceived_intact hb hr, hx, htake, hu.hearingIntact]
  exact hu

/-- Settles O14: by a MARK, a control frame, a tile, and a tag that leaves the set. -/
theorem foreignTagRenumbers : Obligations.ForeignTagRenumbers := by
  refine ⟨fun s rx count h hs hb ht hr hn hk hreq hh => ?_, fun s h hb ht hh moved hmoved => ⟨?_, ?_, ?_⟩⟩
  · obtain ⟨b, hbes, hcount, hq, harr⟩ := markBodyReceived_renumbers hb ht hr hn hk hreq hh
    have hu := harr.refreshPins
    have hexec : exec (.markBodyReceived rx) s = .next (refreshPins (markBodyReceived rx s)) :=
      exec_act hs (f := markBodyReceived rx) rfl
    generalize refreshPins (markBodyReceived rx s) = t at hexec hu
    obtain ⟨p1, p2, p3, p4, p5, p6, p7⟩ := hu.moved.port
    obtain ⟨c1, c2, c3, c4, c5, c6, c7, c8⟩ := hu.moved.counts.trans hbes.counts
    obtain ⟨hown, hoth⟩ := hu.roster hbes
    exact ⟨t, hexec, p1, p2.trans (by rw [hbes.cfg]), p3, p4, p5, p6, c1, c2, c3, c4, c5, c6, c7, c8, p7.trans hcount,
      hu.engine, hu.slots, hu.wants, hu.cabRecord, hu.foreign, hown, hoth, hu.rejects.trans (by rw [hbes.tables]),
      hu.queue.trans hq, hu.channels.trans hbes.channels, hu.lens.trans hbes.lens, hu.store.trans hbes.store,
      hu.confMem.trans hbes.confMem⟩
  · intro k rx f hs hr hk hn hl hreq
    have ha : s.frameEnded.acting = true := acting_of_renumbers hb ht
    have hw := takeFrame_renumbers (beside_frameEnded s) ha ht hn hl hreq hh rfl
    have hexec := exec_heardBy hs k rx
    rw [frameHeard_frame hb hr hk] at hexec
    obtain ⟨hmov, hF, hown, hoth⟩ := hw
    exact ⟨_, hexec, (hmoved _).mpr (hmov.refreshPins.record (beside_frameEnded s) rfl), hF, hown, hoth⟩
  · intro n rx hd payload hs hy hv ho hr hslot hn hl hreq
    have ha : s.acting = true := acting_of_renumbers hb ht
    obtain ⟨t, hexec, htb⟩ := (slotObservation_tile_beside hs ha rfl ((knowsRound_iff s).mpr ⟨hy, hv⟩) ho).2 rx hd payload hr
    obtain ⟨hmov, hF, hown, hoth⟩ := takeTile_renumbers (beside_atSlotEnd s n) ha ht hslot hn hl hreq hh htb
    exact ⟨t, hexec, (hmoved t).mpr (hmov.record (beside_atSlotEnd s n) rfl), hF, hown, hoth⟩
  · intro tag age hmem hage hn hl hreq
    have ha : s.acting = true := acting_of_renumbers hb ht
    have hdue : s.tagDue tag = true := List.any_eq_true.mpr ⟨(tag, age), hmem, by simp [hage]⟩
    have hdrop : tagAgedOut tag s = dropTag tag s := if_pos hdue
    have hexec : exec (.foreignTagAgedOut tag) s = .next (refreshPins (tagAgedOut tag s)) := rfl
    have hu := (renumber_arrived ha h (s.addrAt h) (s.tables.foreign.filter (fun x => x.1 != tag))).refreshPins
    rw [hdrop, dropTag_renumbers ht hl hreq hh] at hexec
    obtain ⟨hown, hoth⟩ := hu.roster (Beside.refl s)
    refine ⟨_, hexec, (hmoved _).mpr (hu.moved.record (Beside.refl s) rfl), hu.foreign, hu.engine, hu.slots, hu.wants,
      hu.cabRecord, hown, fun a hta => hoth a hta fun he => hta (he.trans hu.addr.symm), hu.queue⟩

end Sys2Proof.Machine
end

