-- ==== Sys2Proof/Proofs/Microsecond.lean ====
section
/-! SUPPORT. The step on an empty queue: what is due, what a timer makes due, and one microsecond of local time (log 1). -/
namespace Sys2Proof.Machine

/-! ### Which step is taken -/

/-- What is due comes first (log 2). -/
theorem step_of_due {s : State} (hp : s.pending = []) {c : Instr} (h : s.nextDue = some c) : step s = exec c s := by
  simp only [step, idleStep, hp, h]

/-- Then what a timer makes due (log 3). -/
theorem step_of_expiry {s : State} (hp : s.pending = []) {c : Instr} (h : s.nextDue = none) (he : s.expiry = some c) :
    step s = exec c s := by
  simp only [step, idleStep, hp, h, he]

/-- Then time goes on (log 1). -/
theorem step_of_tick {s : State} (hp : s.pending = []) (h : s.nextDue = none) (he : s.expiry = none) :
    step s = .next (tick s) := by
  simp only [step, idleStep, hp, h, he]

/-- Where no timer is at its limit, the slot at whose start the round stands is due (R16; logs 50, 81). -/
theorem expiry_of_slotDue {s : State} {n : Slot} (ha : s.acting = true) (ht : s.trunk.timer ≠ 0) (hg : s.gapDue = false)
    (hs : firstSome s.timerSteps = none) (hd : s.slotDue = some n) : s.expiry = some (.dataSlotStart n) := by
  have htimer : (s.trunk.timer == 0) = false := by simpa using ht
  unfold State.expiry
  simp only [started_of_acting ha, ha, if_true, htimer, hg, hs, hd, dueIf, Bool.false_eq_true, if_false, firstSome,
    Option.map_some]

/-! ### One microsecond of local time -/

/-- A station one microsecond later, before a part of the round starts (R1, R2, R79). -/
def State.later (s : State) : State := tickPorts (tickBlocks ((s.setNow (s.now + 1)).setClocked true))

/-- A microsecond in a station that is held in reset, or reads its configuration (R167). -/
theorem tick_held {s : State} (h : s.boot.phase = .held) : tick s = s.setNow (s.now + 1) := by
  unfold tick
  simp only [State.setNow_boot, h]

theorem tick_reading {s : State} (h : s.boot.phase = .reading) : tick s = (s.setNow (s.now + 1)).setBoot
    { s.boot with readTimer := upTo 5000 s.boot.readTimer } := by
  unfold tick
  simp only [State.setNow_boot, h]
  rfl

/-- A microsecond in a station that has started and does not act (R22). -/
theorem tick_idle {s : State} (h : s.boot.phase = .started) (ha : s.acting = false) :
    tick s = tickPorts (s.setNow (s.now + 1)) := by
  have ha' : (s.setNow (s.now + 1)).acting = false := ha
  unfold tick
  simp only [State.setNow_boot, h, ha', Bool.false_eq_true, if_false]

/-- A microsecond in a station that acts. -/
theorem tick_acting {s : State} (ha : s.acting = true) : tick s = refreshPins (enterPart s.later) := by
  have ha' : (s.setNow (s.now + 1)).acting = true := ha
  unfold tick
  simp only [State.setNow_boot, started_of_acting ha, ha', if_true]
  rfl

/-! ### The parts of the round -/

theorem positionAt_start (k : Fin 4) : positionAt (40 + 70 * k.val) = some k := by fin_cases k <;> rfl

theorem positionAt_slot (n : Slot) : positionAt (320 + 192 * n.val) = none := by fin_cases n <;> rfl

theorem positionAt_none {o : Nat} (h : ∀ k : Fin 4, o ≠ 40 + 70 * k.val) : positionAt o = none := by
  unfold positionAt
  rw [List.find?_eq_none]
  intro k _ hk
  exact h k (beq_iff_eq.mp hk).symm

theorem slotAt_none {o : Nat} (h : ∀ n : Slot, o ≠ 320 + 192 * n.val) : slotAt o = none := by
  unfold slotAt
  rw [List.find?_eq_none]
  intro n _ hn
  exact h n (beq_iff_eq.mp hn).symm

/-- Between the starts of the parts nothing starts (R1). -/
theorem enterPart_between {y : State} (h : y.trunk.synced = false ∨ ((∀ k : Fin 4, y.trunk.offset ≠ 40 + 70 * k.val)
    ∧ ∀ n : Slot, y.trunk.offset ≠ 320 + 192 * n.val)) : enterPart y = y := by
  unfold enterPart
  rcases h with h | ⟨hk, hn⟩
  · rw [h]
    rfl
  · split
    · simp only [positionAt_none hk, slotAt_none hn]
    · rfl

/-- The Trunk Port as a control position starts (R8). -/
def Trunk.atPosition (q : List QueueEntry) (t : Trunk) : Trunk :=
  { t with contending := if t.state = .joined ∧ t.won = false ∧ t.clashed = false ∧ t.out = .idle then
      q.head?.map (fun e => e.subject) else none }

/-- At the start of a control position the station contends or does not (R8). -/
theorem enterPart_position {y : State} {k : Fin 4} (hb : y.boot.phase = .started) (hy : y.trunk.synced = true)
    (ho : y.trunk.offset = 40 + 70 * k.val) : enterPart y = y.setTrunk (y.trunk.atPosition y.queue) := by
  have hp : enterPart y = positionStart k.val y := by
    unfold enterPart
    rw [if_pos hy, ho, positionAt_start]
  rw [hp, positionStart_eq hb, hy, ← ho]
  unfold Trunk.atPosition
  simp only [if_true, Nat.sub_self, Nat.add_zero, Nat.max_self, true_and]
  rfl

/-- At the start of a data slot the receive filter is kept, and a tile may be sent (R16, R20). -/
theorem enterPart_slot {y : State} {n : Slot} (hy : y.trunk.synced = true) (ho : y.trunk.offset = 320 + 192 * n.val) :
    enterPart y = slotStart n y := by
  unfold enterPart
  rw [if_pos hy, ho, positionAt_slot]
  simp only [slotAt_slotStart]

/-- A slot that starts at its place in the round changes the stream engine and the Trunk Port alone (R16). -/
theorem slotStart_frame {y : State} {n : Slot} (hy : y.trunk.synced = true) (ho : y.trunk.offset = 320 + 192 * n.val) :
    ∃ e x, slotStart n y = (y.setEngine e).setTrunk x ∧ x.filter = some (y.tileFilter n) := by
  have hat : y.atSlot n = y.setTrunk { y.trunk with filter := some (y.tileFilter n) } := by
    unfold State.atSlot
    rw [hy, ← ho]
    simp only [if_true, Nat.sub_self, Nat.add_zero, Nat.max_self]
    rfl
  by_cases hm : (y.atSlot n).maySendTile = true
  · cases hx : y.slotStream n with
    | some p =>
      obtain ⟨k, x⟩ := p
      rw [slotStart_sends hm hx, hat]
      exact ⟨_, _, rfl, rfl⟩
    | none =>
      rw [slotStart_silent (.inr hx), hat]
      exact ⟨y.engine, _, rfl, rfl⟩
  · rw [slotStart_silent (.inl (by simpa using hm)), hat]
    exact ⟨y.engine, _, rfl, rfl⟩

/-- Whatever part starts, the engine and the Trunk Port alone change (R1, R8, R16). -/
theorem enterPart_frame {y : State} (hb : y.boot.phase = .started) : ∃ e x, enterPart y = (y.setEngine e).setTrunk x := by
  by_cases hy : y.trunk.synced = true
  · by_cases hk : ∃ k : Fin 4, y.trunk.offset = 40 + 70 * k.val
    · obtain ⟨k, hk⟩ := hk
      rw [enterPart_position hb hy hk]
      exact ⟨y.engine, _, rfl⟩
    · by_cases hn : ∃ n : Slot, y.trunk.offset = 320 + 192 * n.val
      · obtain ⟨n, hn⟩ := hn
        obtain ⟨e, x, hx, -⟩ := slotStart_frame hy hn
        rw [enterPart_slot hy hn, hx]
        exact ⟨e, x, rfl⟩
      · rw [enterPart_between (.inr ⟨fun k h => hk ⟨k, h⟩, fun n h => hn ⟨n, h⟩⟩)]
        exact ⟨y.engine, y.trunk, rfl⟩
  · rw [enterPart_between (.inl (by simpa using hy))]
    exact ⟨y.engine, y.trunk, rfl⟩

end Sys2Proof.Machine
end

