-- ==== Sys2Proof/Proofs/EmptyQueue.lean ====
section
/-! SUPPORT. What one microsecond leaves, block by block (R1, R2, R63 to R67, R79, R82, R112 to R115, R144, R170). -/
namespace Sys2Proof.Machine

/-- The Trunk Port one microsecond later (R1, R2). -/
def Trunk.later (t : Trunk) : Trunk :=
  { t with timer := t.timer - 1, offset := if t.synced = true ∧ t.offset < 4928 then t.offset + 1 else t.offset }

/-- The ports one microsecond later (R1, R2, R170). -/
theorem tickPorts_eq (s : State) : tickPorts s = (s.setTrunk s.trunk.later).setService s.service.tick := by
  have ho : (if s.trunk.synced then upTo Config.tailStart s.trunk.offset else s.trunk.offset) =
      if s.trunk.synced = true ∧ s.trunk.offset < 4928 then s.trunk.offset + 1 else s.trunk.offset := by
    unfold upTo Config.tailStart
    by_cases hy : s.trunk.synced = true <;> simp [hy]
  unfold tickPorts Trunk.later
  rw [ho]
  rfl

theorem later_trunk (s : State) : s.later.trunk = s.trunk.later := by
  unfold State.later
  rw [tickPorts_eq]
  rfl

/-- A microsecond of a station that acts changes, beside what time changes, the stream engine, the Trunk Port and the output
lines alone. -/
theorem tick_acting_frame {s : State} (ha : s.acting = true) :
    ∃ e x p, tick s = ((s.later.setEngine e).setTrunk x).setPins p := by
  obtain ⟨e, x, hx⟩ := enterPart_frame (y := s.later) (started_of_acting ha)
  have hp : ∀ u, refreshPins u = u.setPins u.outputs := fun _ => rfl
  rw [tick_acting ha, hx, hp]
  exact ⟨e, x, _, rfl⟩

/-- What a microsecond leaves in every boot phase. -/
theorem tick_kept (s : State) : (tick s).now = s.now + 1 ∧ (tick s).pending = s.pending ∧ (tick s).queue = s.queue
    ∧ (tick s).tables = s.tables ∧ (tick s).levels = s.levels ∧ (tick s).cfg = s.cfg ∧ (tick s).confMem = s.confMem := by
  cases hb : s.boot.phase with
  | held =>
    rw [tick_held hb]
    exact ⟨rfl, rfl, rfl, rfl, rfl, rfl, rfl⟩
  | reading =>
    rw [tick_reading hb]
    exact ⟨rfl, rfl, rfl, rfl, rfl, rfl, rfl⟩
  | started =>
    cases ha : s.acting with
    | false =>
      rw [tick_idle hb ha, tickPorts_eq]
      exact ⟨rfl, rfl, rfl, rfl, rfl, rfl, rfl⟩
    | true =>
      obtain ⟨e, x, p, hx⟩ := tick_acting_frame ha
      rw [hx]
      exact ⟨rfl, rfl, rfl, rfl, rfl, rfl, rfl⟩

/-- The gap of a frame of the service line one microsecond later (R170). -/
theorem tick_service {s : State} (hb : s.boot.phase = .started) : (tick s).service = s.service.tick := by
  cases ha : s.acting with
  | false =>
    rw [tick_idle hb ha, tickPorts_eq]
    rfl
  | true =>
    obtain ⟨e, x, p, hx⟩ := tick_acting_frame ha
    rw [hx]
    rfl

/-- A filter as the obligation writes it (R79). -/
theorem LineFilter.tick_eq {s : State} {run : LineFilter → Bool → LineFilter} (h : ∀ f level, run f level = { f with
      differ := if level = f.accepted then 0 else min s.cfg.filterTime (f.differ + 1)
      still := min s.cfg.filterTime (f.still + 1) }) (f : LineFilter) (level : Bool) :
    f.tick level s.cfg.filterTime = run f level := (h f level).symm

/-- The absence timer of an input (R63, R65, R67). -/
theorem InputRecord.tick_eq (r : InputRecord) : r.tick = { r with
    stall := if r.state = .live then r.stall - 1 else r.stall
    absence := if r.state ≠ .absent ∧ r.absence < 2000000 then r.absence + 1 else r.absence } := by
  unfold InputRecord.tick upTo Config.absenceTime
  by_cases h : r.state = .absent <;> simp [h]

section
variable {s : State} (ha : s.acting = true)
include ha

/-- The door channels one microsecond later (R79, R82). -/
theorem tick_channels (c : Chan) : (tick s).channels[c] = (s.channels[c]).map (fun ch => ch.tick s.levels.door[c] s.cfg) := by
  obtain ⟨e, x, p, hx⟩ := tick_acting_frame ha
  have hc : (tick s).channels = vec4 (fun c => (s.channels[c]).map (fun ch => ch.tick s.levels.door[c] s.cfg)) := by
    rw [hx]
    rfl
  exact (getElem_congr_coll hc).trans (vec4_get _ c)

/-- The inputs one microsecond later (R63, R65 to R67). -/
theorem tick_inputs (i : Input) : (tick s).intake.inputs[i] = (s.intake.inputs[i]).map InputRecord.tick := by
  obtain ⟨e, x, p, hx⟩ := tick_acting_frame ha
  have hi : (tick s).intake.inputs = s.intake.inputs.map (fun x => x.map InputRecord.tick) := by
    rw [hx]
    rfl
  exact (getElem_congr_coll hi).trans (Vector.getElem_map ..)

/-- The other blocks one microsecond later. -/
theorem tick_blocks : (tick s).clocked = true
    ∧ (tick s).couplerFilter = (if s.cfg.endStation.isSome then s.couplerFilter.tick s.levels.coupler s.cfg.filterTime
        else s.couplerFilter)
    ∧ (tick s).intake.request = s.intake.request ∧ (tick s).lens = { s.lens with periodTimer := s.lens.periodTimer - 1 }
    ∧ (tick s).store = s.store.tick
    ∧ (tick s).cab = (if s.isCab then s.cab.tick s.levels s.cfg.filterTime else s.cab)
    ∧ (tick s).comp = { s.comp with left := s.comp.left.tick, right := s.comp.right.tick } := by
  obtain ⟨e, x, p, hx⟩ := tick_acting_frame ha
  rw [hx]
  exact ⟨rfl, rfl, rfl, rfl, rfl, rfl, rfl⟩

/-- Between the starts of the parts of the round (R1). -/
theorem tick_between (h : s.trunk.synced = false ∨ ((∀ k : Fin 4, s.trunk.later.offset ≠ 40 + 70 * k.val)
    ∧ ∀ n : Slot, s.trunk.later.offset ≠ 320 + 192 * n.val)) :
    (tick s).trunk = s.trunk.later ∧ (tick s).engine = s.engine := by
  have hl : s.later.trunk = s.trunk.later := later_trunk s
  have he : enterPart s.later = s.later := enterPart_between (by rw [hl]; exact h)
  rw [tick_acting ha, he, refreshPins_trunk, refreshPins_engine]
  exact ⟨hl, rfl⟩

/-- At the start of a control position (R8). -/
theorem tick_position {k : Fin 4} (hy : s.trunk.synced = true) (ho : s.trunk.later.offset = 40 + 70 * k.val) :
    (tick s).trunk = s.trunk.later.atPosition s.queue ∧ (tick s).engine = s.engine := by
  have hl : s.later.trunk = s.trunk.later := later_trunk s
  have hyl : s.later.trunk.synced = true := by
    rw [hl]
    exact hy
  have he : enterPart s.later = s.later.setTrunk (s.later.trunk.atPosition s.later.queue) :=
    enterPart_position (started_of_acting ha) hyl (by rw [hl]; exact ho)
  rw [tick_acting ha, he, refreshPins_trunk, refreshPins_engine, hl]
  exact ⟨rfl, rfl⟩

/-- At the start of a data slot (R16, R20). -/
theorem tick_slot {n : Slot} (hy : s.trunk.synced = true) (ho : s.trunk.later.offset = 320 + 192 * n.val) :
    (tick s).trunk.filter = some (s.tileFilter n) ∧ tick s = refreshPins (slotStart n s.later) := by
  have hl : s.later.trunk = s.trunk.later := later_trunk s
  have hyl : s.later.trunk.synced = true := by
    rw [hl]
    exact hy
  have hol : s.later.trunk.offset = 320 + 192 * n.val := by
    rw [hl]
    exact ho
  have he : tick s = refreshPins (slotStart n s.later) := by rw [tick_acting ha, enterPart_slot hyl hol]
  obtain ⟨e, x, hx, hf⟩ := slotStart_frame hyl hol
  refine ⟨?_, he⟩
  rw [he, hx, refreshPins_trunk, State.setTrunk_trunk, hf]
  rfl

end

/-- Settles O2: which step is taken, and what a microsecond leaves. -/
theorem stepOnEmptyQueue : Obligations.StepOnEmptyQueue := by
  refine ⟨fun s hp => ⟨fun c hc => step_of_due hp hc, fun c hn he => step_of_expiry hp hn he,
    fun hn he => step_of_tick hp hn he, fun n hn ha ht hg hs hy ho hf => step_of_expiry hp hn
      (expiry_of_slotDue ha ht hg hs (slotDue_eq hy ho hf))⟩, fun s t run tr down ht hrun htr hdown => ?_⟩
  have htr : tr = s.trunk.later := htr
  subst ht
  subst htr
  obtain ⟨k1, k2, k3, k4, k5, k6, k7⟩ := tick_kept s
  have hfil := LineFilter.tick_eq hrun
  refine ⟨k1, k2, k3, k4, k5, k6, k7, fun ha => (tick_blocks ha).1, tick_held, tick_reading, fun hb => ⟨?_, fun ha => ?_⟩,
    fun ha => ?_⟩
  · rw [tick_service hb]
    cases s.service <;> rfl
  · rw [tick_service hb, tick_idle hb ha, tickPorts_eq]
    rfl
  obtain ⟨-, hco, hreq, hle, hst, hcab, hcomp⟩ := tick_blocks ha
  refine ⟨fun c ch hc => ?_, fun c hc => ?_, ?_, fun i r hr => ?_, fun i hr => ?_, hreq, hle, ?_, ?_, hcomp,
    fun h => tick_between ha h, fun k hy ho => ?_, fun n hy ho => ?_⟩
  · rw [tick_channels ha, hc, ← hfil, ← hfil, ← hfil]
    rfl
  · rw [tick_channels ha, hc]
    rfl
  · rw [hco, ← hfil]
    cases s.cfg.endStation <;> rfl
  · rw [tick_inputs ha, hr, Option.map_some, InputRecord.tick_eq]
  · rw [tick_inputs ha, hr]
    rfl
  · rw [hst, hdown, hdown]
    rfl
  · rw [hcab, ← hfil, ← hfil, ← hfil, ← hfil, ← hfil]
    rfl
  · obtain ⟨h1, h2⟩ := tick_position ha hy ho
    exact ⟨h2, h1⟩
  · obtain ⟨h1, h2⟩ := tick_slot ha hy ho
    refine ⟨h1, ?_⟩
    rintro mid rfl
    exact ⟨later_trunk s, fun hs => (exec_actClock hs (f := slotStart n) rfl).trans (by rw [h2]; rfl)⟩

end Sys2Proof.Machine
end

