-- ==== Sys2Proof/Proofs/HeardDemand.lean ====
section
/-! SUPPORT. WANT, CLAIM and RELEASE heard (R29, R40 to R42, R46 to R48). -/
namespace Sys2Proof.Machine

/-! ### WANT -/

/-- A WANT that is not well-formed is counted (R46). -/
theorem applyWant_none_beside {r s : State} {t : Tables} (h : s.beside = (r.setTables t).beside) (a : Addr) :
    (applyWant a none s).beside = (r.setTables { t with demandRejects := t.demandRejects + 1#16 }).beside := by
  unfold applyWant
  rw [setTables_beside h, tables_of_beside_setTables h]
  rfl

/-- Settles O23: presence, and then the record replaced, made, refused for want of a place, or emptied, or the count of
rejects. -/
theorem wantFrameApplied : Obligations.WantFrameApplied := by
  intro s rx f es hs hr hf ha
  obtain ⟨u, hu, hub⟩ := exec_heardBy_admitted (k := .want) hs hr (by rw [hf]; rfl) ha
  rw [hf, applyBody] at hu
  refine ⟨fun w ws p hc hp => ⟨_, hu, ?_⟩, fun w ws hc hp hn => ⟨_, hu, ?_⟩, fun hc => ⟨_, hu, ?_⟩, fun hc => ⟨_, hu, ?_⟩⟩
    <;> rw [beside_refreshPins, hc]
  · exact applyWant_put_beside hub hp
  · exact applyWant_full_beside hub w ws hp hn
  · exact applyWant_empty_beside hub f.addr
  · exact applyWant_none_beside hub f.addr

/-! ### CLAIM -/

/-- A slot freed by a condition on its entry. -/
theorem getElem_freeWhere (m : Vector SlotEntry 24) (p : SlotEntry → Bool) (q : Slot) :
    (freeWhere m p)[q] = if p m[q] = true then SlotEntry.free else m[q] := Vector.getElem_map ..

/-- A CLAIM whose listed slots are free, or its own stream's, takes them, and frees the stream's other slots (R41). -/
theorem claimSlots_takes {id : StreamId} {sl : List Slot} {m : Vector SlotEntry 24}
    (h : ∀ q ∈ sl, m[q].owner = none ∨ m[q].names id.addr id.num = true) :
    (claimSlots id sl m).1 = true ∧ ∀ q : Slot, (claimSlots id sl m).2[q] =
      if q ∈ sl then { owner := some id, silent := 0 }
      else if m[q].names id.addr id.num = true then SlotEntry.free else m[q] := by
  have hall : sl.all (fun k => ((freeWhere m (fun e => e.names id.addr id.num))[k]).owner.isNone) = true := by
    refine List.all_eq_true.mpr fun q hq => ?_
    rw [getElem_freeWhere]
    split
    · rfl
    · next hn => rw [(h q hq).resolve_right hn]; rfl
  unfold claimSlots
  simp only [hall, if_true]
  exact ⟨trivial, fun q => by rw [getElem_setSlots, getElem_freeWhere]⟩

/-- A CLAIM that lists another stream's slot is void, and frees its own stream's slots (R41). -/
theorem claimSlots_void {id : StreamId} {sl : List Slot} {m : Vector SlotEntry 24} {q : Slot} (hq : q ∈ sl)
    (ho : m[q].owner ≠ none) (hn : m[q].names id.addr id.num = false) :
    (claimSlots id sl m).1 = false ∧ ∀ k : Slot, (claimSlots id sl m).2[k] =
      if m[k].names id.addr id.num = true then SlotEntry.free else m[k] := by
  have hall : sl.all (fun k => ((freeWhere m (fun e => e.names id.addr id.num))[k]).owner.isNone) = false := by
    refine List.all_eq_false.mpr ⟨q, hq, ?_⟩
    rw [getElem_freeWhere, if_neg (Bool.eq_false_iff.mp hn)]
    simpa using ho
  unfold claimSlots
  simp only [hall, Bool.false_eq_true, if_false]
  exact ⟨trivial, getElem_freeWhere m _⟩

/-- What a well-formed CLAIM leaves (R41). -/
theorem applyClaim_beside {r s : State} {t : Tables} (h : s.beside = (r.setTables t).beside) (id : StreamId)
    (sl : List Slot) : (applyClaim (some (id, sl)) s).beside = (r.setTables { t with
      slots := (claimSlots id sl t.slots).2
      voidClaims := if (claimSlots id sl t.slots).1 then t.voidClaims else t.voidClaims + 1#16 }).beside := by
  unfold applyClaim
  simp only [changeTables_beside_again h, tables_of_beside_setTables h]
  rfl

/-- One that is not well-formed is counted (R41). -/
theorem applyClaim_none_beside {r s : State} {t : Tables} (h : s.beside = (r.setTables t).beside) :
    (applyClaim none s).beside = (r.setTables { t with demandRejects := t.demandRejects + 1#16 }).beside := by
  unfold applyClaim
  rw [setTables_beside h, tables_of_beside_setTables h]
  rfl

/-- Presence does not touch the counters (R29). -/
theorem presence_voidClaims (own a : Addr) (tag : Word) (t : Tables) :
    (presence own a tag t).voidClaims = t.voidClaims := by
  unfold presence
  repeat' split
  all_goals rfl

/-- An item heard does not touch the count of void CLAIMs. -/
theorem heardTables_voidClaims (s : State) (a : Addr) (tag : Word) :
    (s.heardTables a tag).voidClaims = s.tables.voidClaims := by
  unfold State.heardTables
  rw [presence_voidClaims]
  split <;> rfl

/-- Settles O24: the leftovers freed, and the listed slots taken or the CLAIM void. -/
theorem claimFrameApplied : Obligations.ClaimFrameApplied := by
  intro s rx f o n i k ot sl hs hr hf ha
  obtain ⟨u, hu, hub⟩ := exec_heardBy_admitted (k := .claim) hs hr (by rw [hf]; rfl) ha
  rw [hf, applyBody] at hu
  refine ⟨fun id slots hc => ?_, fun hc => ⟨_, hu, ?_⟩⟩
  · rw [hc] at hu
    have hid : id.addr = f.addr := addr_of_claimContent hc
    have hbes := applyClaim_beside hub id slots
    have htab := tables_of_beside_setTables hbes
    rw [← beside_refreshPins] at hbes
    rw [← refreshPins_tables] at htab
    generalize refreshPins (applyClaim (some (id, slots)) u) = t at hu hbes htab
    refine ⟨t, hu, by rw [hbes, htab], fun hfree => ?_, fun ⟨q, hq, ho, hn⟩ => ?_⟩ <;> rw [htab]
    · rw [← hid] at hfree ⊢
      obtain ⟨htake, hslots⟩ := claimSlots_takes hfree
      refine ⟨?_, fun q hq => (hslots q).trans (if_pos hq), fun q hq => (hslots q).trans (if_neg hq)⟩
      show (if (claimSlots id slots _).1 = true then _ else _) = _
      rw [if_pos htake]
      exact heardTables_voidClaims s id.addr f.tag
    · rw [← hid] at hn ho ⊢
      obtain ⟨hvoid, hslots⟩ := claimSlots_void hq ho hn
      refine ⟨?_, hslots⟩
      show (if (claimSlots id slots _).1 = true then _ else _) = _
      rw [hvoid, heardTables_voidClaims]
      rfl
  · rw [beside_refreshPins, hc]
    exact applyClaim_none_beside hub

/-! ### RELEASE -/

/-- What a well-formed RELEASE leaves (R42). -/
theorem applyRelease_beside {r s : State} {t : Tables} (h : s.beside = (r.setTables t).beside) (a : Addr) (n : StreamNo)
    (sl : List Slot) : (applyRelease a (some (n, sl)) s).beside =
      (r.setTables { t with slots := releaseSlots a n sl t.slots }).beside := by
  unfold applyRelease
  simp only [changeTables_beside_again h, tables_of_beside_setTables h]

/-- One that is not well-formed is counted (R42). -/
theorem applyRelease_none_beside {r s : State} {t : Tables} (h : s.beside = (r.setTables t).beside) (a : Addr) :
    (applyRelease a none s).beside = (r.setTables { t with demandRejects := t.demandRejects + 1#16 }).beside := by
  unfold applyRelease
  rw [setTables_beside h, tables_of_beside_setTables h]
  rfl

end Sys2Proof.Machine
end

