-- ==== Sys2Proof/Proofs/Senders.lean ====
section
/-! SUPPORT. The coupler line accepted (R34), control frames that are not applied (R9, R19, R35 to R37), and the presence of a
sender (R27, R29, R31). -/
namespace Sys2Proof.Machine

/-! ### The coupler line -/

/-- A filter that has run out takes the level of its line (R79). -/
theorem LineFilter.accept_of_differs {f : LineFilter} {level : Bool} (h : level ≠ f.accepted) :
    f.accept = { f with accepted := level, differ := 0 } := by
  have hn : (!f.accepted) = level := by
    cases level <;> cases hf : f.accepted <;> simp [hf] at h ⊢
  unfold LineFilter.accept
  rw [hn]

/-- A change of the coupler line that is due at an end station (R34). -/
theorem couplerAccepted_of_due {s : State} (h : s.acting = true ∧ s.cfg.endStation.isSome = true
    ∧ s.couplerFilter.due s.levels.coupler s.cfg.filterTime = true) : couplerAccepted s = offer .roster .plain
      ((s.setCouplerFilter s.couplerFilter.accept).setTables { s.tables with
        roster := s.tables.roster.set s.addr ((s.tables.roster[s.addr]).map (fun e => { e with
          coupler := (s.setCouplerFilter s.couplerFilter.accept).ownCoupler })) }) := if_pos h

/-- Settles O37: the coupler filter is due, and its new value stands in the own entry. -/
theorem couplerLineAcceptedOffersRoster : Obligations.CouplerLineAcceptedOffersRoster := by
  intro s x e hs ha hx hl hd he
  have hdue : s.couplerFilter.due s.levels.coupler s.cfg.filterTime = true := by
    simp [LineFilter.due, hl, hd]
  have hown : ∀ f, (s.setCouplerFilter f).ownCoupler = some (x, f.accepted) := fun f => by
    unfold State.ownCoupler
    rw [State.setCouplerFilter_cfg, hx]
    rfl
  rw [exec_actClock hs (f := couplerAccepted) rfl, couplerAccepted_of_due ⟨ha, by rw [hx]; rfl, hdue⟩, he,
    Option.map_some, hown, LineFilter.accept_of_differs hl]

/-! ### Frames that are not applied -/

/-- A command that fails its check, and a void ending (R9, R19). -/
theorem frameHeard_not_frame {s : State} (hb : s.boot.phase = .started) (k : FrameKind) (rx : ControlRx) :
    (readControl rx = .failed → frameHeard k rx s =
        s.frameEnded.setTrunk { s.frameEnded.trunk with frameErrors := s.trunk.frameErrors + 1#16 })
    ∧ (readControl rx = .empty → frameHeard k rx s = s.frameEnded) := by
  constructor
  all_goals
    intro hr
    unfold frameHeard
    rw [if_pos hb, hr]
    simp only [hearSignal_eq]
    rfl

/-- Settles O18: the filters hold the item back, the check fails, or there is no frame. -/
theorem frameNotApplied : Obligations.FrameNotApplied := by
  refine ⟨fun s k rx f hs ha hr hk hh ht => ?_, fun s k rx hs hb => ⟨fun hr => ?_, fun hr => ?_⟩⟩ <;> rw [exec_heardBy hs]
  · have hheld : s.frameEnded.heldBack f.addr f.tag = true := (heldBack_setTrunk s _ (by rfl) f.addr f.tag).trans hh
    rw [frameHeard_frame (started_of_acting ha) hr hk, takeFrame,
      takeItem_quiet (s := s.frameEnded) ha ht, if_pos hheld]
  · rw [(frameHeard_not_frame hb k rx).1 hr]
  · rw [(frameHeard_not_frame hb k rx).2 hr]

/-! ### The presence of a sender -/

/-- A tag taken into the set stands there with age 0, and the others as they stood (R37). -/
theorem mem_takeTag (tag x : Word) (y : Nat) (f : List (Word × Nat)) :
    (x, y) ∈ takeTag tag f ↔ (x = tag ∧ y = 0) ∨ (x ≠ tag ∧ (x, y) ∈ f) := by
  unfold takeTag
  rw [mem_insertBy, List.mem_filter]
  simp [and_comm]

/-- Presence by the entry that the sender has: none (R29). -/
theorem presence_of_none {own a : Addr} {tag : Word} {t : Tables} (ha : a ≠ own) (h : t.roster[a] = none) :
    presence own a tag t = { t with roster := t.roster.set a (some (newEntry a tag)) } := by
  unfold presence
  rw [if_neg ha, h]

/-- One of its tag (R29). -/
theorem presence_of_same {own a : Addr} {tag : Word} {t : Tables} {e : RosterEntry} (ha : a ≠ own)
    (h : t.roster[a] = some e) (he : e.tag = tag) :
    presence own a tag t = { t with roster := t.roster.set a (some { e with presence := .present, age := 0 }) } := by
  unfold presence
  rw [if_neg ha, h]
  exact if_pos he

/-- One of another tag, which is removed (R29, R31). -/
theorem presence_of_other {own a : Addr} {tag : Word} {t : Tables} {e : RosterEntry} (ha : a ≠ own)
    (h : t.roster[a] = some e) (he : e.tag ≠ tag) :
    presence own a tag t = { removeEntry a t with
      roster := (removeEntry a t).roster.set a (some (newEntry a tag)) } := by
  unfold presence
  rw [if_neg ha, h]
  exact if_neg he

/-- Presence leaves the foreign tags (R29). -/
theorem presence_foreign (own a : Addr) (tag : Word) (t : Tables) : (presence own a tag t).foreign = t.foreign := by
  unfold presence
  repeat' split
  all_goals rfl

/-- Presence leaves the entries of other addresses (R29). -/
theorem presence_others {own a b : Addr} (tag : Word) (t : Tables) (hb : b ≠ a) :
    (presence own a tag t).roster[b] = t.roster[b] := by
  by_cases ha : a = own
  · unfold presence
    rw [if_pos ha]
  · cases h : t.roster[a] with
    | none => rw [presence_of_none ha h, getElem_set_fin, if_neg hb.symm]
    | some e =>
      by_cases he : e.tag = tag
      · rw [presence_of_same ha h he, getElem_set_fin, if_neg hb.symm]
      · rw [presence_of_other ha h he, getElem_set_fin, if_neg hb.symm]
        show (t.roster.set a none)[b] = _
        rw [getElem_set_fin, if_neg hb.symm]

/-- The tables that presence is given in: only the foreign tags differ from before (R37). -/
theorem heardTables_eq (s : State) (a : Addr) (tag : Word) :
    ∃ F, s.heardTables a tag = presence s.addr a tag { s.tables with foreign := F }
      ∧ F = if tag = s.cfg.tag then s.tables.foreign else takeTag tag s.tables.foreign := by
  refine ⟨_, ?_, rfl⟩
  unfold State.heardTables
  split <;> rfl

/-- The foreign tags once an item has been heard (R37). -/
theorem heardTables_foreign (s : State) (a : Addr) (tag : Word) : (s.heardTables a tag).foreign =
    if tag = s.cfg.tag then s.tables.foreign else takeTag tag s.tables.foreign := by
  obtain ⟨F, h, hF⟩ := heardTables_eq s a tag
  rw [h, presence_foreign, hF]

/-- An item leaves the entries of other addresses (R29). -/
theorem heardTables_others (s : State) {a b : Addr} (tag : Word) (hb : b ≠ a) :
    (s.heardTables a tag).roster[b] = s.tables.roster[b] := by
  obtain ⟨F, h, -⟩ := heardTables_eq s a tag
  rw [h, presence_others tag _ hb]

/-- An item of a sender whose entry has its tag (R29). -/
theorem heardTables_same {s : State} {a : Addr} {tag : Word} {e : RosterEntry} (ha : a ≠ s.addr)
    (h : s.tables.roster[a] = some e) (he : e.tag = tag) : s.heardTables a tag = { s.tables with
      foreign := if tag = s.cfg.tag then s.tables.foreign else takeTag tag s.tables.foreign
      roster := s.tables.roster.set a (some { e with presence := .present, age := 0 }) } := by
  obtain ⟨F, hF, hFe⟩ := heardTables_eq s a tag
  rw [hF, presence_of_same (t := { s.tables with foreign := F }) ha h he, ← hFe]

/-- An item of a sender that has no entry, or one of another tag, makes a new one (R29, R31). -/
theorem heardTables_new {s : State} {a : Addr} {tag : Word} (ha : a ≠ s.addr)
    (h : ∀ e, s.tables.roster[a] = some e → e.tag ≠ tag) :
    (s.heardTables a tag).roster[a] = some (newEntry a tag) := by
  obtain ⟨F, hF, -⟩ := heardTables_eq s a tag
  rw [hF]
  cases hr : s.tables.roster[a] with
  | none => rw [presence_of_none (t := { s.tables with foreign := F }) ha hr, getElem_set_fin, if_pos rfl]
  | some e => rw [presence_of_other (t := { s.tables with foreign := F }) ha hr (h e hr), getElem_set_fin, if_pos rfl]

/-- Settles O19: the other addresses, the foreign tags, and the sender's entry by the one that it had. -/
theorem presenceOfSender : Obligations.PresenceOfSender := by
  intro s a tag _ ha
  refine ⟨fun b hb => heardTables_others s tag hb, fun ht => ?_, fun x y hx => ?_, fun e he htag => ?_, fun he => ?_⟩
  · rw [heardTables_foreign, if_neg ht]
    exact (mem_takeTag tag tag 0 _).mpr (.inl ⟨rfl, rfl⟩)
  · rw [heardTables_foreign]
    split
    · rfl
    · simp [mem_takeTag, hx]
  · rw [heardTables_same ha he htag]
    refine ⟨rfl, ?_⟩
    rw [getElem_set_fin, if_pos rfl]
  · rw [heardTables_new ha he]
    rfl

end Sys2Proof.Machine
end

