-- ==== Sys2Proof/Proofs/Removals.lean ====
section
/-! SUPPORT. Stations that go GONE, and stations that are removed together (R30, R31, R39). -/
namespace Sys2Proof.Machine

/-! ### Removing several stations -/

/-- The tables without the stations of some addresses: their entries, doors, slots, want records and cab record (R31). -/
def Tables.without (t : Tables) (g : Addr → Bool) : Tables :=
  { t with
    roster := vec16 (fun b => if g b then none else t.roster[b])
    doors := t.doors.filter (fun d => !g d.id.addr)
    slots := freeWhere t.slots (fun e => e.owner.any (fun id => g id.addr))
    wants := t.wants.map (fun w => w.filter (fun r => !g r.sender))
    cabRecord := t.cabRecord.filter (fun r => !g r.addr) }

theorem without_roster (t : Tables) (g : Addr → Bool) (b : Addr) :
    (t.without g).roster[b] = if g b then none else t.roster[b] := vec16_get _ b

theorem mem_without_doors (t : Tables) (g : Addr → Bool) (d : DoorEntry) :
    d ∈ (t.without g).doors ↔ d ∈ t.doors ∧ g d.id.addr = false := by
  rw [show (t.without g).doors = t.doors.filter (fun d => !g d.id.addr) from rfl, List.mem_filter]
  simp

/-- Nobody removed. -/
theorem without_none (t : Tables) : t.without (fun _ => false) = t := by
  have hr : vec16 (fun b => t.roster[b]) = t.roster := by
    ext1 i hi
    exact vec16_get _ ⟨i, hi⟩
  have hs : freeWhere t.slots (fun e => e.owner.any (fun _ => false)) = t.slots :=
    freeWhere_none fun q => by cases t.slots[q].owner <;> rfl
  have hw : t.wants.map (fun w => w.filter (fun _ => true)) = t.wants := by
    ext1 i hi
    rw [Vector.getElem_map]
    cases t.wants[i] <;> rfl
  have hc : t.cabRecord.filter (fun _ => true) = t.cabRecord := by cases t.cabRecord <;> rfl
  simp only [Tables.without, Bool.false_eq_true, if_false, Bool.not_false, hr, hs, hw, hc, List.filter_true]

/-- A slot entry's owner, if it has one. -/
theorem ownedBy_eq (e : SlotEntry) (a : Addr) : e.ownedBy a = e.owner.any (fun id => id.addr == a) := by
  unfold SlotEntry.ownedBy
  cases e.owner <;> rfl

/-- A removal is one of several (R31). -/
theorem removeEntry_eq_without (a : Addr) (t : Tables) : removeEntry a t = t.without (fun b => b == a) := by
  have hr : t.roster.set a none = vec16 (fun b => if b == a then none else t.roster[b]) := by
    ext1 i hi
    have h := vec16_get (fun b => if b == a then none else t.roster[b]) ⟨i, hi⟩
    rw [show (vec16 (fun b => if b == a then none else t.roster[b]))[i] = _ from h,
      show (t.roster.set a none)[i] = (t.roster.set a none)[(⟨i, hi⟩ : Addr)] from rfl, getElem_set_fin]
    by_cases h : (⟨i, hi⟩ : Addr) = a
    · rw [if_pos h.symm, h, beq_self_eq_true]
      rfl
    · rw [if_neg (Ne.symm h), beq_eq_false_iff_ne.mpr h]
      rfl
  have hs : freeWhere t.slots (fun e => e.ownedBy a) = freeWhere t.slots (fun e => e.owner.any (fun id => id.addr == a)) :=
    congrArg (freeWhere t.slots) (funext fun e => ownedBy_eq e a)
  have hd : (t.doors.map (fun d => if d.id.addr = a then { d with phase := .unknown } else d)).filter
      (fun d => d.id.addr != a) = t.doors.filter (fun d => !(d.id.addr == a)) := by
    induction t.doors with
    | nil => rfl
    | cons d ds ih =>
      rw [List.map_cons]
      by_cases h : d.id.addr = a
      · rw [if_pos h, List.filter_cons_of_neg (by simp [h]), List.filter_cons_of_neg (by simp [h]), ih]
      · rw [if_neg h, List.filter_cons_of_pos (by simp [h]), List.filter_cons_of_pos (by simp [h]), ih]
  have hw : dropSender t.wants a = t.wants.map (fun w => w.filter (fun r => !(r.sender == a))) := by
    unfold dropSender
    refine congrArg (fun f => t.wants.map f) (funext fun w => ?_)
    cases w with
    | none => rfl
    | some r => by_cases h : r.sender = a <;> simp [Option.filter, h]
  have hc : dropCab t.cabRecord a = t.cabRecord.filter (fun r => !(r.addr == a)) := by
    unfold dropCab
    cases t.cabRecord with
    | none => rfl
    | some r => by_cases h : r.addr = a <;> simp [Option.filter, h]
  simp only [removeEntry, goneEffects, Tables.without, hr, hs, hd, hw, hc]

/-- Some stations removed, and then others. -/
theorem without_without (t : Tables) (g h : Addr → Bool) : (t.without g).without h = t.without (fun b => g b || h b) := by
  have hr : vec16 (fun b => if h b then none else (t.without g).roster[b]) =
      vec16 (fun b => if g b || h b then none else t.roster[b]) := by
    refine congrArg vec16 (funext fun b => ?_)
    rw [without_roster]
    cases g b <;> cases h b <;> rfl
  have hs : freeWhere (freeWhere t.slots (fun e => e.owner.any (fun id => g id.addr)))
      (fun e => e.owner.any (fun id => h id.addr)) =
      freeWhere t.slots (fun e => e.owner.any (fun id => g id.addr || h id.addr)) := by
    unfold freeWhere
    rw [Vector.map_map]
    refine congrArg (fun f => t.slots.map f) (funext fun e => ?_)
    cases he : e.owner with
    | none => simp [he]
    | some id => cases hg : g id.addr <;> simp [he, hg, SlotEntry.free]
  have hd : (t.doors.filter (fun d => !g d.id.addr)).filter (fun d => !h d.id.addr) =
      t.doors.filter (fun d => !(g d.id.addr || h d.id.addr)) := by
    rw [List.filter_filter]
    refine List.filter_congr fun d _ => ?_
    cases g d.id.addr <;> cases h d.id.addr <;> rfl
  have hw : (t.wants.map (fun w => w.filter (fun r => !g r.sender))).map (fun w => w.filter (fun r => !h r.sender)) =
      t.wants.map (fun w => w.filter (fun r => !(g r.sender || h r.sender))) := by
    rw [Vector.map_map]
    refine congrArg (fun f => t.wants.map f) (funext fun w => ?_)
    cases w with
    | none => rfl
    | some r => cases hg : g r.sender <;> simp [Option.filter, hg]
  have hc : (t.cabRecord.filter (fun r => !g r.addr)).filter (fun r => !h r.addr) =
      t.cabRecord.filter (fun r => !(g r.addr || h r.addr)) := by
    cases t.cabRecord with
    | none => rfl
    | some r => cases hg : g r.addr <;> simp [Option.filter, hg]
  have key : (t.without g).without h = { t with
      roster := vec16 (fun b => if h b then none else (t.without g).roster[b])
      doors := (t.doors.filter (fun d => !g d.id.addr)).filter (fun d => !h d.id.addr)
      slots := freeWhere (freeWhere t.slots (fun e => e.owner.any (fun id => g id.addr)))
        (fun e => e.owner.any (fun id => h id.addr))
      wants := (t.wants.map (fun w => w.filter (fun r => !g r.sender))).map (fun w => w.filter (fun r => !h r.sender))
      cabRecord := (t.cabRecord.filter (fun r => !g r.addr)).filter (fun r => !h r.addr) } := rfl
  rw [key, hr, hs, hd, hw, hc]
  rfl

/-- Has an address an entry of a property? -/
def Tables.entryHas (t : Tables) (p : Addr → RosterEntry → Bool) (b : Addr) : Bool := (t.roster[b]).any (p b)

/-- The station at an address removed, if its entry has a property. -/
def removeIf (p : Addr → RosterEntry → Bool) (t : Tables) (b : Addr) : Tables :=
  if t.entryHas p b then removeEntry b t else t

theorem removeIf_eq_without (p : Addr → RosterEntry → Bool) (t : Tables) (b : Addr) :
    removeIf p t b = t.without (fun c => c == b && t.entryHas p b) := by
  unfold removeIf
  split
  · next h => simp [removeEntry_eq_without, h]
  · next h =>
    have hf : t.entryHas p b = false := by simpa using h
    simp [hf, without_none]

/-- A removal leaves what the other entries have. -/
theorem entryHas_without (p : Addr → RosterEntry → Bool) (t : Tables) (g : Addr → Bool) (b : Addr) :
    (t.without g).entryHas p b = (!g b && t.entryHas p b) := by
  unfold Tables.entryHas
  rw [without_roster]
  cases g b <;> rfl

/-- Going through some addresses removes those whose entry has the property (R31, R33, R39). -/
theorem foldl_removeIf (p : Addr → RosterEntry → Bool) (l : List Addr) (t : Tables) :
    l.foldl (removeIf p) t = t.without (fun b => l.contains b && t.entryHas p b) := by
  induction l generalizing t with
  | nil => exact (without_none t).symm
  | cons x xs ih =>
    rw [List.foldl_cons, ih, removeIf_eq_without, without_without]
    refine congrArg t.without (funext fun b => ?_)
    rw [entryHas_without, List.contains_cons]
    by_cases hb : b = x
    · subst hb
      cases t.entryHas p b <;> simp
    · rw [beq_eq_false_iff_ne.mpr hb]
      simp

theorem mem_allAddrs (a : Addr) : a ∈ allAddrs := by fin_cases a <;> decide

/-- Going through every address. -/
theorem foldl_removeIf_all (p : Addr → RosterEntry → Bool) (t : Tables) :
    allAddrs.foldl (removeIf p) t = t.without (t.entryHas p) := by
  rw [foldl_removeIf]
  refine congrArg t.without (funext fun b => ?_)
  rw [List.contains_iff_mem.mpr (mem_allAddrs b), Bool.true_and]

/-! ### A departed tram -/

/-- Is an entry one of a foreign tram's (R39)? -/
def purged (own : Addr) (tag : Word) (a : Addr) (e : RosterEntry) : Bool := decide (a ≠ own ∧ e.tag = tag)

/-- The removal of every entry of a tag but the own one (R39). -/
theorem removeTag_eq (own : Addr) (tag : Word) (t : Tables) :
    removeTag own tag t = t.without (t.entryHas (purged own tag)) := by
  rw [← foldl_removeIf_all]
  unfold removeTag
  refine congrArg (fun f => allAddrs.foldl f t) (funext fun u => funext fun a => ?_)
  unfold removeIf Tables.entryHas purged
  cases u.roster[a] with
  | none => rfl
  | some e => simp

/-- What a purge does to the tables (R39). -/
theorem purgeTram_eq {s : State} {tag : Word} (h : tag ∈ s.tables.departed) : purgeTram tag s =
    changeTables { s.tables.without (s.tables.entryHas (purged s.addr tag)) with
      departed := s.tables.departed.filter (fun x => x != tag) } s := by
  unfold purgeTram
  rw [if_pos (show s.purgeDue tag = true from List.contains_iff_mem.mpr h), removeTag_eq]

/-- A tram that no tick has found departed is not purged (R39). -/
theorem purgeTram_of_not {s : State} {tag : Word} (h : tag ∉ s.tables.departed) : purgeTram tag s = s :=
  if_neg fun hc => h (List.contains_iff_mem.mp hc)

/-- Nothing of a removed station stands in the tables (R31). -/
theorem without_gone {t : Tables} {g : Addr → Bool} {a : Addr} (h : g a = true) :
    (t.without g).roster[a] = none ∧ (∀ d ∈ (t.without g).doors, d.id.addr ≠ a)
      ∧ ∀ (k : Slot) id, (t.without g).slots[k].owner = some id → id.addr ≠ a := by
  refine ⟨by rw [without_roster, if_pos h], fun d hd he => ?_, fun k id hk he => ?_⟩
  · have := ((mem_without_doors t g d).mp hd).2
    rw [he, h] at this
    exact Bool.noConfusion this
  · have hs : (t.without g).slots[k] = _ := getElem_freeWhere t.slots _ k
    rw [hs] at hk
    split at hk
    · simp [SlotEntry.free] at hk
    · next hn => exact hn (by rw [hk, Option.any_some, he, h])

/-- A station that stays keeps its entry and its doors. -/
theorem without_kept {t : Tables} {g : Addr → Bool} {a : Addr} (h : g a = false) :
    (t.without g).roster[a] = t.roster[a]
      ∧ (t.without g).doors.filter (fun d => d.id.addr == a) = t.doors.filter (fun d => d.id.addr == a) := by
  refine ⟨by rw [without_roster, h]; rfl, ?_⟩
  show (t.doors.filter (fun d => !g d.id.addr)).filter _ = _
  rw [List.filter_filter]
  refine List.filter_congr fun d _ => ?_
  by_cases hd : d.id.addr = a
  · simp [hd, h]
  · simp [hd]

/-! ### A silent station -/

/-- A station that goes GONE keeps its entry's fields; its slots, doors, want record and cab record follow (R30). -/
theorem stationGone_eq {s : State} {a : Addr} {e : RosterEntry} (he : s.tables.roster[a] = some e) (ha : a ≠ s.addr)
    (hp : e.presence = .present) (hage : 48 ≤ e.age) : stationGone a s = changeTables
      (goneEffects a { s.tables with roster := s.tables.roster.set a (some { e with presence := .gone }) }) s := by
  have hdue : s.goneDue a = true := by
    unfold State.goneDue
    rw [he]
    simp [ha, hage, RosterEntry.isPresent, hp]
  unfold stationGone goGone
  rw [if_pos hdue, he]

/-- The slots of a station that has gone, freed one by one (R30). -/
theorem freeWhere_ownedBy (m : Vector SlotEntry 24) (a : Addr) : freeWhere m (fun e => e.ownedBy a) =
    m.map (fun k => match k.owner with
      | some id => if id.addr = a then SlotEntry.free else k
      | none => k) := by
  unfold freeWhere
  refine congrArg (fun f => m.map f) (funext fun k => ?_)
  simp only [ownedBy_eq]
  cases k.owner with
  | none => rfl
  | some id => simp

/-- Settles O16: the station that goes GONE, and the tram that is purged or not. -/
theorem stationsDepart : Obligations.StationsDepart := by
  refine ⟨fun s a e he ha hp hage => ⟨_, rfl, ?_⟩, fun s tag => ⟨fun hn => ?_, fun hd => ?_⟩⟩
  · rw [actDue, beside_refreshPins, stationGone_eq he ha hp hage, changeTables_beside]
    unfold goneEffects
    rw [freeWhere_ownedBy]
    rfl
  · show Host.Outcome.next (refreshPins (purgeTram tag s)) = _
    rw [purgeTram_of_not hn]
  · refine ⟨_, rfl, ?_⟩
    rw [actDue, purgeTram_eq hd, beside_refreshPins, refreshPins_tables, changeTables_beside, changeTables_tables]
    refine ⟨rfl, rfl, rfl, fun a e he htag ha => without_gone ?_, fun a hn => without_kept ?_⟩
    · simp [Tables.entryHas, purged, he, htag, ha]
    · cases he : s.tables.roster[a] with
      | none => simp [Tables.entryHas, he]
      | some e => simp [Tables.entryHas, purged, he, hn e he]

end Sys2Proof.Machine
end

