-- ==== Sys2Proof/Proofs/HeardRoster.lean ====
section
/-! SUPPORT. A ROSTER heard (R29, R31, R33, R91, R107, R127). -/
namespace Sys2Proof.Machine

/-! ### The identity that a ROSTER carries -/

/-- Does a ROSTER's identity remove an entry: another address's that holds it, or the sender's with another local number
(R31, R33)? -/
def displaced (own a : Addr) (tag : Word) (localNo : Nat) (b : Addr) (e : RosterEntry) : Bool :=
  decide (b ≠ own ∧ if b = a then e.localNo.val ≠ localNo else e.tag = tag ∧ e.localNo.val = localNo)

/-- The tables once a ROSTER's identity has removed what it removes (R33). -/
def Tables.cleared (t : Tables) (own a : Addr) (tag : Word) (localNo : Nat) : Tables :=
  t.without (t.entryHas (displaced own a tag localNo))

/-- ROSTER step 2 removes the other addresses' entries first, and then the sender's (R33). -/
theorem rosterIdentity_removeIf (own a : Addr) (tag : Word) (localNo : Nat) (t : Tables) :
    rosterIdentity own a tag localNo t = removeIf (displaced own a tag localNo)
      (allAddrs.foldl (removeIf (fun b e => b != a && displaced own a tag localNo b e)) t) a := by
  have hf : (fun (t : Tables) (b : Addr) => if b = a ∨ b = own then t else
      match t.roster[b] with
      | some e => if e.tag = tag ∧ e.localNo.val = localNo then removeEntry b t else t
      | none => t) = removeIf (fun b e => b != a && displaced own a tag localNo b e) := by
    refine funext fun u => funext fun b => ?_
    unfold removeIf Tables.entryHas displaced
    by_cases hb : b = a
    · subst hb
      cases u.roster[b] <;> simp
    · by_cases ho : b = own
      · subst ho
        cases u.roster[b] <;> simp
      · cases u.roster[b] <;> simp [hb, ho]
  rw [← hf]
  unfold rosterIdentity removeIf Tables.entryHas displaced
  dsimp only
  generalize List.foldl _ t allAddrs = u
  cases u.roster[a] <;> simp

/-- The entries that the identity removes are removed together (R33). -/
theorem rosterIdentity_eq (own a : Addr) (tag : Word) (localNo : Nat) (t : Tables) :
    rosterIdentity own a tag localNo t = t.cleared own a tag localNo := by
  rw [rosterIdentity_removeIf, foldl_removeIf_all, removeIf_eq_without, without_without]
  refine congrArg t.without (funext fun b => ?_)
  rw [entryHas_without]
  unfold Tables.entryHas
  by_cases hb : b = a
  · subst hb
    cases t.roster[b] <;> simp
  · rw [beq_eq_false_iff_ne.mpr hb]
    cases t.roster[b] <;> simp [hb]

section
variable {t : Tables} {own a b : Addr} {tag : Word} {localNo : Nat}

/-- Another address that holds the identity is removed (R33). -/
theorem cleared_removes {x : RosterEntry} (hb : b ≠ a) (ho : b ≠ own) (hx : t.roster[b] = some x) (ht : x.tag = tag)
    (hl : x.localNo.val = localNo) : (t.cleared own a tag localNo).roster[b] = none := by
  unfold Tables.cleared
  rw [without_roster, if_pos]
  simp [Tables.entryHas, displaced, hx, hb, ho, ht, hl]

/-- One that does not hold it, or is the own one, stays (R33). -/
theorem cleared_keeps (hb : b ≠ a)
    (h : b = own ∨ ∀ x, t.roster[b] = some x → ¬(x.tag = tag ∧ x.localNo.val = localNo)) :
    (t.cleared own a tag localNo).roster[b] = t.roster[b] := by
  unfold Tables.cleared
  rw [without_roster, if_neg]
  unfold Tables.entryHas displaced
  cases hx : t.roster[b] with
  | none => simp
  | some x =>
    rcases h with rfl | h
    · simp
    · have := h x hx
      simp only [Option.any_some, if_neg hb, decide_eq_true_eq]
      exact fun hc => this hc.2

/-- The cab record over the removal. -/
theorem cleared_cabRecord : (t.cleared own a tag localNo).cabRecord =
    match t.cabRecord with
    | none => none
    | some q => match t.roster[q.addr] with
      | none => some q
      | some x => if q.addr ≠ own ∧ (if q.addr = a then x.localNo.val ≠ localNo
          else x.tag = tag ∧ x.localNo.val = localNo) then none else some q := by
  show t.cabRecord.filter (fun r => !t.entryHas (displaced own a tag localNo) r.addr) = _
  unfold Tables.entryHas
  cases t.cabRecord with
  | none => rfl
  | some q =>
    cases hx : t.roster[q.addr] with
    | none => simp [Option.filter, hx]
    | some x =>
      by_cases hp : displaced own a tag localNo q.addr x = true
      · simp only [Option.filter, hx, Option.any_some, hp]
        exact (if_pos (of_decide_eq_true hp)).symm
      · simp only [Option.filter, hx, Option.any_some, hp]
        exact (if_neg (fun h => hp (decide_eq_true h))).symm

end

/-- The sender's entry after the removal: as it was, or made anew (R33). -/
theorem rosterRenew_eq (a : Addr) (tag : Word) (t : Tables) :
    ∃ e, rosterRenew a tag t = { t with roster := t.roster.set a (some e) }
      ∧ (t.roster[a] = some e ∨ (t.roster[a] = none ∧ e = newEntry a tag)) := by
  unfold rosterRenew
  cases h : t.roster[a] with
  | none => exact ⟨newEntry a tag, rfl, .inr ⟨rfl, rfl⟩⟩
  | some e =>
    have hset : t.roster.set a (some e) = t.roster := by
      rw [← h]
      exact Vector.set_getElem_self ..
    exact ⟨e, by rw [hset]; rfl, .inl rfl⟩

/-! ### The frame applied -/

/-- A ROSTER that carries the station's own identity is not applied (R33). -/
theorem applyRoster_own_identity {s : State} {a : Addr} {tag : Word} {c : RosterContent} (ht : tag = s.cfg.tag)
    (hl : c.localNo = s.cfg.localNo.val) (ha : a ≠ s.addr) : applyRoster a tag (some c) s = s := by
  unfold applyRoster
  exact if_pos ⟨ht, hl, ha⟩

/-- One that fails its content check is counted (R33). -/
theorem applyRoster_none_beside {r s : State} {t : Tables} (h : s.beside = (r.setTables t).beside) (a : Addr)
    (tag : Word) : (applyRoster a tag none s).beside =
      (r.setTables { t with rosterRejects := t.rosterRejects + 1#16 }).beside := by
  unfold applyRoster
  rw [setTables_beside h, tables_of_beside_setTables h]
  rfl

/-- Any other is applied in three changes of the tables: the identity, the sender's entry, the fields (R33). -/
theorem applyRoster_beside {r s : State} {t : Tables} (h : s.beside = (r.setTables t).beside) {a : Addr} {tag : Word}
    {c : RosterContent} (hi : ¬(tag = s.cfg.tag ∧ c.localNo = s.cfg.localNo.val ∧ a ≠ s.addr)) :
    (applyRoster a tag (some c) s).beside = (r.setTables (rosterFields a tag c
      (rosterRenew a tag (rosterIdentity s.addr a tag c.localNo t)))).beside := by
  unfold applyRoster
  simp only [if_neg hi, changeTables_tables, tables_of_beside_setTables h]
  exact changeTables_beside_again (changeTables_beside_again (changeTables_beside_again h _) _) _

/-- The tables that a ROSTER leaves: the identity's removals, the sender's entry with the fields, its doors, and the cab
record repaired (R33, R90, R127). -/
theorem rosterApplied_eq (own a : Addr) (tag : Word) (c : RosterContent) (t : Tables) :
    ∃ e, rosterFields a tag c (rosterRenew a tag (rosterIdentity own a tag c.localNo t)) =
        { t.cleared own a tag c.localNo with
          roster := (t.cleared own a tag c.localNo).roster.set a (some { e with
            role := c.role, cams := c.cams, doors := c.doors.map (fun d => d.1), coupler := c.coupler
            cabActive := c.cabActive })
          doors := setDoors a c.doors (t.cleared own a tag c.localNo).doors
          cabRecord := repairCab a tag c.cabActive c.coupler (t.cleared own a tag c.localNo).cabRecord }
      ∧ (t.roster[a] = some e ∨ e = newEntry a tag) := by
  rw [rosterIdentity_eq]
  obtain ⟨e, hr, he⟩ := rosterRenew_eq a tag (t.cleared own a tag c.localNo)
  refine ⟨e, ?_, ?_⟩
  · rw [hr, rosterFields_eq (e := e) (by rw [getElem_set_fin, if_pos rfl])]
    simp only [Vector.set_set]
  · rcases he with he | ⟨-, he⟩
    · unfold Tables.cleared at he
      rw [without_roster] at he
      split at he
      · exact absurd he (by simp)
      · exact .inl he
    · exact .inr he

/-- The sender's doors after a ROSTER are those that it lists (R90). -/
theorem mem_setDoors_sender (a : Addr) (ds : List (DoorDesc × DoorPhase)) (t : List DoorEntry) (d : DoorEntry) :
    d ∈ setDoors a ds t ∧ d.id.addr = a ↔ ∃ x ∈ ds, d = { id := { addr := a, chan := x.1.chan }, phase := x.2 } := by
  rw [mem_setDoors]
  constructor
  · rintro ⟨⟨-, hne⟩ | hd, haddr⟩
    · exact absurd haddr hne
    · exact hd
  · rintro ⟨x, hx, rfl⟩
    exact ⟨.inr ⟨x, hx, rfl⟩, rfl⟩

/-- The repair of the cab record, case by case (R127). -/
theorem repairCab_eq (a : Addr) (tag : Word) (flag : Bool) (cp : Option (TramEnd × Bool)) (base : Option CabRecord) :
    repairCab a tag flag cp base = match flag, cp, base with
      | true, some (x, _), none => some { addr := a, tag := tag, cabEnd := x }
      | true, some (x, _), some q => if a.val ≤ q.addr.val then some { addr := a, tag := tag, cabEnd := x } else some q
      | true, none, _ => base
      | false, _, none => none
      | false, _, some q => if q.addr = a then none else some q := by
  cases flag with
  | false => cases cp <;> cases base <;> rfl
  | true =>
    cases cp with
    | none => cases base <;> rfl
    | some z => cases base <;> rfl

/-- The entry that an item gives its sender is PRESENT, has its tag, and age 0 (R29). -/
theorem heardTables_sender {s : State} {a : Addr} (tag : Word) (ha : a ≠ s.addr) :
    ∃ e, (s.heardTables a tag).roster[a] = some e ∧ e.presence = .present ∧ e.tag = tag ∧ e.age = 0 := by
  by_cases h : ∃ e, s.tables.roster[a] = some e ∧ e.tag = tag
  · obtain ⟨e, he, ht⟩ := h
    refine ⟨{ e with presence := .present, age := 0 }, ?_, rfl, ht, rfl⟩
    rw [heardTables_same ha he ht, getElem_set_fin, if_pos rfl]
  · exact ⟨newEntry a tag, heardTables_new ha fun e he ht => h ⟨e, he, ht⟩, rfl, rfl, rfl⟩

/-- The tables that a ROSTER of another identity leaves, once its sender is present (R29, R33). -/
theorem exec_roster_applied {s : State} {rx : ControlRx} {f : ControlFrame} {l r cp cf : Byte} {cs : List CamRaw}
    {ds : List DoorRaw} {c : RosterContent} (hs : Settled s) (hr : readControl rx = .frame f)
    (hf : f.body = .roster l r cp cf cs ds) (ha : s.admits f.addr f.tag) (hn : f.addr ≠ s.addr)
    (hc : rosterContent l r cp cf cs ds = some c) (hid : ¬(f.tag = s.cfg.tag ∧ c.localNo = s.cfg.localNo.val)) :
    ∃ (t : State) (e : RosterEntry), exec (.rosterFrameReceived rx) s = .next t
      ∧ t.beside = (s.frameEnded.setTables t.tables).beside
      ∧ e.presence = .present ∧ e.tag = f.tag ∧ e.age = 0
      ∧ t.tables.roster = ((s.heardTables f.addr f.tag).cleared s.addr f.addr f.tag c.localNo).roster.set f.addr
          (some { e with
            role := c.role, cams := c.cams, doors := c.doors.map (fun d => d.1), coupler := c.coupler
            cabActive := c.cabActive })
      ∧ t.tables.doors = setDoors f.addr c.doors
          ((s.heardTables f.addr f.tag).cleared s.addr f.addr f.tag c.localNo).doors
      ∧ t.tables.cabRecord = repairCab f.addr f.tag c.cabActive c.coupler
          ((s.heardTables f.addr f.tag).cleared s.addr f.addr f.tag c.localNo).cabRecord := by
  obtain ⟨u, hu, hub⟩ := exec_heardBy_admitted (k := .roster) hs hr (by rw [hf]; rfl) ha
  rw [hf, applyBody, hc] at hu
  have haddr : u.addr = s.addr := (addr_of_beside hub).trans (addr_congr rfl rfl)
  have hcfg : u.cfg = s.cfg := (cfg_of_beside hub :)
  obtain ⟨e₀, he₀, hpres, htag, hage⟩ := heardTables_sender f.tag hn
  obtain ⟨e, hT, he⟩ := rosterApplied_eq s.addr f.addr f.tag c (s.heardTables f.addr f.tag)
  have hbes := applyRoster_beside hub (a := f.addr) (tag := f.tag) (c := c)
    (by rw [hcfg]; exact fun h => hid ⟨h.1, h.2.1⟩)
  rw [haddr, hT] at hbes
  have htab := tables_of_beside_setTables hbes
  have hent : e.presence = .present ∧ e.tag = f.tag ∧ e.age = 0 := by
    rcases he with he | rfl
    · obtain rfl := Option.some.inj (he.symm.trans he₀)
      exact ⟨hpres, htag, hage⟩
    · exact ⟨rfl, rfl, rfl⟩
  refine ⟨_, e, hu, ?_, hent.1, hent.2.1, hent.2.2, ?_, ?_, ?_⟩
  · rw [beside_refreshPins, refreshPins_tables, hbes, htab]
  all_goals rw [refreshPins_tables, htab]

/-- Settles O22: the check that fails, the station's own identity, and the identity, entry, doors and cab record that any
other ROSTER leaves. -/
theorem rosterFrameApplied : Obligations.RosterFrameApplied := by
  intro s rx f l r cp cf cs ds hs hr hf hadm hn
  obtain ⟨u, hu, hub⟩ := exec_heardBy_admitted (k := .roster) hs hr (by rw [hf]; rfl) hadm
  rw [hf, applyBody] at hu
  refine ⟨fun hc => ⟨_, hu, ?_⟩, fun c hc ht hl => ⟨_, hu, ?_⟩, fun c hc hid => ?_⟩
  · rw [beside_refreshPins, hc]
    exact applyRoster_none_beside hub f.addr f.tag
  · have haddr : u.addr = s.addr := (addr_of_beside hub).trans (addr_congr rfl rfl)
    have hcfg : u.cfg = s.cfg := (cfg_of_beside hub :)
    rw [beside_refreshPins, hc, applyRoster_own_identity (by rw [hcfg, ht]) (by rw [hcfg, hl]) (by rwa [haddr])]
    exact hub
  · obtain ⟨t, e, ht, hbes, hpres, htag, hage, hro, hdo, hcab⟩ := exec_roster_applied hs hr hf hadm hn hc hid
    refine ⟨t, { e with
      role := c.role, cams := c.cams, doors := c.doors.map (fun d => d.1), coupler := c.coupler
      cabActive := c.cabActive }, ht, hbes, by rw [hro, getElem_set_fin, if_pos rfl], hpres, htag, hage, rfl, rfl, rfl, rfl,
      rfl, fun d => by rw [hdo]; exact mem_setDoors_sender .., fun b x hb hbo hx hxt hxl => ?_, fun b hb hkeep => ?_, ?_⟩
    · rw [hro, getElem_set_fin, if_neg hb.symm]
      exact cleared_removes hb hbo ((heardTables_others s f.tag hb).trans hx) hxt hxl
    · rw [hro, getElem_set_fin, if_neg hb.symm, cleared_keeps hb, heardTables_others s f.tag hb]
      rwa [heardTables_others s f.tag hb]
    · rintro base rfl
      rw [hcab, cleared_cabRecord]
      exact repairCab_eq ..

end Sys2Proof.Machine
end

