-- ==== Sys2Proof/Proofs/TickAndStart.lean ====
section
/-! SUPPORT. What a round tick advances (R28, R37, R39, R46, R60, R154, R155, R161), and the end of the start read (R22, R27,
R78, R94, R111, R167 to R169). -/
namespace Sys2Proof.Machine

/-! ### The round tick -/

/-- The round tick of a station that acts (R28). -/
theorem roundTick_acting {s : State} (ha : s.acting = true) : roundTick s =
    (mapStreams tickStream (s.setTables (tickTables s.addr s.cfg.tag (s.trunk.state == .joined) s.tables))).setComp
      (tickComposer s.isActive s.comp) := if_pos ha

/-- A count that advances under a condition, up to its limit. -/
theorem upTo_ite (b : Bool) (limit n : Nat) :
    (if b = true then upTo limit n else n) = if b = true ∧ n < limit then n + 1 else n := by
  unfold upTo
  cases b <;> simp

/-- An entry of the roster over a tick (R28). -/
theorem tickRoster_get (own : Addr) (r : Vector (Option RosterEntry) 16) (a : Addr) : (tickRoster own r)[a] =
    (r[a]).map (fun e => if a = own then e else { e with age := upTo 255 e.age }) := vec16_get _ a

/-- The entries that a roster holds. -/
theorem mem_entries (r : Vector (Option RosterEntry) 16) (e : RosterEntry) :
    e ∈ allAddrs.filterMap (fun a => r[a]) ↔ ∃ a : Addr, r[a] = some e := by
  rw [List.mem_filterMap]
  exact ⟨fun ⟨a, _, h⟩ => ⟨a, h⟩, fun ⟨a, h⟩ => ⟨a, mem_allAddrs a, h⟩⟩

/-- The foreign trams that a tick finds departed: their entries are all GONE, and 96 ticks old (R39). -/
theorem mem_departedTags (own : Word) (r : Vector (Option RosterEntry) 16) (tag : Word) : tag ∈ departedTags own r ↔
    tag ≠ own ∧ (∃ (a : Addr) (e : RosterEntry), r[a] = some e ∧ e.tag = tag)
      ∧ ∀ (a : Addr) (e : RosterEntry), r[a] = some e → e.tag = tag → e.presence = .gone ∧ 96 ≤ e.age := by
  have hforeign : tag ∈ foreignTags own r ↔ tag ≠ own ∧ ∃ (a : Addr) (e : RosterEntry), r[a] = some e ∧ e.tag = tag := by
    unfold foreignTags
    rw [List.mem_eraseDups, List.mem_filter, List.mem_map]
    simp only [mem_entries, bne_iff_ne]
    constructor
    · rintro ⟨⟨e, ⟨a, ha⟩, ht⟩, hne⟩
      exact ⟨hne, a, e, ha, ht⟩
    · rintro ⟨hne, a, e, ha, ht⟩
      exact ⟨⟨e, ⟨a, ha⟩, ht⟩, hne⟩
  have hgone : ∀ e : RosterEntry, (e.tag != tag || (!e.isPresent && decide (96 ≤ e.age))) = true ↔
      (e.tag = tag → e.presence = .gone ∧ 96 ≤ e.age) := by
    intro e
    unfold RosterEntry.isPresent
    by_cases ht : e.tag = tag
    · cases e.presence <;> simp [ht]
    · simp [ht]
  have hdep : tagDeparted r tag = true ↔
      ∀ (a : Addr) (e : RosterEntry), r[a] = some e → e.tag = tag → e.presence = .gone ∧ 96 ≤ e.age := by
    unfold tagDeparted
    simp only [List.all_eq_true, mem_entries, hgone]
    exact ⟨fun h a e he => h e ⟨a, he⟩, fun h e ⟨a, he⟩ => h a e he⟩
  unfold departedTags
  rw [List.mem_filter, hforeign, hdep, and_assoc]

/-- The Composer over a tick (R154, R155, R161). -/
theorem tickComposer_eq (active : Bool) (c : Composer) (panes : List Pane → List Pane)
    (h : ∀ ps, panes ps = ps.map (fun p => { p with
      stale := if p.bound ≠ none ∧ p.stale < 80 then p.stale + 1 else p.stale })) : tickComposer active c = { c with
        left := { c.left with panes := panes c.left.panes }, right := { c.right with panes := panes c.right.panes }
        carry := c.carry.map (fun e => { e with age := if e.age < 40 then e.age + 1 else e.age })
        wantRefresh := if active = true ∧ c.wantRefresh < 16 then c.wantRefresh + 1 else c.wantRefresh } := by
  have hp : (fun p : Pane => if p.bound.isSome then { p with stale := upTo 80 p.stale } else p) = fun p => { p with
      stale := if p.bound ≠ none ∧ p.stale < 80 then p.stale + 1 else p.stale } := by
    refine funext fun ⟨_, _, _, _, bound, _, _, _, _, _, _⟩ => ?_
    cases bound <;> simp [upTo]
  unfold tickComposer Composer.mapPanes
  rw [hp, h, h, upTo_ite]
  rfl

/-- Settles O6: the tables, the departed trams, the streams and the Composer. -/
theorem roundTickAges : Obligations.RoundTickAges := by
  intro s ha
  rw [roundTick_acting ha]
  have hro : ∀ a : Addr, (tickTables s.addr s.cfg.tag (s.trunk.state == .joined) s.tables).roster[a] = _ :=
    tickRoster_get s.addr s.tables.roster
  have htab : ∀ n : StreamNo, (s.engine.table.map (fun x => x.map tickStream))[n] = (s.engine.table[n]).map tickStream :=
    fun n => Vector.getElem_map ..
  refine ⟨fun a e hn he => ?_, ?_, fun a he => ?_, ?_, fun tag => mem_departedTags .., fun n x hx => ?_, fun n hx => ?_, rfl,
    fun panes hp => ?_, rfl⟩
  · exact (hro a).trans (by rw [he, Option.map_some, if_neg hn]; rfl)
  · refine (hro s.addr).trans ?_
    cases s.tables.roster[s.addr] <;> simp
  · exact (hro a).trans (by rw [he]; rfl)
  · have hr : (if (s.trunk.state == .joined) = true then upTo 16 s.tables.refresh else s.tables.refresh) =
        if s.trunk.state = .joined ∧ s.tables.refresh < 16 then s.tables.refresh + 1 else s.tables.refresh := by
      rw [upTo_ite]
      simp
    rw [← hr]
    rfl
  · refine (htab n).trans ?_
    rw [hx, Option.map_some]
    unfold tickStream upTo
    by_cases hh : x.state = .holding <;> simp [hh]
  · exact (htab n).trans (by rw [hx]; rfl)
  · exact tickComposer_eq s.isActive s.comp panes hp

/-! ### The end of the start read -/

/-- A channel that starts LOCKED has its DOOR offered, and that is all (R78, R86). -/
theorem offerStartDoor_eq {s : State} (ha : s.acting = true) (ho : s.lineFree) (c : Chan) :
    ∃ q, offerStartDoor s c = s.setQueue q
      ∧ (∀ sub, queueHolds s.queue sub = true → queueHolds q sub = true)
      ∧ (∀ ch, s.channels[c] = some ch → ch.phase = .locked → queueHolds q (.door c) = true) := by
  have hof : offer (.door c) .plain s = s.setQueue (queueOffer s.queue (.door c) .plain s.now) := by
    rw [offer_of_lineFree ho, if_pos ha]
  have hmono : ∀ sub, queueHolds s.queue sub = true →
      queueHolds (queueOffer s.queue (.door c) .plain s.now) sub = true := fun sub hs => by
    by_cases hd : sub = .door c
    · rw [hd]
      exact queueHolds_offer ..
    · rw [queueHolds_offer_other _ _ _ _ _ hd, hs]
  unfold offerStartDoor
  cases hch : s.channels[c] with
  | none => exact ⟨s.queue, rfl, fun _ h => h, fun ch h => absurd h (by simp)⟩
  | some x =>
    by_cases hl : x.phase = .locked
    · exact ⟨_, (if_pos hl).trans hof, hmono, fun _ _ _ => queueHolds_offer ..⟩
    · exact ⟨s.queue, if_neg hl, fun _ h => h, fun ch h hp => absurd (Option.some.inj h ▸ hp) hl⟩

/-- Every channel that starts LOCKED has its DOOR offered (R78, R86). -/
theorem foldl_offerStartDoor (l : List Chan) {s : State} (ha : s.acting = true) (ho : s.lineFree) :
    ∃ q, l.foldl offerStartDoor s = s.setQueue q
      ∧ (∀ sub, queueHolds s.queue sub = true → queueHolds q sub = true)
      ∧ (∀ c ∈ l, ∀ ch, s.channels[c] = some ch → ch.phase = .locked → queueHolds q (.door c) = true) := by
  induction l generalizing s with
  | nil => exact ⟨s.queue, rfl, fun _ h => h, fun c hc => absurd hc (by simp)⟩
  | cons x xs ih =>
    obtain ⟨q, hq, hmono, hx⟩ := offerStartDoor_eq ha ho x
    obtain ⟨q', hq', hmono', hxs⟩ := ih (s := s.setQueue q) ha ho
    refine ⟨q', by rw [List.foldl_cons, hq, hq']; rfl, fun sub h => hmono' sub (hmono sub h), fun c hc ch hch hl => ?_⟩
    rcases List.mem_cons.mp hc with rfl | hc
    · exact hmono' _ (hx ch hch hl)
    · exact hxs c hc ch hch hl

theorem mem_allChans (c : Chan) : c ∈ allChans := by fin_cases c <;> decide

/-- An image that passes its check takes the station to LISTEN (R167). -/
theorem exec_startReadEnd_passes {s : State} (hb : s.boot.phase = .reading) (hc : imageCause (readImage s.confMem) = .none) :
    ∃ q, exec .startReadEnd s = .next (refreshPins ((startState (settingsOf (readImage s.confMem)) (endRead .none s)).setQueue q))
      ∧ ∀ (c : Chan) ch, (startState (settingsOf (readImage s.confMem)) (endRead .none s)).channels[c] = some ch →
          ch.phase = .locked → queueHolds q (.door c) = true := by
  obtain ⟨q, hq, -, hdoor⟩ := foldl_offerStartDoor allChans
    (s := startState (settingsOf (readImage s.confMem)) (endRead .none s)) rfl (fun _ h => TrunkOut.noConfusion h)
  refine ⟨q, ?_, fun c => hdoor c (mem_allChans c)⟩
  show Host.Outcome.next (refreshPins (startReadEnd s)) = _
  unfold startReadEnd
  simp only [hb, if_true, hc, hq]

/-- A lens record as it starts (R94, R111). -/
theorem startLens_of_record {cfg : Settings} {m : List Host.Cell} {i : Input} {r : LensRecord}
    (h : ((startRecords cfg m)[i]).map (startLens cfg.soiling.baseline) = some r) :
    r.grade = .clean ∧ r.held = true ∧ r.quiet = 10 ∧ r.rise = 0 ∧ r.fall = 0 ∧ r.due = false ∧ r.previous = none
      ∧ ∃ b, (startRecords cfg m)[i] = some b ∧ r.unbaselined = !b.valid
        ∧ r.baseline = if b.valid = true then b.values else cfg.soiling.baseline := by
  obtain ⟨b, hb, rfl⟩ := Option.map_eq_some_iff.mp h
  exact ⟨rfl, rfl, rfl, rfl, rfl, rfl, rfl, b, hb, rfl, rfl⟩

/-- An input has a baseline record exactly if it is populated (R63, R111). -/
theorem startRecords_none (cfg : Settings) (m : List Host.Cell) (i : Input) :
    cfg.cams[i] = none ↔ (startRecords cfg m)[i] = none := by
  unfold startRecords Settings.populated
  rw [vec4_get]
  cases cfg.cams[i] <;> simp

/-- A channel as it starts, by its lines (R78). -/
theorem startChannel_by_lines (d : DoorLevels) : if d.shut = true ∧ d.rel = false then
      (startChannel d).phase = .locked ∧ (startChannel d).settled = true
    else (startChannel d).phase = .unknown ∧ (startChannel d).settled = false := by
  unfold startChannel
  cases d.shut <;> cases d.rel <;> simp

/-- Settles O55: the group that fails, and what every block holds where none does. -/
theorem startReadEnds : Obligations.StartReadEnds := by
  rintro s img hb rfl
  refine ⟨fun hc => ?_, fun hc => ?_⟩
  · show Host.Outcome.next (refreshPins (startReadEnd s)) = _
    unfold startReadEnd
    simp only [hb, if_true, hc, if_false]
    rfl
  · obtain ⟨q, hq, hdoor⟩ := exec_startReadEnd_passes hb hc
    generalize readImage s.confMem = img at hq hdoor
    have hinput : ∀ i : Input, (startState (settingsOf img) (endRead .none s)).intake.inputs[i] = _ := vec4_get _
    have hlens : ∀ i : Input, (startState (settingsOf img) (endRead .none s)).lens.records[i] = _ := vec4_get _
    have hchan : ∀ c : Chan, (startState (settingsOf img) (endRead .none s)).channels[c] = _ := vec4_get _
    refine ⟨_, startEntry (settingsOf img) (startRecords (settingsOf img) s.confMem), hq, rfl, rfl, rfl, rfl, rfl, rfl, rfl, rfl,
      rfl, rfl, rfl, rfl, fun i r hr => ?_, fun i => ⟨?_, ?_, fun r hr => ?_⟩, rfl, rfl, rfl, fun c => ?_, fun c ch hch => ?_⟩
    · exact startLens_of_record ((hlens i).symm.trans hr)
    · refine (startRecords_none _ s.confMem i).trans ?_
      show _ ↔ (startState (settingsOf img) (endRead .none s)).lens.records[i] = none
      rw [hlens]
      exact Option.map_eq_none_iff.symm
    · show _ ↔ (startState (settingsOf img) (endRead .none s)).intake.inputs[i] = none
      rw [hinput]
      show (settingsOf img).cams[i] = none ↔ _
      unfold Settings.populated
      cases (settingsOf img).cams[i] <;> simp
    · have hr := (hinput i).symm.trans hr
      split at hr
      · obtain rfl := Option.some.inj hr
        exact ⟨rfl, rfl⟩
      · exact absurd hr (by simp)
    · show _ ↔ (startState (settingsOf img) (endRead .none s)).channels[c] = none
      rw [hchan]
      show (settingsOf img).doors[c] = none ↔ _
      cases (settingsOf img).doors[c] <;> simp
    · have hq := hdoor c ch hch
      have hch := (hchan c).symm.trans hch
      split at hch
      · obtain rfl := Option.some.inj hch
        have hl := startChannel_by_lines (s.levels.door[c])
        refine ⟨rfl, rfl, rfl, ?_⟩
        split <;> rename_i hlines
        · rw [if_pos hlines] at hl
          exact ⟨hl.1, hl.2, hq hl.1⟩
        · rw [if_neg hlines] at hl
          exact hl
      · exact absurd hch (by simp)

end Sys2Proof.Machine
end

