-- ==== Sys2Proof/Proofs/ForeignTagExcludes.lean ====
section
/-! SUPPORT. The items whose tag takes the station to EXCLUDED, and the tag whose departure takes it back to LISTEN (R25, R26,
R29, R37). -/
namespace Sys2Proof.Machine

/-! ### What a foreign tag does to the Trunk Port -/

/-- Two or more lower tags leave the station no half (R37). -/
theorem requiredHalf_none {k : Nat} (h : 2 ≤ k) : requiredHalf k = none := by
  unfold requiredHalf
  rw [if_neg (by omega), if_neg (by omega)]

/-- A number of lower tags that leaves no half excludes the station (R26, R37). -/
theorem foreignChanged_excludes {s : State} {k : Nat} (ht : s.trunk.state = .listen ∨ s.trunk.state = .joined)
    (hk : lowerTags s.cfg.tag s.tables.foreign ≠ k) (h2 : 2 ≤ lowerTags s.cfg.tag s.tables.foreign) :
    foreignChanged k s = enterExcluded .consist s := by
  unfold foreignChanged
  dsimp only
  rw [if_neg hk, requiredHalf_none h2]
  rcases ht with ht | ht <;> rw [ht]

/-- A number of lower tags that gives an excluded station its own half again brings it back to LISTEN (R26). -/
theorem foreignChanged_listens {s : State} {k : Nat} (ht : s.trunk.state = .excluded .consist)
    (hk : lowerTags s.cfg.tag s.tables.foreign ≠ k)
    (hr : requiredHalf (lowerTags s.cfg.tag s.tables.foreign) = some s.trunk.half) :
    foreignChanged k s = enterListen false s := by
  unfold foreignChanged
  dsimp only
  rw [if_neg hk, hr, ht]
  exact if_pos rfl

/-- A tag that is heard, and leaves no half, excludes the station (R26, R37). -/
theorem hearTag_excludes {s : State} {tag : Word} (ht : s.trunk.state = .listen ∨ s.trunk.state = .joined)
    (hn : tag ≠ s.cfg.tag)
    (hk : lowerTags s.cfg.tag (takeTag tag s.tables.foreign) ≠ lowerTags s.cfg.tag s.tables.foreign)
    (h2 : 2 ≤ lowerTags s.cfg.tag (takeTag tag s.tables.foreign)) : hearTag tag s =
      enterExcluded .consist (s.setTables { s.tables with foreign := takeTag tag s.tables.foreign }) := by
  unfold hearTag
  rw [if_neg hn]
  exact foreignChanged_excludes (s := s.setTables { s.tables with foreign := takeTag tag s.tables.foreign }) ht hk h2

/-- A tag that leaves the set and gives the station its own half again brings it back to LISTEN (R26). -/
theorem dropTag_listens {s : State} {tag : Word} (ht : s.trunk.state = .excluded .consist)
    (hk : lowerTags s.cfg.tag (s.tables.foreign.filter (fun x => x.1 != tag)) ≠ lowerTags s.cfg.tag s.tables.foreign)
    (hr : requiredHalf (lowerTags s.cfg.tag (s.tables.foreign.filter (fun x => x.1 != tag))) = some s.trunk.half) :
    dropTag tag s =
      enterListen false (s.setTables { s.tables with foreign := s.tables.foreign.filter (fun x => x.1 != tag) }) :=
  foreignChanged_listens (s := s.setTables { s.tables with foreign := s.tables.foreign.filter (fun x => x.1 != tag) })
    ht hk hr

/-- A tag that leaves the set with as many lower tags as before takes the station nowhere (R37). -/
theorem dropTag_stays {s : State} {tag : Word}
    (hk : lowerTags s.cfg.tag (s.tables.foreign.filter (fun x => x.1 != tag)) = lowerTags s.cfg.tag s.tables.foreign) :
    dropTag tag s = s.setTables { s.tables with foreign := s.tables.foreign.filter (fun x => x.1 != tag) } :=
  if_pos hk

/-- A tag aged 48 rounds leaves the set (R37). -/
theorem tagAgedOut_of_mem {s : State} {tag : Word} {age : Nat} (hmem : (tag, age) ∈ s.tables.foreign) (hage : 48 ≤ age) :
    tagAgedOut tag s = dropTag tag s :=
  if_pos (List.any_eq_true.mpr ⟨(tag, age), hmem, by simp [hage]⟩)

/-! ### The excluded station -/

/-- The station has been excluded from `s` by its foreign tags, and its address stands. -/
structure Shut (s : State) (F : List (Word × Nat)) (u : State) : Prop where
  trunk : u.trunk = s.trunk.excludedBy .consist
  cfg : u.cfg = s.cfg
  foreign : u.tables.foreign = F

/-- It has not applied anything since. -/
structure JustShut (s : State) (F : List (Word × Nat)) (u : State) : Prop extends Shut s F u where
  roster : u.tables.roster = s.tables.roster
  slots : u.tables.slots = s.tables.slots
  wants : u.tables.wants = s.tables.wants
  engine : u.engine = s.engine
  queue : s.isCab = false → u.queue = s.trunk.out.endedQueue s.queue

theorem Shut.addr {s u : State} {F : List (Word × Nat)} (hu : Shut s F u) : u.addr = s.addr :=
  addr_congr hu.cfg (by rw [hu.trunk]; rfl)

theorem Shut.state {s u : State} {F : List (Word × Nat)} (hu : Shut s F u) : u.trunk.state = .excluded .consist := by
  rw [hu.trunk]
  rfl

/-- What is handed on from an excluded station's tables leaves it where it is. -/
theorem Shut.of_beside {s u t : State} {F : List (Word × Nat)} {T : Tables} (hu : Shut s F u)
    (hb : t.beside = (u.setTables T).beside) (hf : T.foreign = F) : Shut s F t where
  trunk := (trunk_of_beside hb fun c => by
    rw [State.setTables_trunk, hu.trunk]
    exact keepMark_not_control s.trunk.out c).trans hu.trunk
  cfg := (cfg_of_beside hb).trans hu.cfg
  foreign := (congrArg Tables.foreign (tables_of_beside_setTables hb)).trans hf

/-- Driving the output lines leaves it where it is, with FAULT asserted (R22). -/
theorem Shut.refreshPins {s u : State} {F : List (Word × Nat)} (hu : Shut s F u) : Shut s F (refreshPins u) :=
  ⟨hu.trunk, hu.cfg, hu.foreign⟩

theorem JustShut.refreshPins {s u : State} {F : List (Word × Nat)} (hu : JustShut s F u) : JustShut s F (refreshPins u) :=
  { hu with }

/-- An excluded station is in no hearing round (R24). -/
theorem Shut.hearingIntact {s u : State} {F : List (Word × Nat)} (hu : Shut s F u) : hearingIntact u = u := by
  unfold Machine.hearingIntact
  rw [if_neg fun hc => by rw [hu.state] at hc; exact absurd hc.1 (by simp)]

/-- Whether a control frame or a MARK is held back is not changed by the exclusion (R29, R35, R36). -/
theorem JustShut.heldBack {s u : State} {F : List (Word × Nat)} (hu : JustShut s F u) (a : Addr) (tag : Word) :
    u.heldBack a tag = s.heldBack a tag := by
  unfold State.heldBack
  rw [hu.roster, hu.addr, hu.cfg, hu.trunk]
  rfl

/-- A station that enters EXCLUDED from LISTEN or JOINED (R25, R26). -/
theorem enterExcluded_justShut {s : State} (hb : s.boot.phase = .started)
    (ht : s.trunk.state = .listen ∨ s.trunk.state = .joined) (F : List (Word × Nat)) :
    JustShut s F (enterExcluded .consist (s.setTables { s.tables with foreign := F })) := by
  have he := enterExcluded_taking (s := s.setTables { s.tables with foreign := F }) ht .consist
  obtain ⟨x, hx⟩ : ∃ x : State, x = (((s.setTables { s.tables with foreign := F }).setQueue
      (s.trunk.out.endedQueue s.queue)).setTrunk (s.trunk.excludedBy .consist)) := ⟨_, rfl⟩
  have hxt : x.trunk = s.trunk.excludedBy .consist := by rw [hx]; rfl
  have hxc : x.cfg = s.cfg := by rw [hx]; rfl
  have hxT : x.tables = { s.tables with foreign := F } := by rw [hx]; rfl
  have hxe : x.engine = s.engine := by rw [hx]; rfl
  have hxq : x.queue = s.trunk.out.endedQueue s.queue := by rw [hx]; rfl
  have hxa : x.acting = true := by
    rw [hx]
    simp [State.acting, hb, Trunk.excludedBy]
  rw [he, State.setTables_queue, State.setTables_trunk, ← hx]
  by_cases hcab : x.isCab = true ∧ (x.cab.state = .active ∨ x.cab.state = .blocked)
  · obtain ⟨comp, r, hxx, -⟩ := cabExcluded_taking hxa (fun c => by rw [hxt]; exact keepMark_not_control _ c) hcab.1 hcab.2
    rw [hxx]
    exact
      { trunk := hxt
        cfg := hxc
        foreign := by rw [hxT]; rfl
        roster := by rw [hxT]; rfl
        slots := by rw [hxT]; rfl
        wants := by rw [hxT]; rfl
        engine := hxe
        queue := fun hno => absurd ((isCab_congr hxc).symm.trans hcab.1) (by rw [hno]; simp) }
  · rw [cabExcluded_of_not hcab]
    exact
      { trunk := hxt
        cfg := hxc
        foreign := by rw [hxT]
        roster := by rw [hxT]
        slots := by rw [hxT]
        wants := by rw [hxT]
        engine := hxe
        queue := fun _ => hxq }

/-! ### The items -/

/-- What a foreign tag must bring about to exclude the station (R37). -/
structure Excludes (s : State) (tag : Word) : Prop where
  started : s.boot.phase = .started
  state : s.trunk.state = .listen ∨ s.trunk.state = .joined
  foreign : tag ≠ s.cfg.tag
  changed : lowerTags s.cfg.tag (takeTag tag s.tables.foreign) ≠ lowerTags s.cfg.tag s.tables.foreign
  lower : 2 ≤ lowerTags s.cfg.tag (takeTag tag s.tables.foreign)

theorem Excludes.acting {s : State} {tag : Word} (h : Excludes s tag) : s.acting = true :=
  acting_of_renumbers h.started (h.state.imp id .inl)

/-- The same on the state in which the item is taken. -/
theorem Excludes.beside {s b : State} {tag : Word} (h : Excludes s tag) (hb : Beside s b) (hboot : b.boot = s.boot)
    (ht : b.trunk.state = s.trunk.state) : Excludes b tag where
  started := by rw [hboot]; exact h.started
  state := by rw [ht]; exact h.state
  foreign := by rw [hb.cfg]; exact h.foreign
  changed := by rw [hb.cfg, hb.tables]; exact h.changed
  lower := by rw [hb.cfg, hb.tables]; exact h.lower

/-- An item whose tag excludes the station is then held back, or gives its sender presence and is applied (R29, R37). -/
theorem takeItem_excludes {s : State} {tag : Word} (h : Excludes s tag) (a : Addr) :
    ∃ u, JustShut s (takeTag tag s.tables.foreign) u ∧ ∀ f, takeItem false a tag f s =
      if s.heldBack a tag = true then u else f (changeTables (presence u.addr a tag u.tables) u) := by
  have hear := hearTag_excludes h.state h.foreign h.changed h.lower
  have hu := enterExcluded_justShut h.started h.state (takeTag tag s.tables.foreign)
  rw [← hear] at hu
  refine ⟨_, hu, fun f => ?_⟩
  unfold takeItem
  rw [if_pos h.acting]
  simp only [hu.heldBack, Bool.not_false, Bool.true_and]

/-- Presence leaves an excluded station where it is (R29). -/
theorem Shut.presence {s u : State} {F : List (Word × Nat)} (hu : Shut s F u) (a : Addr) (tag : Word) :
    Shut s F (changeTables (Machine.presence u.addr a tag u.tables) u) := by
  exact hu.of_beside (changeTables_beside _ u) ((presence_foreign ..).trans hu.foreign)

/-- An exclusion by a heard MARK (R5, R37). -/
theorem markBodyReceived_excludes {s : State} {rx : MarkRx} {count : Byte} (h : Excludes s rx.tag)
    (hr : readMark rx = some count) :
    ∃ b, Beside s b ∧ b.trunk.out = s.trunk.lost.out ∧ b.queue = s.queue ∧ b.engine = s.engine
      ∧ Shut b (takeTag rx.tag s.tables.foreign) (markBodyReceived rx s)
      ∧ (s.heldBack rx.addr rx.tag = true →
          JustShut b (takeTag rx.tag s.tables.foreign) (markBodyReceived rx s)) := by
  obtain ⟨x, hx⟩ : ∃ x : Trunk, x = { s.trunk.lost with roundCount := count, opening := .intact } := ⟨_, rfl⟩
  have hxh : x.half = s.trunk.half := by rw [hx]; exact s.trunk.lost_half
  have hbes : Beside s (s.setTrunk x) := ⟨rfl, rfl, hxh, by rw [hx]; exact lost_sameCounts s.trunk, rfl, rfl, rfl, rfl⟩
  have hex := h.beside hbes rfl (by rw [hx]; exact s.trunk.lost_state)
  obtain ⟨u, hu, htake⟩ := takeItem_excludes hex rx.addr
  have hheld : (s.setTrunk x).heldBack rx.addr rx.tag = s.heldBack rx.addr rx.tag := by
    unfold State.heldBack
    rw [hbes.addr, State.setTrunk_trunk, hxh]
    rfl
  refine ⟨s.setTrunk x, hbes, by rw [hx]; rfl, rfl, rfl, ?_⟩
  have htake := htake id
  rw [markBodyReceived_intact h.started hr, ← hx, htake, hheld]
  by_cases hb : s.heldBack rx.addr rx.tag = true
  · rw [if_pos hb, hu.hearingIntact]
    exact ⟨hu.toShut, fun _ => hu⟩
  · have hp := hu.toShut.presence rx.addr rx.tag
    rw [if_neg hb, id, hp.hearingIntact]
    exact ⟨hp, fun hc => absurd hc hb⟩

/-- An exclusion by a control frame (R20, R37). -/
theorem takeFrame_excludes {s : State} {f : ControlFrame} (h : Excludes s f.tag) :
    Shut s (takeTag f.tag s.tables.foreign) (takeFrame false f s) := by
  obtain ⟨u, hu, htake⟩ := takeItem_excludes h f.addr
  show Shut s _ (takeItem false f.addr f.tag (applyBody f.addr f.tag f.body) s)
  rw [htake]
  split
  · exact hu.toShut
  · have hp := hu.toShut.presence f.addr f.tag
    generalize changeTables (presence u.addr f.addr f.tag u.tables) u = v at hp
    obtain ⟨T, hT⟩ := applyBody_keeps_some (r := v) (t := v.tables) (Keeps.refl v) f.addr f.tag f.body
    have hfol := applyBody_follows f.addr f.tag f.body v
    refine hp.of_beside hT.same ?_
    rw [← tables_of_beside_setTables hT.same, hfol.foreign, hp.foreign]

/-- An exclusion by a tile's header (R20, R37, R43). -/
theorem takeTile_excludes {s w : State} {n : Slot} {hd : TileHeader} {payload : List Byte} (h : Excludes s hd.tag)
    (hslot : hd.slot = byte n.val) (hw : w.beside = (takeTile false n hd payload s).beside) :
    Shut s (takeTag hd.tag s.tables.foreign) w := by
  obtain ⟨u, hu, htake⟩ := takeItem_excludes h hd.addr
  rw [takeTile_beside false payload s hslot, observeHeader, htake] at hw
  split at hw
  · exact hu.toShut.of_beside (T := u.tables) hw hu.foreign
  · have hp := hu.toShut.presence hd.addr hd.tag
    rw [observe_beside] at hw
    exact hp.of_beside hw hp.foreign

/-- What the obligation says of every excluded station. -/
theorem Shut.record {s b u : State} {F : List (Word × Nat)} (hb : Beside s b) (hu : Shut b F u)
    (hf : u.pins.fault = true) : u.trunk.state = .excluded .consist ∧ u.trunk.candidate = false ∧ u.pins.fault = true
      ∧ u.addr = s.addr ∧ u.trunk.half = s.trunk.half ∧ u.tables.foreign = F :=
  ⟨hu.state, by rw [hu.trunk]; rfl, hf, hu.addr.trans hb.addr, by rw [hu.trunk]; exact hb.half, hu.foreign⟩

/-- Every command ends with the output lines driven by the state that it leaves. -/
theorem exec_outputs {c : Instr} {s t : State} (h : exec c s = .next t) : t.pins = t.outputs := by
  obtain ⟨x, hx⟩ := exec_pins c s
  obtain rfl : refreshPins x = t := Host.Outcome.next.inj (hx.symm.trans h)
  rfl

/-- Every command that leaves the station in EXCLUDED leaves FAULT asserted (R22). -/
theorem exec_fault_of_excluded {c : Instr} {s t : State} {r : ExclReason} (h : exec c s = .next t)
    (ht : t.trunk.state = .excluded r) : t.pins.fault = true := by
  rw [exec_outputs h]
  exact fault_of_excluded ht

/-- A MARK contention lost ends no control frame (R4). -/
theorem lost_out_ended (t : Trunk) (q : List QueueEntry) : t.lost.out.endedQueue q = t.out.endedQueue q := by
  unfold Trunk.lost
  split <;> simp [*, TrunkOut.endedQueue]

/-- Settles O15: by a MARK, a control frame and a tile, and by a tag that leaves the set. -/
theorem foreignTagExcludesOrLeaves : Obligations.ForeignTagExcludesOrLeaves := by
  refine ⟨fun s => ⟨fun rx count hs hb ht hr hn hk h2 hheld => ?_, fun tag age hb ht hmem hage hn hk hr => ?_⟩,
    fun s tag out hb ht hn hk h2 hout => ⟨?_, ?_, ?_⟩, fun s tag age hmem hage hk => ?_⟩
  · have h : Excludes s rx.tag := ⟨hb, ht, hn, hk, h2⟩
    obtain ⟨b, hbes, ho, hq, he, -, hu⟩ := markBodyReceived_excludes h hr
    have hu := (hu hheld).refreshPins
    obtain ⟨p1, p2, p3, p4, p5, p6⟩ := hu.toShut.record hbes (fault_of_excluded hu.state)
    refine ⟨_, exec_act hs (f := markBodyReceived rx) rfl, p1, p2, p3, hu.roster.trans (by rw [hbes.tables]),
      hu.slots.trans (by rw [hbes.tables]), hu.wants.trans (by rw [hbes.tables]), hu.engine.trans he, p4, fun hc => ?_⟩
    have hqu := hu.queue ((isCab_congr hbes.cfg).trans hc)
    rw [ho, hq, lost_out_ended] at hqu
    exact ⟨fun c hc => by rw [hqu, hc, endedQueue_control], fun hno => by rw [hqu, endedQueue_of_not_control hno]⟩
  · have hexec : exec (.foreignTagAgedOut tag) s = .next (refreshPins (tagAgedOut tag s)) := rfl
    rw [hexec, tagAgedOut_of_mem hmem hage, dropTag_listens ht hk hr]
    rfl
  · intro rx count hs hr htag
    obtain ⟨b, hbes, -, -, -, hu, -⟩ := markBodyReceived_excludes (s := s) (rx := rx) (htag ▸ ⟨hb, ht, hn, hk, h2⟩) hr
    rw [htag] at hu
    exact ⟨_, exec_act hs (f := markBodyReceived rx) rfl,
      (hout _).mpr (hu.refreshPins.record hbes (fault_of_excluded hu.state))⟩
  · intro k rx f hs hr hkind htag
    have h : Excludes s f.tag := htag ▸ ⟨hb, ht, hn, hk, h2⟩
    have hu := takeFrame_excludes (h.beside (beside_frameEnded s) rfl rfl)
    have hexec := exec_heardBy hs k rx
    rw [frameHeard_frame hb hr hkind] at hexec
    rw [htag] at hu
    exact ⟨_, hexec, (hout _).mpr (hu.refreshPins.record (beside_frameEnded s) (fault_of_excluded hu.state))⟩
  · intro n rx hd payload hs hy hv ho hr hslot htag
    have h : Excludes s hd.tag := htag ▸ ⟨hb, ht, hn, hk, h2⟩
    obtain ⟨t, hexec, htb⟩ :=
      (slotObservation_tile_beside hs h.acting rfl ((knowsRound_iff s).mpr ⟨hy, hv⟩) ho).2 rx hd payload hr
    have hu := takeTile_excludes (h.beside (beside_atSlotEnd s n) rfl rfl) hslot htb
    rw [htag] at hu
    exact ⟨t, hexec, (hout t).mpr (hu.record (beside_atSlotEnd s n) (exec_fault_of_excluded hexec hu.state))⟩
  · have hexec : exec (.foreignTagAgedOut tag) s = .next (refreshPins (tagAgedOut tag s)) := rfl
    rw [hexec, tagAgedOut_of_mem hmem hage, dropTag_stays hk]

end Sys2Proof.Machine
end

