-- ==== Sys2Proof/Proofs/ComposerLists.lean ====
section
/-! SUPPORT. What the steps of the Composer leave of the warning list, of the refusal set and of Cab Control, whether or not a
control frame of the station is on the line (R152 to R155, R162, R164). -/
namespace Sys2Proof.Machine

/-! ### The panes settled -/

/-- The WANT list of the panes as they stand, with the carry entries that are still wanted (R153, R154). -/
def Composer.wanted (c : Composer) : List WantEntry := { c with carry := c.carry.filter c.keepsCarry }.buildWant

/-- The refusals that the WANT list still gives (R162). -/
def Composer.refused (c : Composer) : List Refused := c.refusals.filter (fun r => givesWant c.wanted r.cam r.cls)

/-- The Composer once its panes are settled (R152 to R154, R162). -/
def Composer.settled (c : Composer) : Composer :=
  ({ c with carry := c.carry.filter c.keepsCarry, wantList := c.wanted, refusals := c.refused } : Composer).mapPanes
    (fun p => { p with state := paneStateOf c.refused p })

theorem offer_comp (sub : Subject) (k : SendKind) (s : State) : (offer sub k s).comp = s.comp := by
  unfold offer
  repeat' split
  all_goals rfl

theorem offer_cab (sub : Subject) (k : SendKind) (s : State) : (offer sub k s).cab = s.cab := by
  unfold offer
  repeat' split
  all_goals rfl

theorem withdraw_cab (sub : Subject) (s : State) : (withdraw sub s).cab = s.cab := by
  unfold withdraw
  repeat' split
  all_goals rfl

/-- The panes are settled in ACTIVE (R152). -/
theorem settlePanes_comp {s : State} (ha : s.cab.state = .active) : (settlePanes s).comp = s.comp.settled := by
  have hi : s.isActive = true := by simp [State.isActive, ha]
  unfold settlePanes
  rw [if_pos hi]
  dsimp only
  split
  · rfl
  · rw [offer_comp]
    rfl

/-- Nothing is settled outside ACTIVE (R152). -/
theorem settlePanes_inactive {s : State} (ha : s.cab.state ≠ .active) : settlePanes s = s :=
  if_neg (by simpa [State.isActive] using ha)

theorem settlePanes_cab (s : State) : (settlePanes s).cab = s.cab := by
  unfold settlePanes
  dsimp only
  split
  · split
    · rfl
    · exact offer_cab ..
  · rfl

/-! ### The steps of the Composer -/

/-- From r to s the Composer has changed its screens, its lists and the WANT alone: Cab Control and the warning list stand, and no
refusal has joined. -/
structure Arranged (r s : State) : Prop where
  cab : s.cab = r.cab
  warnings : s.comp.warnings = r.comp.warnings
  refusals : s.comp.refusals ⊆ r.comp.refusals

theorem Arranged.refl (s : State) : Arranged s s := ⟨rfl, rfl, List.Subset.refl _⟩

theorem Arranged.trans {r s t : State} (h : Arranged r s) (h' : Arranged s t) : Arranged r t :=
  ⟨h'.cab.trans h.cab, h'.warnings.trans h.warnings, List.Subset.trans h'.refusals h.refusals⟩

theorem Arranged.foldl {α : Type} {r s : State} (f : State → α → State) (l : List α)
    (hf : ∀ t x, Arranged r t → Arranged r (f t x)) (h : Arranged r s) : Arranged r (l.foldl f s) := by
  induction l generalizing s with
  | nil => exact h
  | cons x xs ih => exact ih (hf s x h)

section
variable {r s : State} (h : Arranged r s)
include h

theorem setComp_arranged {c : Composer} (hw : c.warnings = s.comp.warnings) (hr : c.refusals ⊆ s.comp.refusals) :
    Arranged r (s.setComp c) := h.trans ⟨rfl, hw, hr⟩

theorem setScreen_arranged (side : Side) (x : Screen) : Arranged r (s.setScreen side x) := by
  cases side <;> exact setComp_arranged h rfl (List.Subset.refl _)

theorem judgePanes_arranged : Arranged r (judgePanes s) := setComp_arranged h rfl (List.Subset.refl _)

theorem settlePanes_arranged : Arranged r (settlePanes s) := by
  by_cases ha : s.cab.state = .active
  · refine h.trans ⟨settlePanes_cab s, ?_, ?_⟩ <;> rw [settlePanes_comp ha]
    · rfl
    · exact List.filter_subset_self _
  · rw [settlePanes_inactive ha]
    exact h

theorem layoutSwitch_arranged (side : Side) (lay : ShownLayout) : Arranged r (layoutSwitch side lay s) := by
  refine settlePanes_arranged (judgePanes_arranged (setComp_arranged h ?_ ?_)) <;> cases side
  · rfl
  · rfl
  · exact List.filter_subset_self _
  · exact List.filter_subset_self _

theorem showLayout_arranged (side : Side) (lay : ShownLayout) : Arranged r (showLayout side lay s) := by
  unfold showLayout
  split
  · exact h
  · exact layoutSwitch_arranged h side lay

theorem reresolve_arranged : Arranged r (reresolve s) := by
  unfold reresolve
  split
  · exact setComp_arranged h rfl (List.filter_subset_self _)
  · exact h

theorem showKind_arranged (side : Side) (k : ViewKind) : Arranged r (showKind side k s) :=
  showLayout_arranged (setScreen_arranged h side _) side _

theorem raise_arranged (side : Side) (k : ViewKind) : Arranged r (raise side k s) := by
  have hs : ∀ x, Arranged r (s.setScreen side x) := setScreen_arranged h side
  have hk : ∀ x, Arranged r (showKind side k (s.setScreen side x)) := fun x => showKind_arranged (hs x) side k
  unfold raise
  dsimp only
  split
  · exact h
  · split <;> split
    · exact hk _
    · exact hs _
    · split
      · exact hk _
      · exact hs _
    · exact hs _

theorem lingerEnd_arranged (side : Side) : Arranged r (lingerEnd side s) := by
  unfold lingerEnd
  split
  · exact showKind_arranged h side _
  · exact setScreen_arranged h side _

theorem clear_arranged (side : Side) (k : ViewKind) : Arranged r (clear side k s) := by
  have hs : ∀ x, Arranged r (s.setScreen side x) := setScreen_arranged h side
  unfold clear
  dsimp only
  split
  · split
    · split
      · exact lingerEnd_arranged (hs _) side
      · exact hs _
    · exact hs _
  · exact h

theorem followSpotDoor_arranged (side : Side) : Arranged r (followSpotDoor side s) := by
  unfold followSpotDoor
  split
  · exact setScreen_arranged h side _
  · exact h

theorem judgeSide_arranged (side : Side) : Arranged r (judgeSide side s) := by
  unfold judgeSide
  refine Arranged.foldl _ _ (fun t k ht => ?_) (Arranged.foldl _ _ (fun t k ht => ?_) (followSpotDoor_arranged h side))
  · split
    · exact ht
    · exact clear_arranged ht side k
  · split
    · exact raise_arranged ht side k
    · exact ht

theorem judgeViews_arranged : Arranged r (judgeViews s) := judgeSide_arranged (judgeSide_arranged h .left) .right

theorem settleViews_arranged : Arranged r (settleViews s) := by
  unfold settleViews
  split
  · exact settlePanes_arranged (judgePanes_arranged (reresolve_arranged (judgeViews_arranged h)))
  · exact h

end

/-! ### A change of the tables -/

/-- The spotlight queue over a change of the door table leaves both lists (R146, R147). -/
theorem spotlightChange_lists (old new : List DoorEntry) (c : Composer) :
    (spotlightChange old new c).warnings = c.warnings ∧ (spotlightChange old new c).refusals = c.refusals := by
  unfold spotlightChange
  have hjoin : ∀ (l : List DoorId) (d : Composer),
      (l.foldl spotJoin d).warnings = d.warnings ∧ (l.foldl spotJoin d).refusals = d.refusals := by
    intro l
    induction l with
    | nil => exact fun d => ⟨rfl, rfl⟩
    | cons x xs ih =>
      intro d
      have hx : (spotJoin d x).warnings = d.warnings ∧ (spotJoin d x).refusals = d.refusals := by
        unfold spotJoin
        repeat' split
        all_goals exact ⟨rfl, rfl⟩
      exact ⟨(ih _).1.trans hx.1, (ih _).2.trans hx.2⟩
  exact hjoin _ _

/-- What the Composer of a cab hands to its views in ACTIVE (R133, R162). -/
theorem composerTables_active {s : State} (hc : s.isCab = true) (ha : s.cab.state = .active) (old : Tables) :
    ∃ x : State, composerTables old s = settleViews x ∧ x.cab = s.cab ∧ x.comp.warnings = s.warningList
      ∧ x.comp.refusals =
        s.comp.refusals.filter (fun r => !entryDropped old.roster[r.cam.addr] s.tables.roster[r.cam.addr]) := by
  unfold composerTables
  rw [if_pos hc]
  have hi : (settleWarnings s).isActive = true := by
    show (s.cab.state == .active) = true
    simp [ha]
  dsimp only
  rw [if_pos hi]
  have hl := fun d => spotlightChange_lists old.doors (settleWarnings s).tables.doors d
  exact ⟨_, rfl, rfl, (hl _).1, (hl _).2⟩



/-- A change of the tables brings the warning list up to date (R164). -/
theorem composerTables_warnings {s : State} (hc : s.isCab = true) (old : Tables) :
    (composerTables old s).comp.warnings = s.warningList := by
  by_cases ha : s.cab.state = .active
  · obtain ⟨x, hx, -, hw, -⟩ := composerTables_active hc ha old
    rw [hx, (settleViews_arranged (Arranged.refl x)).warnings, hw]
  · rw [composerTables_inactive ha, if_pos hc]
    rfl

/-! ### Cab Control over a change of the tables -/

theorem applyQueueOps_cab (ops : List QueueOp) (s : State) : (applyQueueOps ops s).cab = s.cab := by
  unfold applyQueueOps
  induction ops generalizing s with
  | nil => rfl
  | cons o os ih =>
    refine (ih _).trans ?_
    cases o with
    | offer sub k => exact offer_cab sub k s
    | withdraw sub => exact withdraw_cab sub s

theorem evaluateOnce_cab (lift : WantPos → Bool) (applied : Option WantPos) (s : State) :
    (evaluateOnce lift applied s).cab = s.cab := by
  unfold evaluateOnce
  generalize s.evaluation lift applied = v
  exact applyQueueOps_cab v.ops _

theorem evaluateAgain_cab (n : Nat) (s : State) : (evaluateAgain n s).cab = s.cab := by
  induction n generalizing s with
  | zero => rfl
  | succ n ih =>
    unfold evaluateAgain
    dsimp only
    split
    · exact evaluateOnce_cab ..
    · exact (ih _).trans (evaluateOnce_cab ..)

theorem evaluate_cab (lift : WantPos → Bool) (applied : Option WantPos) (s : State) :
    (evaluate lift applied s).cab = s.cab := by
  unfold evaluate
  dsimp only
  split
  · exact evaluateOnce_cab ..
  · exact (evaluateAgain_cab ..).trans (evaluateOnce_cab ..)

theorem loseSlot_cab (n : StreamNo) (left : List Slot) (s : State) : (loseSlot n left s).cab = s.cab := by
  unfold loseSlot
  repeat' split
  · rfl
  · rfl
  · exact withdraw_cab ..
  · rfl
  · exact offer_cab ..

theorem loseSlots_cab (a : Addr) (old : Vector SlotEntry 24) (s : State) : (loseSlots a old s).cab = s.cab := by
  unfold loseSlots
  generalize List.filter (lostSlot a old s.tables.slots) allStreams = l
  induction l generalizing s with
  | nil => rfl
  | cons x xs ih => exact (ih _).trans (loseSlot_cab ..)

/-- The Stream Engine leaves Cab Control (R45). -/
theorem engineTables_cab (applied : Option WantPos) (old : Tables) (s : State) :
    (engineTables applied old s).cab = s.cab := by
  have hd : ∀ ps, (dropWants ps s).cab = s.cab := fun ps => applyQueueOps_cab _ _
  unfold engineTables
  dsimp only
  split
  · exact (evaluate_cab ..).trans ((loseSlots_cab ..).trans (hd _))
  · exact (loseSlots_cab ..).trans (hd _)

/-- A cab record that no longer names an active cab takes it out of ACTIVE, and its refusals with it (R124, R162). -/
theorem cabRecordChanged_active {s : State} (ha : s.cab.state = .active) (old : Option CabRecord) (named : Bool) :
    cabRecordChanged old named s = s
      ∨ (cabRecordChanged old named s).cab.state ≠ .active ∧ (cabRecordChanged old named s).comp.refusals = [] := by
  unfold cabRecordChanged
  rw [ha]
  split
  · dsimp only
    split
    · refine .inr ⟨?_, ?_⟩
      · rw [offer_cab]
        simp [setCabState, ha, leaveActive]
      · rw [offer_comp]
        simp [setCabState, ha, leaveActive]
    · exact .inl rfl
  · exact .inl rfl

/-- A change of the tables ends with the Composer's part. -/
theorem changeTables_composer (t : Tables) (s : State) : ∃ y : State, changeTables t s = composerTables s.tables y
    ∧ y.beside = (s.setTables t).beside
    ∧ (s.cab.state = .active → y.cab.state = .active ∨ y.cab.state ≠ .active ∧ y.comp.refusals = []) := by
  refine ⟨_, rfl, (cabRecordChanged_keeps s.tables.cabRecord s.namesSelf
    (engineTables_keeps none s.tables (Keeps.refl (s.setTables t)))).same, fun ha => ?_⟩
  have hx : (engineTables none s.tables (s.setTables t)).cab.state = .active := by
    rw [engineTables_cab]
    exact ha
  refine (cabRecordChanged_active hx s.tables.cabRecord s.namesSelf).imp_left fun h => ?_
  rw [h, hx]

/-- A change of the tables leaves a cab in ACTIVE, which refuses no camera whose entry has been dropped, or takes it out of
ACTIVE and its refusals with it (R124, R162). -/
theorem changeTables_active {s : State} (hc : s.isCab = true) (ha : s.cab.state = .active) (t : Tables) :
    ((changeTables t s).cab.state = .active ∧ ∀ r ∈ (changeTables t s).comp.refusals,
        entryDropped s.tables.roster[r.cam.addr] t.roster[r.cam.addr] = false)
      ∨ (changeTables t s).comp.refusals = [] := by
  obtain ⟨y, hch, hyb, hy⟩ := changeTables_composer t s
  have hyc : y.isCab = true := (isCab_congr (cfg_of_beside hyb)).trans hc
  rw [hch]
  rcases hy ha with hya | ⟨hn, he⟩
  · obtain ⟨z, hz, hzc, -, hzr⟩ := composerTables_active hyc hya s.tables
    have harr := settleViews_arranged (Arranged.refl z)
    rw [hz]
    refine .inl ⟨by rw [harr.cab, hzc, hya], fun r hr => ?_⟩
    have hr := harr.refusals hr
    rw [hzr, List.mem_filter, tables_of_beside_setTables hyb] at hr
    simpa using hr.2
  · rw [composerTables_inactive hn, if_pos hyc]
    exact .inr he

end Sys2Proof.Machine
end

