-- ==== Sys2Proof/Proofs/OutputLines.lean ====
section
/-! SUPPORT. What the output lines and the screens show, line by line, and the warning list after a heard LENS (R22, R69, R152,
R163 to R167). -/
namespace Sys2Proof.Machine

/-! ### FAULT and the picture -/

/-- An input is ABSENT if a record says so (R69). -/
theorem anyAbsent_iff (s : State) : s.anyAbsent = true ↔
    ∃ (i : Input) (r : InputRecord), s.intake.inputs[i] = some r ∧ r.state = .absent := by
  have hmem : ∀ i : Input, i ∈ allInputs := fun i => by fin_cases i <;> decide
  unfold State.anyAbsent
  rw [List.any_eq_true]
  constructor
  · rintro ⟨i, -, h⟩
    split at h
    · next r hr => exact ⟨i, r, hr, by simpa using h⟩
    · exact absurd h (by simp)
  · rintro ⟨i, r, hr, h⟩
    exact ⟨i, hmem i, by simp [hr, h]⟩

/-- FAULT (R22, R69, R167). -/
theorem faultLine_iff (s : State) : s.faultLine = true ↔ s.boot.phase ≠ .started ∨ (∃ r, s.trunk.state = .excluded r)
    ∨ s.trunk.state = .inert ∨ ∃ (i : Input) (r : InputRecord), s.intake.inputs[i] = some r ∧ r.state = .absent := by
  rw [← anyAbsent_iff]
  unfold State.faultLine
  cases s.trunk.state <;> simp

/-- A station shows a picture only if it acts and is a cab (R166, R167). -/
theorem screenPicture_dark {s : State} (h : s.isCab = false ∨ s.acting = false) : s.screenPicture = .none := by
  unfold State.screenPicture
  rcases h with h | h <;> simp [h]

/-- The picture of a cab that acts (R166). -/
theorem screenPicture_lit {s : State} (ha : s.acting = true) (hc : s.isCab = true) :
    (s.screenPicture = .excluded ↔ ∃ r, s.trunk.state = .excluded r)
      ∧ ((∀ r, s.trunk.state ≠ .excluded r) →
        (s.screenPicture = .forming ↔ s.trunk.state = .listen ∧ s.trunk.renumbered = true)
        ∧ (¬(s.trunk.state = .listen ∧ s.trunk.renumbered = true) →
          (s.cab.state = .blocked → s.screenPicture = .inUse)
          ∧ (s.cab.state = .idle ∨ s.cab.state = .taking → s.screenPicture = .standby))) := by
  have hac : (s.acting && s.isCab) = true := by simp [ha, hc]
  unfold State.screenPicture
  rw [if_pos hac]
  split
  · next r hr => exact ⟨iff_of_true rfl ⟨r, hr⟩, fun h => absurd hr (h r)⟩
  · next hn =>
    have hne : ¬∃ r, s.trunk.state = .excluded r := fun ⟨r, hr⟩ => hn r hr
    by_cases hf : s.trunk.state = .listen ∧ s.trunk.renumbered = true
    · rw [if_pos hf]
      exact ⟨iff_of_false (by simp) hne, fun _ => ⟨iff_of_true rfl hf, fun h => absurd hf h⟩⟩
    · rw [if_neg hf]
      refine ⟨iff_of_false ?_ hne, fun _ => ⟨iff_of_false ?_ hf, fun _ => ⟨fun hb => by rw [hb], fun hb => ?_⟩⟩⟩
      · cases s.cab.state <;> simp
      · cases s.cab.state <;> simp
      · rcases hb with hb | hb <;> rw [hb]

/-- The layout is shown in ACTIVE, in JOINED or in a LISTEN that follows no renumbering (R166). -/
theorem screenPicture_layout_iff (s : State) : s.screenPicture = .layout ↔ s.boot.phase = .started ∧ s.isCab = true
    ∧ s.cab.state = .active
    ∧ (s.trunk.state = .joined ∨ (s.trunk.state = .listen ∧ s.trunk.renumbered = false)) := by
  by_cases hac : (s.acting && s.isCab) = true
  · obtain ⟨ha, hc⟩ := Bool.and_eq_true_iff.mp hac
    obtain ⟨hb, hi⟩ : s.boot.phase = .started ∧ s.trunk.state ≠ .inert := by simpa [State.acting] using ha
    unfold State.screenPicture
    rw [if_pos hac]
    split
    · next r hr => exact iff_of_false (by simp) (by simp [hr])
    · next hn =>
      by_cases hf : s.trunk.state = .listen ∧ s.trunk.renumbered = true
      · rw [if_pos hf]
        exact iff_of_false (by simp) (by simp [hf])
      · rw [if_neg hf]
        have ht : s.trunk.state = .joined ∨ (s.trunk.state = .listen ∧ s.trunk.renumbered = false) := by
          cases hs : s.trunk.state with
          | joined => exact .inl rfl
          | listen => exact .inr ⟨rfl, Bool.eq_false_iff.mpr fun hr => hf ⟨hs, hr⟩⟩
          | excluded r => exact absurd hs (hn r)
          | inert => exact absurd hs hi
        cases s.cab.state <;> simp [hb, hc, ht]
  · rw [screenPicture_dark (by rw [Bool.and_eq_true_iff, not_and_or] at hac; simpa [or_comm] using hac)]
    refine iff_of_false (by simp) fun ⟨hb, hc, _, ht⟩ => hac ?_
    rcases ht with ht | ⟨ht, -⟩ <;> simp [State.acting, hb, hc, ht]

/-- LENS_LAMP (R164). -/
theorem lensLampLine_iff (s : State) : s.lensLampLine = true ↔ s.screenPicture = .layout ∧ s.comp.warnings ≠ [] := by
  unfold State.lensLampLine
  simp

/-! ### VIEW_OK -/

/-- A driver side is on a screen's side if it is that side or both (R129). -/
theorem isOn_iff (d ds : DriverSide) (side : Side) (h : side = .left ∧ ds = .left ∨ side = .right ∧ ds = .right) :
    d.isOn side = true ↔ d = .both ∨ d = ds := by
  rcases h with ⟨rfl, rfl⟩ | ⟨rfl, rfl⟩ <;> cases d <;> simp [DriverSide.isOn]

/-- The doors on a screen's side (R165). -/
theorem mem_doorsOn (s : State) (side : Side) (d : DoorEntry) :
    d ∈ s.doorsOn side ↔ d ∈ s.tables.doors ∧ (s.doorSide d.id).isOn side = true := List.mem_filter

/-- A camera is viewed on a screen that shows it LIVE, if it is graded CLEAN or WATCH (R165). -/
theorem viewed_iff (s : State) (side : Side) (c : CamId) : s.viewed side c = true ↔
    (∃ p ∈ (s.screen side).panes, p.result = .cam c ∧ p.state = .live)
      ∧ ∃ desc, s.camDesc c = some desc ∧ (desc.grade = .clean ∨ desc.grade = .watch) := by
  unfold State.viewed
  cases s.camDesc c <;> simp

/-- The exterior camera of a door (R132). -/
theorem exteriorCam_eq_some (s : State) (id : DoorId) (c : CamId) : s.exteriorCam id = some c ↔
    ∃ e y j, s.doorDesc id = some (e, y) ∧ y.exterior = some j ∧ { addr := id.addr, input := j } = c := by
  unfold State.exteriorCam
  cases s.doorDesc id with
  | none => simp
  | some p =>
    obtain ⟨e, y⟩ := p
    constructor
    · intro h
      obtain ⟨j, hj, hc⟩ := Option.map_eq_some_iff.mp h
      exact ⟨e, y, j, rfl, hj, hc⟩
    · rintro ⟨e', y', j, hp, hj, hc⟩
      obtain ⟨rfl, rfl⟩ := Prod.mk.inj (Option.some.inj hp)
      exact Option.map_eq_some_iff.mpr ⟨j, hj, hc⟩

/-- A door that may be open leaves VIEW_OK standing if its exterior camera is viewed (R165). -/
theorem exteriorCam_viewed_iff (s : State) (side : Side) (id : DoorId) : (s.exteriorCam id).any (s.viewed side) = true ↔
    ∃ e y j desc, s.doorDesc id = some (e, y) ∧ y.exterior = some j
      ∧ (∃ p ∈ (s.screen side).panes, p.result = .cam { addr := id.addr, input := j } ∧ p.state = .live)
      ∧ s.camDesc { addr := id.addr, input := j } = some desc ∧ (desc.grade = .clean ∨ desc.grade = .watch) := by
  rw [Option.any_eq_true]
  constructor
  · rintro ⟨c, hc, hv⟩
    obtain ⟨e, y, j, hd, hj, rfl⟩ := (exteriorCam_eq_some s id c).mp hc
    obtain ⟨hp, desc, hdesc, hg⟩ := (viewed_iff s side _).mp hv
    exact ⟨e, y, j, desc, hd, hj, hp, hdesc, hg⟩
  · rintro ⟨e, y, j, desc, hd, hj, hp, hdesc, hg⟩
    exact ⟨_, (exteriorCam_eq_some s id _).mpr ⟨e, y, j, hd, hj, rfl⟩, (viewed_iff s side _).mpr ⟨hp, desc, hdesc, hg⟩⟩

/-- What a door must be for VIEW_OK to stand (R165). -/
theorem doorViewOk_iff (s : State) (side : Side) (d : DoorEntry) : s.doorViewOk side d = true ↔
    d.phase ≠ .unknown ∧ d.phase ≠ .fault ∧ (d.phase = .opened ∨ d.phase = .closing ∨ d.phase = .obstructed →
      ∃ e y j desc, s.doorDesc d.id = some (e, y) ∧ y.exterior = some j
        ∧ (∃ p ∈ (s.screen side).panes, p.result = .cam { addr := d.id.addr, input := j } ∧ p.state = .live)
        ∧ s.camDesc { addr := d.id.addr, input := j } = some desc
        ∧ (desc.grade = .clean ∨ desc.grade = .watch)) := by
  rw [← exteriorCam_viewed_iff]
  unfold State.doorViewOk
  cases s.exteriorCam d.id <;> cases d.phase <;> simp

/-- VIEW_OK of a side (R165, R166). -/
theorem viewOkLine_iff (s : State) (side : Side) (ds : DriverSide)
    (h : side = .left ∧ ds = .left ∨ side = .right ∧ ds = .right) : s.viewOkLine side = true ↔
      s.screenPicture = .layout ∧ ∀ d ∈ s.tables.doors, s.doorSide d.id = .both ∨ s.doorSide d.id = ds →
        s.doorViewOk side d = true := by
  have hact : s.screenPicture = .layout → s.isActive = true := fun hp => by
    obtain ⟨-, -, ha, -⟩ := (screenPicture_layout_iff s).mp hp
    simp [State.isActive, ha]
  have hall : (s.doorsOn side).all (s.doorViewOk side) = true ↔ ∀ d ∈ s.tables.doors,
      s.doorSide d.id = .both ∨ s.doorSide d.id = ds → s.doorViewOk side d = true := by
    simp only [List.all_eq_true, mem_doorsOn, isOn_iff _ ds side h, and_imp]
  unfold State.viewOkLine State.viewOk
  rw [Bool.and_eq_true, Bool.and_eq_true, beq_iff_eq, hall]
  exact ⟨fun ⟨hp, _, hd⟩ => ⟨hp, hd⟩, fun ⟨hp, hd⟩ => ⟨hp, hact hp, hd⟩⟩

/-! ### The panes as they are shown -/

/-- The mark and the hold of a pane with a camera descriptor (R163). -/
theorem paneView_of_camDesc {s : State} {p : Pane} {c : CamId} {d : CamDesc} (hp : p.result = .cam c)
    (hd : s.camDesc c = some d) : (s.paneView p).mark = (if d.grade = .clean then none else some d.grade)
      ∧ (s.paneView p).hold = d.held := by
  have hc : s.paneCam p = some d := by
    unfold State.paneCam
    rw [hp]
    exact hd
  unfold State.paneView
  rw [hc]
  exact ⟨rfl, rfl⟩

/-- A pane without one shows neither (R163). -/
theorem paneView_of_no_camDesc {s : State} {p : Pane} (h : ∀ c d, p.result = .cam c → s.camDesc c ≠ some d) :
    (s.paneView p).mark = none ∧ (s.paneView p).hold = false := by
  have hc : s.paneCam p = none := by
    unfold State.paneCam
    split
    · next c hc => exact Option.eq_none_iff_forall_ne_some.mpr fun d hd => h c d hc hd
    · rfl
  unfold State.paneView
  rw [hc]
  exact ⟨rfl, rfl⟩

/-- The picture of a LIVE or STALE pane whose stream has its class (R152). -/
theorem image_of_bound {p : Pane} {b : StreamId} {m : BindMark} {d : List (List Byte)} (rs : List Refused)
    (hs : p.state = .live ∨ p.state = .stale) (hb : p.bound = some (b, m)) (hd : p.display = some d) (hc : b.cls = p.cls) :
    p.image rs = .picture d (p.state == .stale) := by
  have hshow : p.shownPicture = d := by
    unfold Pane.shownPicture
    rw [hb, hd]
    exact if_pos hc
  unfold Pane.image
  rw [hshow]
  rcases hs with hs | hs <;> rw [hs] <;> rfl

/-- The picture of a DENIED pane (R152, R162). -/
theorem image_of_denied {p : Pane} {rs : List Refused} {c : CamId} {r : RefusalReason} (hs : p.state = .denied)
    (hc : p.result = .cam c) (hr : refusalOf rs c p.cls = some r) : p.image rs = .notAvailable r := by
  have href : p.refusal rs = some r := by
    unfold Pane.refusal
    rw [hc]
    exact hr
  unfold Pane.image
  rw [hs]
  dsimp only
  rw [href]

/-- A screen output shows its side's layout (R166, R179). -/
theorem outputs_screen (s : State) (side : Side) (hp : s.screenPicture = .layout) :
    (if side = s.cfg.screen0 then s.outputs.screen0 else s.outputs.screen1) = some (s.screenView side) := by
  have hv : ∀ x, s.layoutView x = some (s.screenView x) := fun x => if_pos hp
  show (if side = s.cfg.screen0 then s.layoutView s.cfg.screen0 else s.layoutView s.cfg.screen0.other) = _
  rw [hv, hv]
  split
  · next h => rw [h]
  · next h => cases side <;> cases hc : s.cfg.screen0 <;> simp_all [Side.other]

/-! ### The warning list -/

/-- The camera descriptors of the roster (R131). -/
theorem mem_cameras (s : State) (c : CamId) (e : RosterEntry) (d : CamDesc) :
    (c, e, d) ∈ s.cameras ↔ s.tables.roster[c.addr] = some e ∧ d ∈ e.cams ∧ d.input = c.input := by
  unfold State.cameras State.rosterList
  simp only [List.mem_flatten, List.mem_map, List.mem_filterMap, Option.map_eq_some_iff]
  constructor
  · rintro ⟨_, ⟨_, ⟨a, -, x, hx, rfl⟩, rfl⟩, hl⟩
    obtain ⟨y, hy, heq⟩ := List.mem_map.mp hl
    obtain ⟨rfl, rfl, rfl⟩ : { addr := a, input := y.input } = c ∧ x = e ∧ y = d := by simpa using heq
    exact ⟨hx, hy, rfl⟩
  · rintro ⟨hr, hd, hi⟩
    refine ⟨_, ⟨(c.addr, e), ⟨c.addr, mem_allAddrs _, e, hr, rfl⟩, rfl⟩, List.mem_map.mpr ⟨d, hd, ?_⟩⟩
    rw [hi]

/-- The warnings of one grade (R164). -/
theorem mem_warningsOf (s : State) (g : Grade) (w : Warning) : w ∈ s.warningsOf g ↔ w.grade = g
    ∧ ∃ e d, s.tables.roster[w.cam.addr] = some e ∧ d ∈ e.cams ∧ d.input = w.cam.input ∧ d.grade = g := by
  unfold State.warningsOf
  rw [List.mem_map]
  simp only [mem_sortBy, List.mem_map, List.mem_filter, beq_iff_eq]
  constructor
  · rintro ⟨c, ⟨⟨c', e, d⟩, ⟨hm, hg⟩, rfl⟩, rfl⟩
    obtain ⟨hr, hd, hi⟩ := (mem_cameras s c' e d).mp hm
    exact ⟨rfl, e, d, hr, hd, hi, hg⟩
  · rintro ⟨rfl, e, d, hr, hd, hi, hg⟩
    exact ⟨w.cam, ⟨(w.cam, e, d), ⟨(mem_cameras s w.cam e d).mpr ⟨hr, hd, hi⟩, hg⟩, rfl⟩, rfl⟩

/-- Camera a is not after camera b: the address first (R164). -/
def CamId.upTo (a b : CamId) : Prop := a.addr.val < b.addr.val ∨ (a.addr = b.addr ∧ a.input.val ≤ b.input.val)

theorem CamId.not_before_iff (a b : CamId) : b.before a = false ↔ a.upTo b := by
  unfold CamId.before CamId.upTo
  by_cases h : b.addr = a.addr
  · simp [h]
  · have hv : b.addr.val ≠ a.addr.val := fun hc => h (Fin.ext hc)
    simp only [if_neg h, decide_eq_false_iff_not, Ne.symm h, false_and, or_false]
    omega

/-- Sorting by an order leaves no element before an earlier one. -/
theorem pairwise_sortBy {α : Type} (before : α → α → Bool) (asymm : ∀ a b, before a b = true → before b a = false)
    (trans : ∀ a b c, before b a = false → before c b = false → before c a = false) (l : List α) :
    (sortBy before l).Pairwise (fun a b => before b a = false) := by
  have key : ∀ acc : List α, acc.Pairwise (fun a b => before b a = false) →
      (l.foldl (fun acc x => insertBy before x acc) acc).Pairwise (fun a b => before b a = false) := by
    induction l with
    | nil => exact fun _ h => h
    | cons x xs ih => exact fun acc h => ih _ (pairwise_insertBy before asymm trans x acc h)
  exact key [] List.Pairwise.nil

/-- The warnings of one grade are by camera id (R164). -/
theorem warningsOf_pairwise (s : State) (g : Grade) : (s.warningsOf g).Pairwise (fun a b => a.cam.upTo b.cam) := by
  unfold State.warningsOf
  rw [List.pairwise_map]
  refine (pairwise_sortBy CamId.before (fun a b h => ?_) (fun a b c hab hbc => ?_) _).imp
    fun h => (CamId.not_before_iff _ _).mp h
  · by_contra hn
    have hn : b.before a = true := by simpa using hn
    unfold CamId.before at h hn
    by_cases he : a.addr = b.addr
    · simp only [he, if_true, decide_eq_true_eq] at h hn
      omega
    · simp only [he, Ne.symm he, if_false, decide_eq_true_eq] at h hn
      omega
  · rw [CamId.not_before_iff] at hab hbc ⊢
    unfold CamId.upTo at hab hbc ⊢
    rcases hab with hab | ⟨hab, hab'⟩ <;> rcases hbc with hbc | ⟨hbc, hbc'⟩
    · exact .inl (hab.trans hbc)
    · exact .inl (hbc ▸ hab)
    · exact .inl (hab ▸ hbc)
    · exact .inr ⟨hab.trans hbc, hab'.trans hbc'⟩

/-- The warning list of a cab (R164). -/
theorem mem_warningList {s : State} (hc : s.isCab = true) (w : Warning) : w ∈ s.warningList ↔
    (w.grade = .obscured ∨ w.grade = .soiled) ∧ ∃ e d, s.tables.roster[w.cam.addr] = some e ∧ d ∈ e.cams
      ∧ d.input = w.cam.input ∧ d.grade = w.grade := by
  unfold State.warningList
  rw [if_pos hc, List.mem_append, mem_warningsOf, mem_warningsOf]
  constructor
  · rintro (⟨hg, hw⟩ | ⟨hg, hw⟩) <;> rw [hg]
    · exact ⟨.inl rfl, hw⟩
    · exact ⟨.inr rfl, hw⟩
  · rintro ⟨hg | hg, hw⟩ <;> rw [hg] at hw
    · exact .inl ⟨hg, hw⟩
    · exact .inr ⟨hg, hw⟩

/-- Its order: OBSCURED first, and by camera id (R164). -/
theorem warningList_pairwise (s : State) : s.warningList.Pairwise (fun a b => (a.grade = .obscured ∧ b.grade = .soiled)
    ∨ (a.grade = b.grade ∧ a.cam.upTo b.cam)) := by
  have hof : ∀ g, (s.warningsOf g).Pairwise (fun a b => (a.grade = .obscured ∧ b.grade = .soiled)
      ∨ (a.grade = b.grade ∧ a.cam.upTo b.cam)) := fun g =>
    (warningsOf_pairwise s g).imp_of_mem fun {a b} ha hb h => .inr
      ⟨((mem_warningsOf s g a).mp ha).1.trans ((mem_warningsOf s g b).mp hb).1.symm, h⟩
  unfold State.warningList
  split
  · refine List.pairwise_append.mpr ⟨hof _, hof _, fun a ha b hb => .inl ?_⟩
    exact ⟨((mem_warningsOf s _ a).mp ha).1, ((mem_warningsOf s _ b).mp hb).1⟩
  · exact List.Pairwise.nil

/-- The warning list follows from the roster and the role (R164). -/
theorem warningList_of_beside {r s : State} (h : s.beside = r.beside) : s.warningList = r.warningList := by
  unfold State.warningList State.isCab State.warningsOf State.cameras State.rosterList
  rw [cfg_of_beside h, tables_of_beside h]

/-- After a change of the tables a cab's warning list is that of the roster (R133, R164). -/
theorem changeTables_warnings {s : State} (hc : s.isCab = true) (t : Tables) :
    (changeTables t s).comp.warnings = (changeTables t s).warningList := by
  obtain ⟨y, hy, hyb, -⟩ := changeTables_composer t s
  have hyc : y.isCab = true := (isCab_congr (cfg_of_beside hyb)).trans hc
  have hl : (changeTables t s).warningList = y.warningList :=
    warningList_of_beside ((changeTables_beside t s).trans hyb.symm)
  rw [hl, hy]
  exact composerTables_warnings hyc s.tables

/-- Settles O4: line by line, and the warning list after a heard LENS. -/
theorem outputLinesFollowState : Obligations.OutputLinesFollowState := by
  refine ⟨fun c s t hexec => ?_, fun s rx f ib gb fb hs hr hbody ha hcontent hcab => ?_⟩
  · rw [exec_outputs hexec]
    refine ⟨faultLine_iff t, lensLampLine_iff t, ?_, screenPicture_lit, screenPicture_layout_iff t, screenPicture_dark,
      fun hp => ⟨if_neg hp, if_neg hp⟩, fun hp side => ?_⟩
    · intro side line ds hside
      have hline : line = t.viewOkLine side := by
        rcases hside with ⟨rfl, h, -⟩ | ⟨rfl, h, -⟩ <;> exact h
      rw [hline, viewOkLine_iff t side ds (hside.imp (fun h => ⟨h.1, h.2.2⟩) (fun h => ⟨h.1, h.2.2⟩))]
      simp only [doorViewOk_iff]
      rfl
    · refine ⟨t.screenView side, outputs_screen t side hp, rfl, rfl, List.length_map _, fun k p x hk hx => ?_⟩
      have hx : x = t.paneView p := by
        have hm : (t.screenView side).panes[k]? = ((t.screen side).panes[k]?).map t.paneView := List.getElem?_map ..
        rw [hm, hk] at hx
        exact (Option.some.inj hx).symm
      have himg : x.image = p.image t.comp.refusals := by rw [hx]; rfl
      rw [himg]
      subst hx
      refine ⟨rfl, fun c d hc hd => paneView_of_camDesc hc hd, paneView_of_no_camDesc, ?_, ?_, ?_,
        fun b m d hst hb hd hc => image_of_bound _ hst hb hd hc, fun c r hst hc hrf => image_of_denied hst hc hrf⟩ <;>
      · intro hst
        unfold Pane.image
        rw [hst]
  · obtain ⟨u, hexec, hu⟩ := exec_heardBy_admitted (k := .lens) hs hr (by rw [hbody]; rfl) ha
    have huc : u.isCab = true := (isCab_congr (cfg_of_beside hu)).trans hcab
    obtain ⟨⟨i, g⟩, hig⟩ := Option.ne_none_iff_exists'.mp hcontent
    obtain ⟨T, hT⟩ : ∃ T, applyBody f.addr f.tag f.body u = changeTables T u := by
      rw [hbody]
      show ∃ T, applyLens f.addr (lensContent ib gb) fb u = changeTables T u
      rw [hig]
      exact ⟨_, rfl⟩
    rw [hT] at hexec
    have hw := changeTables_warnings huc T
    have hvc : (changeTables T u).isCab = true := (isCab_congr (cfg_of_beside (changeTables_beside T u))).trans huc
    refine ⟨_, hexec, fun w => ?_, ?_⟩
    · show w ∈ (changeTables T u).comp.warnings ↔ _
      rw [hw]
      exact mem_warningList hvc w
    · show (changeTables T u).comp.warnings.Pairwise _
      rw [hw]
      exact warningList_pairwise _

end Sys2Proof.Machine
end

