-- ==== Sys2Proof/Proofs/RefusalSet.lean ====
section
/-! SUPPORT. What stands in the refusal set once the panes are settled, after a layout switch and after a tile (R153, R156 to
R158, R162). -/
namespace Sys2Proof.Machine

/-! ### The WANT list of settled panes -/

theorem givesWant_iff (es : List WantEntry) (cam : CamId) (cls : SizeClass) :
    givesWant es cam cls = true ↔ ∃ w ∈ es, w.carry = false ∧ w.cam = cam ∧ w.cls = cls := by
  unfold givesWant
  simp [and_assoc]

/-- A carry entry gives no pane's want (R153). -/
theorem givesWant_addCarry (acc : List WantEntry) (e : CarryEntry) (cam : CamId) (cls : SizeClass) :
    givesWant (addCarry acc e) cam cls = givesWant acc cam cls := by
  unfold addCarry
  split
  · rfl
  · simp [givesWant, List.any_append]

/-- The WANT list gives what the panes want (R153). -/
theorem givesWant_buildWant (c : Composer) (cam : CamId) (cls : SizeClass) :
    givesWant c.buildWant cam cls = givesWant c.nonCarry cam cls := by
  have key : ∀ (l : List CarryEntry) (acc : List WantEntry),
      givesWant (l.foldl addCarry acc) cam cls = givesWant acc cam cls := by
    intro l
    induction l with
    | nil => exact fun _ => rfl
    | cons e es ih => exact fun acc => (ih _).trans (givesWant_addCarry acc e cam cls)
  exact key _ _

theorem givesWant_wanted (c : Composer) (cam : CamId) (cls : SizeClass) :
    givesWant c.wanted cam cls = givesWant c.nonCarry cam cls := givesWant_buildWant _ _ _

/-- Settling changes the panes' states alone (R152). -/
theorem settled_panes (c : Composer) (side : Side) : (c.settled.screen side).panes =
    (c.screen side).panes.map (fun p => { p with state := paneStateOf c.refused p }) := by
  cases side <;> rfl

/-- Settling leaves what the panes want (R153). -/
theorem nonCarry_settled (c : Composer) : c.settled.nonCarry = c.nonCarry := by
  have hp : c.settled.panes = c.panes.map (fun p => { p with state := paneStateOf c.refused p }) := by
    unfold Composer.panes
    rw [List.map_append]
    rfl
  unfold Composer.nonCarry
  rw [hp, List.foldl_map]
  rfl

/-- The refusals of settled panes are those that their WANT list gives (R162). -/
theorem mem_settled_refusals (c : Composer) (r : Refused) : r ∈ c.settled.refusals ↔
    r ∈ c.refusals ∧ ∃ w ∈ c.settled.wantList, w.carry = false ∧ w.cam = r.cam ∧ w.cls = r.cls := by
  rw [← givesWant_iff]
  exact List.mem_filter

/-! ### A refusal that is served -/

/-- A pane bound PLAIN serves the refusal of its camera and class (R162). -/
def Pane.serves (p : Pane) (r : Refused) : Prop := p.result = .cam r.cam ∧ p.cls = r.cls ∧ ∃ b, p.bound = some (b, .plain)

theorem mem_dropServed (rs : List Refused) (ps : List Pane) (r : Refused) :
    r ∈ dropServed rs ps ↔ r ∈ rs ∧ ∀ p ∈ ps, ¬p.serves r := by
  unfold dropServed
  rw [List.mem_filter, Bool.not_eq_true', List.any_eq_false]
  refine and_congr_right fun _ => forall_congr' fun p => forall_congr' fun _ => not_congr ?_
  unfold Pane.serves
  rw [Bool.and_eq_true, Bool.and_eq_true, beq_iff_eq, beq_iff_eq, and_assoc]
  refine and_congr_right fun _ => and_congr_right fun _ => ?_
  cases p.bound with
  | none => simp
  | some x => obtain ⟨b, m⟩ := x; cases m <;> simp

/-! ### Judging a pane -/

/-- A pane that shows the same camera at the same class, and is bound PLAIN only if it was so before. -/
structure NoNewBinding (p q : Pane) : Prop where
  result : q.result = p.result
  cls : q.cls = p.cls
  plain : ∀ b, q.bound = some (b, .plain) → p.bound = some (b, .plain)

theorem NoNewBinding.refl (p : Pane) : NoNewBinding p p := ⟨rfl, rfl, fun _ => id⟩

theorem NoNewBinding.trans {p q x : Pane} (h : NoNewBinding p q) (h' : NoNewBinding q x) : NoNewBinding p x :=
  ⟨h'.result.trans h.result, h'.cls.trans h.cls, fun b hb => h.plain b (h'.plain b hb)⟩

theorem setCandidate_noNewBinding (p : Pane) (c : Option StreamId) : NoNewBinding p (p.setCandidate c) := by
  unfold Pane.setCandidate
  split <;> exact ⟨rfl, rfl, fun _ => id⟩

theorem unbind_noNewBinding (p : Pane) : NoNewBinding p p.unbind := ⟨rfl, rfl, fun _ h => absurd h (by simp [Pane.unbind])⟩

theorem loseBound_noNewBinding (p : Pane) (available : List StreamId) : NoNewBinding p (p.loseBound available) := by
  unfold Pane.loseBound
  split
  · exact .refl p
  · split
    · exact .refl p
    · split
      · exact ⟨rfl, rfl, fun b h => absurd h (by simp)⟩
      · exact unbind_noNewBinding p

/-- The pane without a candidate that has ceased to be available (R156). -/
def Pane.dropCandidate (p : Pane) (available : List StreamId) : Pane :=
  match p.candidate with
  | some x => if x ∈ available then p else { p with candidate := none, candidatePicture := none }
  | none => p

/-- The pane with its new candidate; one bound to an ENDED stream that has none is unbound first (R156, R158). -/
def Pane.takeChoice (p : Pane) (available : List StreamId) : Pane :=
  match p.bound, p.choose (available.filter p.accepts) with
  | some (_, .ended), none => p.unbind.setCandidate (p.unbind.choose (available.filter p.accepts))
  | _, c => p.setCandidate c

theorem judge_of_cam {p : Pane} {c : CamId} (h : p.result = .cam c) (available : List StreamId) :
    p.judge available = ((p.dropCandidate available).loseBound available).takeChoice available := by
  unfold Pane.judge
  split
  · rfl
  · next hn => exact absurd h (hn c)

theorem judge_of_not_cam {p : Pane} (h : ∀ c, p.result ≠ .cam c) (available : List StreamId) : p.judge available = p := by
  unfold Pane.judge
  split
  · next c hc => exact absurd hc (h c)
  · rfl

theorem dropCandidate_noNewBinding (p : Pane) (available : List StreamId) : NoNewBinding p (p.dropCandidate available) := by
  unfold Pane.dropCandidate
  repeat' split
  all_goals exact ⟨rfl, rfl, fun _ => id⟩

theorem takeChoice_noNewBinding (p : Pane) (available : List StreamId) : NoNewBinding p (p.takeChoice available) := by
  unfold Pane.takeChoice
  split
  · exact (unbind_noNewBinding _).trans (setCandidate_noNewBinding _ _)
  · exact setCandidate_noNewBinding _ _

/-- Judging binds no pane PLAIN (R156, R158). -/
theorem judge_noNewBinding (p : Pane) (available : List StreamId) : NoNewBinding p (p.judge available) := by
  by_cases h : ∃ c, p.result = .cam c
  · obtain ⟨c, hc⟩ := h
    rw [judge_of_cam hc]
    exact (dropCandidate_noNewBinding p available).trans
      ((loseBound_noNewBinding _ available).trans (takeChoice_noNewBinding _ available))
  · rw [judge_of_not_cam fun c hc => h ⟨c, hc⟩]
    exact .refl p

/-! ### A layout switch -/

theorem screen_setScreen (c : Composer) (side : Side) (x : Screen) : (c.setScreen side x).screen side = x := by
  cases side <;> rfl

theorem setScreen_refusals (c : Composer) (side : Side) (x : Screen) : (c.setScreen side x).refusals = c.refusals := by
  cases side <;> rfl

/-- After a layout switch no pane of the screen serves a refusal (R157, R162). -/
theorem layoutSwitch_refusals {s : State} (ha : s.cab.state = .active) (side : Side) (lay : ShownLayout) :
    ∀ r ∈ (layoutSwitch side lay s).comp.refusals, ∀ p ∈ ((layoutSwitch side lay s).screen side).panes,
      ¬p.serves r := by
  obtain ⟨x, hx, hxa, fresh, hpanes, hrefusals⟩ : ∃ x, layoutSwitch side lay s = settlePanes (judgePanes x)
      ∧ x.cab.state = .active ∧ ∃ fresh, (x.comp.screen side).panes = fresh
        ∧ x.comp.refusals = dropServed s.comp.refusals fresh :=
    ⟨_, rfl, ha, _, congrArg Screen.panes (screen_setScreen ..), setScreen_refusals ..⟩
  have hcomp : (layoutSwitch side lay s).comp = (judgePanes x).comp.settled := by
    rw [hx]
    exact settlePanes_comp hxa
  have hjudged : ((judgePanes x).comp.screen side).panes =
      fresh.map (fun p => p.judge (availableStreams x.tables.slots)) := by
    rw [← hpanes]
    cases side <;> rfl
  intro r hr p hp ⟨hres, hcls, b, hb⟩
  rw [hcomp, mem_settled_refusals] at hr
  have hr : r ∈ dropServed s.comp.refusals fresh := hrefusals ▸ hr.1
  unfold State.screen at hp
  rw [hcomp, settled_panes, hjudged, List.map_map] at hp
  obtain ⟨q, hq, rfl⟩ := List.mem_map.mp hp
  have hj := judge_noNewBinding q (availableStreams x.tables.slots)
  exact ((mem_dropServed _ _ _).mp hr).2 q hq ⟨hj.result.symm.trans hres, hj.cls.symm.trans hcls, b, hj.plain b hb⟩

/-! ### A tile -/

/-- A step of a pane that shows the same camera at the same class. -/
def Pane.sameView (p q : Pane) : Prop := q.result = p.result ∧ q.cls = p.cls

theorem endPicture_sameView (p : Pane) (a : Assembly) (cls : SizeClass) : p.sameView (p.endPicture a cls).pane := by
  unfold Pane.endPicture
  dsimp only
  split <;> exact ⟨rfl, rfl⟩

/-- The picture of another sequence number ended by a band (R159). -/
def Pane.endOther (p : Pane) (cls : SizeClass) (h : TileHeader) : PaneStep :=
  match p.assembly with
  | some a => if a.seq = h.seq then PaneStep.still p else p.endPicture a cls
  | none => PaneStep.still p

theorem takeBand_eq (p : Pane) (cls : SizeClass) (h : TileHeader) (payload : List Byte) :
    ∃ a, p.takeBand cls h payload =
      if h.last then (p.endOther cls h).after ((p.endOther cls h).pane.endPicture a cls)
      else (p.endOther cls h).after (PaneStep.still { (p.endOther cls h).pane with assembly := some a }) := ⟨_, rfl⟩

theorem endOther_sameView (p : Pane) (cls : SizeClass) (h : TileHeader) : p.sameView (p.endOther cls h).pane := by
  unfold Pane.endOther
  split
  · split
    · exact ⟨rfl, rfl⟩
    · exact endPicture_sameView p _ cls
  · exact ⟨rfl, rfl⟩

theorem takeBand_sameView (p : Pane) (cls : SizeClass) (h : TileHeader) (payload : List Byte) :
    p.sameView (p.takeBand cls h payload).pane := by
  obtain ⟨hr, hc⟩ := endOther_sameView p cls h
  obtain ⟨a, ha⟩ := takeBand_eq p cls h payload
  obtain ⟨hr', hc'⟩ := endPicture_sameView (p.endOther cls h).pane a cls
  rw [ha]
  split
  · exact ⟨hr'.trans hr, hc'.trans hc⟩
  · exact ⟨hr, hc⟩

/-- A tile leaves the camera and the class of the pane that takes it (R158 to R160). -/
theorem takeTile_sameView (p : Pane) (id : StreamId) (h : TileHeader) (payload : List Byte) :
    p.sameView (p.takeTile id h payload).pane := by
  unfold Pane.takeTile
  split
  · split
    · unfold Pane.takeCandidateBand
      dsimp only
      repeat' split
      all_goals exact ⟨rfl, rfl⟩
    · unfold Pane.takeCandidateHold
      split <;> exact ⟨rfl, rfl⟩
  · split
    · exact takeBand_sameView p _ h payload
    · unfold Pane.takeHold
      split <;> exact ⟨rfl, rfl⟩

/-- A pane that has taken a tile: it shows the same, and if it is bound anew no refusal is left that it serves (R158, R162). -/
structure Taken (rs : List Refused) (p q : Pane) : Prop where
  same : p.sameView q
  served : q.bound ≠ p.bound → ∀ r ∈ rs, ¬q.serves r

/-- The pane that a tile leaves (R158). -/
def Pane.afterTile (p : Pane) (id : StreamId) (h : TileHeader) (payload : List Byte) (available : List StreamId) : Pane :=
  if (p.takeTile id h payload).pane.bound != p.bound then (p.takeTile id h payload).pane.judge available
  else (p.takeTile id h payload).pane

/-- The Composer after one pane has taken a tile (R158, R159, R162). -/
def Composer.afterTile (c : Composer) (p : Pane) (id : StreamId) (h : TileHeader) (payload : List Byte)
    (available : List StreamId) : Composer :=
  let c' := c.count (p.takeTile id h payload)
  if (p.takeTile id h payload).pane.bound != p.bound then
    { c' with refusals := dropServed c'.refusals [p.afterTile id h payload available] }
  else c'

theorem takePaneTile_listens {id : StreamId} {p : Pane} (hp : p.listens id = true) (h : TileHeader) (payload : List Byte)
    (c : Composer) (available : List StreamId) (ps : List Pane) : takePaneTile id h payload c available (p :: ps) =
      ((takePaneTile id h payload (c.afterTile p id h payload available) available ps).1,
        p.afterTile id h payload available
          :: (takePaneTile id h payload (c.afterTile p id h payload available) available ps).2) := by
  rw [takePaneTile, if_pos hp]
  rfl

theorem takePaneTile_deaf {id : StreamId} {p : Pane} (hp : ¬p.listens id = true) (h : TileHeader) (payload : List Byte)
    (c : Composer) (available : List StreamId) (ps : List Pane) : takePaneTile id h payload c available (p :: ps) =
      ((takePaneTile id h payload c available ps).1, p :: (takePaneTile id h payload c available ps).2) := by
  rw [takePaneTile, if_neg hp]

theorem afterTile_refusals (c : Composer) (p : Pane) (id : StreamId) (h : TileHeader) (payload : List Byte)
    (available : List StreamId) : (c.afterTile p id h payload available).refusals ⊆ c.refusals := by
  unfold Composer.afterTile
  dsimp only
  split
  · exact List.filter_subset_self _
  · exact List.Subset.refl _

theorem afterTile_taken (c : Composer) (p : Pane) (id : StreamId) (h : TileHeader) (payload : List Byte)
    (available : List StreamId) : Taken (c.afterTile p id h payload available).refusals p
      (p.afterTile id h payload available) := by
  have hview := takeTile_sameView p id h payload
  by_cases ht : ((p.takeTile id h payload).pane.bound != p.bound) = true
  · have hpane : p.afterTile id h payload available = (p.takeTile id h payload).pane.judge available := if_pos ht
    have hj := judge_noNewBinding (p.takeTile id h payload).pane available
    refine ⟨by rw [hpane]; exact ⟨hj.result.trans hview.1, hj.cls.trans hview.2⟩, fun _ r hr => ?_⟩
    unfold Composer.afterTile at hr
    rw [if_pos ht] at hr
    exact ((mem_dropServed _ _ _).mp hr).2 _ (List.mem_singleton.mpr rfl)
  · have hpane : p.afterTile id h payload available = (p.takeTile id h payload).pane := if_neg ht
    rw [hpane]
    exact ⟨hview, fun hne => absurd (by simpa using ht) hne⟩

/-- A tile brings no refusal (R162). -/
theorem takePaneTile_refusals (id : StreamId) (h : TileHeader) (payload : List Byte) (available : List StreamId)
    (ps : List Pane) (c : Composer) : (takePaneTile id h payload c available ps).1.refusals ⊆ c.refusals := by
  induction ps generalizing c with
  | nil => exact List.Subset.refl _
  | cons p ps ih =>
    by_cases hp : p.listens id = true
    · rw [takePaneTile_listens hp]
      exact List.Subset.trans (ih _) (afterTile_refusals ..)
    · rw [takePaneTile_deaf hp]
      exact ih c

/-- What each pane of a screen is after a tile (R158, R162). -/
theorem takePaneTile_taken (id : StreamId) (h : TileHeader) (payload : List Byte) (available : List StreamId)
    (ps : List Pane) (c : Composer) (k : Nat) (p : Pane) (hk : ps[k]? = some p) :
    ∃ q, (takePaneTile id h payload c available ps).2[k]? = some q
      ∧ Taken (takePaneTile id h payload c available ps).1.refusals p q := by
  induction ps generalizing c k with
  | nil => simp at hk
  | cons x xs ih =>
    by_cases hx : x.listens id = true
    · rw [takePaneTile_listens hx]
      cases k with
      | zero =>
        obtain rfl : x = p := by simpa using hk
        have ht := afterTile_taken c x id h payload available
        exact ⟨_, rfl, ht.same, fun hb r hr => ht.served hb r (takePaneTile_refusals id h payload available xs _ hr)⟩
      | succ k => exact ih _ k (by simpa using hk)
    · rw [takePaneTile_deaf hx]
      cases k with
      | zero =>
        obtain rfl : x = p := by simpa using hk
        exact ⟨x, rfl, ⟨rfl, rfl⟩, fun hb => absurd rfl hb⟩
      | succ k => exact ih c k (by simpa using hk)

/-- What each pane is after a tile that the Composer takes (R158, R162). -/
theorem composerTile_taken {s : State} (ha : s.cab.state = .active) (f : TileFilter) (h : TileHeader)
    (payload : List Byte) (side : Side) (k : Nat) (p : Pane) (hk : (s.screen side).panes[k]? = some p) :
    ∃ q, ((composerTile f h payload s).screen side).panes[k]? = some q
      ∧ Taken (composerTile f h payload s).comp.refusals p q := by
  unfold composerTile
  dsimp only
  split
  · generalize hl : takePaneTile h.streamId h payload s.comp (availableStreams s.tables.slots) s.comp.left.panes = l
    generalize hr : takePaneTile h.streamId h payload l.1 (availableStreams s.tables.slots) s.comp.right.panes = r
    obtain ⟨c, hc⟩ : ∃ c : Composer, c =
      { r.1 with left := { r.1.left with panes := l.2 }, right := { r.1.right with panes := r.2 } } := ⟨_, rfl⟩
    rw [← hc]
    have hcomp : (settlePanes (s.setComp c)).comp = c.settled := settlePanes_comp (s := s.setComp c) ha
    have hrefusals : ∀ x ∈ c.settled.refusals, x ∈ r.1.refusals := fun x hx => by
      rw [mem_settled_refusals, hc] at hx
      exact hx.1
    have htaken : ∃ q, (c.screen side).panes[k]? = some q ∧ Taken r.1.refusals p q := by
      cases side with
      | left =>
        obtain ⟨q, hq, ht⟩ :=
          takePaneTile_taken h.streamId h payload (availableStreams s.tables.slots) s.comp.left.panes s.comp k p hk
        rw [hl] at hq ht
        refine ⟨q, by rw [hc]; exact hq, ht.same, fun hb x hx => ht.served hb x ?_⟩
        rw [← hr] at hx
        exact takePaneTile_refusals _ _ _ _ _ _ hx
      | right =>
        obtain ⟨q, hq, ht⟩ :=
          takePaneTile_taken h.streamId h payload (availableStreams s.tables.slots) s.comp.right.panes l.1 k p hk
        rw [hr] at hq ht
        exact ⟨q, by rw [hc]; exact hq, ht⟩
    obtain ⟨q, hq, ht⟩ := htaken
    refine ⟨{ q with state := paneStateOf c.refused q }, ?_, ht.same, fun hb x hx => ?_⟩
    · unfold State.screen
      rw [hcomp, settled_panes, List.getElem?_map, hq]
      rfl
    · rw [hcomp] at hx
      exact ht.served hb x (hrefusals x hx)
  · exact ⟨p, hk, ⟨rfl, rfl⟩, fun hb => absurd rfl hb⟩

end Sys2Proof.Machine
end

