-- ==== Sys2Proof/Proofs/HeardDeny.lean ====
section
/-! SUPPORT. RELEASE and DENY heard, the refusals that a DENY brings, and what takes one out (R30, R39, R42, R57, R162). -/
namespace Sys2Proof.Machine

/-! ### The refusal set that a DENY leaves -/

/-- A refusal that joins a set takes the place of one of its camera and class (R162; log 74). -/
def joinRefusal (acc : List Refused) (r : Refused) : List Refused :=
  acc.filter (fun x => !(x.cam == r.cam && x.cls == r.cls)) ++ [r]

theorem denySet_eq (a : Addr) (rs : List Refused) (want : List WantEntry) (set : List Refused) : denySet a rs want set =
    (rs.filter (fun r => givesWant want r.cam r.cls)).foldl joinRefusal (set.filter (fun r => r.cam.addr != a)) := rfl

theorem mem_joinRefusal (acc : List Refused) (r x : Refused) :
    x ∈ joinRefusal acc r ↔ (x ∈ acc ∧ ¬(x.cam = r.cam ∧ x.cls = r.cls)) ∨ x = r := by
  unfold joinRefusal
  rw [List.mem_append, List.mem_filter, List.mem_singleton]
  simp [imp_iff_not_or]

/-- What stands after some refusals have joined stood before or is one of them. -/
theorem of_mem_foldl_joinRefusal {l acc : List Refused} {x : Refused} (h : x ∈ l.foldl joinRefusal acc) :
    x ∈ acc ∨ x ∈ l := by
  induction l generalizing acc with
  | nil => exact .inl h
  | cons r rs ih =>
    rcases ih h with h | h
    · rcases (mem_joinRefusal acc r x).mp h with ⟨h, -⟩ | rfl
      · exact .inl h
      · exact .inr List.mem_cons_self
    · exact .inr (List.mem_cons_of_mem _ h)

/-- A refusal that no other one of its camera and class follows stands. -/
theorem mem_foldl_joinRefusal {l acc : List Refused} {x : Refused} (h : x ∈ acc ∨ x ∈ l)
    (hu : ∀ y ∈ l, x.cam = y.cam → x.cls = y.cls → x = y) : x ∈ l.foldl joinRefusal acc := by
  induction l generalizing acc with
  | nil => exact h.resolve_right List.not_mem_nil
  | cons r rs ih =>
    refine ih ?_ fun y hy => hu y (List.mem_cons_of_mem _ hy)
    by_cases hr : x = r
    · exact .inl ((mem_joinRefusal acc r x).mpr (.inr hr))
    · rcases h with h | h
      · exact .inl ((mem_joinRefusal acc r x).mpr (.inl ⟨h, fun hc => hr (hu r List.mem_cons_self hc.1 hc.2)⟩))
      · exact .inr ((List.mem_cons.mp h).resolve_left hr)

/-- After a DENY the sender's refusals are those that it names (R162). -/
theorem of_mem_denySet {a : Addr} {rs set : List Refused} {want : List WantEntry} {x : Refused}
    (h : x ∈ denySet a rs want set) (ha : x.cam.addr = a) : x ∈ rs := by
  rw [denySet_eq] at h
  rcases of_mem_foldl_joinRefusal h with h | h
  · exact absurd ha (by simpa using (List.mem_filter.mp h).2)
  · exact (List.mem_filter.mp h).1

/-- A refusal that the WANT list gives joins the set (R162). -/
theorem mem_denySet {a : Addr} {rs set : List Refused} {want : List WantEntry} {x : Refused} (hx : x ∈ rs)
    (hw : givesWant want x.cam x.cls = true) (hu : ∀ x ∈ rs, ∀ y ∈ rs, x.cam = y.cam → x.cls = y.cls → x = y) :
    x ∈ denySet a rs want set := by
  rw [denySet_eq]
  exact mem_foldl_joinRefusal (.inr (List.mem_filter.mpr ⟨hx, hw⟩)) fun y hy => hu x hx y (List.mem_filter.mp hy).1

/-! ### A DENY applied -/

/-- A DENY touches the refusals and the panes alone (R162). -/
theorem applyDeny_beside {r s : State} {t : Tables} (h : s.beside = (r.setTables t).beside) (a dest : Addr)
    (rs : List Refused) : (applyDeny a (some (dest, rs)) s).beside = (r.setTables t).beside := by
  unfold applyDeny
  dsimp only
  split
  · exact (settlePanes_keeps (Keeps.refl _)).same.trans h
  · exact h

/-- One that is not well-formed is counted (R57). -/
theorem applyDeny_none_beside {r s : State} {t : Tables} (h : s.beside = (r.setTables t).beside) (a : Addr) :
    (applyDeny a none s).beside = (r.setTables { t with demandRejects := t.demandRejects + 1#16 }).beside := by
  unfold applyDeny
  rw [setTables_beside h, tables_of_beside_setTables h]
  rfl

/-- The Composer of an active cab after a DENY for it (R162). -/
theorem applyDeny_comp {s : State} (hc : s.isCab = true) (ha : s.cab.state = .active) (a : Addr) (rs : List Refused) :
    (applyDeny a (some (s.addr, rs)) s).comp =
      ({ s.comp with refusals := denySet a rs s.comp.wantList s.comp.refusals } : Composer).settled := by
  have hi : s.isActive = true := by simp [State.isActive, ha]
  unfold applyDeny
  dsimp only
  rw [if_pos ⟨rfl, hc, hi⟩]
  exact settlePanes_comp (s := s.setComp { s.comp with refusals := denySet a rs s.comp.wantList s.comp.refusals }) ha

/-- Outside ACTIVE it is not applied (R162). -/
theorem applyDeny_inactive {s : State} (ha : s.cab.state ≠ .active) (a dest : Addr) (rs : List Refused) :
    applyDeny a (some (dest, rs)) s = s := if_neg fun h => ha (by simpa [State.isActive] using h.2.2)

/-! ### A cab in ACTIVE over an item heard -/

/-- An admitted control frame, from the state in which it is applied (R20, R29). -/
theorem exec_heardBy_tagged {s : State} {k : FrameKind} {rx : ControlRx} {f : ControlFrame} (hs : Settled s)
    (hr : readControl rx = .frame f) (hk : f.body.kind = k) (ha : s.admits f.addr f.tag) :
    exec (heardBy k rx) s = .next (refreshPins (applyBody f.addr f.tag f.body
      (changeTables (s.heardTables f.addr f.tag) (s.frameEnded.tagged f.tag)))) := by
  have ht : s.frameEnded.heardTables f.addr f.tag = s.heardTables f.addr f.tag :=
    heardTables_setTrunk s _ (by rfl) f.addr f.tag
  rw [exec_heardBy hs, frameHeard_frame (started_of_acting ha.1) hr hk, takeFrame,
    takeItem_admitted (admits_frameEnded ha), ht]

/-- What hearing a tag leaves: all but the foreign tags (R37). -/
theorem tagged_eq (s : State) (tag : Word) : ∃ F, s.frameEnded.tagged tag =
    s.frameEnded.setTables { s.tables with foreign := F }
      ∧ F = if tag = s.cfg.tag then s.tables.foreign else takeTag tag s.tables.foreign := by
  by_cases h : tag = s.cfg.tag
  · exact ⟨s.tables.foreign, if_pos h, (if_pos h).symm⟩
  · exact ⟨takeTag tag s.tables.foreign, if_neg h, (if_neg h).symm⟩

/-- The tag taken and presence given, as the sender's frame is applied (R29, R37). -/
theorem heardSender_beside (s : State) (a : Addr) (tag : Word) :
    (changeTables (s.heardTables a tag) (s.frameEnded.tagged tag)).beside =
      (s.frameEnded.setTables (s.heardTables a tag)).beside := by
  obtain ⟨F, hv, -⟩ := tagged_eq s tag
  rw [changeTables_beside, hv]
  rfl

/-- An item heard leaves a cab in ACTIVE, or takes its refusals (R124, R162). -/
theorem heardSender_active_or {s : State} (hc : s.isCab = true) (ha : s.cab.state = .active) (a : Addr) (tag : Word) :
    (changeTables (s.heardTables a tag) (s.frameEnded.tagged tag)).cab.state = .active
      ∨ (changeTables (s.heardTables a tag) (s.frameEnded.tagged tag)).comp.refusals = [] := by
  obtain ⟨F, hv, -⟩ := tagged_eq s tag
  rw [hv]
  exact (changeTables_active (s := s.frameEnded.setTables { s.tables with foreign := F }) hc ha _).imp_left And.left

/-- An item of a sender that keeps its entry leaves an active cab's panes settled (R133, R162). -/
theorem changeTables_same_settled {s : State} {a : Addr} {tag : Word} {e : RosterEntry} (hc : s.isCab = true)
    (ha : s.cab.state = .active) (hne : a ≠ s.addr) (he : s.tables.roster[a] = some e) (htag : e.tag = tag) :
    (changeTables (s.heardTables a tag) (s.frameEnded.tagged tag)).cab.state = .active
      ∧ ∃ c : Composer, (changeTables (s.heardTables a tag) (s.frameEnded.tagged tag)).comp = c.settled := by
  obtain ⟨F, hv, hF⟩ := tagged_eq s tag
  have hT := heardTables_same hne he htag
  rw [← hF] at hT
  obtain ⟨v, hvv⟩ : ∃ v, v = s.frameEnded.tagged tag := ⟨_, rfl⟩
  rw [← hvv] at hv ⊢
  have hvt : v.tables = { s.tables with foreign := F } := by rw [hv]; rfl
  have hva : v.cab.state = .active := by rw [hv]; exact ha
  have hvc : v.isCab = true := by rw [hv]; exact hc
  generalize s.heardTables a tag = T at hT
  have heng : engineTables none v.tables (v.setTables T) = v.setTables T :=
    engineTables_quiet (s := v.setTables T) (by rw [hvt, State.setTables_tables, hT])
      (by rw [hvt, State.setTables_tables, hT])
  have hrec : v.tables.cabRecord = (v.setTables T).tables.cabRecord := by rw [hvt, State.setTables_tables, hT]
  have hname : v.namesSelf = (v.setTables T).namesSelf := by
    unfold State.namesSelf
    rw [hrec]
    rfl
  have hcab : cabRecordChanged v.tables.cabRecord v.namesSelf (v.setTables T) = v.setTables T := by
    rw [hrec, hname]
    exact cabRecordChanged_same
  have hch : changeTables T v = composerTables v.tables (v.setTables T) := by
    unfold changeTables handTables
    rw [heng, hcab]
  obtain ⟨x, hx, hxc, -, -⟩ := composerTables_active (s := v.setTables T) hvc hva v.tables
  have hxa : x.cab.state = .active := by rw [hxc]; exact hva
  rw [hch, hx]
  refine ⟨by rw [(settleViews_arranged (Arranged.refl x)).cab, hxa], ?_⟩
  have hxi : x.isActive = true := by simp [State.isActive, hxa]
  unfold settleViews
  rw [if_pos hxi]
  have hj := judgePanes_arranged (reresolve_arranged (judgeViews_arranged (Arranged.refl x)))
  exact ⟨_, settlePanes_comp (by rw [hj.cab, hxa])⟩

/-! ### The obligation's parts -/

/-- A RELEASE heard (R42). -/
theorem releaseFrame_applied {s : State} {rx : ControlRx} {f : ControlFrame} {o n : Byte} {ot : Word} {sl : List Byte}
    (hs : Settled s) (hr : readControl rx = .frame f) (hf : f.body = .release o ot n sl) (ha : s.admits f.addr f.tag) :
    (∀ num slots, releaseContent f.addr o n sl = some (num, slots) → ∃ t, exec (.releaseFrameReceived rx) s = .next t
        ∧ t.beside = (s.frameEnded.setTables { s.heardTables f.addr f.tag with slots := t.tables.slots }).beside
        ∧ ∀ q : Slot, t.tables.slots[q] =
            if q ∈ slots ∧ (s.heardTables f.addr f.tag).slots[q].names f.addr num = true then
              { owner := none, silent := 0 }
            else (s.heardTables f.addr f.tag).slots[q])
      ∧ (releaseContent f.addr o n sl = none → ∃ t, exec (.releaseFrameReceived rx) s = .next t
        ∧ t.beside = (s.frameEnded.setTables { s.heardTables f.addr f.tag with
            demandRejects := (s.heardTables f.addr f.tag).demandRejects + 1#16 }).beside) := by
  obtain ⟨u, hu, hub⟩ := exec_heardBy_admitted (k := .release) hs hr (by rw [hf]; rfl) ha
  rw [hf, applyBody] at hu
  refine ⟨fun num slots hc => ?_, fun hc => ⟨_, hu, ?_⟩⟩
  · rw [hc] at hu
    have hbes := applyRelease_beside hub f.addr num slots
    have htab := tables_of_beside_setTables hbes
    rw [← beside_refreshPins] at hbes
    rw [← refreshPins_tables] at htab
    generalize refreshPins (applyRelease f.addr (some (num, slots)) u) = t at hu hbes htab
    refine ⟨t, hu, by rw [hbes, htab], fun q => ?_⟩
    rw [htab]
    exact getElem_releaseSlots ..
  · rw [beside_refreshPins, hc]
    exact applyRelease_none_beside hub f.addr

/-- A DENY heard (R57, R162). -/
theorem denyFrame_applied {s : State} {rx : ControlRx} {f : ControlFrame} {ab : Byte} {es : List Quad} (hs : Settled s)
    (hr : readControl rx = .frame f) (hf : f.body = .deny ab es) (ha : s.admits f.addr f.tag) :
    (∀ dest rs, denyContent ab es = some (dest, rs) → ∃ t, exec (.denyFrameReceived rx) s = .next t
        ∧ t.beside = (s.frameEnded.setTables (s.heardTables f.addr f.tag)).beside
        ∧ (dest = s.addr → s.isCab = true → s.cab.state = .active →
            ∀ r ∈ t.comp.refusals, r.cam.addr = f.addr → r ∈ rs))
      ∧ (denyContent ab es = none → ∃ t, exec (.denyFrameReceived rx) s = .next t
        ∧ t.beside = (s.frameEnded.setTables { s.heardTables f.addr f.tag with
            demandRejects := (s.heardTables f.addr f.tag).demandRejects + 1#16 }).beside) := by
  have hu := exec_heardBy_tagged (k := .deny) hs hr (by rw [hf]; rfl) ha
  have hub := heardSender_beside s f.addr f.tag
  have hor := fun (hc : s.isCab = true) (hact : s.cab.state = .active) => heardSender_active_or hc hact f.addr f.tag
  generalize changeTables (s.heardTables f.addr f.tag) (s.frameEnded.tagged f.tag) = u at hu hub hor
  rw [hf, applyBody] at hu
  refine ⟨fun dest rs hc => ⟨_, hu, ?_, fun hdest hcab hact r hrm hra => ?_⟩, fun hc => ⟨_, hu, ?_⟩⟩
  · rw [beside_refreshPins, hc]
    exact applyDeny_beside hub f.addr dest rs
  · have hrm : r ∈ (applyDeny f.addr (denyContent ab es) u).comp.refusals := hrm
    have hua : u.addr = s.addr := (addr_of_beside hub :)
    have huc : u.isCab = true := (isCab_congr (cfg_of_beside hub)).trans hcab
    rw [hc, hdest, ← hua] at hrm
    by_cases hact' : u.cab.state = .active
    · rw [applyDeny_comp huc hact', mem_settled_refusals] at hrm
      exact of_mem_denySet hrm.1 hra
    · rw [applyDeny_inactive hact', (hor hcab hact).resolve_left hact'] at hrm
      exact absurd hrm List.not_mem_nil
  · rw [beside_refreshPins, hc]
    exact applyDeny_none_beside hub f.addr

/-- The refusals that a DENY of a known sender brings (R162). -/
theorem denyFrame_refusals {s : State} {rx : ControlRx} {f : ControlFrame} {ab : Byte} {es : List Quad}
    {rs : List Refused} (hs : Settled s) (hr : readControl rx = .frame f) (hf : f.body = .deny ab es)
    (ha : s.admits f.addr f.tag) (hc : denyContent ab es = some (s.addr, rs)) (hcab : s.isCab = true)
    (hact : s.cab.state = .active) (hu : ∀ x ∈ rs, ∀ y ∈ rs, x.cam = y.cam → x.cls = y.cls → x = y)
    (he : ∃ e, s.tables.roster[f.addr] = some e ∧ e.tag = f.tag) (hne : f.addr ≠ s.addr) :
    ∃ t, exec (.denyFrameReceived rx) s = .next t
      ∧ (∀ r ∈ rs, (∃ w ∈ t.comp.wantList, w.carry = false ∧ w.cam = r.cam ∧ w.cls = r.cls) → r ∈ t.comp.refusals)
      ∧ (∀ r ∈ t.comp.refusals, ∃ w ∈ t.comp.wantList, w.carry = false ∧ w.cam = r.cam ∧ w.cls = r.cls) := by
  obtain ⟨e, he, htag⟩ := he
  have hexec := exec_heardBy_tagged (k := .deny) hs hr (by rw [hf]; rfl) ha
  have hub := heardSender_beside s f.addr f.tag
  obtain ⟨hua, c, hcomp⟩ := changeTables_same_settled hcab hact hne he htag
  generalize changeTables (s.heardTables f.addr f.tag) (s.frameEnded.tagged f.tag) = u at hexec hub hua hcomp
  have haddr : u.addr = s.addr := (addr_of_beside hub :)
  rw [hf, applyBody, hc, ← haddr] at hexec
  have hd := applyDeny_comp ((isCab_congr (cfg_of_beside hub)).trans hcab) hua f.addr rs
  obtain ⟨d, hdd⟩ : ∃ d : Composer, d =
    { u.comp with refusals := denySet f.addr rs u.comp.wantList u.comp.refusals } := ⟨_, rfl⟩
  rw [← hdd] at hd
  have hwant : ∀ cam cls, givesWant d.settled.wantList cam cls = givesWant u.comp.wantList cam cls := fun cam cls => by
    calc givesWant d.settled.wantList cam cls = givesWant d.nonCarry cam cls := givesWant_wanted d cam cls
      _ = givesWant c.settled.nonCarry cam cls := by rw [hdd, hcomp]; rfl
      _ = givesWant c.nonCarry cam cls := by rw [nonCarry_settled]
      _ = givesWant u.comp.wantList cam cls := by rw [hcomp]; exact (givesWant_wanted c cam cls).symm
  refine ⟨_, hexec, fun r hrs hw => ?_, fun r hrm => ?_⟩
  · show r ∈ (applyDeny f.addr (some (u.addr, rs)) u).comp.refusals
    rw [hd, mem_settled_refusals]
    have hw : ∃ w ∈ d.settled.wantList, w.carry = false ∧ w.cam = r.cam ∧ w.cls = r.cls := hd ▸ hw
    refine ⟨?_, hw⟩
    rw [← givesWant_iff, hwant] at hw
    rw [hdd]
    exact mem_denySet hrs hw hu
  · have hrm : r ∈ (applyDeny f.addr (some (u.addr, rs)) u).comp.refusals := hrm
    show ∃ w ∈ (applyDeny f.addr (some (u.addr, rs)) u).comp.wantList, _
    rw [hd] at hrm ⊢
    exact ((mem_settled_refusals d r).mp hrm).2

/-- A change of the tables that drops the entry of an address drops the refusals of its cameras (R30, R39, R162). -/
theorem changeTables_refusals_dropped {s : State} (hc : s.isCab = true) (ha : s.cab.state = .active) {t : Tables} {a : Addr}
    (hd : entryDropped s.tables.roster[a] t.roster[a] = true) :
    ∀ r ∈ (changeTables t s).comp.refusals, r.cam.addr ≠ a := by
  rintro r hr rfl
  rcases changeTables_active hc ha t with ⟨-, hk⟩ | he
  · exact absurd hd (by rw [hk r hr]; simp)
  · rw [he] at hr
    exact absurd hr List.not_mem_nil

/-- Settles O25: the two frames, and the refusals that they bring and that go out again. -/
theorem releaseAndDenyFramesApplied : Obligations.ReleaseAndDenyFramesApplied := by
  refine ⟨fun s rx f o n ot sl hs hr hf ha => releaseFrame_applied hs hr hf ha,
    fun s rx f ab es hs hr hf ha => denyFrame_applied hs hr hf ha,
    fun s rx f ab es rs hs hr hf ha hc hcab hact hu he hne => denyFrame_refusals hs hr hf ha hc hcab hact hu he hne,
    ?_, ?_, ?_, ?_, ?_⟩
  · rintro s t ha rfl r
    rw [settlePanes_comp ha]
    exact mem_settled_refusals s.comp r
  · rintro s t side lay ha rfl r hr p hp hres hcls b hb
    exact layoutSwitch_refusals ha side lay r hr p hp ⟨hres, hcls, b, hb⟩
  · rintro s t f h payload side k p q ha rfl hk - hnb hq hqb r hr ⟨hres, hcls⟩
    obtain ⟨x, hx, ⟨hxr, hxc⟩, hserved⟩ := composerTile_taken ha f h payload side k p hk
    obtain rfl : x = q := Option.some.inj (hx.symm.trans hq)
    exact hserved (by rw [hqb]; exact fun he => hnb he.symm) r hr ⟨hxr.trans hres, hxc.trans hcls, _, hqb⟩
  · intro s a e he hne hp hage hcab hact
    refine ⟨_, rfl, ?_⟩
    show ∀ r ∈ (stationGone a s).comp.refusals, _
    rw [stationGone_eq he hne hp hage]
    refine changeTables_refusals_dropped hcab hact ?_
    show entryDropped _ (s.tables.roster.set a (some { e with presence := .gone }))[a] = true
    rw [he, getElem_set_fin, if_pos rfl]
    simp [entryDropped, hp]
  · intro s tag a e hd he htag hne hcab hact
    refine ⟨_, rfl, ?_⟩
    show ∀ r ∈ (purgeTram tag s).comp.refusals, _
    rw [purgeTram_eq hd]
    refine changeTables_refusals_dropped hcab hact ?_
    have hgone : (s.tables.without (s.tables.entryHas (purged s.addr tag))).roster[a] = none :=
      (without_gone (by simp [Tables.entryHas, purged, he, htag, hne])).1
    show entryDropped _ (s.tables.without (s.tables.entryHas (purged s.addr tag))).roster[a] = true
    rw [he, hgone]
    rfl

end Sys2Proof.Machine
end

