-- ==== Sys2Proof/Proofs/Waiting.lean ====
section
/-! SUPPORT. The kind with which a subject waits in the outbound control queue (R11, R13, R14), over offers and withdrawals
and over what the Screen Composer and Cab Control do with a change of the tables. -/
namespace Sys2Proof.Machine

/-! ### The entry of one subject -/

/-- What is put into a list is not found by a condition that it does not satisfy. -/
theorem find?_insertBy_other {α : Type} (before : α → α → Bool) (p : α → Bool) (x : α) (l : List α) (hx : p x = false) :
    (insertBy before x l).find? p = l.find? p := by
  induction l with
  | nil => simp [insertBy, hx]
  | cons y ys ih =>
    unfold insertBy
    split
    · rw [List.find?_cons, hx]
    · rw [List.find?_cons, List.find?_cons, ih]

/-- The kind with which a subject waits, if it does. -/
def State.waits (s : State) (sub : Subject) : Option SendKind := (queueFind s.queue sub).map (fun e => e.kind)

theorem queueHolds_eq_waits (s : State) (sub : Subject) : queueHolds s.queue sub = (s.waits sub).isSome := by
  rw [State.waits, Option.isSome_map, queueFind_isSome]

/-- A change of kind leaves another subject's entry (R13). -/
theorem queueFind_rekind_other {sub x : Subject} (h : x ≠ sub) (q : List QueueEntry) (k : SendKind) :
    queueFind (queueRekind q sub k) x = queueFind q x := by
  have hne : (sub == x) = false := beq_eq_false_iff_ne.mpr h.symm
  unfold queueFind queueRekind
  induction q with
  | nil => rfl
  | cons e q ih =>
    by_cases he : e.subject = sub
    · simpa [he, hne] using ih
    · by_cases hx : e.subject = x
      · simp [hx, h]
      · simpa [he, hx] using ih

/-- An offer leaves another subject's entry (R13). -/
theorem queueFind_offer_other {sub x : Subject} (h : x ≠ sub) (q : List QueueEntry) (k : SendKind) (t : Nat) :
    queueFind (queueOffer q sub k t) x = queueFind q x := by
  unfold queueOffer
  split
  · exact queueFind_rekind_other h q k
  · exact find?_insertBy_other _ _ _ _ (beq_eq_false_iff_ne.mpr h.symm)

/-- A withdrawal leaves another subject's entry (R14). -/
theorem queueFind_remove_other {sub x : Subject} (h : x ≠ sub) (q : List QueueEntry) :
    queueFind (queueRemove q sub) x = queueFind q x := by
  unfold queueFind queueRemove
  rw [List.find?_filter]
  congr 1
  funext e
  by_cases hx : e.subject = x
  · simp [hx, h]
  · simp [hx]

theorem queueFind_remove_same (q : List QueueEntry) (sub : Subject) : queueFind (queueRemove q sub) sub = none := by
  have hs := queueFind_isSome (queueRemove q sub) sub
  rw [queueHolds_remove] at hs
  simpa using hs

theorem waits_offer_other {sub x : Subject} (h : x ≠ sub) (k : SendKind) (s : State) :
    (offer sub k s).waits x = s.waits x := by
  have hq : (s.setQueue (queueOffer s.queue sub k s.now)).waits x = s.waits x := by
    unfold State.waits
    rw [State.setQueue_queue, queueFind_offer_other h]
  unfold offer
  split
  · split
    · split
      · rfl
      · exact hq
    · exact hq
  · rfl

theorem waits_withdraw_other {sub x : Subject} (h : x ≠ sub) (s : State) : (withdraw sub s).waits x = s.waits x := by
  have hq : (s.setQueue (queueRemove s.queue sub)).waits x = s.waits x := by
    unfold State.waits
    rw [State.setQueue_queue, queueFind_remove_other h]
  unfold withdraw
  split
  · split
    · rfl
    · exact hq
  · exact hq

/-! ### A station that acts and sends no control frame -/

/-- The station acts, and no control frame of it is on the line: its offers and withdrawals reach the queue (R13, R14). -/
structure State.Ready (s : State) : Prop where
  acting : s.acting = true
  free : s.lineFree

/-- What the engine, the cab and the Composer do leaves that so. -/
theorem State.Ready.of_keeps {r s : State} (hr : r.Ready) (h : Keeps r s) : s.Ready :=
  ⟨(acting_of_beside h.same).trans hr.acting, lineFree_of_keeps h hr.free⟩

section
variable {s : State} (hr : s.Ready)
include hr

theorem waits_offer_same (sub : Subject) (k : SendKind) : (offer sub k s).waits sub = some k := by
  rw [offer_of_lineFree hr.free, if_pos hr.acting]
  exact queueFind_offer_kind ..

theorem waits_withdraw_same (sub : Subject) : (withdraw sub s).waits sub = none := by
  rw [withdraw_of_lineFree hr.free]
  unfold State.waits
  rw [State.setQueue_queue, queueFind_remove_same]
  rfl

theorem ready_offer (sub : Subject) (k : SendKind) : (offer sub k s).Ready := by
  rw [offer_of_lineFree hr.free]
  exact ⟨hr.acting, hr.free⟩

theorem ready_withdraw (sub : Subject) : (withdraw sub s).Ready := by
  rw [withdraw_of_lineFree hr.free]
  exact ⟨hr.acting, hr.free⟩

end

/-! ### Several operations in a row -/

/-- The kind with which a subject waits after one queue operation. -/
def QueueOp.waitAfter (sub : Subject) (w : Option SendKind) : QueueOp → Option SendKind
  | .offer x k => if x = sub then some k else w
  | .withdraw x => if x = sub then none else w

/-- The kind with which a subject waits after queue operations in order. -/
def waitAfter (sub : Subject) (ops : List QueueOp) (w : Option SendKind) : Option SendKind :=
  ops.foldl (QueueOp.waitAfter sub) w

theorem applyQueueOps_waits {s : State} (hr : s.Ready) (sub : Subject) (ops : List QueueOp) :
    (applyQueueOps ops s).waits sub = waitAfter sub ops (s.waits sub) := by
  have step : ∀ (o : QueueOp) {u : State}, u.Ready →
      (applyQueueOp u o).Ready ∧ (applyQueueOp u o).waits sub = o.waitAfter sub (u.waits sub) := by
    intro o u hu
    cases o with
    | offer x k =>
      refine ⟨ready_offer hu x k, ?_⟩
      by_cases hx : x = sub
      · subst hx
        exact (waits_offer_same hu x k).trans (if_pos rfl).symm
      · exact (waits_offer_other (Ne.symm hx) k u).trans (if_neg hx).symm
    | withdraw x =>
      refine ⟨ready_withdraw hu x, ?_⟩
      by_cases hx : x = sub
      · subst hx
        exact (waits_withdraw_same hu x).trans (if_pos rfl).symm
      · exact (waits_withdraw_other (Ne.symm hx) u).trans (if_neg hx).symm
  unfold applyQueueOps waitAfter
  induction ops generalizing s with
  | nil => rfl
  | cons o os ih =>
    obtain ⟨h1, h2⟩ := step o hr
    rw [List.foldl_cons, List.foldl_cons, ih h1, h2]

theorem waitAfter_append (sub : Subject) (a b : List QueueOp) (w : Option SendKind) :
    waitAfter sub (a ++ b) w = waitAfter sub b (waitAfter sub a w) := List.foldl_append ..

/-- Operations for other subjects leave it. -/
theorem waitAfter_other {sub : Subject} {ops : List QueueOp} (h : ∀ o ∈ ops, o.subject ≠ sub) (w : Option SendKind) :
    waitAfter sub ops w = w := by
  unfold waitAfter
  induction ops generalizing w with
  | nil => rfl
  | cons o os ih =>
    have h1 := h o (List.mem_cons_self ..)
    have ho : o.waitAfter sub w = w := by
      cases o with
      | offer x k => exact if_neg h1
      | withdraw x => exact if_neg h1
    rw [List.foldl_cons, ho]
    exact ih (fun x hx => h x (List.mem_cons_of_mem _ hx)) w

/-- The DENYs of an evaluation leave the streams' entries (R57). -/
theorem waitAfter_denyOps (n : StreamNo) (applied : Option WantPos) (old new : Vector (List Refused) 4)
    (w : Option SendKind) : waitAfter (.stream n) (denyOps applied old new) w = w :=
  waitAfter_other (fun o ho => by
    obtain ⟨p, _, rfl⟩ := List.mem_map.mp ho
    exact fun h => Subject.noConfusion h) w

/-- A DENY that is offered waits, and nothing else of the DENYs touches its entry (R57). -/
theorem waitAfter_denyOps_offered {p : WantPos} {applied : Option WantPos} {old new : Vector (List Refused) 4}
    (h : QueueOp.offer (.deny p) .plain ∈ denyOps applied old new) (w : Option SendKind) :
    waitAfter (.deny p) (denyOps applied old new) w = some .plain := by
  have key : ∀ (l : List QueueOp) (w : Option SendKind), (∀ o ∈ l, ∃ q, o = .offer (.deny q) .plain) →
      w = some .plain ∨ QueueOp.offer (.deny p) .plain ∈ l → waitAfter (.deny p) l w = some .plain := by
    intro l
    induction l with
    | nil => exact fun w _ hw => hw.resolve_right (List.not_mem_nil)
    | cons o l ih =>
      intro w hl hw
      obtain ⟨q, rfl⟩ := hl o (List.mem_cons_self ..)
      refine ih _ (fun x hx => hl x (List.mem_cons_of_mem _ hx)) ?_
      by_cases hq : q = p
      · exact .inl (if_pos (by rw [hq]))
      · have hne : ¬Subject.deny q = .deny p := fun h => hq (Subject.deny.inj h)
        refine hw.imp (fun hw => (if_neg hne).trans hw) fun hw => (List.mem_cons.mp hw).resolve_left fun h => ?_
        injection h with h
        exact hne h.symm
  exact key _ w (fun o ho => (List.mem_map.mp ho).imp fun q hq => hq.2.symm) (.inr h)

/-! ### What the Screen Composer leaves -/

/-- A property of states that a change of the Composer and an offer of the WANT keep: whatever the Composer does keeps it. -/
structure ComposerClosed (P : State → Prop) : Prop where
  comp : ∀ s c, P s → P (s.setComp c)
  want : ∀ s k, P s → P (offer .want k s)

theorem foldl_of_step {α β : Type} {P : β → Prop} (f : β → α → β) (l : List α) (hf : ∀ t x, P t → P (f t x)) {s : β}
    (h : P s) : P (l.foldl f s) := by
  induction l generalizing s with
  | nil => exact h
  | cons x xs ih => exact ih (hf s x h)

section
variable {P : State → Prop} (hP : ComposerClosed P) {s : State} (h : P s)
include hP h

theorem setScreen_closed (side : Side) (x : Screen) : P (s.setScreen side x) := hP.comp s _ h

theorem settlePanes_closed : P (settlePanes s) := by
  unfold settlePanes
  dsimp only
  split
  · split
    · exact hP.comp _ _ h
    · exact hP.want _ _ (hP.comp _ _ h)
  · exact h

theorem showLayout_closed (side : Side) (lay : ShownLayout) : P (showLayout side lay s) := by
  unfold showLayout
  split
  · exact h
  · exact settlePanes_closed hP (hP.comp _ _ (hP.comp _ _ h))

theorem showKind_closed (side : Side) (k : ViewKind) : P (showKind side k s) :=
  showLayout_closed hP (setScreen_closed hP h side _) side _

theorem raise_closed (side : Side) (k : ViewKind) : P (raise side k s) := by
  have hs : ∀ x, P (s.setScreen side x) := setScreen_closed hP h side
  unfold raise
  dsimp only
  repeat' split
  · exact h
  · exact showKind_closed hP (hs _) side k
  · exact hs _
  · exact showKind_closed hP (hs _) side k
  · exact hs _
  · exact hs _

theorem lingerEnd_closed (side : Side) : P (lingerEnd side s) := by
  unfold lingerEnd
  split
  · exact showKind_closed hP h side _
  · exact setScreen_closed hP h side _

theorem clear_closed (side : Side) (k : ViewKind) : P (clear side k s) := by
  have hs : ∀ x, P (s.setScreen side x) := setScreen_closed hP h side
  unfold clear
  dsimp only
  split
  · split
    · split
      · exact lingerEnd_closed hP (hs _) side
      · exact hs _
    · exact hs _
  · exact h

theorem followSpotDoor_closed (side : Side) : P (followSpotDoor side s) := by
  unfold followSpotDoor
  split
  · exact setScreen_closed hP h side _
  · exact h

theorem judgeSide_closed (side : Side) : P (judgeSide side s) := by
  unfold judgeSide
  refine foldl_of_step _ _ (fun t k ht => ?_) (foldl_of_step _ _ (fun t k ht => ?_) (followSpotDoor_closed hP h side))
  · split
    · exact ht
    · exact clear_closed hP ht side k
  · split
    · exact raise_closed hP ht side k
    · exact ht

theorem reresolve_closed : P (reresolve s) := by
  unfold reresolve
  split
  · exact hP.comp _ _ h
  · exact h

theorem settleViews_closed : P (settleViews s) := by
  unfold settleViews
  split
  · have hj : P (judgeViews s) := judgeSide_closed hP (judgeSide_closed hP h .left) .right
    exact settlePanes_closed hP (hP.comp _ _ (reresolve_closed hP hj))
  · exact h

theorem composerTables_closed (old : Tables) : P (composerTables old s) := by
  unfold composerTables
  dsimp only
  repeat' split
  · exact settleViews_closed hP (hP.comp _ _ (hP.comp _ _ h))
  · exact hP.comp _ _ h
  · exact h

end

/-! ### What the Stream Engine shows over the handing to the other blocks -/

/-- The Stream Engine is as it was, and so are the entries of the queue for its subjects. -/
structure SameStreams (r s : State) : Prop where
  engine : s.engine = r.engine
  waits : ∀ sub : Subject, sub.ofEngine = true → s.waits sub = r.waits sub

theorem SameStreams.refl (s : State) : SameStreams s s := ⟨rfl, fun _ _ => rfl⟩

/-- An offer for another block's subject. -/
theorem SameStreams.offer {r s : State} (h : SameStreams r s) {sub : Subject} (hs : sub.ofEngine = false) (k : SendKind) :
    SameStreams r (offer sub k s) :=
  ⟨(offer_engine_eq sub k s).trans h.engine,
    fun x hx => (waits_offer_other (Ne.symm (ne_of_ofEngine hx hs)) k s).trans (h.waits x hx)⟩

theorem sameStreams_composer (r : State) : ComposerClosed (SameStreams r) :=
  ⟨fun _ _ h => ⟨h.engine, h.waits⟩, fun _ k h => h.offer rfl k⟩

/-- A change of the cab state to one that is not ACTIVE. -/
theorem SameStreams.setCabState {r s : State} (h : SameStreams r s) {c : CabState} (hc : c ≠ .active) :
    SameStreams r (setCabState c s) := by
  obtain ⟨k, hk⟩ := setCabState_of_ne_active hc s
  rw [hk]
  exact ⟨h.engine, h.waits⟩

theorem cabRecordChanged_sameStreams {r s : State} (h : SameStreams r s) (old : Option CabRecord) (named : Bool) :
    SameStreams r (cabRecordChanged old named s) := by
  unfold cabRecordChanged
  repeat' split
  · exact (h.setCabState (by simp)).offer rfl _
  · exact h
  · exact (h.setCabState (by simp)).offer rfl _
  · exact h
  · exact h
  · exact h

/-- A change of the tables shows in the Stream Engine and its entries as that block's own part leaves them (R45). -/
theorem handTables_sameStreams (p : Option WantPos) (b s : State) :
    SameStreams (engineTables p b.tables s) (handTables p b s) :=
  composerTables_closed (sameStreams_composer _) (cabRecordChanged_sameStreams (.refl _) _ _) _

/-- One that leaves the copy and the want table does not show (R45, R48, R49). -/
theorem changeTables_sameStreams {s : State} {t : Tables} (hs : t.slots = s.tables.slots) (hw : t.wants = s.tables.wants) :
    SameStreams s (changeTables t s) := by
  have h := handTables_sameStreams none s (s.setTables t)
  rw [engineTables_quiet (s := s.setTables t) hs.symm hw.symm] at h
  exact ⟨h.engine, h.waits⟩

end Sys2Proof.Machine
end

