-- ==== Sys2Proof/Proofs/OneEvaluation.lean ====
section
/-! SUPPORT. One evaluation as it shows at one stream number: the stream that stands there and the kind with which its frame
waits (R49 to R53, R56). -/
namespace Sys2Proof.Machine

/-! ### A number and its entry -/

/-- What an evaluation holds at a stream number, where its entry waited with kind w before: the stream, and the kind with which
the entry then waits. -/
def Eval.seen (v : Eval) (n : StreamNo) (w : Option SendKind) : Option Stream × Option SendKind :=
  (v.table[n], waitAfter (.stream n) v.ops w)

/-- What a station holds at a stream number. -/
def State.seen (s : State) (n : StreamNo) : Option Stream × Option SendKind := (s.engine.table[n], s.waits (.stream n))

theorem Eval.table_of_seen {v : Eval} {n : StreamNo} {w : Option SendKind} {e : Option Stream × Option SendKind}
    (h : v.seen n w = e) : v.table[n] = e.1 := congrArg Prod.fst h

theorem State.seen_eq_iff {s : State} {n : StreamNo} {e : Option Stream} {k : Option SendKind} :
    s.seen n = (e, k) ↔ s.engine.table[n] = e ∧ s.waits (.stream n) = k := Prod.mk.injEq .. ▸ Iff.rfl

theorem State.table_of_seen {r s : State} {n : StreamNo} (h : s.seen n = r.seen n) : s.engine.table[n] = r.engine.table[n] :=
  congrArg Prod.fst h

/-- A change at one number, with an operation for it, leaves the others. -/
theorem seen_put_other {n m : StreamNo} (h : m ≠ n) (v : Eval) (y : Option Stream) {o : QueueOp}
    (ho : o.subject = .stream m) (w : Option SendKind) :
    ({ v with table := v.table.set m y, ops := v.ops ++ [o] } : Eval).seen n w = v.seen n w := by
  have hops : waitAfter (.stream n) [o] (waitAfter (.stream n) v.ops w) = waitAfter (.stream n) v.ops w :=
    waitAfter_other (fun x hx => by
      rw [List.mem_singleton.mp hx, ho]
      exact fun hm => h (Subject.stream.inj hm)) _
  unfold Eval.seen
  rw [waitAfter_append, hops, getElem_set_fin, if_neg h]

/-- The kind with which its subject waits after a queue operation. -/
def QueueOp.kind : QueueOp → Option SendKind
  | .offer _ k => some k
  | .withdraw _ => none

/-- A change at a number, with an operation for it, shows there. -/
theorem seen_put_same (n : StreamNo) (v : Eval) (y : Option Stream) {o : QueueOp} (ho : o.subject = .stream n)
    (w : Option SendKind) :
    ({ v with table := v.table.set n y, ops := v.ops ++ [o] } : Eval).seen n w = (y, o.kind) := by
  have hops : waitAfter (.stream n) [o] (waitAfter (.stream n) v.ops w) = o.kind := by
    cases o <;> exact if_pos ho
  unfold Eval.seen
  rw [waitAfter_append, getElem_set_fin, if_pos rfl, hops]

/-- A fold over a list without repetition shows at one element as its own turn does, if the others' turns do not show there. -/
theorem foldl_turn {σ α β : Type} {f : σ → α → σ} {view : σ → β} {I : σ → Prop} {a : α} {l : List α} (hl : l.Nodup)
    (ha : a ∈ l) (hI : ∀ s x, I s → I (f s x)) (hother : ∀ s x, x ≠ a → view (f s x) = view s) {s : σ} (hs : I s) :
    ∃ t, I t ∧ view t = view s ∧ view (l.foldl f s) = view (f t a) := by
  have hskip : ∀ (l : List α) (u : σ), a ∉ l → view (l.foldl f u) = view u := by
    intro l
    induction l with
    | nil => exact fun _ _ => rfl
    | cons m l ih =>
      intro u hn
      obtain ⟨h1, h2⟩ := not_or.mp (fun h => hn (List.mem_cons.mpr h))
      rw [List.foldl_cons, ih _ h2, hother u m (Ne.symm h1)]
  obtain ⟨as, bs, rfl, has⟩ := List.eq_append_cons_of_mem ha
  have hbs : a ∉ bs := (List.nodup_cons.mp (List.nodup_append.mp hl).2.1).1
  refine ⟨as.foldl f s, foldl_of_step f as hI hs, hskip as s has, ?_⟩
  rw [List.foldl_append, List.foldl_cons, hskip bs _ hbs]

theorem mem_allStreams (n : StreamNo) : n ∈ allStreams := by fin_cases n <;> decide

/-- An operation that takes every number in turn shows at each as its own turn does. -/
theorem foldl_seen {f : Eval → StreamNo → Eval} {n : StreamNo} {w : Option SendKind}
    {g : Option Stream × Option SendKind → Option Stream × Option SendKind}
    (hother : ∀ v m, m ≠ n → (f v m).seen n w = v.seen n w) (hsame : ∀ v, (f v n).seen n w = g (v.seen n w))
    (v : Eval) : (allStreams.foldl f v).seen n w = g (v.seen n w) := by
  obtain ⟨t, -, ht, h⟩ := foldl_turn (view := fun u : Eval => u.seen n w) (I := fun _ => True) (by decide)
    (mem_allStreams n) (fun _ _ _ => trivial) hother (s := v) trivial
  rw [h, hsame, ht]

/-! ### The demand entries taken (R50, R51) -/

/-- Refusing an entry leaves the streams. -/
theorem refuse_table_ops (v : Eval) (d : Demand) (r : RefusalReason) :
    (v.refuse d r).table = v.table ∧ (v.refuse d r).ops = v.ops := by
  unfold Eval.refuse
  split <;> exact ⟨rfl, rfl⟩

/-- An entry that is served changes nothing (R50). -/
theorem take_of_served {v : Eval} {d : Demand} (h : (d.servedBy v.table).isSome = true) (held : Vector (List Refused) 4)
    (live : Input → Bool) : v.take held live d = v := if_pos h

/-- One entry taken shows nowhere, or at an unused number as a new stream with its CLAIM offered, of an input that is LIVE. -/
theorem take_seen (held : Vector (List Refused) 4) (live : Input → Bool) (v : Eval) (d : Demand) (n : StreamNo)
    (w : Option SendKind) : (v.take held live d).seen n w = v.seen n w
      ∨ v.table[n] = none ∧ live d.input = true
        ∧ (v.take held live d).seen n w = (some (newStream d.input d.entry.cls d.entry.floor false), some .claim) := by
  have hrefuse : ∀ r, (v.refuse d r).seen n w = v.seen n w := fun r => by
    obtain ⟨ht, ho⟩ := refuse_table_ops v d r
    unfold Eval.seen
    rw [ht, ho]
  unfold Eval.take
  split
  · exact .inl rfl
  · split
    · exact .inl (hrefuse _)
    · split
      · exact .inl (hrefuse _)
      · next hl =>
        split
        · exact .inl (hrefuse _)
        · next m hm =>
          by_cases hmn : m = n
          · subst hmn
            refine .inr ⟨unusedNumber_free hm, by simpa using hl, ?_⟩
            exact seen_put_same m v _ rfl w
          · exact .inl (seen_put_other hmn v _ rfl w)

/-- The entries taken in order leave what stands, and leave an unused number or make a stream of a LIVE input there (R51). -/
theorem foldl_take_seen (held : Vector (List Refused) 4) (live : Input → Bool) (ds : List Demand) (v : Eval) (n : StreamNo)
    (w : Option SendKind) : (ds.foldl (Eval.take held live) v).seen n w = v.seen n w
      ∨ v.table[n] = none ∧ ∃ i k f, live i = true
        ∧ (ds.foldl (Eval.take held live) v).seen n w = (some (newStream i k f false), some .claim) := by
  induction ds generalizing v with
  | nil => exact .inl rfl
  | cons d ds ih =>
    rw [List.foldl_cons]
    rcases take_seen held live v d n w with h | ⟨hn, hl, h⟩
    · have hn : (v.take held live d).table[n] = v.table[n] := Eval.table_of_seen h
      rw [← h, ← hn]
      exact ih _
    · refine .inr ⟨hn, d.input, d.entry.cls, d.entry.floor, hl, ?_⟩
      have hsome : (v.take held live d).table[n] = some (newStream d.input d.entry.cls d.entry.floor false) :=
        Eval.table_of_seen h
      rw [← h]
      exact (ih _).resolve_right fun hr => absurd (hr.1.symm.trans hsome) (by simp)

/-! ### The end of an evaluation (R52, R53) -/

/-- R52 at one number: what becomes of a stream and its entry. -/
def settleEntry (ds : List Demand) (t : StreamTable) (live : Input → Bool) (n : StreamNo) :
    Option Stream × Option SendKind → Option Stream × Option SendKind
  | (none, w) => (none, w)
  | (some x, w) =>
    match x.state with
    | .claiming => if anyEligible ds x then (some x, w) else (none, none)
    | .draining .noDemand =>
      if (servedEntries ds t n).isEmpty then (some x, w) else (some (x.resume (live x.input)), none)
    | .draining _ => (some x, w)
    | _ => if (servedEntries ds t n).isEmpty then (some (x.drain .noDemand), some .release) else (some x, w)

section
variable (ds : List Demand) (t : StreamTable) (live : Input → Bool) (n : StreamNo) {x : Stream} (w : Option SendKind)

theorem settleEntry_claiming (h : x.state = .claiming) : settleEntry ds t live n (some x, w) =
    if anyEligible ds x then (some x, w) else (none, none) := by
  simp only [settleEntry, h]

theorem settleEntry_noDemand (h : x.state = .draining .noDemand) : settleEntry ds t live n (some x, w) =
    if (servedEntries ds t n).isEmpty then (some x, w) else (some (x.resume (live x.input)), none) := by
  simp only [settleEntry, h]

theorem settleEntry_ended {c : DrainCause} (h : x.state = .draining c) (hc : c ≠ .noDemand) :
    settleEntry ds t live n (some x, w) = (some x, w) := by
  cases c with
  | noDemand => exact absurd rfl hc
  | holdLimit | lost => simp only [settleEntry, h]

theorem settleEntry_open (h : x.state = .live ∨ x.state = .holding) : settleEntry ds t live n (some x, w) =
    if (servedEntries ds t n).isEmpty then (some (x.drain .noDemand), some .release) else (some x, w) := by
  rcases h with h | h <;> simp only [settleEntry, h]

/-- A stream beyond CLAIMING stays as it is, returns as its input stands, or drains for want of demand (R52). -/
theorem settleEntry_cases (h : x.state ≠ .claiming) : settleEntry ds t live n (some x, w) = (some x, w)
    ∨ x.state = .draining .noDemand ∧ settleEntry ds t live n (some x, w) = (some (x.resume (live x.input)), none)
    ∨ (x.state = .live ∨ x.state = .holding)
      ∧ settleEntry ds t live n (some x, w) = (some (x.drain .noDemand), some .release) := by
  cases hs : x.state with
  | claiming => exact absurd hs h
  | live | holding =>
    have he := settleEntry_open ds t live n w (x := x) (by simp [hs])
    split at he
    · exact .inr (.inr ⟨by simp, he⟩)
    · exact .inl he
  | draining c =>
    by_cases hc : c = .noDemand
    · subst hc
      have he := settleEntry_noDemand ds t live n w hs
      split at he
      · exact .inl he
      · exact .inr (.inl ⟨rfl, he⟩)
    · exact .inl (settleEntry_ended ds t live n w hs hc)

end

theorem settleStream_seen_other {n m : StreamNo} (h : m ≠ n) (ds : List Demand) (t : StreamTable) (live : Input → Bool)
    (v : Eval) (w : Option SendKind) : (v.settleStream ds t live m).seen n w = v.seen n w := by
  unfold Eval.settleStream
  repeat' split
  · rfl
  · rfl
  · exact seen_put_other h v _ rfl w
  · rfl
  · exact seen_put_other h v _ rfl w
  · rfl
  · exact seen_put_other h v _ rfl w
  · rfl

theorem settleStream_seen_same (ds : List Demand) (t : StreamTable) (live : Input → Bool) (n : StreamNo) (v : Eval)
    (w : Option SendKind) : (v.settleStream ds t live n).seen n w = settleEntry ds t live n (v.seen n w) := by
  cases hx : v.table[n] with
  | none =>
    have hseen : v.seen n w = (none, (v.seen n w).2) := congrArg (·, (v.seen n w).2) hx
    rw [hseen]
    unfold Eval.settleStream
    simp only [hx]
    exact hseen
  | some x =>
    have hseen : v.seen n w = (some x, (v.seen n w).2) := congrArg (·, (v.seen n w).2) hx
    rw [hseen]
    unfold Eval.settleStream
    simp only [hx]
    cases hs : x.state with
    | claiming =>
      rw [settleEntry_claiming _ _ _ _ _ hs]
      dsimp only
      split
      · exact hseen
      · exact seen_put_same n v none rfl w
    | draining c =>
      cases c with
      | noDemand =>
        rw [settleEntry_noDemand _ _ _ _ _ hs]
        dsimp only
        split
        · exact hseen
        · exact seen_put_same n v _ rfl w
      | holdLimit => exact hseen.trans (settleEntry_ended _ _ _ _ _ hs (by simp)).symm
      | lost => exact hseen.trans (settleEntry_ended _ _ _ _ _ hs (by simp)).symm
    | live =>
      rw [settleEntry_open _ _ _ _ _ (.inl hs)]
      dsimp only
      split
      · exact seen_put_same n v _ rfl w
      · exact hseen
    | holding =>
      rw [settleEntry_open _ _ _ _ _ (.inr hs)]
      dsimp only
      split
      · exact seen_put_same n v _ rfl w
      · exact hseen

/-- The class that a stream is wanted in (R53). -/
def wantedBy (ds : List Demand) (t : StreamTable) (n : StreamNo) (x : Stream) : SizeClass :=
  (servedEntries ds t n).foldl (fun c d => c.max d.entry.cls) x.cls

/-- A stream with its wanted class and short flag judged (R53). -/
def Stream.judged (ds : List Demand) (t : StreamTable) (n : StreamNo) (x : Stream) : Stream :=
  { x with wanted := wantedBy ds t n x, short := decide (x.cls.rank < (wantedBy ds t n x).rank) }

/-- R53 at one number. -/
def wantEntry (ds : List Demand) (t : StreamTable) (n : StreamNo) :
    Option Stream × Option SendKind → Option Stream × Option SendKind
  | (none, w) => (none, w)
  | (some x, w) => if x.state = .claiming then (some x, w) else (some (x.judged ds t n), w)

/-- R53 leaves a stream in CLAIMING and judges any other (R53). -/
theorem settleWanted_claiming {v : Eval} {n : StreamNo} {x : Stream} (hx : v.table[n] = some x) (hc : x.state = .claiming)
    (ds : List Demand) (t : StreamTable) : v.settleWanted ds t n = v := by
  unfold Eval.settleWanted
  simp only [hx, hc, if_true]

theorem settleWanted_judged {v : Eval} {n : StreamNo} {x : Stream} (hx : v.table[n] = some x) (hc : x.state ≠ .claiming)
    (ds : List Demand) (t : StreamTable) :
    v.settleWanted ds t n = { v with table := v.table.set n (some (x.judged ds t n)) } := by
  unfold Eval.settleWanted
  simp only [hx, hc, if_false]
  rfl

theorem settleWanted_seen_other {n m : StreamNo} (h : m ≠ n) (ds : List Demand) (t : StreamTable) (v : Eval)
    (w : Option SendKind) : (v.settleWanted ds t m).seen n w = v.seen n w := by
  unfold Eval.settleWanted
  repeat' split
  · rfl
  · rfl
  · unfold Eval.seen
    rw [getElem_set_fin, if_neg h]

theorem settleWanted_seen_same (ds : List Demand) (t : StreamTable) (n : StreamNo) (v : Eval) (w : Option SendKind) :
    (v.settleWanted ds t n).seen n w = wantEntry ds t n (v.seen n w) := by
  cases hx : v.table[n] with
  | none =>
    have hseen : v.seen n w = (none, (v.seen n w).2) := congrArg (·, (v.seen n w).2) hx
    have hv : v.settleWanted ds t n = v := by
      unfold Eval.settleWanted
      simp only [hx]
    rw [hv, hseen]
    rfl
  | some x =>
    have hseen : v.seen n w = (some x, (v.seen n w).2) := congrArg (·, (v.seen n w).2) hx
    rw [hseen, wantEntry]
    split
    · next hc => rw [settleWanted_claiming hx hc, hseen]
    · next hc =>
      rw [settleWanted_judged hx hc, Eval.seen, getElem_set_fin, if_pos rfl]
      rfl

/-! ### The upgrade (R56) -/

/-- The streams of a table. -/
theorem mem_streamList (t : StreamTable) (n : StreamNo) (x : Stream) : (n, x) ∈ streamList t ↔ t[n] = some x := by
  unfold streamList
  rw [List.mem_filterMap]
  constructor
  · rintro ⟨m, -, hm⟩
    obtain ⟨y, hy, he⟩ := Option.map_eq_some_iff.mp hm
    obtain ⟨rfl, rfl⟩ := Prod.mk.inj he
    exact hy
  · exact fun h => ⟨n, mem_allStreams n, by rw [h]; rfl⟩

/-- A look for an upgrade shows nowhere, or at an unused number as an upgrade stream of a LIVE and short stream's input with its
CLAIM offered (R56). -/
theorem seekUpgrade_seen (free : Nat) (v : Eval) (n : StreamNo) (w : Option SendKind) :
    (v.seekUpgrade free).seen n w = v.seen n w
      ∨ v.table[n] = none ∧ ∃ (m : StreamNo) (x : Stream), v.table[m] = some x ∧ x.state = .live ∧ x.short = true
        ∧ (v.seekUpgrade free).seen n w = (some (newStream x.input x.wanted x.wanted true), some .claim) := by
  unfold Eval.seekUpgrade
  split
  · exact .inl rfl
  · split
    · next p k hp hk =>
      have hup := List.find?_some hp
      simp only [upgradable, Bool.and_eq_true, beq_iff_eq] at hup
      by_cases hkn : k = n
      · subst hkn
        refine .inr ⟨unusedNumber_free hk, p.1, p.2, (mem_streamList _ _ _).mp (List.mem_of_find?_eq_some hp), hup.1.1.1.1,
          hup.1.1.1.2, seen_put_same k v _ rfl w⟩
      · exact .inl (seen_put_other hkn v _ rfl w)
    · exact .inl rfl

/-! ### One evaluation -/

/-- The demand taken: the table says from here on which stream serves (R50, R51). -/
def State.takenEval (s : State) (lift : WantPos → Bool) : Eval :=
  s.demand.foldl (Eval.take (liftHeld lift s.engine.refusals) s.inputLive)
    { table := s.engine.table, refusals := Vector.replicate 4 [], ops := [] }

/-- The streams settled and judged, before an upgrade is sought (R52, R53). -/
def State.settledEval (s : State) (lift : WantPos → Bool) : Eval :=
  allStreams.foldl (Eval.settleWanted s.demand (s.takenEval lift).table)
    (s.idleStreams.foldl (Eval.settleStream s.demand (s.takenEval lift).table s.inputLive) (s.takenEval lift))

/-- The end of an evaluation: the upgrade and the DENYs (R56, R57). -/
theorem evaluation_eq (s : State) (lift : WantPos → Bool) (applied : Option WantPos) : s.evaluation lift applied =
    { (s.settledEval lift).seekUpgrade (freeSlots s.tables.slots) with
      ops := ((s.settledEval lift).seekUpgrade (freeSlots s.tables.slots)).ops
        ++ denyOps applied s.engine.refusals ((s.settledEval lift).seekUpgrade (freeSlots s.tables.slots)).refusals } := rfl

/-- Every stream is idle where no control frame is on the line (R14). -/
theorem idleStreams_of_lineFree {s : State} (ho : s.lineFree) : s.idleStreams = allStreams := by
  unfold State.idleStreams
  refine List.filter_eq_self.mpr fun n _ => ?_
  unfold TrunkOut.sends
  split
  · next c hc => exact absurd hc (ho c)
  · rfl

/-- The DENYs show at no stream number (R57). -/
theorem evaluation_seen (s : State) (lift : WantPos → Bool) (applied : Option WantPos) (n : StreamNo) (w : Option SendKind) :
    (s.evaluation lift applied).seen n w =
      ((s.settledEval lift).seekUpgrade (freeSlots s.tables.slots)).seen n w := by
  rw [evaluation_eq]
  unfold Eval.seen
  rw [waitAfter_append, waitAfter_denyOps]

/-- What is taken shows at a number as it stood, or as a stream made there of a LIVE input. -/
theorem takenEval_seen (s : State) (lift : WantPos → Bool) (n : StreamNo) (w : Option SendKind) :
    (s.takenEval lift).seen n w = (s.engine.table[n], w) ∨ s.engine.table[n] = none
      ∧ ∃ i k f, s.inputLive i = true ∧ (s.takenEval lift).seen n w = (some (newStream i k f false), some .claim) :=
  foldl_take_seen _ _ _ _ n w

/-- A stream that stands is not touched as the demand is taken. -/
theorem takenEval_seen_some {s : State} {n : StreamNo} {x : Stream} (h : s.engine.table[n] = some x) (lift : WantPos → Bool)
    (w : Option SendKind) : (s.takenEval lift).seen n w = (some x, w) := by
  rw [← h]
  exact (takenEval_seen s lift n w).resolve_right fun hr => absurd (hr.1.symm.trans h) (by simp)

/-- At each number the streams are settled and judged as R52 and R53 say. -/
theorem settledEval_seen {s : State} (ho : s.lineFree) (lift : WantPos → Bool) (n : StreamNo) (w : Option SendKind) :
    (s.settledEval lift).seen n w = wantEntry s.demand (s.takenEval lift).table n
      (settleEntry s.demand (s.takenEval lift).table s.inputLive n ((s.takenEval lift).seen n w)) := by
  unfold State.settledEval
  rw [idleStreams_of_lineFree ho,
    foldl_seen (fun v m hm => settleWanted_seen_other hm _ _ v w) fun v => settleWanted_seen_same _ _ n v w,
    foldl_seen (fun v m hm => settleStream_seen_other hm _ _ _ v w) fun v => settleStream_seen_same _ _ _ n v w]

/-- A stream that is there when an upgrade is sought stays as it is. -/
theorem evaluation_seen_some {s : State} {lift : WantPos → Bool} {n : StreamNo} {w : Option SendKind} {y : Stream}
    {k : Option SendKind} (h : (s.settledEval lift).seen n w = (some y, k)) (applied : Option WantPos) :
    (s.evaluation lift applied).seen n w = (some y, k) := by
  have hy : (s.settledEval lift).table[n] = some y := Eval.table_of_seen h
  rw [evaluation_seen]
  rcases seekUpgrade_seen (freeSlots s.tables.slots) (s.settledEval lift) n w with hs | ⟨hn, -⟩
  · exact hs.trans h
  · exact absurd (hn.symm.trans hy) (by simp)

/-- One evaluation at a stream beyond CLAIMING: it stays, settled and judged (R52, R53). -/
theorem evaluation_standing {s : State} (ho : s.lineFree) {n : StreamNo} {x : Stream} (hx : s.engine.table[n] = some x)
    (hc : x.state ≠ .claiming) (lift : WantPos → Bool) (applied : Option WantPos) (w : Option SendKind) :
    ∃ z k, settleEntry s.demand (s.takenEval lift).table s.inputLive n (some x, w) = (some z, k) ∧ z.state ≠ .claiming
      ∧ (s.evaluation lift applied).seen n w = (some (z.judged s.demand (s.takenEval lift).table n), k) := by
  obtain ⟨z, k, hz, hzc⟩ : ∃ z k, settleEntry s.demand (s.takenEval lift).table s.inputLive n (some x, w) = (some z, k)
      ∧ z.state ≠ .claiming := by
    rcases settleEntry_cases s.demand (s.takenEval lift).table s.inputLive n w hc with h | ⟨-, h⟩ | ⟨-, h⟩
    · exact ⟨_, _, h, hc⟩
    · refine ⟨_, _, h, ?_⟩
      cases hl : s.inputLive x.input <;> simp [Stream.resume]
    · exact ⟨_, _, h, fun hd => StreamState.noConfusion hd⟩
  refine ⟨z, k, hz, hzc, evaluation_seen_some ?_ applied⟩
  rw [settledEval_seen ho, takenEval_seen_some hx, hz, wantEntry, if_neg hzc]

/-- What an evaluation leaves in the station. -/
theorem evaluateOnce_waits {s : State} (hr : s.Ready) (lift : WantPos → Bool) (applied : Option WantPos) (sub : Subject) :
    (evaluateOnce lift applied s).waits sub = waitAfter sub (s.evaluation lift applied).ops (s.waits sub) := by
  unfold evaluateOnce
  generalize s.evaluation lift applied = v
  exact applyQueueOps_waits (s := s.setEngine { table := v.table, refusals := v.refusals }) ⟨hr.acting, hr.free⟩ sub v.ops

theorem evaluateOnce_seen {s : State} (hr : s.Ready) (lift : WantPos → Bool) (applied : Option WantPos) (n : StreamNo) :
    (evaluateOnce lift applied s).seen n = (s.evaluation lift applied).seen n (s.waits (.stream n)) := by
  unfold State.seen Eval.seen
  rw [evaluateOnce_engine_eq, evaluateOnce_waits hr]

/-! ### Evaluations until the streams stand still (log 19) -/

/-- What one evaluation keeps, evaluating until the streams stand still keeps. -/
theorem evaluate_induction {P : State → Prop} (hP : ∀ s lift applied, P s → P (evaluateOnce lift applied s))
    (lift : WantPos → Bool) (applied : Option WantPos) {s : State} (h : P (evaluateOnce lift applied s)) :
    P (evaluate lift applied s) := by
  have hagain : ∀ k (u : State), P u → P (evaluateAgain k u) := by
    intro k
    induction k with
    | zero => exact fun _ hu => hu
    | succ k ih =>
      intro u hu
      unfold evaluateAgain
      dsimp only
      split
      · exact hP _ _ _ hu
      · exact ih _ (hP _ _ _ hu)
  unfold evaluate
  dsimp only
  split
  · exact h
  · exact hagain _ _ h

theorem evaluate_kept {P : State → Prop} (hP : ∀ s lift applied, P s → P (evaluateOnce lift applied s))
    (lift : WantPos → Bool) (applied : Option WantPos) {s : State} (h : P s) : P (evaluate lift applied s) :=
  evaluate_induction hP lift applied (hP _ _ _ h)

theorem evaluateOnce_ready {s : State} (hr : s.Ready) (lift : WantPos → Bool) (applied : Option WantPos) :
    (evaluateOnce lift applied s).Ready := hr.of_keeps (evaluateOnce_keeps _ _ (Keeps.refl s))

end Sys2Proof.Machine
end

