-- ==== Sys2Proof/Proofs/CountsAtLimits.lean ====
section
/-! SUPPORT. Counts that have run out: a slot reclaimed, a want record emptied, a HOLDING stream at its hold limit (R44, R45, R48,
R57, R60 to R62). -/
namespace Sys2Proof.Machine

/-! ### Slots lost, and records emptied -/

/-- The Stream Engine's part in emptied records leaves the streams and their entries (R48). -/
theorem dropWants_seen {s : State} (hr : s.Ready) (ps : List WantPos) (n : StreamNo) : (dropWants ps s).seen n = s.seen n := by
  refine State.seen_eq_iff.mpr ⟨?_, ?_⟩
  · unfold dropWants
    rw [applyQueueOps_engine_eq]
    rfl
  · have hre : ∀ e, (s.setEngine e).Ready := fun e => ⟨hr.acting, hr.free⟩
    unfold dropWants
    rw [applyQueueOps_waits (hre _)]
    refine (waitAfter_other (fun o ho => ?_) _).trans rfl
    obtain ⟨p, _, rfl⟩ := List.mem_map.mp ho
    exact fun h => Subject.noConfusion h

theorem loseSlot_seen_other {n m : StreamNo} (h : m ≠ n) (left : List Slot) (u : State) :
    (loseSlot m left u).seen n = u.seen n := by
  have hne : Subject.stream n ≠ .stream m := fun he => h (Subject.stream.inj he).symm
  refine State.seen_eq_iff.mpr ⟨loseSlot_other h left u, ?_⟩
  unfold loseSlot
  repeat' split
  · rfl
  · rfl
  · exact (waits_withdraw_other hne _).trans rfl
  · rfl
  · exact (waits_offer_other hne _ _).trans rfl

/-- A stream that loses a slot, and has others, drains for the loss (R62). -/
theorem loseSlot_drains {u : State} (hr : u.Ready) {n : StreamNo} {x : Stream} (hx : u.engine.table[n] = some x)
    (hc : x.state ≠ .claiming) (hl : x.state ≠ .draining .lost) {left : List Slot} (hleft : left ≠ []) :
    (loseSlot n left u).seen n = (some (x.drain .lost), some .release) := by
  have hu : loseSlot n left u = offer (.stream n) .release (u.setStream n (some (x.drain .lost))) := by
    unfold loseSlot
    simp [hx, hl, hleft]
  rw [hu]
  refine State.seen_eq_iff.mpr ⟨?_, waits_offer_same (s := u.setStream n _) ⟨hr.acting, hr.free⟩ _ _⟩
  rw [offer_engine_eq]
  exact (getElem_set_fin ..).trans (if_pos rfl)

/-- One that has lost its last slot is removed (R62). -/
theorem loseSlot_removes {u : State} {n : StreamNo} {x : Stream} (hx : u.engine.table[n] = some x)
    (hc : x.state ≠ .claiming) : (loseSlot n [] u).engine.table[n] = none := by
  have hu : loseSlot n [] u = withdraw (.stream n) (u.setStream n none) := by
    unfold loseSlot
    simp [hx]
  rw [hu, withdraw_engine_eq]
  exact (getElem_set_fin ..).trans (if_pos rfl)

/-- A stream that has lost a slot shows, once all losses are taken, what its own loss leaves (R45, R62). -/
theorem loseSlots_seen {s : State} (hr : s.Ready) {a : Addr} {old : Vector SlotEntry 24} {n : StreamNo}
    (h : lostSlot a old s.tables.slots n = true) : ∃ u : State, u.Ready ∧ u.seen n = s.seen n
      ∧ (loseSlots a old s).seen n = (loseSlot n (slotsOf s.tables.slots a n) u).seen n := by
  have hturn := foldl_turn (f := fun t m => loseSlot m (slotsOf t.tables.slots a m) t) (view := fun u : State => u.seen n)
    (I := fun u => u.Ready ∧ u.tables = s.tables) ((by decide : allStreams.Nodup).filter (lostSlot a old s.tables.slots))
    (List.mem_filter.mpr ⟨mem_allStreams n, h⟩)
    (fun u m hu => by
      have hk := loseSlot_keeps m (slotsOf u.tables.slots a m) (Keeps.refl u)
      exact ⟨hu.1.of_keeps hk, (tables_of_beside hk.same).trans hu.2⟩)
    (fun u m hm => loseSlot_seen_other hm _ u) (s := s) ⟨hr, rfl⟩
  obtain ⟨u, ⟨hur, hut⟩, hus, hu⟩ := hturn
  rw [hut] at hu
  exact ⟨u, hur, hus, hu⟩

/-- A change that loses a slot, empties a record or applies a WANT is followed by an evaluation (R45, R48, R49). -/
theorem engineTables_evaluates {applied : Option WantPos} {old : Tables} {s : State}
    (h : (∃ n, lostSlot s.addr old.slots s.tables.slots n = true)
      ∨ (∃ p, p ∈ wantsEmptied old.wants s.tables.wants) ∨ applied.isSome = true) :
    ∃ lift, engineTables applied old s = evaluate lift applied
      (loseSlots s.addr old.slots (dropWants (wantsEmptied old.wants s.tables.wants) s)) := by
  refine ⟨_, if_pos ?_⟩
  simp only [Bool.or_eq_true]
  rcases h with ⟨n, hn⟩ | ⟨p, hp⟩ | h
  · exact .inl (.inl (.inr (List.any_eq_true.mpr ⟨n, mem_allStreams n, hn⟩)))
  · refine .inl (.inr ?_)
    cases hw : wantsEmptied old.wants s.tables.wants with
    | nil => exact absurd (hw ▸ hp) List.not_mem_nil
    | cons => rfl
  · exact .inr h

/-! ### A stream that drains for good (R60 to R62) -/

/-- Stream n drains with a cause that no demand returns, with the camera and class of x and no picture, and its RELEASE waits. -/
def Drains (n : StreamNo) (x : Stream) (c : DrainCause) (s : State) : Prop :=
  s.Ready ∧ ∃ y, s.seen n = (some y, some .release) ∧ y.state = .draining c ∧ y.input = x.input ∧ y.cls = x.cls
    ∧ y.picture = none

theorem drains_evaluateOnce {n : StreamNo} {x : Stream} {c : DrainCause} (hc : c ≠ .noDemand) {s : State}
    (h : Drains n x c s) (lift : WantPos → Bool) (applied : Option WantPos) :
    Drains n x c (evaluateOnce lift applied s) := by
  obtain ⟨hr, y, hy, hs, hi, hk, hp⟩ := h
  obtain ⟨ht, hw⟩ := State.seen_eq_iff.mp hy
  obtain ⟨z, k, hz, -, he⟩ :=
    evaluation_standing hr.free ht (by rw [hs]; exact StreamState.noConfusion) lift applied (some .release)
  rw [settleEntry_ended _ _ _ _ _ hs hc] at hz
  obtain ⟨hzy, rfl⟩ := Prod.mk.inj hz
  obtain rfl := Option.some.inj hzy
  exact ⟨evaluateOnce_ready hr _ _, y.judged s.demand (s.takenEval lift).table n, by rw [evaluateOnce_seen hr, hw, he],
    hs, hi, hk, hp⟩

theorem drains_evaluate {n : StreamNo} {x : Stream} {c : DrainCause} (hc : c ≠ .noDemand) {s : State}
    (h : Drains n x c s) (lift : WantPos → Bool) (applied : Option WantPos) : Drains n x c (evaluate lift applied s) :=
  evaluate_kept (P := Drains n x c) (fun _ lift applied h => drains_evaluateOnce hc h lift applied) lift applied h

theorem drains_evaluateDemand {n : StreamNo} {x : Stream} {c : DrainCause} (hc : c ≠ .noDemand) {s : State}
    (h : Drains n x c s) : Drains n x c (evaluateDemand s) := by
  unfold evaluateDemand
  exact drains_evaluate hc h _ _

/-- The entry of a draining stream is its RELEASE (R61). -/
theorem Drains.release {n : StreamNo} {x : Stream} {c : DrainCause} {s : State} (h : Drains n x c s) :
    ∃ y, s.engine.table[n] = some y ∧ y.state = .draining c ∧ y.input = x.input ∧ y.cls = x.cls ∧ y.picture = none
      ∧ (queueFind s.queue (.stream n)).map (fun e => e.kind) = some .release := by
  obtain ⟨-, y, hy, hs, hi, hk, hp⟩ := h
  obtain ⟨ht, hw⟩ := State.seen_eq_iff.mp hy
  exact ⟨y, ht, hs, hi, hk, hp, hw⟩

/-- It goes over to a state that shows the same streams. -/
theorem Drains.of_sameStreams {n : StreamNo} {x : Stream} {c : DrainCause} {r s : State} (h : Drains n x c r)
    (hs : SameStreams r s) (hr : s.Ready) : Drains n x c s := by
  obtain ⟨-, y, hy, hrest⟩ := h
  obtain ⟨ht, hw⟩ := State.seen_eq_iff.mp hy
  exact ⟨hr, y, State.seen_eq_iff.mpr ⟨by rw [hs.engine]; exact ht, (hs.waits _ rfl).trans hw⟩, hrest⟩

/-! ### SLOT_RECLAIM -/

theorem exec_slotReclaim {s : State} {q : Slot} (ho : s.tables.slots[q].owner ≠ none) (h8 : 8 ≤ s.tables.slots[q].silent) :
    exec (.slotReclaim q) s = .next (refreshPins (observe q (fun _ => SlotEntry.free) s)) := by
  have hr : reclaimSlot q s = observe q (fun _ => SlotEntry.free) s :=
    if_pos ⟨Option.isSome_iff_ne_none.mpr ho, h8⟩
  show Host.Outcome.next (refreshPins (reclaimSlot q s)) = _
  rw [hr]

/-- An owner's slot is a slot that is OWNED. -/
theorem owner_of_names {e : SlotEntry} {a : Addr} {n : StreamNo} (h : e.names a n = true) : e.owner ≠ none := by
  intro hn
  unfold SlotEntry.names at h
  rw [hn] at h
  exact absurd h (by simp)

/-- The owner of a slot that has become FREE has lost it (R45). -/
theorem lostSlot_of_freed {a : Addr} {m : Vector SlotEntry 24} {n : StreamNo} {q : Slot} (h : m[q].names a n = true) :
    lostSlot a m (m.set q SlotEntry.free) n = true := by
  have hq : q ∈ allSlots := by fin_cases q <;> decide
  refine List.any_eq_true.mpr ⟨q, List.mem_filter.mpr ⟨hq, h⟩, ?_⟩
  rw [getElem_set_fin, if_pos rfl]
  rfl

/-- The slots left to an owner as one of its slots becomes FREE. -/
theorem mem_slotsOf_freed (a : Addr) (m : Vector SlotEntry 24) (n : StreamNo) (q k : Slot) :
    k ∈ slotsOf (m.set q SlotEntry.free) a n ↔ k ≠ q ∧ m[k].names a n = true := by
  have hk : k ∈ allSlots := by fin_cases k <;> decide
  unfold slotsOf
  rw [List.mem_filter, getElem_set_fin]
  by_cases h : q = k
  · subst h
    simp [SlotEntry.names, SlotEntry.free]
  · simp [h, hk, Ne.symm h]

section
variable {s : State} {q : Slot} {n : StreamNo} {x : Stream}

/-- The Stream Engine's part in the reclaim of an own slot: the loss, and an evaluation (R45, R62). -/
theorem reclaim_evaluates (hr : s.Ready) (hq : s.tables.slots[q].names s.addr n = true) :
    ∃ (lift : WantPos → Bool) (lost u : State), SameStreams (evaluate lift none lost) (observe q (fun _ => SlotEntry.free) s)
      ∧ lost.Ready ∧ u.Ready ∧ u.seen n = s.seen n
      ∧ lost.seen n = (loseSlot n (slotsOf (s.tables.slots.set q SlotEntry.free) s.addr n) u).seen n := by
  let T : Tables := { s.tables with slots := s.tables.slots.set q SlotEntry.free }
  have hrT : (s.setTables T).Ready := ⟨hr.acting, hr.free⟩
  have hsame : SameStreams (engineTables none s.tables (s.setTables T)) (observe q (fun _ => SlotEntry.free) s) :=
    handTables_sameStreams none s (s.setTables T)
  have hlost : lostSlot (s.setTables T).addr s.tables.slots (s.setTables T).tables.slots n = true := lostSlot_of_freed hq
  obtain ⟨lift, hlift⟩ := engineTables_evaluates (applied := none) (old := s.tables) (s := s.setTables T) (.inl ⟨n, hlost⟩)
  rw [hlift] at hsame
  have hkeep := dropWants_keeps (wantsEmptied s.tables.wants (s.setTables T).tables.wants) (Keeps.refl (s.setTables T))
  have hdr : (dropWants (wantsEmptied s.tables.wants (s.setTables T).tables.wants) (s.setTables T)).Ready :=
    hrT.of_keeps hkeep
  have hdt := tables_of_beside hkeep.same
  have hds := dropWants_seen hrT (wantsEmptied s.tables.wants (s.setTables T).tables.wants) n
  generalize dropWants _ (s.setTables T) = d at hsame hdr hdt hds
  obtain ⟨u, hur, hus, hu⟩ := loseSlots_seen hdr (a := (s.setTables T).addr) (old := s.tables.slots) (n := n)
    (by rw [hdt]; exact hlost)
  rw [hdt] at hu
  exact ⟨lift, _, u, hsame, hdr.of_keeps (loseSlots_keeps _ _ (Keeps.refl d)), hur, hus.trans hds, hu⟩

theorem ready_changeTables (hr : s.Ready) (t : Tables) : (changeTables t s).Ready :=
  State.Ready.of_keeps (r := s.setTables t) ⟨hr.acting, hr.free⟩ (changeTables_keeps t s)

theorem observe_ready (hr : s.Ready) (f : SlotEntry → SlotEntry) : (observe q f s).Ready :=
  ready_changeTables hr _

/-- The reclaim of a slot of an own stream that has others (R62). -/
theorem reclaim_drains (hr : s.Ready) (hq : s.tables.slots[q].names s.addr n = true) (hx : s.engine.table[n] = some x)
    (hc : x.state ≠ .claiming) (hl : x.state ≠ .draining .lost)
    (hk : ∃ k : Slot, k ≠ q ∧ s.tables.slots[k].names s.addr n = true) :
    Drains n x .lost (observe q (fun _ => SlotEntry.free) s) := by
  obtain ⟨lift, lost, u, hsame, hlr, hur, hus, hu⟩ := reclaim_evaluates hr hq
  obtain ⟨k, hkq, hkn⟩ := hk
  have hleft : slotsOf (s.tables.slots.set q SlotEntry.free) s.addr n ≠ [] :=
    List.ne_nil_of_mem ((mem_slotsOf_freed s.addr s.tables.slots n q k).mpr ⟨hkq, hkn⟩)
  have hux : u.engine.table[n] = some x := (State.table_of_seen hus).trans hx
  have hd : Drains n x .lost lost := ⟨hlr, _, hu.trans (loseSlot_drains hur hux hc hl hleft), rfl, rfl, rfl, rfl⟩
  exact (drains_evaluate (by simp) hd lift none).of_sameStreams hsame (observe_ready hr _)

/-- The reclaim of the last slot of an own stream (R62). -/
theorem reclaim_removes (hr : s.Ready) (hq : s.tables.slots[q].names s.addr n = true) (hx : s.engine.table[n] = some x)
    (hc : x.state ≠ .claiming) (hk : ∀ k : Slot, k ≠ q → s.tables.slots[k].names s.addr n = false) :
    Vacant n (observe q (fun _ => SlotEntry.free) s).engine.table := by
  obtain ⟨lift, lost, u, hsame, -, -, hus, hu⟩ := reclaim_evaluates hr hq
  have hleft : slotsOf (s.tables.slots.set q SlotEntry.free) s.addr n = [] :=
    List.eq_nil_iff_forall_not_mem.mpr fun k hm => by
      obtain ⟨hkq, hkn⟩ := (mem_slotsOf_freed s.addr s.tables.slots n q k).mp hm
      rw [hk k hkq] at hkn
      exact absurd hkn (by simp)
  have hux : u.engine.table[n] = some x := (State.table_of_seen hus).trans hx
  rw [hleft] at hu
  have hnone : lost.engine.table[n] = none := (State.table_of_seen hu).trans (loseSlot_removes hux hc)
  rw [hsame.engine]
  refine evaluate_table (vacant_kept n) lift none fun y hy => ?_
  exact absurd (hnone.symm.trans hy) (by simp)

end

/-! ### WANT_RECORD_EXPIRY -/

/-- A demand entry comes from the record at its position (R49). -/
theorem mem_demand {s : State} {d : Demand} : d ∈ s.demand ↔ ∃ r, s.tables.wants[d.pos] = some r ∧ d.entry ∈ r.list
    ∧ d.entry.cam = { addr := s.addr, input := d.input } := by
  have hrec : ∀ (p : WantPos) (r : WantRecord), (p, r) ∈ s.wantRecords ↔ s.tables.wants[p] = some r := by
    intro p r
    have hp : p ∈ allPositions := by fin_cases p <;> decide
    unfold State.wantRecords
    rw [mem_sortBy, List.mem_filterMap]
    constructor
    · rintro ⟨m, -, hm⟩
      obtain ⟨y, hy, he⟩ := Option.map_eq_some_iff.mp hm
      obtain ⟨rfl, rfl⟩ := Prod.mk.inj he
      exact hy
    · exact fun h => ⟨p, hp, by rw [h]; rfl⟩
  have hof : ∀ b, d ∈ s.demandOf b ↔ ∃ r, s.tables.wants[d.pos] = some r ∧ d.entry ∈ r.list ∧ d.entry.carry = b
      ∧ d.entry.cam = { addr := s.addr, input := d.input } := by
    intro b
    unfold State.demandOf
    simp only [List.mem_flatten, List.mem_map, exists_exists_and_eq_and, List.mem_filter, Bool.and_eq_true, beq_iff_eq]
    constructor
    · rintro ⟨⟨p, r⟩, hpr, e, ⟨he, hb, ha⟩, rfl⟩
      exact ⟨r, (hrec p r).mp hpr, he, hb, by rw [← ha]⟩
    · rintro ⟨r, hr, he, hb, hcam⟩
      refine ⟨(d.pos, r), (hrec _ r).mpr hr, d.entry, ⟨he, hb, by rw [hcam]⟩, ?_⟩
      rw [hcam]
  unfold State.demand
  rw [List.mem_append, hof, hof]
  constructor
  · rintro (⟨r, hr, he, -, hcam⟩ | ⟨r, hr, he, -, hcam⟩) <;> exact ⟨r, hr, he, hcam⟩
  · rintro ⟨r, hr, he, hcam⟩
    cases hb : d.entry.carry
    · exact .inl ⟨r, hr, he, rfl, hcam⟩
    · exact .inr ⟨r, hr, he, rfl, hcam⟩

/-- The refusal lists of an evaluation are those of the demand taken (R51, R57). -/
theorem evaluation_refusals (s : State) (lift : WantPos → Bool) (applied : Option WantPos) :
    (s.evaluation lift applied).refusals = (s.takenEval lift).refusals := by
  have hstream : ∀ ds t live (v : Eval) n, (v.settleStream ds t live n).refusals = v.refusals := by
    intro ds t live v n
    unfold Eval.settleStream
    repeat' split
    all_goals rfl
  have hwanted : ∀ ds t (v : Eval) n, (v.settleWanted ds t n).refusals = v.refusals := by
    intro ds t v n
    unfold Eval.settleWanted
    repeat' split
    all_goals rfl
  have hupgrade : ∀ free (v : Eval), (v.seekUpgrade free).refusals = v.refusals := by
    intro free v
    unfold Eval.seekUpgrade
    repeat' split
    all_goals rfl
  have hend : (s.evaluation lift applied).refusals = (s.settledEval lift).refusals := by
    rw [evaluation_eq]
    generalize hv : (s.settledEval lift).seekUpgrade (freeSlots s.tables.slots) = v
    show v.refusals = _
    rw [← hv, hupgrade]
  rw [hend]
  unfold State.settledEval
  refine foldl_of_step (P := fun v : Eval => v.refusals = (s.takenEval lift).refusals) _ _
    (fun v n h => (hwanted _ _ v n).trans h) ?_
  exact foldl_of_step (P := fun v : Eval => v.refusals = (s.takenEval lift).refusals) _ _
    (fun v n h => (hstream _ _ _ v n).trans h) rfl

theorem evaluateOnce_refusals (lift : WantPos → Bool) (applied : Option WantPos) (s : State) :
    (evaluateOnce lift applied s).engine.refusals = (s.takenEval lift).refusals := by
  rw [← evaluation_refusals s lift applied]
  unfold evaluateOnce
  generalize s.evaluation lift applied = v
  dsimp only
  rw [applyQueueOps_engine_eq, State.setEngine_engine]

/-- An entry taken changes the refusal list of its own position alone (R51). -/
theorem take_refusals_other {d : Demand} {p : WantPos} (h : d.pos ≠ p) (held : Vector (List Refused) 4)
    (live : Input → Bool) (v : Eval) : (v.take held live d).refusals[p] = v.refusals[p] := by
  have hrefuse : ∀ r, (v.refuse d r).refusals[p] = v.refusals[p] := by
    intro r
    unfold Eval.refuse
    split
    · rfl
    · exact (getElem_set_fin ..).trans (if_neg h)
  unfold Eval.take
  repeat' split
  · rfl
  · exact hrefuse _
  · exact hrefuse _
  · exact hrefuse _
  · rfl

/-- A position without a record has no refusals after an evaluation (R48, R57). -/
theorem evaluateOnce_refusals_empty {s : State} {p : WantPos} (h : s.tables.wants[p] = none) (lift : WantPos → Bool)
    (applied : Option WantPos) : (evaluateOnce lift applied s).engine.refusals[p] = [] := by
  rw [evaluateOnce_refusals]
  have hpos : ∀ d ∈ s.demand, d.pos ≠ p := by
    rintro d hd rfl
    obtain ⟨r, hr, -⟩ := mem_demand.mp hd
    exact absurd (h.symm.trans hr) (by simp)
  have key : ∀ (ds : List Demand) (v : Eval), (∀ d ∈ ds, d.pos ≠ p) → v.refusals[p] = [] →
      (ds.foldl (Eval.take (liftHeld lift s.engine.refusals) s.inputLive) v).refusals[p] = [] := by
    intro ds
    induction ds with
    | nil => exact fun _ _ hv => hv
    | cons d ds ih =>
      intro v hd hv
      refine ih _ (fun d hm => hd d (List.mem_cons_of_mem _ hm)) ?_
      rw [take_refusals_other (hd d (List.mem_cons_self ..))]
      exact hv
  exact key _ _ hpos (Vector.getElem_replicate ..)

/-- A want record aged 48 is emptied, with its refusal list (R48, R57). -/
theorem wantExpiry_empties {s : State} {p : WantPos} {r : WantRecord} (hp : s.tables.wants[p] = some r) (h48 : 48 ≤ r.age) :
    wantExpiry p s = changeTables { s.tables with wants := s.tables.wants.set p none } s
      ∧ (wantExpiry p s).engine.refusals[p] = [] := by
  have hdue : s.wantDue p = true := by simp [State.wantDue, hp, h48]
  have hw : wantExpiry p s = changeTables { s.tables with wants := s.tables.wants.set p none } s := if_pos hdue
  refine ⟨hw, ?_⟩
  rw [hw]
  let T : Tables := { s.tables with wants := s.tables.wants.set p none }
  have hnone : (s.setTables T).tables.wants[p] = none := (getElem_set_fin ..).trans (if_pos rfl)
  have hemptied : p ∈ wantsEmptied s.tables.wants (s.setTables T).tables.wants := by
    have hm : p ∈ allPositions := by fin_cases p <;> decide
    refine List.mem_filter.mpr ⟨hm, ?_⟩
    rw [hnone, hp]
    rfl
  obtain ⟨lift, hlift⟩ := engineTables_evaluates (applied := none) (old := s.tables) (s := s.setTables T)
    (.inr (.inl ⟨p, hemptied⟩))
  have hsame := handTables_sameStreams none s (s.setTables T)
  rw [hlift] at hsame
  have hkeep := loseSlots_keeps (s.setTables T).addr s.tables.slots
    (dropWants_keeps (wantsEmptied s.tables.wants (s.setTables T).tables.wants) (Keeps.refl (s.setTables T)))
  have hstart := tables_of_beside hkeep.same
  generalize loseSlots _ _ _ = u at hsame hstart
  have hkept : ∀ (v : State) (lift : WantPos → Bool) (applied : Option WantPos), v.tables.wants[p] = none →
      (evaluateOnce lift applied v).tables.wants[p] = none ∧ (evaluateOnce lift applied v).engine.refusals[p] = [] :=
    fun v lift applied hv => ⟨by rw [tables_of_beside (evaluateOnce_keeps lift applied (Keeps.refl v)).same]; exact hv,
      evaluateOnce_refusals_empty hv lift applied⟩
  have hend := evaluate_induction (P := fun v => v.tables.wants[p] = none ∧ v.engine.refusals[p] = [])
    (fun v lift applied hv => hkept v lift applied hv.1) lift none (hkept u lift none (by rw [hstart]; exact hnone))
  show (handTables none s (s.setTables T)).engine.refusals[p] = []
  rw [hsame.engine]
  exact hend.2

/-! ### HOLD_LIMIT -/

/-- A step of the Stream Engine shows in its state, the queue and the output lines alone. -/
theorem refreshPins_of_engineStep {r s : State} (h : EngineStep r s) (ho : r.lineFree) :
    refreshPins s = refreshPins ((r.setEngine (refreshPins s).engine).setQueue (refreshPins s).queue) := by
  obtain ⟨e, q, rfl, -⟩ := h ho
  rfl

theorem holdLimit_drains {s : State} (hr : s.Ready) {n : StreamNo} {x : Stream} (hx : s.engine.table[n] = some x)
    (hs : x.state = .holding) (h40 : 40 ≤ x.holdCount) :
    EngineStep s (holdLimit n s) ∧ Drains n x .holdLimit (holdLimit n s) := by
  have hh : holdLimit n s = evaluateDemand (offer (.stream n) .release (s.setStream n (some (x.drain .holdLimit)))) := by
    unfold holdLimit
    simp only [hx]
    exact if_pos ⟨hs, h40⟩
  have hrs : (s.setStream n (some (x.drain .holdLimit))).Ready := ⟨hr.acting, hr.free⟩
  have htable : (s.setStream n (some (x.drain .holdLimit))).engine.table[n] = some (x.drain .holdLimit) :=
    (getElem_set_fin ..).trans (if_pos rfl)
  have hstep : EngineStep s (offer (.stream n) .release (s.setStream n (some (x.drain .holdLimit)))) :=
    offer_engine (setStream_engine (.refl s) n _) rfl _
  have hd : Drains n x .holdLimit (offer (.stream n) .release (s.setStream n (some (x.drain .holdLimit)))) := by
    refine ⟨ready_offer hrs _ _, x.drain .holdLimit, ?_, rfl, rfl, rfl, rfl⟩
    exact State.seen_eq_iff.mpr ⟨by rw [offer_engine_eq, htable], waits_offer_same hrs _ _⟩
  rw [hh]
  exact ⟨evaluateDemand_engine hstep, drains_evaluateDemand (by simp) hd⟩

/-- Settles O27: the slot, the own stream's slot, the record and the HOLDING stream. -/
theorem countsRunOut : Obligations.CountsRunOut := by
  refine ⟨fun s n ho h8 => ?_, fun s q n x ha hline hq h8 hx hc hl => ⟨fun hk => ?_, fun hk => ?_⟩,
    fun s p r hp h48 => ?_, fun s n x ha hx hs h40 hline => ?_⟩
  · refine ⟨_, exec_slotReclaim ho h8, ?_⟩
    rw [beside_refreshPins, observe_beside]
    rfl
  · obtain ⟨y, hd⟩ := (reclaim_drains ⟨ha, hline⟩ hq hx hc hl hk).release
    refine ⟨_, y, exec_slotReclaim (owner_of_names hq) h8, ?_⟩
    rw [refreshPins_engine, refreshPins_queue]
    exact hd
  · refine ⟨_, exec_slotReclaim (owner_of_names hq) h8, ?_⟩
    rw [refreshPins_engine]
    exact vacant_cases (reclaim_removes ⟨ha, hline⟩ hq hx hc hk)
  · obtain ⟨hw, hrefusals⟩ := wantExpiry_empties hp h48
    refine ⟨refreshPins (wantExpiry p s), rfl, ?_, ?_⟩
    · rw [beside_refreshPins, hw, changeTables_beside]
    · rw [refreshPins_engine]
      exact hrefusals
  · obtain ⟨hstep, hd⟩ := holdLimit_drains ⟨ha, hline⟩ hx hs h40
    obtain ⟨y, ht, hy, hi, hcls, -, hw⟩ := hd.release
    refine ⟨refreshPins (holdLimit n s), rfl, refreshPins_of_engineStep hstep hline, ?_, ?_⟩
    · rw [refreshPins_engine]
      exact ⟨y, ht, hy, hi, hcls⟩
    · rw [refreshPins_queue]
      exact hw

end Sys2Proof.Machine
end

