-- ==== Sys2Proof/Proofs/InputChanges.lean ====
section
/-! SUPPORT. What the streams do as an input enters or leaves LIVE (R55, R59, R60, R68, R72). -/
namespace Sys2Proof.Machine

/-- Whether an input is LIVE is not the Stream Engine's to change. -/
theorem inputLive_of_keeps {r s : State} (h : Keeps r s) (i : Input) : s.inputLive i = r.inputLive i := by
  have hi : s.intake = r.intake := show s.beside.intake = r.beside.intake from congrArg State.intake h.same
  unfold State.inputLive
  rw [hi]

/-- An input's record set says whether that input is LIVE. -/
theorem setInput_inputLive (i : Input) (r : InputRecord) (s : State) :
    (setInput i r s).inputLive i = (r.state == .live) := by
  have hi : (setInput i r s).intake.inputs[i] = some r := (getElem_set_fin ..).trans (if_pos rfl)
  unfold State.inputLive
  simp only [hi]

/-! ### A stream whose input has changed rests as the input stands (R59, R60, R72) -/

/-- Stream n is one of input i with no picture open, in LIVE or HOLDING as the input stands, or drains for want of demand. -/
structure Rests (n : StreamNo) (i : Input) (s : State) : Prop where
  free : s.lineFree
  stands : ∃ y, s.engine.table[n] = some y ∧ y.input = i ∧ y.picture = none ∧ y.holdCount = 0
    ∧ (y.state = (if s.inputLive i then .live else .holding) ∨ y.state = .draining .noDemand)

theorem rests_evaluateOnce {n : StreamNo} {i : Input} {s : State} (h : Rests n i s) (lift : WantPos → Bool)
    (applied : Option WantPos) : Rests n i (evaluateOnce lift applied s) := by
  obtain ⟨hfree, y, ht, hi, hp, hh, hs⟩ := h
  have hk := evaluateOnce_keeps lift applied (Keeps.refl s)
  have hc : y.state ≠ .claiming := by
    rcases hs with hs | hs
    · rw [hs]
      split <;> exact StreamState.noConfusion
    · rw [hs]
      exact StreamState.noConfusion
  refine ⟨lineFree_of_keeps hk hfree, ?_⟩
  rw [inputLive_of_keeps hk, evaluateOnce_engine_eq]
  obtain ⟨z, k, hz, -, he⟩ := evaluation_standing hfree ht hc lift applied none
  refine ⟨z.judged s.demand (s.takenEval lift).table n, Eval.table_of_seen he, ?_⟩
  show z.input = i ∧ z.picture = none ∧ z.holdCount = 0
    ∧ (z.state = (if s.inputLive i then .live else .holding) ∨ z.state = .draining .noDemand)
  rcases settleEntry_cases s.demand (s.takenEval lift).table s.inputLive n none hc with hst | ⟨-, hst⟩ | ⟨-, hst⟩
    <;> rw [hst] at hz <;> obtain rfl := Option.some.inj (Prod.mk.inj hz).1
  · exact ⟨hi, hp, hh, hs⟩
  · exact ⟨hi, rfl, rfl, .inl (by rw [hi]; rfl)⟩
  · exact ⟨hi, rfl, rfl, .inr rfl⟩

theorem rests_evaluateDemand {n : StreamNo} {i : Input} {s : State} (h : Rests n i s) : Rests n i (evaluateDemand s) := by
  unfold evaluateDemand
  exact evaluate_kept (P := Rests n i) (fun _ lift applied h => rests_evaluateOnce h lift applied) _ _ h

/-! ### An input that enters LIVE (R60, R68, R72) -/

/-- The HOLDING streams of an input that enters LIVE resume (R60, R72). -/
theorem streamsInputLive_rests {i : Input} {s : State} (hfree : s.lineFree) (hlive : s.inputLive i = true) {n : StreamNo}
    {x : Stream} (hx : s.engine.table[n] = some x) (hi : x.input = i) (hs : x.state = .holding) :
    Rests n i (streamsInputLive i s) := by
  unfold streamsInputLive
  refine rests_evaluateDemand ⟨hfree, x.resume true, ?_, hi, rfl, rfl, .inl ?_⟩
  · have hmap : ∀ f, (mapStreams f s).engine.table[n] = (s.engine.table[n]).map f := fun f => Vector.getElem_map ..
    rw [hmap, hx, Option.map_some, if_pos ⟨hi, hs⟩]
  · exact (if_pos hlive).symm

theorem streamsInputLive_engine (i : Input) (s : State) : EngineStep s (streamsInputLive i s) := by
  unfold streamsInputLive
  exact evaluateDemand_engine fun _ => ⟨(mapStreams _ s).engine, s.queue, rfl, fun _ _ => rfl⟩

theorem cameraSynced_eq {s : State} {i : Input} {r : InputRecord} (hr : s.intake.inputs[i] = some r)
    (hs : r.state = .syncing) (h3 : 3 ≤ r.good) :
    cameraSynced i s = streamsInputLive i (setInput i { r with state := .live, stall := 200000 } s) := by
  have hd : s.syncedDue i = true := by simp [State.syncedDue, hr, hs, h3]
  unfold cameraSynced
  simp only [hr, hd, if_true]
  rfl

/-! ### An input that leaves LIVE (R55, R59, R68) -/

/-- What an input that leaves LIVE does at one stream number: a LIVE stream holds, a CLAIM is given up (R55, R59). -/
def lostEntry (i : Input) : Option Stream × Option SendKind → Option Stream × Option SendKind
  | (none, w) => (none, w)
  | (some x, w) =>
    if x.input = i then
      match x.state with
      | .live => (some { x with state := .holding, holdCount := 0, nextBand := 0, picture := none }, w)
      | .claiming => (none, none)
      | _ => (some x, w)
    else (some x, w)

theorem streamInputLost_seen_other {n m : StreamNo} (h : m ≠ n) (s : State) (i : Input) :
    (streamInputLost s i m).seen n = s.seen n := by
  have hset : ∀ y, (s.setStream m y).seen n = s.seen n := fun y =>
    State.seen_eq_iff.mpr ⟨(getElem_set_fin ..).trans (if_neg h), rfl⟩
  have hne : Subject.stream n ≠ .stream m := fun he => h (Subject.stream.inj he).symm
  unfold streamInputLost
  repeat' split
  · rfl
  · exact hset _
  · rfl
  · rw [← hset none]
    refine State.seen_eq_iff.mpr ⟨?_, waits_withdraw_other hne _⟩
    rw [withdraw_engine_eq]
  · rfl
  · rfl

theorem streamInputLost_seen_same {s : State} (hr : s.Ready) (i : Input) (n : StreamNo) :
    (streamInputLost s i n).seen n = lostEntry i (s.seen n) := by
  have hset : ∀ y, (s.setStream n y).engine.table[n] = y := fun y => (getElem_set_fin ..).trans (if_pos rfl)
  cases hx : s.engine.table[n] with
  | none =>
    have hseen : s.seen n = (none, s.waits (.stream n)) := State.seen_eq_iff.mpr ⟨hx, rfl⟩
    unfold streamInputLost
    simp only [hx]
    rw [hseen]
    rfl
  | some x =>
    have hseen : s.seen n = (some x, s.waits (.stream n)) := State.seen_eq_iff.mpr ⟨hx, rfl⟩
    unfold streamInputLost
    simp only [hx]
    rw [hseen, lostEntry]
    by_cases hi : x.input = i
    · rw [if_pos hi, if_pos hi]
      cases hs : x.state with
      | live => exact State.seen_eq_iff.mpr ⟨hset _, rfl⟩
      | claiming =>
        have hsends : s.trunk.out.sends (.stream n) = false := by
          unfold TrunkOut.sends
          split
          · next c hc => exact absurd hc (hr.free c)
          · rfl
        simp only [hsends]
        refine State.seen_eq_iff.mpr ⟨?_, waits_withdraw_same (s := s.setStream n none) ⟨hr.acting, hr.free⟩ _⟩
        rw [if_neg Bool.false_ne_true, withdraw_engine_eq]
        exact hset none
      | holding | draining _ => exact hseen
    · rw [if_neg hi, if_neg hi, hseen]

/-- All streams once their input has left LIVE, before the demand is evaluated. -/
def streamsLost (i : Input) (s : State) : State := allStreams.foldl (fun t n => streamInputLost t i n) s

theorem streamsInputLost_eq (i : Input) (s : State) : streamsInputLost i s = evaluateDemand (streamsLost i s) := rfl

theorem streamsLost_keeps (i : Input) (s : State) : Keeps s (streamsLost i s) :=
  keeps_foldl _ _ (fun _ n ht => streamInputLost_keeps i n ht) (Keeps.refl s)

theorem streamsLost_seen {s : State} (hr : s.Ready) (i : Input) (n : StreamNo) :
    (streamsLost i s).seen n = lostEntry i (s.seen n) := by
  obtain ⟨t, ht, hts, h⟩ := foldl_turn (f := fun t n => streamInputLost t i n) (view := fun u : State => u.seen n)
    (I := State.Ready) (by decide) (mem_allStreams n)
    (fun u m hu => hu.of_keeps (streamInputLost_keeps i m (Keeps.refl u)))
    (fun u m hm => streamInputLost_seen_other hm u i) hr
  unfold streamsLost
  rw [h, streamInputLost_seen_same ht, hts]

/-- The LIVE streams of an input that leaves LIVE hold (R59). -/
theorem streamsInputLost_rests {i : Input} {s : State} (hr : s.Ready) (hdown : s.inputLive i = false) {n : StreamNo}
    {x : Stream} (hx : s.engine.table[n] = some x) (hi : x.input = i) (hs : x.state = .live) :
    Rests n i (streamsInputLost i s) := by
  have hseen : s.seen n = (some x, s.waits (.stream n)) := State.seen_eq_iff.mpr ⟨hx, rfl⟩
  have hlost := streamsLost_seen hr i n
  rw [hseen, lostEntry, if_pos hi, hs] at hlost
  have hk := streamsLost_keeps i s
  rw [streamsInputLost_eq]
  refine rests_evaluateDemand ⟨(hr.of_keeps hk).free, _, (State.seen_eq_iff.mp hlost).1, hi, rfl, rfl, .inl ?_⟩
  rw [inputLive_of_keeps hk, hdown]
  rfl

/-! ### The CLAIMs of an input that has left LIVE (R55) -/

/-- What stands at a number is no LIVE stream of the input. -/
def NotLiveOf (i : Input) (e : Option Stream × Option SendKind) : Prop := ∀ y, e.1 = some y → y.input = i → y.state ≠ .live

/-- What stands at a number is no stream of the input, and nothing waits for a number where none stands. -/
def ClearOf (i : Input) (e : Option Stream × Option SendKind) : Prop :=
  (∀ y, e.1 = some y → y.input ≠ i) ∧ (e.1 = none → e.2 = none)

/-- R53 leaves the camera and the state of a stream. -/
theorem wantEntry_some (ds : List Demand) (t : StreamTable) (n : StreamNo) (z : Stream) (k : Option SendKind) :
    ∃ y, wantEntry ds t n (some z, k) = (some y, k) ∧ y.input = z.input ∧ y.state = z.state := by
  by_cases hc : z.state = .claiming
  · exact ⟨z, if_pos hc, rfl, rfl⟩
  · exact ⟨z.judged ds t n, if_neg hc, rfl, rfl⟩

/-- What an evaluation makes of a stream at one number: it stays, resumes, drains or goes; its input stays. -/
theorem settledEntry_cases (ds : List Demand) (t : StreamTable) (live : Input → Bool) (n : StreamNo) (x : Stream)
    (w : Option SendKind) :
    wantEntry ds t n (settleEntry ds t live n (some x, w)) = (none, none)
      ∨ ∃ y k, wantEntry ds t n (settleEntry ds t live n (some x, w)) = (some y, k) ∧ y.input = x.input
        ∧ (y.state = .live → x.state = .live ∨ live x.input = true) := by
  have hkeep : ∀ (z : Stream) (k : Option SendKind), settleEntry ds t live n (some x, w) = (some z, k) →
      z.input = x.input → (z.state = .live → x.state = .live ∨ live x.input = true) →
      ∃ y k, wantEntry ds t n (settleEntry ds t live n (some x, w)) = (some y, k) ∧ y.input = x.input
        ∧ (y.state = .live → x.state = .live ∨ live x.input = true) := by
    intro z k hz hi hl
    obtain ⟨y, hy, hyi, hys⟩ := wantEntry_some ds t n z k
    rw [hz]
    exact ⟨y, k, hy, hyi.trans hi, fun h => hl (hys ▸ h)⟩
  by_cases hc : x.state = .claiming
  · have he := settleEntry_claiming ds t live n w hc
    split at he
    · exact .inr (hkeep x w he rfl .inl)
    · rw [he]
      exact .inl rfl
  · rcases settleEntry_cases ds t live n w hc with he | ⟨-, he⟩ | ⟨-, he⟩
    · exact .inr (hkeep _ _ he rfl .inl)
    · refine .inr (hkeep _ _ he rfl fun h => .inr ?_)
      cases hl : live x.input with
      | true => rfl
      | false =>
        rw [hl] at h
        exact StreamState.noConfusion h
    · exact .inr (hkeep _ _ he rfl fun h => StreamState.noConfusion h)

section
variable {s : State} {i : Input} (ho : s.lineFree) (hdown : s.inputLive i = false) (lift : WantPos → Bool)
include ho hdown

/-- The demand makes no stream LIVE of an input that is not. -/
theorem settledEval_notLiveOf {n : StreamNo} {w : Option SendKind} (h : NotLiveOf i (s.engine.table[n], w)) :
    NotLiveOf i ((s.settledEval lift).seen n w) := by
  have htaken : NotLiveOf i ((s.takenEval lift).seen n w) := by
    rcases takenEval_seen s lift n w with he | ⟨-, j, k, f, -, he⟩
    · rw [he]
      exact h
    · rw [he]
      rintro y hy -
      obtain rfl := Option.some.inj hy
      exact StreamState.noConfusion
  rw [settledEval_seen ho]
  generalize (s.takenEval lift).seen n w = e at htaken
  obtain ⟨o, k⟩ := e
  cases o with
  | none =>
    intro y hy
    exact absurd hy (by simp [settleEntry, wantEntry])
  | some x =>
    rcases settledEntry_cases s.demand (s.takenEval lift).table s.inputLive n x k with he | ⟨y, k', he, hyi, hys⟩
    · rw [he]
      intro y hy
      exact absurd hy (by simp)
    · rw [he]
      intro z hz hi hl
      obtain rfl := Option.some.inj hz
      have hxi : x.input = i := hyi.symm.trans hi
      rcases hys hl with hx | hx
      · exact htaken x rfl hxi hx
      · rw [hxi, hdown] at hx
        exact absurd hx (by simp)

/-- Nor does it make one of that input at a number where none stands. -/
theorem settledEval_clearOf {n : StreamNo} {w : Option SendKind} (h : ClearOf i (s.engine.table[n], w)) :
    ClearOf i ((s.settledEval lift).seen n w) := by
  have htaken : ClearOf i ((s.takenEval lift).seen n w) := by
    rcases takenEval_seen s lift n w with he | ⟨-, j, k, f, hj, he⟩
    · rw [he]
      exact h
    · rw [he]
      refine ⟨fun y hy hyi => ?_, fun hn => absurd hn (by simp)⟩
      obtain rfl := Option.some.inj hy
      have hji : j = i := hyi
      rw [hji, hdown] at hj
      exact absurd hj (by simp)
  rw [settledEval_seen ho]
  generalize (s.takenEval lift).seen n w = e at htaken
  obtain ⟨o, k⟩ := e
  cases o with
  | none => exact htaken
  | some x =>
    rcases settledEntry_cases s.demand (s.takenEval lift).table s.inputLive n x k with he | ⟨y, k', he, hyi, -⟩
    · rw [he]
      exact ⟨fun y hy => absurd hy (by simp), fun _ => rfl⟩
    · rw [he]
      refine ⟨fun z hz => ?_, fun hn => absurd hn (by simp)⟩
      obtain rfl := Option.some.inj hz
      rw [hyi]
      exact htaken.1 x rfl

end

/-- Number n is clear of input i, which is not LIVE and has no LIVE stream. -/
structure Clears (n : StreamNo) (i : Input) (s : State) : Prop where
  ready : s.Ready
  down : s.inputLive i = false
  notLive : ∀ m, NotLiveOf i (s.seen m)
  clear : ClearOf i (s.seen n)

theorem Clears.shown {n : StreamNo} {i : Input} {s : State} (h : Clears n i s) :
    (∀ y, s.engine.table[n] = some y → y.input ≠ i)
      ∧ (s.engine.table[n] = none → queueHolds s.queue (.stream n) = false) := by
  obtain ⟨hother, hwaits⟩ := h.clear
  refine ⟨hother, fun hn => ?_⟩
  have hw : s.waits (.stream n) = none := hwaits hn
  rw [queueHolds_eq_waits, hw]
  rfl

theorem clears_evaluateOnce {n : StreamNo} {i : Input} {s : State} (h : Clears n i s) (lift : WantPos → Bool)
    (applied : Option WantPos) : Clears n i (evaluateOnce lift applied s) := by
  have hsettled : ∀ (m : StreamNo) (w : Option SendKind), NotLiveOf i (s.engine.table[m], w) := fun m _ => h.notLive m
  refine ⟨evaluateOnce_ready h.ready _ _, ?_, fun m => ?_, ?_⟩
  · rw [inputLive_of_keeps (evaluateOnce_keeps lift applied (Keeps.refl s))]
    exact h.down
  · rw [evaluateOnce_seen h.ready, evaluation_seen]
    rcases seekUpgrade_seen (freeSlots s.tables.slots) (s.settledEval lift) m (s.waits (.stream m))
      with he | ⟨-, m', x, -, -, -, he⟩ <;> rw [he]
    · exact settledEval_notLiveOf h.ready.free h.down lift (h.notLive m)
    · rintro y hy -
      obtain rfl := Option.some.inj hy
      exact StreamState.noConfusion
  · rw [evaluateOnce_seen h.ready, evaluation_seen]
    rcases seekUpgrade_seen (freeSlots s.tables.slots) (s.settledEval lift) n (s.waits (.stream n))
      with he | ⟨-, m', x, hx, hlive, -, he⟩ <;> rw [he]
    · exact settledEval_clearOf h.ready.free h.down lift h.clear
    · refine ⟨fun y hy hyi => ?_, fun hn => absurd hn (by simp)⟩
      obtain rfl := Option.some.inj hy
      have hxi : x.input = i := hyi
      exact settledEval_notLiveOf h.ready.free h.down lift (hsettled m' none) x hx hxi hlive

/-- The CLAIM of a stream whose input leaves LIVE is given up (R55). -/
theorem streamsInputLost_clears {i : Input} {s : State} (hr : s.Ready) (hdown : s.inputLive i = false) {n : StreamNo}
    {x : Stream} (hx : s.engine.table[n] = some x) (hi : x.input = i) (hs : x.state = .claiming) :
    Clears n i (streamsInputLost i s) := by
  have hk := streamsLost_keeps i s
  have hseen : s.seen n = (some x, s.waits (.stream n)) := State.seen_eq_iff.mpr ⟨hx, rfl⟩
  have hnot : ∀ e, NotLiveOf i (lostEntry i e) := by
    rintro ⟨o, w⟩ y hy hyi hl
    cases o with
    | none => exact absurd hy (by simp [lostEntry])
    | some z =>
      unfold lostEntry at hy
      dsimp only at hy
      split at hy
      · split at hy
        · obtain rfl := Option.some.inj hy
          exact StreamState.noConfusion hl
        · exact absurd hy (by simp)
        · next h _ =>
          obtain rfl := Option.some.inj hy
          exact h hl
      · next h =>
        obtain rfl := Option.some.inj hy
        exact h hyi
  have hstart : Clears n i (streamsLost i s) := by
    refine ⟨hr.of_keeps hk, (inputLive_of_keeps hk i).trans hdown, fun m => ?_, ?_⟩
    · rw [streamsLost_seen hr]
      exact hnot _
    · rw [streamsLost_seen hr, hseen, lostEntry, if_pos hi, hs]
      exact ⟨fun y hy => absurd hy (by simp), fun _ => rfl⟩
  rw [streamsInputLost_eq]
  unfold evaluateDemand
  exact evaluate_kept (P := Clears n i) (fun _ lift applied h => clears_evaluateOnce h lift applied) _ _ hstart

end Sys2Proof.Machine
end

