-- ==== Sys2Proof/Proofs/InputLeavesLive.lean ====
section
/-! SUPPORT. What the measurement engine, the Baseline Store and the Service Port do as an input leaves LIVE (R76, R96, R109, R116,
R117), and the commands CAMERA_SYNCED and CAMERA_STALL. -/
namespace Sys2Proof.Machine

/-! ### The work that a FREE engine takes (R96) -/

/-- From s to t a FREE engine has taken up work of a LIVE input, or has ended the work of another at once (R96). -/
inductive TakesWork (s : State) : State → Prop
  | capture (j : Input) : s.store.phase = .waiting → s.inputLive j = true →
      TakesWork s (setRequest (some (runRequest j)) (setEngineState (.capture j)
        (s.setStore { s.store with phase := .measuring })))
  | captureEnds : s.store.phase = .waiting → TakesWork s (finishOp .abortedStall s)
  | probe (j : Input) : s.inputLive j = true →
      TakesWork s (setRequest (some (singleRequest j)) (setEngineState (.probe j)
        (s.setLens { s.lens with probeWaiting := none })))
  | probeEnds : TakesWork s (answerProbe .notLive [] (s.setLens { s.lens with probeWaiting := none }))
  | rota (j : Input) : s.inputLive j = true →
      TakesWork s (setRequest (some (singleRequest j)) (setEngineState (.rota j) s))
  | rotaEnds (j : Input) : TakesWork s (setLensRecord j (fun r => { r with due := false }) s)

theorem engineTake_takesWork {s t : State} {b : Bool} (h : engineTake s = some (t, b)) : TakesWork s t := by
  unfold engineTake at h
  split at h
  · split at h
    · next j hphase _ =>
      split at h <;> cases h
      · next hl => exact .capture j hphase hl
      · exact .captureEnds hphase
    · split at h
      · next j _ =>
        dsimp only at h
        split at h <;> cases h
        · next hl => exact .probe j hl
        · exact .probeEnds
      · split at h
        · next j _ =>
          split at h <;> cases h
          · next hl => exact .rota j hl
          · exact .rotaEnds j
        · cases h
  · cases h

/-- What the taking of work keeps, a FREE engine that chooses keeps (R96). -/
theorem engineFree_kept {P : State → Prop} (hP : ∀ s t, P s → TakesWork s t → P t) {s : State}
    (h : P (setEngineState .free s)) : P (engineFree s) := by
  have hchoose : ∀ n u, P u → P (engineChoose n u) := by
    intro n
    induction n with
    | zero => exact fun _ hu => hu
    | succ n ih =>
      intro u hu
      unfold engineChoose
      split
      · exact hu
      · next he => exact hP _ _ hu (engineTake_takesWork he)
      · next he => exact ih _ (hP _ _ hu (engineTake_takesWork he))
  exact hchoose _ _ h

/-! ### What the measurement engine leaves -/

/-- From r to s only the frame request, Lens Watch, the Baseline Store and the Service Port change. -/
def MeasureStep (r s : State) : Prop :=
  ∃ q l b v, s = (((setRequest q r).setLens l).setStore b).setService v

theorem answerProbe_cases (st : ReplyStatus) (c : List Byte) (s : State) :
    answerProbe st c s = s ∨ ∃ v, answerProbe st c s = s.setService v := by
  unfold answerProbe
  split
  · exact .inr ⟨_, rfl⟩
  · exact .inl rfl

theorem MeasureStep.refl (s : State) : MeasureStep s s := ⟨s.intake.request, s.lens, s.store, s.service, rfl⟩

theorem MeasureStep.trans {r s t : State} (h : MeasureStep r s) (h' : MeasureStep s t) : MeasureStep r t := by
  obtain ⟨_, _, _, _, rfl⟩ := h
  obtain ⟨q, l, b, v, rfl⟩ := h'
  exact ⟨q, l, b, v, rfl⟩

theorem setLens_measureStep (l : LensWatch) (s : State) : MeasureStep s (s.setLens l) :=
  ⟨s.intake.request, l, s.store, s.service, rfl⟩

theorem setRequest_measureStep (q : Option FrameRequest) (s : State) : MeasureStep s (setRequest q s) :=
  ⟨q, s.lens, s.store, s.service, rfl⟩

theorem setStore_measureStep (b : BaselineStore) (s : State) : MeasureStep s (s.setStore b) :=
  ⟨s.intake.request, s.lens, b, s.service, rfl⟩

theorem answerProbe_measureStep (st : ReplyStatus) (c : List Byte) (s : State) : MeasureStep s (answerProbe st c s) := by
  rcases answerProbe_cases st c s with h | ⟨v, h⟩ <;> rw [h]
  · exact .refl s
  · exact ⟨s.intake.request, s.lens, s.store, v, rfl⟩

theorem TakesWork.measureStep {s t : State} (h : TakesWork s t) : MeasureStep s t := by
  cases h with
  | capture j =>
    exact ((setStore_measureStep _ s).trans (setLens_measureStep _ _)).trans (setRequest_measureStep _ _)
  | captureEnds => exact setStore_measureStep _ s
  | probe j =>
    exact ((setLens_measureStep _ s).trans (setLens_measureStep _ _)).trans (setRequest_measureStep _ _)
  | probeEnds => exact (setLens_measureStep _ s).trans (answerProbe_measureStep _ _ _)
  | rota j => exact (setLens_measureStep _ s).trans (setRequest_measureStep _ _)
  | rotaEnds j => exact setLens_measureStep _ s

/-- The engine leaves the streams, the queue and the trunk. -/
theorem MeasureStep.rest {r s : State} (h : MeasureStep r s) : s.intake.inputs = r.intake.inputs ∧ s.engine = r.engine
    ∧ s.queue = r.queue ∧ s.tables = r.tables ∧ s.trunk = r.trunk ∧ s.channels = r.channels ∧ s.confMem = r.confMem := by
  obtain ⟨q, l, b, v, rfl⟩ := h
  exact ⟨rfl, rfl, rfl, rfl, rfl, rfl, rfl⟩

/-- Which inputs are LIVE is not the engine's to change. -/
theorem MeasureStep.inputLive {r s : State} (h : MeasureStep r s) (i : Input) : s.inputLive i = r.inputLive i := by
  obtain ⟨q, l, b, v, rfl⟩ := h
  rfl

/-- The engine's operation ends as the Intake answers NOT_LIVE: no capture, probe or rota pass is at work, then it chooses (R76). -/
theorem engineNotLive_kept {P : State → Prop} (hP : ∀ s t, P s → TakesWork s t → P t) {s : State} (hs : P s)
    (hfree : ∀ t, P t → P (setEngineState .free t))
    (hrota : ∀ j, P (setLensRecord j (fun r => { r with due := false }) s)) (hprobe : P (answerProbe .notLive [] s))
    (hcapture : P (finishOp .abortedStall s)) : P (engineNotLive s) := by
  unfold engineNotLive
  split
  · exact hs
  · exact engineFree_kept hP (hfree _ (hrota _))
  · exact engineFree_kept hP (hfree _ hprobe)
  · exact engineFree_kept hP (hfree _ hcapture)

/-! ### An input that is not LIVE gets no work (R75, R76, R96, R97) -/

/-- From r on only the engine's parts have changed; no request stands for input i, which is not LIVE, and its lens record is
not due and has no previous frame. -/
structure Left (r : State) (i : Input) (s : State) : Prop where
  step : MeasureStep r s
  down : s.inputLive i = false
  request : ∀ q, s.intake.request = some q → q.input ≠ i
  record : ∀ l, s.lens.records[i] = some l → l.due = false ∧ l.previous = none

theorem ne_of_live {s : State} {i j : Input} (hi : s.inputLive i = false) (hj : s.inputLive j = true) : j ≠ i := by
  rintro rfl
  exact absurd (hi.symm.trans hj) (by simp)

/-- A lens record whose due flag is cleared is as it was otherwise. -/
theorem setLensRecord_notDue {s : State} {i : Input}
    (h : ∀ l, s.lens.records[i] = some l → l.due = false ∧ l.previous = none) (j : Input) :
    ∀ l, (setLensRecord j (fun r => { r with due := false }) s).lens.records[i] = some l →
      l.due = false ∧ l.previous = none := by
  intro l hl
  have he : (s.lens.records.set j ((s.lens.records[j]).map fun r => { r with due := false }))[i] = some l := hl
  rw [getElem_set_fin] at he
  split at he
  · next hji =>
    subst hji
    obtain ⟨k, hk, rfl⟩ := Option.map_eq_some_iff.mp he
    exact ⟨rfl, (h k hk).2⟩
  · exact h l he

section
variable {r : State} {i : Input} {s : State}

theorem left_answerProbe (h : Left r i s) : Left r i (answerProbe .notLive [] s) := by
  have hs := answerProbe_measureStep .notLive [] s
  refine ⟨h.step.trans hs, (hs.inputLive i).trans h.down, ?_, ?_⟩
  all_goals rcases answerProbe_cases .notLive [] s with he | ⟨v, he⟩ <;> rw [he]
  exacts [h.request, h.request, h.record, h.record]

theorem left_rotaEnds (h : Left r i s) (j : Input) : Left r i (setLensRecord j (fun r => { r with due := false }) s) :=
  ⟨h.step.trans (setLens_measureStep _ s), h.down, h.request, setLensRecord_notDue h.record j⟩

theorem left_finishOp (h : Left r i s) (x : OpResult) : Left r i (finishOp x s) :=
  ⟨h.step.trans (setStore_measureStep _ s), h.down, h.request, h.record⟩

theorem left_takesWork {t : State} (h : Left r i s) (ht : TakesWork s t) : Left r i t := by
  have hs := ht.measureStep
  cases ht with
  | capture j _ hl =>
    exact ⟨h.step.trans hs, h.down, fun q hq => Option.some.inj hq ▸ ne_of_live h.down hl, h.record⟩
  | captureEnds => exact left_finishOp h _
  | probe j hl => exact ⟨h.step.trans hs, h.down, fun q hq => Option.some.inj hq ▸ ne_of_live h.down hl, h.record⟩
  | probeEnds => exact left_answerProbe ⟨h.step.trans (setLens_measureStep _ s), h.down, h.request, h.record⟩
  | rota j hl => exact ⟨h.step.trans hs, h.down, fun q hq => Option.some.inj hq ▸ ne_of_live h.down hl, h.record⟩
  | rotaEnds j => exact left_rotaEnds h j

theorem left_engineNotLive (h : Left r i s) : Left r i (engineNotLive s) :=
  engineNotLive_kept (fun _ _ h ht => left_takesWork h ht) h
    (fun t ht => ⟨ht.step.trans (setLens_measureStep _ t), ht.down, ht.request, ht.record⟩) (left_rotaEnds h)
    (left_answerProbe h) (left_finishOp h _)

end

/-- Once the streams have taken the loss, the rest of it is the engine's, and leaves no work for the input (R68, R76, R97). -/
theorem inputLost_left {i : Input} {s : State} (hdown : s.inputLive i = false) :
    Left (streamsInputLost i s) i (inputLost i s) := by
  have hkeep := inputLive_of_keeps (streamsInputLost_keeps i (Keeps.refl s)) i
  unfold inputLost
  generalize streamsInputLost i s = r at hkeep
  have hrecord : ∀ l, (lensInputLost i r).lens.records[i] = some l → l.due = false ∧ l.previous = none := by
    intro l hl
    have he : (r.lens.records.set i ((r.lens.records[i]).map fun k => { k with due := false, previous := none }))[i]
        = some l := hl
    rw [getElem_set_fin, if_pos rfl] at he
    obtain ⟨k, -, rfl⟩ := Option.map_eq_some_iff.mp he
    exact ⟨rfl, rfl⟩
  have hdr : (lensInputLost i r).inputLive i = false := hkeep.trans hdown
  have hstep : MeasureStep r (lensInputLost i r) := setLens_measureStep _ r
  generalize lensInputLost i r = u at hrecord hdr hstep
  have hcapture : MeasureStep u (captureInputLost i u) ∧ (captureInputLost i u).inputLive i = false
      ∧ ∀ l, (captureInputLost i u).lens.records[i] = some l → l.due = false ∧ l.previous = none := by
    unfold captureInputLost
    split
    · exact ⟨setStore_measureStep _ u, hdr, hrecord⟩
    · exact ⟨.refl u, hdr, hrecord⟩
  generalize captureInputLost i u = w at hcapture
  obtain ⟨hw, hdw, hrw⟩ := hcapture
  unfold requestInputLost
  split
  · next q hq =>
    split
    · exact left_engineNotLive ⟨(hstep.trans hw).trans (setRequest_measureStep none w), hdw,
        fun q hq => absurd (show none = some q from hq) (by simp), hrw⟩
    · next hne => exact ⟨hstep.trans hw, hdw, fun q' hq' => Option.some.inj (hq.symm.trans hq') ▸ hne, hrw⟩
  · next hq => exact ⟨hstep.trans hw, hdw, fun q' hq' => absurd (hq.symm.trans hq') (by simp), hrw⟩

/-! ### The capture of an input that leaves LIVE (R108, R116, R117) -/

/-- The store's operation has ended with ABORTED_STALL. -/
def Aborted (b : BaselineStore) (s : State) : Prop := s.store = b.finish .abortedStall

theorem aborted_takesWork {b : BaselineStore} {s t : State} (h : Aborted b s) (ht : TakesWork s t) : Aborted b t := by
  have hno : s.store.phase ≠ .waiting := by
    rw [h]
    exact OpPhase.noConfusion
  cases ht with
  | capture j hw => exact absurd hw hno
  | captureEnds hw => exact absurd hw hno
  | probeEnds =>
    unfold Aborted
    rcases answerProbe_cases .notLive [] (s.setLens { s.lens with probeWaiting := none }) with he | ⟨v, he⟩ <;> rw [he]
    exacts [h, h]
  | probe | rota | rotaEnds => exact h

theorem aborted_finishOp {b : BaselineStore} {s : State} (h : Aborted b s) : Aborted b (finishOp .abortedStall s) := by
  show s.store.finish .abortedStall = b.finish .abortedStall
  rw [h]
  rfl

/-- States that are equal beside the Stream Engine's parts have the same work to measure. -/
theorem measure_of_beside {r s : State} (h : s.beside = r.beside) :
    s.store = r.store ∧ s.lens = r.lens ∧ s.service = r.service ∧ s.intake = r.intake :=
  ⟨show s.beside.store = r.beside.store from congrArg _ h, show s.beside.lens = r.beside.lens from congrArg _ h,
    show s.beside.service = r.beside.service from congrArg _ h, show s.beside.intake = r.beside.intake from congrArg _ h⟩

/-- What the loss of an input makes of the store, before the engine ends its own work, is the store's own matter (R116). -/
theorem captureInputLost_store {i : Input} {r s : State} (h : s.store = r.store) :
    (captureInputLost i s).store = (captureInputLost i r).store := by
  unfold captureInputLost finishOp
  rw [h]
  split
  · rfl
  · exact h

theorem captureInputLost_cases (i : Input) (s : State) : captureInputLost i s = s ∨ ∃ b, captureInputLost i s = s.setStore b := by
  unfold captureInputLost
  split
  · exact .inr ⟨_, rfl⟩
  · exact .inl rfl

/-- The loss of an input, past the streams: the capture that waits for it ends, and then the engine's work for it (R68, R76, R116). -/
theorem inputLost_store (i : Input) (s : State) : ∃ u : State, inputLost i s = requestInputLost i u
    ∧ u.store = (captureInputLost i s).store ∧ u.lens.engine = s.lens.engine ∧ u.service = s.service
    ∧ u.intake = s.intake := by
  obtain ⟨hstore, hlens, hservice, hintake⟩ := measure_of_beside (streamsInputLost_keeps i (Keeps.refl s)).same
  unfold inputLost
  generalize streamsInputLost i s = r at hstore hlens hservice hintake
  have hstore' : (lensInputLost i r).store = s.store := hstore
  have hlens' : (lensInputLost i r).lens.engine = s.lens.engine := by
    show r.lens.engine = s.lens.engine
    rw [hlens]
  have hservice' : (lensInputLost i r).service = s.service := hservice
  have hintake' : (lensInputLost i r).intake = s.intake := hintake
  generalize lensInputLost i r = v at hstore' hlens' hservice' hintake'
  refine ⟨_, rfl, captureInputLost_store hstore', ?_⟩
  rcases captureInputLost_cases i v with h | ⟨b, h⟩ <;> rw [h]
  exacts [⟨hlens', hservice', hintake'⟩, ⟨hlens', hservice', hintake'⟩]

/-- Where the standing request is for the input, it is withdrawn, and the engine ends its work (R76). -/
theorem inputLost_requested {i : Input} {s : State} {q : FrameRequest} (hq : s.intake.request = some q) (hi : q.input = i) :
    ∃ u : State, inputLost i s = engineNotLive u ∧ u.store = (captureInputLost i s).store
      ∧ u.lens.engine = s.lens.engine ∧ u.service = s.service ∧ u.inputLive i = s.inputLive i := by
  obtain ⟨u, hu, hstore, hengine, hservice, hintake⟩ := inputLost_store i s
  have hlive : u.inputLive i = s.inputLive i := by
    unfold State.inputLive
    rw [hintake]
  refine ⟨setRequest none u, ?_, hstore, hengine, hservice, hlive⟩
  rw [hu]
  unfold requestInputLost
  simp only [hintake, hq]
  exact if_pos hi

/-- A capture that waits ends as its input leaves LIVE (R116). -/
theorem inputLost_aborts_waiting {i : Input} {s : State} (hp : s.store.phase = .waiting) (hi : s.store.input = some i) :
    Aborted s.store (inputLost i s) := by
  obtain ⟨u, hu, hstore, -⟩ := inputLost_store i s
  have hab : Aborted s.store u := by
    unfold Aborted
    rw [hstore, captureInputLost, if_pos ⟨hp, hi⟩]
    rfl
  rw [hu]
  unfold requestInputLost
  split
  · split
    · refine engineNotLive_kept (fun _ _ h ht => aborted_takesWork h ht) (s := setRequest none u) hab (fun _ ht => ht)
        (fun _ => hab) ?_ (aborted_finishOp (s := setRequest none u) hab)
      rcases answerProbe_cases .notLive [] (setRequest none u) with he | ⟨v, he⟩ <;> rw [he]
      exacts [hab, hab]
    · exact hab
  · exact hab

/-- A capture that measures ends, and the engine captures that input no more (R108, R117). -/
theorem inputLost_aborts_measuring {i : Input} {s : State} {q : FrameRequest} (hp : s.store.phase = .measuring)
    (he : s.lens.engine = .capture i) (hq : s.intake.request = some q) (hi : q.input = i) :
    Aborted s.store (inputLost i s) ∧ (inputLost i s).lens.engine ≠ .capture i := by
  obtain ⟨u, hu, hstore, hengine, -, -⟩ := inputLost_requested hq hi
  have hn : engineNotLive u = engineFree (finishOp .abortedStall u) := by
    unfold engineNotLive
    simp only [hengine, he]
  rw [hu, hn]
  refine engineFree_kept (P := fun t => Aborted s.store t ∧ t.lens.engine ≠ .capture i) ?_ ⟨?_, EngineState.noConfusion⟩
  · rintro v t ⟨hv, hne⟩ ht
    refine ⟨aborted_takesWork hv ht, ?_⟩
    have hno : v.store.phase ≠ .waiting := by
      rw [hv]
      exact OpPhase.noConfusion
    cases ht with
    | capture j hw => exact absurd hw hno
    | captureEnds => exact hne
    | probe | rota => exact EngineState.noConfusion
    | probeEnds =>
      rcases answerProbe_cases .notLive [] (v.setLens { v.lens with probeWaiting := none }) with h | ⟨k, h⟩ <;> rw [h]
      exacts [hne, hne]
    | rotaEnds => exact hne
  · have hsame : captureInputLost i s = s := if_neg (by simp [hp])
    show u.store.finish .abortedStall = _
    rw [hstore, hsame]

/-! ### The probe of an input that leaves LIVE (R109) -/

/-- A probe that a FREE engine answers is one that has no reply yet. -/
theorem answerProbe_answered {s : State} {k : Byte} {reply : List Byte} (h : s.service = .answer k (some reply))
    (st : ReplyStatus) (c : List Byte) : answerProbe st c s = s := by
  unfold answerProbe
  simp only [h]

/-- A probe at work is answered NOT_LIVE, and the engine probes that input no more (R109). -/
theorem inputLost_answers {i : Input} {s : State} {q : FrameRequest} {k : Byte} (he : s.lens.engine = .probe i)
    (hv : s.service = .answer k none) (hq : s.intake.request = some q) (hi : q.input = i) (hdown : s.inputLive i = false) :
    (inputLost i s).service = .answer k (some (replyFrame k .notLive [])) ∧ (inputLost i s).lens.engine ≠ .probe i := by
  obtain ⟨u, hu, -, hengine, hservice, hlive⟩ := inputLost_requested hq hi
  have hn : engineNotLive u = engineFree (answerProbe .notLive [] u) := by
    unfold engineNotLive
    simp only [hengine, he]
  have ha : answerProbe .notLive [] u = u.setService (.answer k (some (replyFrame k .notLive []))) := by
    unfold answerProbe
    simp only [hservice, hv]
    rfl
  have hkept := engineFree_kept (s := u.setService (.answer k (some (replyFrame k .notLive []))))
    (P := fun t => t.inputLive i = false ∧ t.service = .answer k (some (replyFrame k .notLive [])) ∧ t.lens.engine ≠ .probe i)
    ?_ ⟨hlive.trans hdown, rfl, EngineState.noConfusion⟩
  · rw [hu, hn, ha]
    exact hkept.2
  · rintro v t ⟨hdv, hsv, hne⟩ ht
    refine ⟨(ht.measureStep.inputLive i).trans hdv, ?_⟩
    cases ht with
    | capture | rota => exact ⟨hsv, EngineState.noConfusion⟩
    | captureEnds | rotaEnds => exact ⟨hsv, hne⟩
    | probe j hl => exact ⟨hsv, fun h => ne_of_live hdv hl (EngineState.probe.inj h)⟩
    | probeEnds =>
      rw [answerProbe_answered (s := v.setLens { v.lens with probeWaiting := none }) hsv]
      exact ⟨hsv, hne⟩

/-! ### The commands -/

/-- A state with input i no longer LIVE, from which the loss is taken. -/
def stalledAt (i : Input) (r : InputRecord) (s : State) : State :=
  setInput i { r with state := .stalled, newest := none } s

theorem stalledAt_down (i : Input) (r : InputRecord) (s : State) : (stalledAt i r s).inputLive i = false :=
  setInput_inputLive ..

/-- The stall of a LIVE input, as a command on the clock (R66, R68). -/
theorem exec_cameraStall {s : State} {i : Input} {r : InputRecord} (hc : OnClock s) (hr : s.intake.inputs[i] = some r)
    (hl : r.state = .live) (h0 : r.stall = 0) : exec (.cameraStall i) s =
      .next (refreshPins (inputLost i (stalledAt i r s))) := by
  have hstall : cameraStall i s = inputLost i (stalledAt i r s) := by
    unfold cameraStall
    simp only [hr]
    exact if_pos ⟨hl, h0⟩
  rw [exec_actClock (f := cameraStall i) hc rfl, hstall]

/-- CAMERA_SYNCED: all but the streams and their frames stays, and the HOLDING streams of the input resume or drain. -/
theorem cameraSynced_enters {s : State} {i : Input} {r : InputRecord} (hr : s.intake.inputs[i] = some r)
    (hs : r.state = .syncing) (h3 : 3 ≤ r.good) (hfree : s.lineFree) :
    EngineStep (setInput i { r with state := .live, stall := 200000 } s) (cameraSynced i s)
      ∧ ∀ (n : StreamNo) (x : Stream), s.engine.table[n] = some x → x.input = i → x.state = .holding →
        ∃ y, (cameraSynced i s).engine.table[n] = some y ∧ y.input = i ∧ y.picture = none ∧ y.holdCount = 0
          ∧ (y.state = .live ∨ y.state = .draining .noDemand) := by
  rw [cameraSynced_eq hr hs h3]
  have hlive : (setInput i { r with state := .live, stall := 200000 } s).inputLive i = true := setInput_inputLive ..
  have hf : (setInput i { r with state := .live, stall := 200000 } s).lineFree := hfree
  have hengine : (setInput i { r with state := .live, stall := 200000 } s).engine = s.engine := rfl
  rw [← hengine]
  generalize setInput i { r with state := .live, stall := 200000 } s = u at hlive hf
  refine ⟨streamsInputLive_engine i u, fun n x hx hi hhold => ?_⟩
  obtain ⟨-, y, ht, hyi, hyp, hyh, hys⟩ := streamsInputLive_rests hf hlive hx hi hhold
  rw [inputLive_of_keeps (streamsInputLive_keeps i (Keeps.refl u)), hlive] at hys
  exact ⟨y, ht, hyi, hyp, hyh, hys⟩

/-- The streams of an input that has left LIVE, once the loss is handed to every block (R59). -/
theorem inputLost_holds {s : State} {i : Input} (hr : s.Ready) (hdown : s.inputLive i = false) {n : StreamNo} {x : Stream}
    (hx : s.engine.table[n] = some x) (hi : x.input = i) (hs : x.state = .live) :
    ∃ y, (inputLost i s).engine.table[n] = some y ∧ y.input = i ∧ y.picture = none ∧ y.holdCount = 0
      ∧ (y.state = .holding ∨ y.state = .draining .noDemand) := by
  obtain ⟨-, y, ht, hyi, hyp, hyh, hys⟩ := streamsInputLost_rests hr hdown hx hi hs
  obtain ⟨-, hengine, -⟩ := (inputLost_left hdown).step.rest
  rw [inputLive_of_keeps (streamsInputLost_keeps i (Keeps.refl s)), hdown] at hys
  rw [hengine]
  exact ⟨y, ht, hyi, hyp, hyh, hys⟩

/-- A CLAIM of that input is given up, once the loss is handed to every block (R55). -/
theorem inputLost_clears {s : State} {i : Input} (hr : s.Ready) (hdown : s.inputLive i = false) {n : StreamNo} {x : Stream}
    (hx : s.engine.table[n] = some x) (hi : x.input = i) (hs : x.state = .claiming) :
    (∀ y, (inputLost i s).engine.table[n] = some y → y.input ≠ i)
      ∧ ((inputLost i s).engine.table[n] = none → queueHolds (inputLost i s).queue (.stream n) = false) := by
  have hclears := streamsInputLost_clears hr hdown hx hi hs
  obtain ⟨-, hengine, hqueue, -⟩ := (inputLost_left hdown).step.rest
  rw [hengine, hqueue]
  exact hclears.shown

/-- What the loss of an input leaves in a station that sends no control frame (R68). -/
theorem inputLost_rest {s : State} {i : Input} (hfree : s.lineFree) (hdown : s.inputLive i = false) :
    (inputLost i s).intake.inputs = s.intake.inputs ∧ (inputLost i s).tables = s.tables ∧ (inputLost i s).trunk = s.trunk
      ∧ (inputLost i s).channels = s.channels ∧ (inputLost i s).confMem = s.confMem := by
  have hsame := (streamsInputLost_keeps i (Keeps.refl s)).same
  obtain ⟨hinputs, -, -, htables, htrunk, hchannels, hmem⟩ := (inputLost_left hdown).step.rest
  obtain ⟨-, -, -, hintake⟩ := measure_of_beside hsame
  rw [hinputs, htables, htrunk, hchannels, hmem, hintake]
  generalize streamsInputLost i s = u at hsame
  have hch : u.beside.channels = s.beside.channels := by rw [hsame]
  have hcm : u.beside.confMem = s.beside.confMem := by rw [hsame]
  exact ⟨rfl, tables_of_beside hsame, trunk_of_beside hsame hfree, hch, hcm⟩

/-- Settles O33: the entry into LIVE, the stall, and what the stall ends. -/
theorem cameraEntersAndLeavesLive : Obligations.CameraEntersAndLeavesLive := by
  refine ⟨fun s i r hr hs h3 hfree => ?_, fun s i r hc ha hr hl h0 hfree => ?_,
    fun s i r ended hc ha hr hl h0 hend => ⟨fun hp hi => ?_, fun q hp he hq hi => ?_, fun q k he hv hq hi => ?_,
      fun n x hx hi hs hfree => ?_⟩⟩
  · obtain ⟨hstep, hstreams⟩ := cameraSynced_enters hr hs h3 hfree
    have hexec : exec (.cameraSynced i) s = .next (refreshPins (cameraSynced i s)) := rfl
    generalize cameraSynced i s = u at hstep hstreams hexec
    exact ⟨_, hexec, refreshPins_of_engineStep hstep hfree, hstreams⟩
  · have hexec := exec_cameraStall hc hr hl h0
    have hdown := stalledAt_down i r s
    obtain ⟨hinputs, hrest⟩ := inputLost_rest (s := stalledAt i r s) hfree hdown
    obtain ⟨-, -, hrequest, hrecord⟩ := inputLost_left hdown
    have hholds := fun n x => inputLost_holds (s := stalledAt i r s) (n := n) (x := x) ⟨ha, hfree⟩ hdown
    generalize inputLost i (stalledAt i r s) = u at hexec hinputs hrest hrequest hrecord hholds
    exact ⟨_, hexec, hinputs, hrequest, hholds, hrecord, hrest⟩
  · have hexec := exec_cameraStall hc hr hl h0
    have hstore := inputLost_aborts_waiting (s := stalledAt i r s) hp hi
    generalize inputLost i (stalledAt i r s) = u at hexec hstore
    exact ⟨_, hexec, hstore.trans hend.symm⟩
  · have hexec := exec_cameraStall hc hr hl h0
    obtain ⟨hstore, hengine⟩ := inputLost_aborts_measuring (s := stalledAt i r s) hp he hq hi
    generalize inputLost i (stalledAt i r s) = u at hexec hstore hengine
    exact ⟨_, hexec, hstore.trans hend.symm, hengine⟩
  · have hexec := exec_cameraStall hc hr hl h0
    have hanswer := inputLost_answers (s := stalledAt i r s) he hv hq hi (stalledAt_down i r s)
    generalize inputLost i (stalledAt i r s) = u at hexec hanswer
    exact ⟨_, hexec, hanswer⟩
  · have hexec := exec_cameraStall hc hr hl h0
    have hclear := inputLost_clears (s := stalledAt i r s) ⟨ha, hfree⟩ (stalledAt_down i r s) hx hi hs
    generalize inputLost i (stalledAt i r s) = u at hexec hclear
    exact ⟨_, hexec, hclear⟩

end Sys2Proof.Machine
end

