-- ==== Sys2Proof/Proofs/DemandServed.lean ====
section
/-! SUPPORT. Which stream serves a demand entry (R50), the wanted class of a stream (R53), and the upgrade (R56). -/
namespace Sys2Proof.Machine

/-! ### The lowest number that passes a test -/

theorem allStreams_sorted : allStreams.Pairwise (· < ·) := by decide

/-- The first stream number that passes is the lowest one. -/
theorem find?_allStreams {q : StreamNo → Bool} {n : StreamNo} (hn : q n = true) (hlow : ∀ k < n, q k = false) :
    allStreams.find? q = some n := by
  obtain ⟨m, hm⟩ := Option.isSome_iff_exists.mp (List.find?_isSome.mpr ⟨n, mem_allStreams n, hn⟩)
  rw [hm]
  obtain ⟨hqm, as, bs, hl, has⟩ := List.find?_eq_some_iff_append.mp hm
  have hmem := mem_allStreams n
  rw [hl, List.mem_append, List.mem_cons] at hmem
  rcases hmem with h | rfl | h
  · have hno := has n h
    rw [hn] at hno
    exact absurd hno (by decide)
  · rfl
  · have hsorted := allStreams_sorted
    rw [hl] at hsorted
    have hlt : m < n := (List.pairwise_cons.mp (List.pairwise_append.mp hsorted).2.1).1 n h
    exact absurd hqm (by rw [hlow m hlt]; decide)

theorem unusedNumber_lowest {t : StreamTable} {n : StreamNo} (hn : t[n] = none) (hlow : ∀ k < n, t[k] ≠ none) :
    unusedNumber t = some n :=
  find?_allStreams (by rw [hn]; rfl) fun k hk => by rw [Option.isNone_eq_false_iff, Option.isSome_iff_ne_none]; exact hlow k hk

theorem unusedNumber_none {t : StreamTable} (h : ∀ n : StreamNo, t[n] ≠ none) : unusedNumber t = none :=
  List.find?_eq_none.mpr fun n _ hn => h n (Option.isNone_iff_eq_none.mp hn)

/-- The first stream of a table that passes is the one with the lowest number. -/
theorem find?_streamList {t : StreamTable} {p : StreamNo × Stream → Bool} {n : StreamNo} {x : Stream} (hx : t[n] = some x)
    (hp : p (n, x) = true) (hlow : ∀ k < n, ∀ y, t[k] = some y → p (k, y) = false) :
    (streamList t).find? p = some (n, x) := by
  have hfind : allStreams.find? (fun k => ((t[k]).map fun y => (k, y)).any p) = some n := by
    refine find?_allStreams (by rw [hx]; exact hp) fun k hk => ?_
    cases hy : t[k] with
    | none => rfl
    | some y => exact hlow k hk y hy
  unfold streamList
  rw [List.find?_filterMap, hfind, Option.bind_some, hx]
  rfl

theorem streamCount_lt_iff (t : StreamTable) : streamCount t < 6 ↔ ∃ n : StreamNo, t[n] = none := by
  refine Iff.trans (List.length_filterMap_lt_length_iff_exists (xs := allStreams)) ?_
  exact ⟨fun ⟨n, _, hn⟩ => ⟨n, Option.map_eq_none_iff.mp hn⟩, fun ⟨n, hn⟩ => ⟨n, mem_allStreams n, by rw [hn]; rfl⟩⟩

/-! ### The upgrade (R56) -/

theorem standsAt_false_iff (t : StreamTable) (i : Input) (k : SizeClass) : standsAt t i k = false ↔
    ∀ (m : StreamNo) (y : Stream), t[m] = some y → y.input = i → y.cls = k → ∃ d, y.state = .draining d := by
  unfold standsAt
  rw [List.any_eq_false]
  constructor
  · intro h m y hy hi hk
    have hno := h (m, y) ((mem_streamList t m y).mpr hy)
    cases hs : y.state with
    | draining c => exact ⟨c, rfl⟩
    | claiming | live | holding => simp [hi, hk, hs] at hno
  · rintro h ⟨m, y⟩ hmem hy
    simp only [Bool.and_eq_true, beq_iff_eq] at hy
    obtain ⟨⟨hi, hk⟩, hs⟩ := hy
    obtain ⟨c, hc⟩ := h m y ((mem_streamList t m y).mp hmem) hi hk
    rw [hc] at hs
    exact absurd hs (by simp)

/-- A stream that may be upgraded, apart from the number that it needs (R51, R56). -/
def MayUpgrade (t : StreamTable) (free : Nat) (n : StreamNo) : Prop :=
  ∃ x, t[n] = some x ∧ x.state = .live ∧ x.short = true ∧ x.wanted.need ≤ free
    ∧ ∀ (m : StreamNo) (y : Stream), t[m] = some y → y.input = x.input → y.cls = x.wanted → ∃ d, y.state = .draining d

theorem upgradable_iff {t : StreamTable} {free : Nat} {n : StreamNo} {x : Stream} (hx : t[n] = some x) :
    upgradable t free (n, x) = true ↔ MayUpgrade t free n ∧ ∃ m : StreamNo, t[m] = none := by
  unfold upgradable
  simp only [Bool.and_eq_true, beq_iff_eq, decide_eq_true_eq, Bool.not_eq_true', standsAt_false_iff, streamCount_lt_iff]
  constructor
  · rintro ⟨⟨⟨⟨hl, hs⟩, hn⟩, hfree⟩, hstand⟩
    exact ⟨⟨x, hx, hl, hs, hn, hstand⟩, hfree⟩
  · rintro ⟨⟨y, hy, hl, hs, hn, hstand⟩, hfree⟩
    obtain rfl := Option.some.inj (hx.symm.trans hy)
    exact ⟨⟨⟨⟨hl, hs⟩, hn⟩, hfree⟩, hstand⟩

/-- The lowest stream that may be upgraded is, at the lowest unused number (R56). -/
theorem seekUpgrade_makes {free : Nat} {v : Eval} {n m : StreamNo} {x : Stream}
    (hno : ∀ (n : StreamNo) (x : Stream), v.table[n] = some x → ¬(x.upgrade = true ∧ x.state = .claiming))
    (hmay : MayUpgrade v.table free n) (hfirst : ∀ k : StreamNo, k.val < n.val → ¬MayUpgrade v.table free k)
    (hx : v.table[n] = some x) (hm : v.table[m] = none) (hlow : ∀ k : StreamNo, k.val < m.val → v.table[k] ≠ none) :
    v.seekUpgrade free = { v with
      table := v.table.set m (some (newStream x.input x.wanted x.wanted true))
      ops := v.ops ++ [.offer (.stream m) .claim] } := by
  have hany : ¬(streamList v.table).any (fun p => p.2.upgrade && p.2.state == .claiming) = true := by
    rw [List.any_eq_true]
    rintro ⟨⟨k, y⟩, hmem, hy⟩
    rw [Bool.and_eq_true, beq_iff_eq] at hy
    exact hno k y ((mem_streamList _ k y).mp hmem) hy
  have hfind : (streamList v.table).find? (upgradable v.table free) = some (n, x) := by
    refine find?_streamList hx ((upgradable_iff hx).mpr ⟨hmay, m, hm⟩) fun k hk y hy => ?_
    rw [Bool.eq_false_iff]
    exact fun hu => hfirst k hk ((upgradable_iff hy).mp hu).1
  unfold Eval.seekUpgrade
  rw [if_neg hany, hfind, unusedNumber_lowest hm hlow]

/-- No stream is made beside an upgrade in CLAIMING, for none that may be upgraded, or where no number is unused (R56). -/
theorem seekUpgrade_leaves {free : Nat} {v : Eval}
    (h : (∃ (n : StreamNo) (x : Stream), v.table[n] = some x ∧ x.upgrade = true ∧ x.state = .claiming)
      ∨ (∀ n, ¬MayUpgrade v.table free n) ∨ ∀ n : StreamNo, v.table[n] ≠ none) : v.seekUpgrade free = v := by
  unfold Eval.seekUpgrade
  rcases h with ⟨n, x, hx, hu, hs⟩ | hnone | hfull
  · rw [if_pos (List.any_eq_true.mpr ⟨(n, x), (mem_streamList _ n x).mpr hx, by simp [hu, hs]⟩)]
  · have hfind : (streamList v.table).find? (upgradable v.table free) = none :=
      List.find?_eq_none.mpr fun ⟨n, x⟩ hmem hu =>
        hnone n ((upgradable_iff ((mem_streamList _ n x).mp hmem)).mp hu).1
    rw [hfind, ite_self]
  · rw [unusedNumber_none hfull]
    split
    · rfl
    · split
      · next h => exact absurd h (by simp)
      · rfl

/-! ### The stream that serves (R50) -/

/-- Keys are ordered as lists of numbers are. -/
theorem keyBefore_eq (a b : List Nat) : keyBefore a b = decide (a < b) := by
  induction a generalizing b with
  | nil => cases b <;> simp [keyBefore]
  | cons x xs ih =>
    cases b with
    | nil => simp [keyBefore]
    | cons y ys =>
      unfold keyBefore
      split
      · next h => simp [ih, h]
      · next h => simp [h, List.cons_lt_cons_iff]

theorem eligible_iff (d : Demand) (x : Stream) : d.eligible x = true ↔
    x.input = d.input ∧ x.state ≠ .draining .holdLimit ∧ x.state ≠ .draining .lost
      ∧ (x.cls = d.entry.cls ∨ (x.cls.rank < d.entry.cls.rank ∧ d.entry.floor.rank ≤ x.cls.rank
          ∧ d.entry.cls.rank ≤ x.wanted.rank)) := by
  have hserves : x.state.serves = true ↔ x.state ≠ .draining .holdLimit ∧ x.state ≠ .draining .lost := by
    cases x.state with
    | draining c => cases c <;> simp [StreamState.serves]
    | _ => simp [StreamState.serves]
  unfold Demand.eligible
  simp only [Bool.and_eq_true, Bool.or_eq_true, beq_iff_eq, decide_eq_true_eq, hserves, and_assoc]

/-- The streams that an entry is eligible for, the preferred one first. -/
def Demand.candidates (d : Demand) (t : StreamTable) : List (StreamNo × Stream) :=
  sortBy (fun x y => keyBefore (d.serveKey x) (d.serveKey y)) ((streamList t).filter (fun p => d.eligible p.2))

theorem servedBy_eq (d : Demand) (t : StreamTable) : d.servedBy t = (d.candidates t).head?.map Prod.fst := by
  show (match d.candidates t with | [] => none | p :: _ => some p.1) = _
  cases d.candidates t <;> rfl

theorem mem_candidates (d : Demand) (t : StreamTable) (n : StreamNo) (x : Stream) :
    (n, x) ∈ d.candidates t ↔ t[n] = some x ∧ d.eligible x = true := by
  unfold Demand.candidates
  rw [mem_sortBy, List.mem_filter, mem_streamList]

theorem servedBy_none_iff (d : Demand) (t : StreamTable) :
    d.servedBy t = none ↔ ∀ (n : StreamNo) (x : Stream), t[n] = some x → d.eligible x = false := by
  rw [servedBy_eq, Option.map_eq_none_iff, List.head?_eq_none_iff, List.eq_nil_iff_forall_not_mem]
  simp only [Prod.forall, mem_candidates, not_and, Bool.not_eq_true]

/-- The stream that serves is eligible, and none that is eligible is preferred to it (R50). -/
theorem servedBy_some {d : Demand} {t : StreamTable} {n : StreamNo} (h : d.servedBy t = some n) : ∃ x, t[n] = some x
    ∧ d.eligible x = true ∧ ∀ (m : StreamNo) (y : Stream), t[m] = some y → d.eligible y = true → m ≠ n →
      d.serveKey (n, x) ≤ d.serveKey (m, y) := by
  have hsorted : (d.candidates t).Pairwise (fun a b => keyBefore (d.serveKey b) (d.serveKey a) = false) := by
    refine pairwise_sortBy _ (fun a b hab => ?_) (fun a b c hba hcb => ?_) _
    · rw [keyBefore_eq, decide_eq_true_eq] at hab
      rw [keyBefore_eq, decide_eq_false_iff_not]
      exact lt_asymm hab
    · rw [keyBefore_eq, decide_eq_false_iff_not, not_lt] at hba hcb ⊢
      exact hba.trans hcb
  rw [servedBy_eq] at h
  have hmem := mem_candidates d t
  cases hc : d.candidates t with
  | nil =>
    rw [hc] at h
    exact absurd h (by simp)
  | cons p rest =>
    obtain ⟨k, x⟩ := p
    rw [hc] at h hmem hsorted
    obtain rfl : k = n := Option.some.inj h
    obtain ⟨hx, he⟩ := (hmem k x).mp (List.mem_cons_self ..)
    refine ⟨x, hx, he, fun m y hy hey hmk => ?_⟩
    have hrest : (m, y) ∈ rest := by
      refine (List.mem_cons.mp ((hmem m y).mpr ⟨hy, hey⟩)).resolve_left fun heq => hmk ?_
      exact congrArg Prod.fst heq
    have hle := (List.pairwise_cons.mp hsorted).1 (m, y) hrest
    rw [keyBefore_eq, decide_eq_false_iff_not, not_lt] at hle
    exact hle

/-- The key of a stream in CLAIMING, and of one beyond it (R50; log 18). -/
theorem serveKey_claiming {d : Demand} {n : StreamNo} {x : Stream} (h : x.state = .claiming) :
    d.serveKey (n, x) = [1, if x.cls = d.entry.cls then 0 else 1, 0, 0, n.val] := by
  unfold Demand.serveKey
  simp only [h]

theorem serveKey_standing {d : Demand} {n : StreamNo} {x : Stream} (h : x.state ≠ .claiming) :
    ∃ g, d.serveKey (n, x) = [0, if x.cls = d.entry.cls then 0 else 1, 2 - x.cls.rank, g, n.val]
      ∧ (x.cls ≠ d.entry.cls → g = 0) := by
  unfold Demand.serveKey
  cases hs : x.state with
  | claiming => exact absurd hs h
  | draining c => exact ⟨_, rfl, fun hc => by rw [if_neg hc]⟩
  | live | holding => exact ⟨0, rfl, fun _ => rfl⟩

/-- The preference as the keys order it (R50). -/
theorem preferred_of_key {d : Demand} {n m : StreamNo} {x y : Stream} (h : d.serveKey (n, x) ≤ d.serveKey (m, y))
    (hmn : m ≠ n) : (x.state = .claiming → y.state = .claiming)
      ∧ ((x.state = .claiming ↔ y.state = .claiming) → x.cls ≠ d.entry.cls → y.cls ≠ d.entry.cls)
      ∧ (x.state ≠ .claiming → y.state ≠ .claiming → x.cls ≠ d.entry.cls → y.cls.rank ≤ x.cls.rank
          ∧ (y.cls = x.cls → n.val < m.val))
      ∧ (x.state = .claiming → y.state = .claiming → (x.cls = d.entry.cls ↔ y.cls = d.entry.cls) → n.val < m.val) := by
  have hv : m.val ≠ n.val := fun hc => hmn (Fin.ext hc)
  have hrank : ∀ k : SizeClass, k.rank ≤ 2 := by rintro (_ | _ | _) <;> decide
  by_cases hx : x.state = .claiming <;> by_cases hy : y.state = .claiming
  · rw [serveKey_claiming hx, serveKey_claiming hy, ← not_lt] at h
    simp only [List.cons_lt_cons_iff, lt_irrefl, false_or, true_and, not_or, not_and, not_lt] at h
    obtain ⟨hexact, hnumber⟩ := h
    refine ⟨fun _ => hy, fun _ hne hye => ?_, fun hn => absurd hx hn, fun _ _ heq => ?_⟩
    · rw [if_neg hne, if_pos hye] at hexact
      omega
    · have hle := (hnumber (by simp only [heq])).1
      omega
  · rw [serveKey_claiming hx] at h
    obtain ⟨g, hg, -⟩ := serveKey_standing (d := d) (n := m) hy
    rw [hg, ← not_lt] at h
    exact absurd (List.cons_lt_cons_iff.mpr (.inl (by decide))) h
  · exact ⟨fun h => absurd h hx, fun h => absurd (h.mpr hy) hx, fun _ h => absurd hy h, fun h => absurd h hx⟩
  · obtain ⟨g, hg, hg0⟩ := serveKey_standing (d := d) (n := n) hx
    obtain ⟨g', hg', hg0'⟩ := serveKey_standing (d := d) (n := m) hy
    rw [hg, hg', ← not_lt] at h
    simp only [List.cons_lt_cons_iff, lt_irrefl, false_or, true_and, not_or, not_and, not_lt] at h
    obtain ⟨hexact, hbelow⟩ := h
    have hother : x.cls ≠ d.entry.cls → y.cls ≠ d.entry.cls := by
      intro hne hye
      rw [if_neg hne, if_pos hye] at hexact
      omega
    refine ⟨fun hc => absurd hc hx, fun _ => hother, fun _ _ hne => ?_, fun hc => absurd hc hx⟩
    obtain ⟨hcls, hnumber⟩ := hbelow (by rw [if_neg hne, if_neg (hother hne)])
    have hxr := hrank x.cls
    have hyr := hrank y.cls
    refine ⟨by omega, fun heq => ?_⟩
    have hle := ((hnumber (by rw [heq])).2 (by rw [hg0 hne, hg0' (hother hne)])).1
    omega

/-! ### The wanted class (R53) -/

/-- The wanted class is the highest of the stream's own and those of the entries that it serves. -/
theorem foldl_max_cls (l : List Demand) (c : SizeClass) :
    c.rank ≤ (l.foldl (fun c d => c.max d.entry.cls) c).rank
      ∧ (∀ d ∈ l, d.entry.cls.rank ≤ (l.foldl (fun c d => c.max d.entry.cls) c).rank)
      ∧ (l.foldl (fun c d => c.max d.entry.cls) c = c ∨ ∃ d ∈ l, d.entry.cls = l.foldl (fun c d => c.max d.entry.cls) c) := by
  have hmax : ∀ a b : SizeClass, a.rank ≤ (a.max b).rank ∧ b.rank ≤ (a.max b).rank ∧ (a.max b = a ∨ a.max b = b) := by
    intro a b
    unfold SizeClass.max
    split
    · next h => exact ⟨h.le, le_refl _, .inr rfl⟩
    · next h => exact ⟨le_refl _, not_lt.mp h, .inl rfl⟩
  induction l generalizing c with
  | nil => exact ⟨le_refl _, fun d hd => absurd hd List.not_mem_nil, .inl rfl⟩
  | cons e l ih =>
    obtain ⟨hc, he, hor⟩ := hmax c e.entry.cls
    obtain ⟨hle, hall, heq⟩ := ih (c.max e.entry.cls)
    rw [List.foldl_cons]
    refine ⟨hc.trans hle, fun d hd => ?_, ?_⟩
    · rcases List.mem_cons.mp hd with rfl | hd
      · exact he.trans hle
      · exact hall d hd
    · rcases heq with heq | ⟨d, hd, heq⟩
      · rcases hor with hor | hor
        · exact .inl (heq.trans hor)
        · exact .inr ⟨e, List.mem_cons_self .., (heq.trans hor).symm⟩
      · exact .inr ⟨d, List.mem_cons_of_mem _ hd, heq⟩

theorem mem_servedEntries (ds : List Demand) (t : StreamTable) (n : StreamNo) (d : Demand) :
    d ∈ servedEntries ds t n ↔ d ∈ ds ∧ d.servedBy t = some n := by
  unfold servedEntries
  rw [List.mem_filter, beq_iff_eq]

/-- R53 on a stream beyond CLAIMING. -/
theorem wantedBy_spec (ds : List Demand) (t : StreamTable) (n : StreamNo) (x : Stream) :
    x.cls.rank ≤ (wantedBy ds t n x).rank
      ∧ (∀ d ∈ ds, d.servedBy t = some n → d.entry.cls.rank ≤ (wantedBy ds t n x).rank)
      ∧ (wantedBy ds t n x = x.cls ∨ ∃ d ∈ ds, d.servedBy t = some n ∧ d.entry.cls = wantedBy ds t n x) := by
  obtain ⟨hle, hall, heq⟩ := foldl_max_cls (servedEntries ds t n) x.cls
  refine ⟨hle, fun d hd hs => hall d ((mem_servedEntries ds t n d).mpr ⟨hd, hs⟩), heq.imp id ?_⟩
  rintro ⟨d, hd, he⟩
  obtain ⟨hm, hs⟩ := (mem_servedEntries ds t n d).mp hd
  exact ⟨d, hm, hs, he⟩

end Sys2Proof.Machine
end

