-- ==== Sys2Proof/Proofs/WantMakesStream.lean ====
section
/-! SUPPORT. A WANT heard, as far as the Stream Engine evaluates the demand of it: a station without other demand makes a
stream, refuses one, or has one return; demand that goes ends its streams (R46 to R53, R57). -/
namespace Sys2Proof.Machine

/-! ### What the Stream Engine sees of a WANT -/

theorem dropWants_nil (s : State) : dropWants [] s = s := by
  have hvec : vec4 (fun p => s.engine.refusals[p]) = s.engine.refusals := by
    ext1 i hi
    exact vec4_get _ ⟨i, hi⟩
  simp only [dropWants, List.map_nil, List.not_mem_nil, if_false, hvec]
  rfl

theorem loseSlots_same (a : Addr) (s : State) : loseSlots a s.tables.slots s = s := by
  have hlost : List.filter (lostSlot a s.tables.slots s.tables.slots) allStreams = [] :=
    List.filter_eq_nil_iff.mpr fun n _ => by simp [lostSlot_same]
  unfold loseSlots
  rw [hlost]
  rfl

/-- A change that leaves the copy empties records, and the demand is evaluated or not (R48, R49). -/
theorem engineTables_cases {applied : Option WantPos} {old : Tables} {s : State} (hs : old.slots = s.tables.slots) :
    (∃ lift, engineTables applied old s = evaluate lift applied (dropWants (wantsEmptied old.wants s.tables.wants) s))
      ∨ engineTables applied old s = dropWants (wantsEmptied old.wants s.tables.wants) s := by
  have hd : s.tables.slots = (dropWants (wantsEmptied old.wants s.tables.wants) s).tables.slots := by
    rw [tables_of_beside (dropWants_keeps _ (Keeps.refl s)).same]
  have hl : loseSlots s.addr old.slots (dropWants (wantsEmptied old.wants s.tables.wants) s)
      = dropWants (wantsEmptied old.wants s.tables.wants) s := by
    rw [hs, hd]
    exact loseSlots_same _ _
  unfold engineTables
  dsimp only
  rw [hl]
  split
  · exact .inl ⟨_, rfl⟩
  · exact .inr rfl

/-- What the sender of an item has given presence leaves the copy and the want table, where it has the tag of its entry. -/
theorem heardTables_sameDemand {s : State} {a : Addr} {tag : Word} (h : ∀ e, s.tables.roster[a] = some e → e.tag = tag) :
    (s.heardTables a tag).slots = s.tables.slots ∧ (s.heardTables a tag).wants = s.tables.wants := by
  obtain ⟨F, he, -⟩ := heardTables_eq s a tag
  rw [he]
  by_cases ha : a = s.addr
  · unfold presence
    rw [if_pos ha]
    exact ⟨rfl, rfl⟩
  · cases hr : s.tables.roster[a] with
    | none =>
      rw [presence_of_none (t := { s.tables with foreign := F }) ha hr]
      exact ⟨rfl, rfl⟩
    | some e =>
      rw [presence_of_same (t := { s.tables with foreign := F }) ha hr (h e hr)]
      exact ⟨rfl, rfl⟩

/-- A state in which the streams, their frames, the want table and the copy stand as in r: what a WANT of a sender with the tag
of its entry is applied in. -/
structure SameDemand (r u : State) : Prop where
  ready : u.Ready
  streams : SameStreams r u
  slots : u.tables.slots = r.tables.slots
  wants : u.tables.wants = r.tables.wants
  addr : u.addr = r.addr
  live : ∀ i, u.inputLive i = r.inputLive i

theorem exec_want {s : State} {rx : ControlRx} {f : ControlFrame} {es : List Quad} (hs : Settled s)
    (hr : readControl rx = .frame f) (hb : f.body = .want es) (ha : s.admits f.addr f.tag) (hfree : s.lineFree)
    (hroster : ∀ e, s.tables.roster[f.addr] = some e → e.tag = f.tag) :
    ∃ u, exec (.wantFrameReceived rx) s = .next (refreshPins (applyWant f.addr (wantContent es) u)) ∧ SameDemand s u := by
  have hexec := exec_heardBy_tagged (k := .want) hs hr (by rw [hb]; rfl) ha
  rw [hb] at hexec
  refine ⟨_, hexec, ?_⟩
  obtain ⟨hslots, hwants⟩ := heardTables_sameDemand hroster
  obtain ⟨F, htagged, -⟩ := tagged_eq s f.tag
  rw [htagged]
  have hsame := changeTables_sameStreams (s := s.frameEnded.setTables { s.tables with foreign := F }) hslots hwants
  have hkeeps := changeTables_keeps (s.heardTables f.addr f.tag) (s.frameEnded.setTables { s.tables with foreign := F })
  have htables := tables_of_beside hkeeps.same
  have haddr := addr_of_beside hkeeps.same
  have hready : (changeTables (s.heardTables f.addr f.tag)
      (s.frameEnded.setTables { s.tables with foreign := F })).Ready :=
    State.Ready.of_keeps (r := (s.frameEnded.setTables { s.tables with foreign := F }).setTables
      (s.heardTables f.addr f.tag)) ⟨ha.1, hfree⟩ hkeeps
  have hlive := inputLive_of_keeps hkeeps
  generalize changeTables (s.heardTables f.addr f.tag) _ = u at hsame htables haddr hready hlive
  exact ⟨hready, ⟨hsame.engine, hsame.waits⟩, by rw [htables]; exact hslots, by rw [htables]; exact hwants, haddr, hlive⟩

/-- The demand is the want table's, as far as it names cameras of the station. -/
theorem demand_congr {r s : State} (hw : s.tables.wants = r.tables.wants) (ha : s.addr = r.addr) : s.demand = r.demand := by
  unfold State.demand State.demandOf State.wantRecords
  rw [hw, ha]

theorem demand_of_keeps {r s : State} (h : Keeps r s) : s.demand = r.demand :=
  demand_congr (by rw [tables_of_beside h.same]) (addr_of_beside h.same)

theorem SameStreams.seen {r s : State} (h : SameStreams r s) (n : StreamNo) : s.seen n = r.seen n :=
  State.seen_eq_iff.mpr ⟨by rw [h.engine], h.waits _ rfl⟩

/-! ### A station whose demand has gone (R48, R52) -/

/-- Without demand, an evaluation makes of what stands at number n with its entry the same at each number (R52, R53). -/
def EndsAs (n : StreamNo) (e e' : Option Stream × Option SendKind) : Prop :=
  ∀ t live, wantEntry [] t n (settleEntry [] t live n e) = e'

/-- The stream once no demand is left for it (R52, R53). -/
def Stream.unwanted (x : Stream) : Stream := { x.drain .noDemand with wanted := x.cls, short := false }

theorem judged_nil (t : StreamTable) (n : StreamNo) (x : Stream) :
    x.judged [] t n = { x with wanted := x.cls, short := false } := by
  unfold Stream.judged wantedBy servedEntries
  simp

theorem served_nil (t : StreamTable) (n : StreamNo) : (servedEntries [] t n).isEmpty = true := rfl

theorem endsAs_open {n : StreamNo} {x : Stream} (h : x.state = .live ∨ x.state = .holding) (w : Option SendKind) :
    EndsAs n (some x, w) (some x.unwanted, some .release) := by
  intro t live
  rw [settleEntry_open _ _ _ _ _ h, if_pos (served_nil t n), wantEntry, if_neg (fun hc => StreamState.noConfusion hc), judged_nil]
  rfl

theorem endsAs_unwanted (n : StreamNo) (x : Stream) (w : Option SendKind) :
    EndsAs n (some x.unwanted, w) (some x.unwanted, w) := by
  intro t live
  rw [settleEntry_noDemand _ _ _ _ _ rfl, if_pos (served_nil t n), wantEntry, if_neg (fun hc => StreamState.noConfusion hc), judged_nil]
  rfl

theorem endsAs_claiming {n : StreamNo} {x : Stream} (h : x.state = .claiming) (w : Option SendKind) :
    EndsAs n (some x, w) (none, none) := by
  intro t live
  rw [settleEntry_claiming _ _ _ _ _ h, if_neg (by simp [anyEligible])]
  rfl

theorem endsAs_none (n : StreamNo) (w : Option SendKind) : EndsAs n (none, w) (none, w) := fun _ _ => rfl

/-- Without demand no stream stays LIVE (R52). -/
theorem not_live_noDemand (t : StreamTable) (live : Input → Bool) (n : StreamNo) (e : Option Stream × Option SendKind)
    {y : Stream} (hy : (wantEntry [] t n (settleEntry [] t live n e)).1 = some y) : y.state ≠ .live := by
  obtain ⟨o, w⟩ := e
  cases o with
  | none => exact absurd hy (by simp [settleEntry, wantEntry])
  | some x =>
    by_cases hc : x.state = .claiming
    · rw [endsAs_claiming hc w t live] at hy
      exact absurd hy (by simp)
    · by_cases ho : x.state = .live ∨ x.state = .holding
      · rw [endsAs_open ho w t live] at hy
        obtain rfl := Option.some.inj hy
        exact StreamState.noConfusion
      · have hst : settleEntry [] t live n (some x, w) = (some x, w) := by
          rcases settleEntry_cases [] t live n w hc with h | ⟨hs, -⟩ | ⟨hs, -⟩
          · exact h
          · rw [settleEntry_noDemand _ _ _ _ _ hs]
            rfl
          · exact absurd hs ho
        obtain ⟨z, hz, -, hzs⟩ := wantEntry_some [] t n x w
        rw [hst, hz] at hy
        obtain rfl := Option.some.inj hy
        rw [hzs]
        exact fun hl => ho (.inl hl)

/-- Where no settled stream is LIVE and short, no upgrade is sought: each number shows its own settling (R52, R53, R56). -/
theorem evaluateOnce_seen_noUpgrade {s : State} (hr : s.Ready) {lift : WantPos → Bool}
    (h : ∀ (m : StreamNo) (x : Stream), (s.settledEval lift).table[m] = some x → x.state = .live → x.short = false)
    (applied : Option WantPos) (n : StreamNo) : (evaluateOnce lift applied s).seen n =
      wantEntry s.demand (s.takenEval lift).table n (settleEntry s.demand (s.takenEval lift).table s.inputLive n
        ((s.takenEval lift).seen n (s.waits (.stream n)))) := by
  rw [evaluateOnce_seen hr, evaluation_seen, ← settledEval_seen hr.free]
  refine (seekUpgrade_seen (freeSlots s.tables.slots) (s.settledEval lift) n (s.waits (.stream n))).resolve_right ?_
  rintro ⟨-, m, x, hx, hlive, hshort, -⟩
  exact absurd ((h m x hx hlive).symm.trans hshort) (by decide)

/-- Without demand an evaluation makes no stream; at every number the stream ends or stays (R52, R53, R56). -/
theorem evaluateOnce_seen_noDemand {s : State} (hr : s.Ready) (hd : s.demand = []) (lift : WantPos → Bool)
    (applied : Option WantPos) (n : StreamNo) : (evaluateOnce lift applied s).seen n =
      wantEntry [] s.engine.table n (settleEntry [] s.engine.table s.inputLive n (s.seen n)) := by
  have htaken : s.takenEval lift = { table := s.engine.table, refusals := Vector.replicate 4 [], ops := [] } := by
    unfold State.takenEval
    rw [hd]
    rfl
  have hsettled : ∀ (m : StreamNo) (x : Stream), (s.settledEval lift).table[m] = some x → x.state ≠ .live := by
    intro m x hx
    have hm := Eval.table_of_seen (settledEval_seen hr.free lift m none)
    rw [hx, hd] at hm
    exact not_live_noDemand _ _ _ _ hm.symm
  rw [evaluateOnce_seen_noUpgrade hr (fun m x hx hl => absurd hl (hsettled m x hx)), htaken, hd]
  rfl

/-- Evaluated until it stands still (log 19). -/
theorem evaluate_noDemand {s : State} (hr : s.Ready) (hd : s.demand = []) {n : StreamNo} {e : Option Stream × Option SendKind}
    (hs : EndsAs n (s.seen n) e) (he : EndsAs n e e) (lift : WantPos → Bool) (applied : Option WantPos) :
    (evaluate lift applied s).Ready ∧ (evaluate lift applied s).demand = [] ∧ (evaluate lift applied s).seen n = e := by
  have hkept : ∀ (u : State) lift applied, u.Ready → u.demand = [] → EndsAs n (u.seen n) e →
      (evaluateOnce lift applied u).Ready ∧ (evaluateOnce lift applied u).demand = []
        ∧ (evaluateOnce lift applied u).seen n = e := by
    intro u lift applied hur hud hus
    refine ⟨evaluateOnce_ready hur _ _, ?_, ?_⟩
    · rw [demand_of_keeps (evaluateOnce_keeps lift applied (Keeps.refl u)), hud]
    · rw [evaluateOnce_seen_noDemand hur hud]
      exact hus _ _
  exact evaluate_induction (P := fun u => u.Ready ∧ u.demand = [] ∧ u.seen n = e)
    (fun u lift applied ⟨hur, hud, hus⟩ => hkept u lift applied hur hud (by rw [hus]; exact he)) lift applied
    (hkept s lift applied hr hd hs)

/-- The records of a sender dropped, where every record is its (R48). -/
theorem dropSender_all {w : Vector (Option WantRecord) 4} {a : Addr}
    (h : ∀ (p : WantPos) (r : WantRecord), w[p] = some r → r.sender = a) (p : WantPos) : (dropSender w a)[p] = none := by
  have hmap : (dropSender w a)[p] = (w[p]).bind fun x => if x.sender = a then none else some x := by
    unfold dropSender
    refine (Vector.getElem_map ..).trans ?_
    show (match w[p] with | some x => if x.sender = a then none else some x | none => none) = _
    cases w[p] <;> rfl
  rw [hmap]
  cases hp : w[p] with
  | none => rfl
  | some r => exact if_pos (h p r hp)

/-- A WANT without entries, where the sender's is the only demand: every stream ends (R48, R52). -/
theorem applyWant_empty {u : State} {a : Addr} (hr : u.Ready)
    (hall : ∀ (p : WantPos) (r : WantRecord), u.tables.wants[p] = some r → r.sender = a) {n : StreamNo}
    {e : Option Stream × Option SendKind} (hs : EndsAs n (u.seen n) e) (he : EndsAs n e e) :
    (applyWant a (some []) u).seen n = e := by
  let T : Tables := { u.tables with wants := dropSender u.tables.wants a }
  have hnone : ∀ v : State, v.tables = T → v.demand = [] := by
    intro v hv
    refine List.eq_nil_iff_forall_not_mem.mpr fun d hd => ?_
    obtain ⟨r, hw, -⟩ := mem_demand.mp hd
    rw [hv] at hw
    exact absurd ((dropSender_all hall d.pos).symm.trans hw) (by simp)
  have hrT : (u.setTables T).Ready := ⟨hr.acting, hr.free⟩
  have hready := ready_changeTables hr T
  have htables := changeTables_tables T u
  have hsame : SameStreams (engineTables none u.tables (u.setTables T)) (changeTables T u) :=
    handTables_sameStreams none u (u.setTables T)
  have hseen := dropWants_seen hrT (wantsEmptied u.tables.wants (u.setTables T).tables.wants) n
  have hkeeps := dropWants_keeps (wantsEmptied u.tables.wants (u.setTables T).tables.wants) (Keeps.refl (u.setTables T))
  have hcases := engineTables_cases (applied := none) (old := u.tables) (s := u.setTables T) rfl
  generalize dropWants (wantsEmptied u.tables.wants (u.setTables T).tables.wants) (u.setTables T) = v at hseen hkeeps hcases
  have hsv : EndsAs n (v.seen n) e := by
    rw [hseen]
    exact hs
  have hend : EndsAs n ((changeTables T u).seen n) e := by
    rw [hsame.seen]
    rcases hcases with ⟨lift, h⟩ | h <;> rw [h]
    · rw [(evaluate_noDemand (hrT.of_keeps hkeeps) (hnone v (tables_of_beside hkeeps.same)) hsv he lift none).2.2]
      exact he
    · exact hsv
  show (evaluateDemand (changeTables T u)).seen n = e
  unfold evaluateDemand
  exact (evaluate_noDemand hready (hnone _ htables) hend he _ _).2.2

end Sys2Proof.Machine
end

