-- ==== Sys2Proof/Proofs/DemandMakesStream.lean ====
section
/-! SUPPORT. One demand entry that meets no other: the stream made for it, the refusal, and the return of a draining stream
(R46, R49 to R53, R57), with what DEMAND_MAKES_STREAM states of them. -/
namespace Sys2Proof.Machine

theorem table_ext {t t' : StreamTable} (h : ∀ n : StreamNo, t[n] = t'[n]) : t = t' := by
  ext1 i hi
  exact h ⟨i, hi⟩

/-! ### A WANT of one entry, put where no record stands (R46, R47) -/

/-- The station's tables once a WANT of one entry stands at position 0 of the want table. -/
def State.wanting (s : State) (a : Addr) (w : WantEntry) : State :=
  s.setTables { s.tables with wants := s.tables.wants.set (0 : WantPos) (some { sender := a, age := 0, list := [w] }) }

section
variable {u : State} {a : Addr} {w : WantEntry} (hnone : ∀ p : WantPos, u.tables.wants[p] = none)
include hnone

theorem applyWant_single : applyWant a (some [w]) u = putWant 0 a [w] u := by
  have hsender : senderPosition u.tables.wants a = none :=
    List.find?_eq_none.mpr fun p _ => by simp [hnone p]
  have hfree : freePosition u.tables.wants = some 0 := List.find?_cons_of_pos (by rw [hnone 0]; rfl)
  unfold applyWant
  simp only [hsender, hfree]

/-- It is evaluated as applied (R57). -/
theorem applyWant_evaluates : ∃ lift, SameStreams (evaluate lift (some 0) (u.wanting a w)) (applyWant a (some [w]) u) := by
  have hemptied : wantsEmptied u.tables.wants (u.wanting a w).tables.wants = [] :=
    List.filter_eq_nil_iff.mpr fun p _ => by simp [hnone p]
  obtain ⟨lift, h⟩ := engineTables_evaluates (applied := some 0) (old := u.tables) (s := u.wanting a w) (.inr (.inr rfl))
  have hsame := handTables_sameStreams (some 0) u (u.wanting a w)
  have hlose : loseSlots (u.wanting a w).addr u.tables.slots (u.wanting a w) = u.wanting a w :=
    loseSlots_same (u.wanting a w).addr (u.wanting a w)
  rw [h, hemptied, dropWants_nil, hlose] at hsame
  rw [applyWant_single hnone]
  exact ⟨lift, hsame⟩

/-- It is the station's one demand, where its camera is one of the station's (R49). -/
theorem demand_wanting (hcarry : w.carry = false) (hcam : w.cam.addr = u.addr) :
    (u.wanting a w).demand = [{ pos := 0, input := w.cam.input, entry := w }] := by
  have hget : ∀ p : WantPos, (u.wanting a w).tables.wants[p]
      = if 0 = p then some { sender := a, age := 0, list := [w] } else none := by
    intro p
    rw [← hnone p]
    exact getElem_set_fin ..
  have hrecords : (u.wanting a w).wantRecords = [(0, { sender := a, age := 0, list := [w] })] := by
    unfold State.wantRecords allPositions
    simp only [hget]
    rfl
  have haddr : w.cam.addr = (u.wanting a w).addr := hcam
  unfold State.demand State.demandOf
  rw [hrecords]
  simp [hcarry, haddr]

end

/-! ### The entry taken (R51) -/

/-- An entry that no stream serves makes one at the lowest unused number, where its input is LIVE (R51). -/
theorem take_makes {held : Vector (List Refused) 4} {live : Input → Bool} {v : Eval} {d : Demand} {n : StreamNo}
    (hs : d.servedBy v.table = none) (hheld : refusalOf held[d.pos] d.entry.cam d.entry.cls = none)
    (hl : live d.input = true) (hn : unusedNumber v.table = some n) : v.take held live d = { v with
      table := v.table.set n (some (newStream d.input d.entry.cls d.entry.floor false))
      ops := v.ops ++ [.offer (.stream n) .claim] } := by
  unfold Eval.take
  rw [hheld]
  simp [hs, hl, hn]

/-- One whose input is not LIVE is refused (R51). -/
theorem take_refuses_down {held : Vector (List Refused) 4} {live : Input → Bool} {v : Eval} {d : Demand}
    (hs : d.servedBy v.table = none) (hheld : refusalOf held[d.pos] d.entry.cam d.entry.cls = none)
    (hl : live d.input = false) : v.take held live d = v.refuse d .cameraDown := by
  unfold Eval.take
  rw [hheld]
  simp [hs, hl]

theorem takenEval_single {s : State} {d : Demand} (hd : s.demand = [d]) (lift : WantPos → Bool) : s.takenEval lift =
    Eval.take (liftHeld lift s.engine.refusals) s.inputLive
      { table := s.engine.table, refusals := Vector.replicate 4 [], ops := [] } d := by
  unfold State.takenEval
  rw [hd]
  rfl

/-- No refusal stands before, and so none is held (R57). -/
theorem refusalOf_held_none {r : Vector (List Refused) 4} {p : WantPos} (h : r[p] = []) (lift : WantPos → Bool) (c : CamId)
    (k : SizeClass) : refusalOf (liftHeld lift r)[p] c k = none := by
  have hheld : (liftHeld lift r)[p] = [] := by
    refine (vec4_get _ p).trans ?_
    rw [h]
    exact ite_self _
  rw [hheld]
  rfl

/-! ### One stream that serves the one entry (R50 to R53) -/

theorem servedBy_alone {d : Demand} {t : StreamTable} {n : StreamNo} {x : Stream} (hx : t[n] = some x)
    (hother : ∀ m : StreamNo, m ≠ n → t[m] = none) (he : d.eligible x = true) : d.servedBy t = some n := by
  cases hs : d.servedBy t with
  | none => exact absurd ((servedBy_none_iff d t).mp hs n x hx) (by simp [he])
  | some m =>
    obtain ⟨y, hy, -⟩ := servedBy_some hs
    by_cases hm : m = n
    · rw [hm]
    · exact absurd ((hother m hm).symm.trans hy) (by simp)

/-- Entry d is the one demand, stream x stands at n alone with its frame waiting as k says, and nothing is refused. -/
structure ServesAlone (d : Demand) (n : StreamNo) (x : Stream) (k : Option SendKind) (s : State) : Prop where
  ready : s.Ready
  demand : s.demand = [d]
  stands : s.seen n = (some x, k)
  others : ∀ m : StreamNo, m ≠ n → s.engine.table[m] = none
  refused : s.engine.refusals = Vector.replicate 4 []

/-- One evaluation where, with the demand taken, one stream stands alone: its settling shows, and no other stream. -/
theorem evaluateOnce_alone {s : State} (hr : s.Ready) {d : Demand} (hd : s.demand = [d]) {lift : WantPos → Bool}
    {n : StreamNo} {x z : Stream} {k k' : Option SendKind}
    (hx : (s.takenEval lift).seen n (s.waits (.stream n)) = (some x, k))
    (hother : ∀ m : StreamNo, m ≠ n → (s.takenEval lift).table[m] = none)
    (hrefused : (s.takenEval lift).refusals = Vector.replicate 4 [])
    (hz : wantEntry [d] (s.takenEval lift).table n
      (settleEntry [d] (s.takenEval lift).table s.inputLive n (some x, k)) = (some z, k'))
    (hshort : z.state = .live → z.short = false) (applied : Option WantPos) :
    ServesAlone d n z k' (evaluateOnce lift applied s) := by
  have hempty : ∀ m : StreamNo, m ≠ n → ∀ w, wantEntry s.demand (s.takenEval lift).table m
      (settleEntry s.demand (s.takenEval lift).table s.inputLive m ((s.takenEval lift).seen m w))
        = (none, ((s.takenEval lift).seen m w).2) := by
    intro m hm w
    have hseen : (s.takenEval lift).seen m w = (none, ((s.takenEval lift).seen m w).2) := by
      rw [Eval.seen, hother m hm]
    rw [hseen]
    rfl
  have hsettled : ∀ (m : StreamNo) (y : Stream), (s.settledEval lift).table[m] = some y → y.state = .live →
      y.short = false := by
    intro m y hy
    have hm := Eval.table_of_seen (settledEval_seen hr.free lift m (s.waits (.stream m)))
    by_cases hmn : m = n
    · subst hmn
      rw [hx, hd, hz, hy] at hm
      obtain rfl := Option.some.inj hm
      exact hshort
    · rw [hempty m hmn, hy] at hm
      exact absurd hm (by simp)
  have hseen := evaluateOnce_seen_noUpgrade hr hsettled applied
  refine ⟨evaluateOnce_ready hr _ _, ?_, ?_, fun m hm => ?_, ?_⟩
  · rw [demand_of_keeps (evaluateOnce_keeps lift applied (Keeps.refl s)), hd]
  · rw [hseen, hx, hd, hz]
  · have h := hseen m
    rw [hempty m hm] at h
    exact (State.seen_eq_iff.mp h).1
  · rw [evaluateOnce_refusals, hrefused]

/-- One evaluation where the stream that stands alone serves the entry: it is settled and judged. -/
theorem evaluateOnce_served {s : State} (hr : s.Ready) {d : Demand} (hd : s.demand = [d]) {n : StreamNo} {x z : Stream}
    {k k' : Option SendKind} (hx : s.seen n = (some x, k)) (hother : ∀ m : StreamNo, m ≠ n → s.engine.table[m] = none)
    (he : d.eligible x = true)
    (hz : ∀ t, servedEntries [d] t n = [d] → wantEntry [d] t n (settleEntry [d] t s.inputLive n (some x, k)) = (some z, k'))
    (hshort : z.state = .live → z.short = false) (lift : WantPos → Bool) (applied : Option WantPos) :
    ServesAlone d n z k' (evaluateOnce lift applied s) := by
  obtain ⟨ht, hw⟩ := State.seen_eq_iff.mp hx
  have hserved := servedBy_alone ht hother he
  have htaken : s.takenEval lift = { table := s.engine.table, refusals := Vector.replicate 4 [], ops := [] } := by
    rw [takenEval_single hd]
    exact take_of_served (by rw [hserved]; rfl) _ _
  refine evaluateOnce_alone hr hd (x := x) (k := k) (z := z) ?_ ?_ ?_ ?_ hshort applied <;> rw [htaken]
  · rw [← hx]
    rfl
  · exact hother
  · refine hz _ ?_
    unfold servedEntries
    rw [List.filter_cons_of_pos (by rw [hserved]; exact beq_self_eq_true _)]
    rfl

/-- Evaluated until it stands still, one that its settling leaves is left (log 19). -/
theorem evaluate_servesAlone {s : State} {d : Demand} {n : StreamNo} {x : Stream} {k : Option SendKind}
    {lift : WantPos → Bool} {applied : Option WantPos} (h : ServesAlone d n x k (evaluateOnce lift applied s))
    (he : d.eligible x = true) (hz : ∀ t live, servedEntries [d] t n = [d] →
      wantEntry [d] t n (settleEntry [d] t live n (some x, k)) = (some x, k))
    (hshort : x.state = .live → x.short = false) : ServesAlone d n x k (evaluate lift applied s) :=
  evaluate_induction (P := ServesAlone d n x k)
    (fun u lift applied ⟨hr, hd, hx, hother, _⟩ =>
      evaluateOnce_served hr hd hx hother he (fun t ht => hz t u.inputLive ht) hshort lift applied) lift applied h

/-! ### What a WANT of one entry comes to -/

/-- The demand entry of a WANT at position 0. -/
def WantEntry.asDemand (w : WantEntry) : Demand := { pos := 0, input := w.cam.input, entry := w }

/-- A stream of the wanted camera and class that its entry may be served by (R50). -/
theorem eligible_own {w : WantEntry} {x : Stream} (hi : x.input = w.cam.input) (hk : x.cls = w.cls)
    (hh : x.state ≠ .draining .holdLimit) (hl : x.state ≠ .draining .lost) : w.asDemand.eligible x = true :=
  (eligible_iff _ _).mpr ⟨hi, hh, hl, .inl hk⟩

/-- A stream that serves one entry, of its own class, is wanted in that class (R53). -/
theorem judged_single {d : Demand} {t : StreamTable} {n : StreamNo} {x : Stream} (hs : servedEntries [d] t n = [d])
    (hk : x.cls = d.entry.cls) : x.judged [d] t n = { x with wanted := x.cls, short := false } := by
  have hw : wantedBy [d] t n x = x.cls := by
    unfold wantedBy
    rw [hs, List.foldl_cons, List.foldl_nil, ← hk]
    exact ite_self _
  unfold Stream.judged
  rw [hw, decide_eq_false (lt_irrefl _)]

/-- A stream in CLAIMING with an eligible entry stays (R52). -/
theorem settled_claiming {d : Demand} {x : Stream} (he : d.eligible x = true) (hc : x.state = .claiming) (t : StreamTable)
    (live : Input → Bool) (n : StreamNo) (k : Option SendKind) :
    wantEntry [d] t n (settleEntry [d] t live n (some x, k)) = (some x, k) := by
  rw [settleEntry_claiming _ _ _ _ _ hc, if_pos (by simp [anyEligible, he]), wantEntry, if_pos hc]

/-- A stream once demand has returned to it (R52, R53). -/
def Stream.returned (x : Stream) (live : Bool) : Stream := { x.resume live with wanted := x.cls, short := false }

theorem returned_open (x : Stream) (live : Bool) : (x.returned live).state = .live ∨ (x.returned live).state = .holding := by
  cases live
  · exact .inr rfl
  · exact .inl rfl

theorem returned_ne {x : Stream} {live : Bool} {st : StreamState} (hl : st ≠ .live) (hh : st ≠ .holding) :
    (x.returned live).state ≠ st := by
  rcases returned_open x live with h | h <;> rw [h]
  exacts [hl.symm, hh.symm]

section
variable {d : Demand} {t : StreamTable} {n : StreamNo} {x : Stream} (ht : servedEntries [d] t n = [d])
  (hk : x.cls = d.entry.cls)
include ht hk

/-- A stream that drains for want of demand returns as its entry is served (R52). -/
theorem settled_returning (hs : x.state = .draining .noDemand) (live : Input → Bool) (k : Option SendKind) :
    wantEntry [d] t n (settleEntry [d] t live n (some x, k)) = (some (x.returned (live x.input)), none) := by
  have hc : (x.resume (live x.input)).state ≠ .claiming :=
    returned_ne (x := x) (live := live x.input) StreamState.noConfusion StreamState.noConfusion
  rw [settleEntry_noDemand _ _ _ _ _ hs, ht, if_neg (by simp), wantEntry, if_neg hc,
    judged_single (x := x.resume (live x.input)) ht hk]
  rfl

/-- Once returned it stays (R52, R53). -/
theorem settled_returned (b : Bool) (live : Input → Bool) (k : Option SendKind) :
    wantEntry [d] t n (settleEntry [d] t live n (some (x.returned b), k)) = (some (x.returned b), k) := by
  rw [settleEntry_open _ _ _ _ _ (returned_open x b), ht, if_neg (by simp), wantEntry,
    if_neg (returned_ne StreamState.noConfusion StreamState.noConfusion), judged_single (x := x.returned b) ht hk]
  rfl

end

/-- A position whose WANT was applied and refused has its DENY offered (R57). -/
theorem evaluateOnce_denies {s : State} (hr : s.Ready) {lift : WantPos → Bool} {p : WantPos}
    (h : (s.takenEval lift).refusals[p] ≠ []) : (evaluateOnce lift (some p) s).waits (.deny p) = some .plain := by
  have hrefusals := evaluation_refusals s lift (some p)
  rw [evaluation_eq] at hrefusals
  rw [evaluateOnce_waits hr, evaluation_eq, waitAfter_append]
  generalize (s.settledEval lift).seekUpgrade (freeSlots s.tables.slots) = v at hrefusals
  have hv : v.refusals = (s.takenEval lift).refusals := hrefusals
  refine waitAfter_denyOps_offered (List.mem_map.mpr ⟨p, List.mem_filter.mpr ⟨?_, ?_⟩, rfl⟩) _
  · fin_cases p <;> decide
  · rw [hv, beq_self_eq_true, Bool.true_and, Bool.or_eq_true, Bool.not_eq_true']
    exact .inl (List.isEmpty_eq_false_iff.mpr h)

section
variable {u : State} {a : Addr} {w : WantEntry} (hr : u.Ready) (hnone : ∀ p : WantPos, u.tables.wants[p] = none)
  (hcarry : w.carry = false) (hcam : w.cam.addr = u.addr)
include hr hnone hcarry hcam

/-- A station without streams whose input is LIVE makes one, in CLAIMING (R51). -/
theorem applyWant_makes (hengine : u.engine = StreamEngine.reset) (hl : u.inputLive w.cam.input = true) :
    (applyWant a (some [w]) u).engine.table
        = (Vector.replicate 6 none).set 0 (some (newStream w.cam.input w.cls w.floor false))
      ∧ (applyWant a (some [w]) u).engine.refusals = Vector.replicate 4 []
      ∧ (applyWant a (some [w]) u).waits (.stream 0) = some .claim := by
  obtain ⟨lift, hsame⟩ := applyWant_evaluates (a := a) (w := w) hnone
  have hd : (u.wanting a w).demand = [w.asDemand] := demand_wanting hnone hcarry hcam
  have hrb : (u.wanting a w).Ready := ⟨hr.acting, hr.free⟩
  have hlb : (u.wanting a w).inputLive w.asDemand.input = true := hl
  have heb : (u.wanting a w).engine = StreamEngine.reset := hengine
  generalize u.wanting a w = b at hsame hd hrb hlb heb
  have he : w.asDemand.eligible (newStream w.cam.input w.cls w.floor false) = true :=
    eligible_own rfl rfl StreamState.noConfusion StreamState.noConfusion
  have hunserved : w.asDemand.servedBy StreamEngine.reset.table = none :=
    (servedBy_none_iff _ _).mpr fun n x hx => absurd ((Vector.getElem_replicate ..).symm.trans hx) (by simp)
  have hunused : unusedNumber StreamEngine.reset.table = some 0 := rfl
  have htaken : b.takenEval lift = { table := StreamEngine.reset.table.set 0 (some (newStream w.cam.input w.cls w.floor false))
                                     refusals := Vector.replicate 4 [], ops := [.offer (.stream 0) .claim] } := by
    rw [takenEval_single hd, heb]
    exact take_makes (v := { table := StreamEngine.reset.table, refusals := Vector.replicate 4 [], ops := [] }) hunserved
      (refusalOf_held_none rfl ..) hlb hunused
  have hfirst : ServesAlone w.asDemand 0 (newStream w.cam.input w.cls w.floor false) (some .claim)
      (evaluateOnce lift (some 0) b) := by
    refine evaluateOnce_alone hrb hd ?_ (fun m hm => ?_) ?_ (settled_claiming he rfl _ _ _ _) StreamState.noConfusion _
      <;> rw [htaken]
    · rfl
    · exact (getElem_set_fin ..).trans ((if_neg (Ne.symm hm)).trans (Vector.getElem_replicate ..))
  obtain ⟨-, -, hstands, hothers, hrefused⟩ := evaluate_servesAlone hfirst he
    (fun t live _ => settled_claiming he rfl t live 0 _) (fun h => StreamState.noConfusion h)
  obtain ⟨ht, hw⟩ := State.seen_eq_iff.mp hstands
  refine ⟨?_, by rw [hsame.engine, hrefused], (hsame.waits _ rfl).trans hw⟩
  rw [hsame.engine]
  refine table_ext fun m => Eq.trans ?_ (getElem_set_fin (i := (0 : StreamNo)) ..).symm
  by_cases hm : m = 0
  · rw [hm, if_pos rfl, ht]
  · rw [if_neg (Ne.symm hm), hothers m hm]
    exact (Vector.getElem_replicate ..).symm

/-- One whose input is not LIVE refuses it, and offers the DENY (R51, R57). -/
theorem applyWant_refuses (hengine : u.engine = StreamEngine.reset) (hl : u.inputLive w.cam.input = false) :
    (applyWant a (some [w]) u).engine.table = Vector.replicate 6 none
      ∧ (applyWant a (some [w]) u).engine.refusals
        = (Vector.replicate 4 []).set 0 [{ cam := w.cam, cls := w.cls, reason := .cameraDown }]
      ∧ (applyWant a (some [w]) u).waits (.deny 0) = some .plain := by
  obtain ⟨lift, hsame⟩ := applyWant_evaluates (a := a) (w := w) hnone
  have hd : (u.wanting a w).demand = [w.asDemand] := demand_wanting hnone hcarry hcam
  have hrb : (u.wanting a w).Ready := ⟨hr.acting, hr.free⟩
  have hlb : (u.wanting a w).inputLive w.asDemand.input = false := hl
  have heb : (u.wanting a w).engine = StreamEngine.reset := hengine
  generalize u.wanting a w = b at hsame hd hrb hlb heb
  have hempty : ∀ n : StreamNo, StreamEngine.reset.table[n] = none := fun n => Vector.getElem_replicate ..
  have hunserved : w.asDemand.servedBy StreamEngine.reset.table = none :=
    (servedBy_none_iff _ _).mpr fun n x hx => absurd ((hempty n).symm.trans hx) (by simp)
  have htaken : b.takenEval lift =
      { table := StreamEngine.reset.table, ops := []
        refusals := (Vector.replicate 4 []).set 0 [{ cam := w.cam, cls := w.cls, reason := .cameraDown }] } := by
    rw [takenEval_single hd, heb, take_refuses_down hunserved (refusalOf_held_none rfl ..) hlb]
    exact if_neg (by simp [WantEntry.asDemand, hcarry])
  have hsettled : ∀ (n : StreamNo) (k : Option SendKind), (b.settledEval lift).table[n] = none := by
    intro n k
    have h := Eval.table_of_seen (settledEval_seen hrb.free lift n k)
    rw [htaken] at h
    rw [h, Eval.seen, hempty n]
    rfl
  have hseen : ∀ n : StreamNo, (evaluateOnce lift (some 0) b).engine.table[n] = none := by
    intro n
    have h := evaluateOnce_seen_noUpgrade hrb
      (fun m x hx => absurd ((hsettled m none).symm.trans hx) (by simp)) (some 0) n
    rw [htaken, Eval.seen, hempty n] at h
    exact (State.seen_eq_iff.mp h).1
  have hrefusals := evaluateOnce_refusals lift (some 0) b
  rw [htaken] at hrefusals
  have hdeny : (evaluateOnce lift (some 0) b).waits (.deny 0) = some .plain := by
    refine evaluateOnce_denies hrb ?_
    rw [htaken]
    exact List.cons_ne_nil _ _
  have hstill : evaluate lift (some 0) b = evaluateOnce lift (some 0) b := by
    have hshape : tableShape (evaluateOnce lift (some 0) b).engine.table = tableShape b.engine.table := by
      rw [heb, table_ext fun n => (hseen n).trans (hempty n).symm]
    unfold evaluate
    exact if_pos hshape
  rw [hstill] at hsame
  refine ⟨?_, by rw [hsame.engine, hrefusals], (hsame.waits _ rfl).trans hdeny⟩
  rw [hsame.engine]
  exact table_ext fun n => (hseen n).trans (hempty n).symm

/-- A stream that drains for want of demand, alone in the station, returns as its input stands (R52, R53). -/
theorem applyWant_returns {n : StreamNo} {x : Stream} (hx : u.engine.table[n] = some x) (hi : x.input = w.cam.input)
    (hk : x.cls = w.cls) (hs : x.state = .draining .noDemand)
    (hothers : ∀ m : StreamNo, m ≠ n → u.engine.table[m] = none) :
    (applyWant a (some [w]) u).seen n = (some (x.returned (u.inputLive x.input)), none) := by
  obtain ⟨lift, hsame⟩ := applyWant_evaluates (a := a) (w := w) hnone
  have hd : (u.wanting a w).demand = [w.asDemand] := demand_wanting hnone hcarry hcam
  have hrb : (u.wanting a w).Ready := ⟨hr.acting, hr.free⟩
  have hxb : (u.wanting a w).seen n = (some x, u.waits (.stream n)) := State.seen_eq_iff.mpr ⟨hx, rfl⟩
  have hob : ∀ m : StreamNo, m ≠ n → (u.wanting a w).engine.table[m] = none := hothers
  have hlb : (u.wanting a w).inputLive = u.inputLive := rfl
  rw [← hlb]
  generalize u.wanting a w = b at hsame hd hrb hxb hob
  have hshort : (x.returned (b.inputLive x.input)).short = false := rfl
  have hfirst : ServesAlone w.asDemand n (x.returned (b.inputLive x.input)) none (evaluateOnce lift (some 0) b) :=
    evaluateOnce_served hrb hd hxb hob (eligible_own hi hk (by simp [hs]) (by simp [hs]))
      (fun t ht => settled_returning ht hk hs _ _) (fun _ => hshort) _ _
  have hend := evaluate_servesAlone hfirst
    (eligible_own hi hk (returned_ne StreamState.noConfusion StreamState.noConfusion)
      (returned_ne StreamState.noConfusion StreamState.noConfusion))
    (fun t live ht => settled_returned ht hk _ live none) (fun _ => hshort)
  rw [hsame.seen, hend.stands]

end

/-! ### The commands -/

section
variable {s : State} {rx : ControlRx} {f : ControlFrame} (hs : Settled s) (hr : readControl rx = .frame f)
  (ha : s.admits f.addr f.tag) (hfree : s.lineFree) (hroster : ∀ e, s.tables.roster[f.addr] = some e → e.tag = f.tag)
include hs hr ha hfree hroster

/-- A WANT of one entry, where no record stands: a stream, or a refusal (R46, R51, R57). -/
theorem want_makes_or_refuses {es : List Quad} {w : WantEntry} (hb : f.body = .want es)
    (hwants : s.tables.wants = Vector.replicate 4 none) (hengine : s.engine = StreamEngine.reset)
    (hes : wantContent es = some [w]) (hcarry : w.carry = false) (hcam : w.cam.addr = s.addr) :
    (s.inputLive w.cam.input = true → ∃ t, exec (.wantFrameReceived rx) s = .next t
      ∧ t.engine.table = (Vector.replicate 6 none).set 0 (some (newStream w.cam.input w.cls w.floor false))
      ∧ t.engine.refusals = Vector.replicate 4 []
      ∧ (queueFind t.queue (.stream 0)).map (fun e => e.kind) = some .claim)
    ∧ (s.inputLive w.cam.input = false → ∃ t, exec (.wantFrameReceived rx) s = .next t
      ∧ t.engine.table = Vector.replicate 6 none
      ∧ t.engine.refusals = (Vector.replicate 4 []).set 0 [{ cam := w.cam, cls := w.cls, reason := .cameraDown }]
      ∧ queueHolds t.queue (.deny 0) = true) := by
  obtain ⟨u, hexec, hu⟩ := exec_want hs hr hb ha hfree hroster
  rw [hes] at hexec
  have hnone : ∀ p : WantPos, u.tables.wants[p] = none := fun p => by
    rw [hu.wants, hwants]
    exact Vector.getElem_replicate ..
  have hue : u.engine = StreamEngine.reset := hu.streams.engine.trans hengine
  have huc : w.cam.addr = u.addr := hcam.trans hu.addr.symm
  refine ⟨fun hl => ?_, fun hl => ?_⟩ <;> rw [← hu.live] at hl
  · have hmade := applyWant_makes (a := f.addr) hu.ready hnone hcarry huc hue hl
    generalize applyWant f.addr (some [w]) u = t at hexec hmade
    exact ⟨_, hexec, hmade⟩
  · obtain ⟨htable, hrefusals, hdeny⟩ := applyWant_refuses (a := f.addr) hu.ready hnone hcarry huc hue hl
    generalize applyWant f.addr (some [w]) u = t at hexec htable hrefusals hdeny
    refine ⟨_, hexec, htable, hrefusals, ?_⟩
    rw [refreshPins_queue, queueHolds_eq_waits, hdeny]
    rfl

/-- A WANT without entries, from the only sender that wants: LIVE and HOLDING streams drain, CLAIMs are given up (R48, R52). -/
theorem want_of_none_ends {n : StreamNo} {x : Stream} (hb : f.body = .want [])
    (hall : ∀ (p : WantPos) (r : WantRecord), s.tables.wants[p] = some r → r.sender = f.addr)
    (hx : s.engine.table[n] = some x) :
    (x.state = .live ∨ x.state = .holding → ∃ t, exec (.wantFrameReceived rx) s = .next t
      ∧ t.engine.table[n] = some x.unwanted ∧ (queueFind t.queue (.stream n)).map (fun e => e.kind) = some .release)
    ∧ (x.state = .claiming → ∃ t, exec (.wantFrameReceived rx) s = .next t
      ∧ t.engine.table[n] = none ∧ queueHolds t.queue (.stream n) = false) := by
  obtain ⟨u, hexec, hu⟩ := exec_want hs hr hb ha hfree hroster
  have hes : wantContent [] = some [] := rfl
  rw [hes] at hexec
  have hseen : u.seen n = (some x, s.waits (.stream n)) := (hu.streams.seen n).trans (State.seen_eq_iff.mpr ⟨hx, rfl⟩)
  have huall : ∀ (p : WantPos) (r : WantRecord), u.tables.wants[p] = some r → r.sender = f.addr := by
    rw [hu.wants]
    exact hall
  refine ⟨fun ho => ?_, fun hc => ?_⟩
  · have hend : EndsAs n (u.seen n) (some x.unwanted, some .release) := by
      rw [hseen]
      exact endsAs_open ho _
    obtain ⟨ht, hw⟩ := State.seen_eq_iff.mp (applyWant_empty hu.ready huall hend (endsAs_unwanted n x _))
    generalize applyWant f.addr (some []) u = t at hexec ht hw
    exact ⟨_, hexec, ht, hw⟩
  · have hend : EndsAs n (u.seen n) (none, none) := by
      rw [hseen]
      exact endsAs_claiming hc _
    obtain ⟨ht, hw⟩ := State.seen_eq_iff.mp (applyWant_empty hu.ready huall hend (endsAs_none n _))
    generalize applyWant f.addr (some []) u = t at hexec ht hw
    refine ⟨_, hexec, ht, ?_⟩
    rw [refreshPins_queue, queueHolds_eq_waits, hw]
    rfl

/-- A WANT of its camera and class returns a stream that drains for want of demand (R52, R53). -/
theorem want_returns {es : List Quad} {w : WantEntry} {n : StreamNo} {x : Stream} (hb : f.body = .want es)
    (hwants : ∀ p : WantPos, s.tables.wants[p] = none) (hes : wantContent es = some [w]) (hcarry : w.carry = false)
    (hcam : w.cam = { addr := s.addr, input := x.input }) (hk : w.cls = x.cls) (hx : s.engine.table[n] = some x)
    (hdr : x.state = .draining .noDemand) (hothers : ∀ m : StreamNo, m ≠ n → s.engine.table[m] = none) :
    ∃ t, exec (.wantFrameReceived rx) s = .next t ∧ t.engine.table[n] = some (x.returned (s.inputLive x.input))
      ∧ queueHolds t.queue (.stream n) = false := by
  obtain ⟨u, hexec, hu⟩ := exec_want hs hr hb ha hfree hroster
  rw [hes] at hexec
  have hseen := applyWant_returns (a := f.addr) hu.ready (by rw [hu.wants]; exact hwants) hcarry
    (by rw [hcam, hu.addr]) (by rw [hu.streams.engine]; exact hx) (by rw [hcam]) hk.symm hdr
    (by rw [hu.streams.engine]; exact hothers)
  rw [hu.live] at hseen
  obtain ⟨ht, hw⟩ := State.seen_eq_iff.mp hseen
  generalize applyWant f.addr (some [w]) u = t at hexec ht hw
  refine ⟨_, hexec, ht, ?_⟩
  rw [refreshPins_queue, queueHolds_eq_waits, hw]
  rfl

end

/-- Settles O28: the stream or the refusal, the upgrade, which stream serves, the want of demand and its return, the wanted class. -/
theorem demandMakesStream : Obligations.DemandMakesStream := by
  refine ⟨fun s rx f es w hs hr hb ha hwants hengine hfree hroster hes hcarry hcam =>
      want_makes_or_refuses hs hr ha hfree hroster hb hwants hengine hes hcarry hcam,
    fun free v may hmay => ?_, eligible_iff, fun d t => ⟨servedBy_none_iff d t, fun n hn => ?_⟩,
    fun s rx f n x hs hr hb ha hfree hall hroster hx => want_of_none_ends hs hr ha hfree hroster hb hall hx,
    fun s rx f es w n x hs hr hb ha hfree hwants hroster hes hcarry hcam hk hx hdr hothers =>
      want_returns hs hr ha hfree hroster hb hwants hes hcarry hcam hk hx hdr hothers,
    fun ds served v n x hx => ⟨fun hc => settleWanted_claiming hx hc ds served, fun hc =>
      ⟨wantedBy ds served n x, settleWanted_judged hx hc ds served, wantedBy_spec ds served n x⟩⟩⟩
  · obtain rfl : may = MayUpgrade v.table free := funext fun n => propext (hmay n)
    exact ⟨fun hno n m x hm hfirst hx hunused hlow => seekUpgrade_makes hno hm hfirst hx hunused hlow, seekUpgrade_leaves⟩
  · obtain ⟨x, hx, he, hbest⟩ := servedBy_some hn
    exact ⟨x, hx, he, fun m y hy hey hmn => preferred_of_key (hbest m y hy hey hmn) hmn⟩

end Sys2Proof.Machine
end

