-- ==== Sys2Proof/Proofs/CameraFrames.lean ====
section
/-! SUPPORT. What a camera's sync pulse, its completed frame and its absence make of an input record, and what a completed
frame is to the standing frame request (R64 to R67, R70, R75, R76). -/
namespace Sys2Proof.Machine

/-! ### Sync pulses (R65) -/

/-- A pulse at an input record, field by field. -/
theorem InputRecord.pulse_eq (r : InputRecord) (kind : SyncKind) : r.pulse kind = { r with
    absence := 0, frameOpen := r.frameOpen || kind == .frame
    state := if r.state = .absent then .syncing else r.state, good := if r.state = .absent then 0 else r.good } := by
  unfold InputRecord.pulse
  by_cases h : r.state = .absent
  · simp only [if_pos h]
  · simp only [if_neg h]

theorem syncPulse_populated {s : State} {i : Input} {r : InputRecord} (ha : s.acting = true)
    (hr : s.intake.inputs[i] = some r) (kind : SyncKind) : syncPulse i kind s = setInput i (r.pulse kind) s := by
  unfold syncPulse
  simp only [ha, hr, if_true]

/-! ### The standing request of an input (R75, R76) -/

/-- A well-formed frame is handed to nothing where no request stands on its input. -/
theorem serveRequest_unasked {s : State} {i : Input} (h : ∀ q, s.intake.request = some q → q.input ≠ i) (f : FrameLines) :
    serveRequest i f s = s := by
  unfold serveRequest
  cases hq : s.intake.request with
  | none => rfl
  | some q => exact if_neg (h q hq)

/-- A well-formed frame is handed to the request of its input, which ends with its last one. -/
theorem serveRequest_asked {s : State} {i : Input} {q : FrameRequest} (hq : s.intake.request = some q) (hi : q.input = i)
    (f : FrameLines) : serveRequest i f s =
      (setRequest (if q.size ≤ q.handed + 1 then none else some { q with handed := q.handed + 1 }) s).setLens
        { s.lens with handed := some f } := by
  unfold serveRequest
  simp only [hq, if_pos hi]
  split <;> rfl

/-- A malformed frame changes nothing of a request where no RUN stands on its input. -/
theorem breakRequest_no_run {s : State} {i : Input} (h : ∀ q, s.intake.request = some q → q.input = i → q.run = false) :
    breakRequest i s = s := by
  unfold breakRequest
  cases hq : s.intake.request with
  | none => rfl
  | some q => exact if_neg fun ⟨hi, hrun⟩ => Bool.false_ne_true ((h q hq hi).symm.trans hrun)

/-- A malformed frame voids the frames handed to a RUN on its input, and leaves a SINGLE standing. -/
theorem breakRequest_asked {s : State} {i : Input} {q : FrameRequest} (hq : s.intake.request = some q) (hi : q.input = i) :
    breakRequest i s = (setRequest (if q.run then some { q with handed := 0 } else some q) s).setStore
      (if q.run then s.store.voidRun else s.store) := by
  cases hrun : q.run with
  | true =>
    unfold breakRequest
    simp only [hq, hi, hrun, and_self, if_true]
  | false =>
    rw [breakRequest_no_run fun p hp _ => Option.some.inj (hq.symm.trans hp) ▸ hrun]
    simp only [Bool.false_eq_true, if_false, ← hq]
    rfl

/-! ### Completed frames (R64 to R67) -/

/-- Well-formed: the configured lines and pixels, and a length within 10 % of the nominal frame time (R64). -/
theorem frameOk_iff (s : State) (f : CameraFrame) : s.frameOk f = true ↔
    f.lines.length = s.cfg.lineCount ∧ (∀ l ∈ f.lines, l.length = s.cfg.pixelCount)
      ∧ 900000 ≤ s.cfg.frameRate * f.length ∧ s.cfg.frameRate * f.length ≤ 1100000 := by
  unfold State.frameOk lengthOk
  simp [and_assoc]

section
variable {s : State} {i : Input} {r : InputRecord} {f : CameraFrame}
  (ha : s.acting = true) (hr : s.intake.inputs[i] = some r) (ho : r.frameOpen = true)
include ha hr ho

theorem frameCompleted_good (hok : s.frameOk f = true) : frameCompleted i f s =
    if r.state = .live then serveRequest i f.lines (setInput i (r.goodFrame f.lines) s)
    else setInput i (r.goodFrame f.lines) s := by
  unfold frameCompleted
  simp only [ha, hr, ho, hok, if_true]

theorem frameCompleted_bad (hbad : s.frameOk f = false) :
    frameCompleted i f s = breakRequest i (setInput i r.badFrame s) := by
  unfold frameCompleted
  simp only [ha, hr, ho, hbad, if_true, Bool.false_eq_true, if_false]

/-- A frame that is of no request changes the record of its input and nothing else. -/
theorem frameCompleted_unasked (h : ∀ q, s.intake.request = some q → q.input = i →
      r.state ≠ .live ∧ (s.frameOk f = false → q.run = false)) :
    frameCompleted i f s = setInput i (if s.frameOk f then r.goodFrame f.lines else r.badFrame) s := by
  cases hok : s.frameOk f with
  | true =>
    rw [frameCompleted_good ha hr ho hok, if_pos rfl]
    split
    · next hl => exact serveRequest_unasked (s := setInput ..) (fun q hq hi => (h q hq hi).1 hl) _
    · rfl
  | false =>
    rw [frameCompleted_bad ha hr ho hok, if_neg Bool.false_ne_true]
    exact breakRequest_no_run (s := setInput ..) fun q hq hi => (h q hq hi).2 hok

end

theorem InputRecord.goodFrame_live {r : InputRecord} (hl : r.state = .live) (f : FrameLines) :
    r.goodFrame f = { r with absence := 0, stall := 200000, newest := some f } := by
  unfold InputRecord.goodFrame
  rw [hl]
  rfl

theorem InputRecord.badFrame_live {r : InputRecord} (hl : r.state = .live) :
    r.badFrame = { r with absence := 0, malformed := r.malformed + 1#16 } := by
  unfold InputRecord.badFrame
  rw [hl]
  rfl

/-! ### Absence (R67, R69) -/

theorem cameraAbsence_due {s : State} {i : Input} {r : InputRecord} (hr : s.intake.inputs[i] = some r)
    (hs : r.state = .syncing ∨ r.state = .stalled) (h2 : 2000000 ≤ r.absence) : cameraAbsence i s =
      setInput i { r with state := .absent, good := 0, frameOpen := false, newest := none } s := by
  unfold cameraAbsence
  simp only [hr]
  exact if_pos ⟨hs, h2⟩

/-- FAULT stands while an input is ABSENT (R69). -/
theorem fault_of_absent {i : Input} {r : InputRecord} (hs : r.state = .absent) (s : State) :
    (refreshPins (setInput i r s)).pins.fault = true :=
  (faultLine_iff (setInput i r s)).mpr (.inr (.inr (.inr ⟨i, r, (getElem_set_fin ..).trans (if_pos rfl), hs⟩)))

/-! ### The commands -/

/-- Settles O32: the pulse, the frame with and without a standing request, the absence. -/
theorem cameraPulseFrameAbsence : Obligations.CameraPulseFrameAbsence := by
  refine ⟨fun s i kind r hs ha hr => ?_, fun s i f r good hs ha hr ho hgood => ?_,
    fun s i r hc hr hst h2 => ⟨_, ?_, fault_of_absent rfl s, rfl⟩⟩
  · rw [exec_act (f := syncPulse i kind) hs rfl, syncPulse_populated ha hr, InputRecord.pulse_eq]
    rfl
  · obtain rfl : good = s.frameOk f := Bool.eq_iff_iff.mpr (hgood.trans (frameOk_iff s f).symm)
    have hexec : exec (.cameraFrameCompleted i f) s = .next (refreshPins (frameCompleted i f s)) :=
      exec_act (f := frameCompleted i f) hs rfl
    refine ⟨fun h => ?_, fun q hq hi hl hok => ?_, fun q hq hi hl hbad => ?_⟩
    · rw [hexec, frameCompleted_unasked ha hr ho h]
      cases s.frameOk f with
      | true => cases hst : r.state <;> simp only [InputRecord.goodFrame, hst] <;> rfl
      | false => cases hst : r.state <;> simp only [InputRecord.badFrame, hst] <;> rfl
    · rw [hexec, frameCompleted_good ha hr ho hok, if_pos hl, serveRequest_asked (s := setInput ..) hq hi,
        InputRecord.goodFrame_live hl]
      rfl
    · rw [hexec, frameCompleted_bad ha hr ho hbad, breakRequest_asked (s := setInput ..) hq hi,
        InputRecord.badFrame_live hl]
      rfl
  · rw [exec_actClock (f := cameraAbsence i) hc rfl, cameraAbsence_due hr hst h2]

end Sys2Proof.Machine
end

