-- ==== Sys2Proof/Proofs/DoorWatch.lean ====
section
/-! SUPPORT. Door Watch: the line phase of a channel, what an accepted change of a door line makes of it, settling, and the
closing limit (R79 to R84, R86). -/
namespace Sys2Proof.Machine

/-! ### The line phase (R80) -/

/-- Settles O35: each row of the table is a branch of the line phase. -/
theorem linePhaseTable : Obligations.LinePhaseTable := by
  intro c
  unfold Channel.linePhase
  exact ⟨fun hs hr => by rw [hs, hr]; rfl, fun hs hr => by rw [hs, hr]; rfl, fun hs he => by rw [hs, he]; rfl,
    fun hs hr he => by rw [hs, hr, he]; rfl, fun hs hr he => by rw [hs, hr, he]; rfl⟩

/-- The lines call for neither CLOSING nor UNKNOWN (R80). -/
theorem Channel.linePhase_ne {c : Channel} {p : DoorPhase} (h : c.linePhase = some p) : p ≠ .closing ∧ p ≠ .unknown := by
  unfold Channel.linePhase Machine.linePhase at h
  repeat' split at h
  all_goals cases h
  all_goals decide

/-! ### The phase of a channel (R81, R82) -/

/-- A phase set starts the closing timer anew or stops it, unless CLOSING goes on (R82). -/
theorem Channel.setPhase_of_not_both {c : Channel} {p : DoorPhase} (h : ¬(p = .closing ∧ c.phase = .closing)) :
    c.setPhase p = { c with phase := p, settled := true, closing := 0 } := by
  unfold Channel.setPhase
  rw [if_neg h]

/-- CLOSING that goes on in a settled channel leaves it as it is (R82). -/
theorem Channel.setPhase_closing {c : Channel} (hs : c.settled = true) (h : c.phase = .closing) : c.setPhase .closing = c := by
  unfold Channel.setPhase
  rw [if_pos ⟨rfl, h⟩, ← hs, ← h]

/-- CLOSED-OUT brings CLOSING, but for a channel in FAULT (R81). -/
theorem phaseAfter_of_ne_fault {held : DoorPhase} (h : held ≠ .fault) (line : Option DoorPhase) :
    phaseAfter line held = line.getD .closing := by
  cases line with
  | some p => rfl
  | none => exact if_neg h

/-- A channel that has not settled keeps its phase over an accepted change (R84). -/
theorem Channel.follow_unsettled {c : Channel} (hs : c.settled = false) : c.follow = c := by
  unfold Channel.follow
  rw [hs]
  rfl

/-- A settled channel follows its lines (R81). -/
theorem Channel.follow_settled {c : Channel} (hs : c.settled = true) :
    c.follow = c.setPhase (phaseAfter c.linePhase c.phase) := if_pos hs

/-- It takes the phase that its lines call for (R81). -/
theorem Channel.follow_line {c : Channel} {p : DoorPhase} (hs : c.settled = true) (hl : c.linePhase = some p) :
    c.follow = { c with phase := p, closing := 0 } := by
  rw [follow_settled hs, hl, phaseAfter, setPhase_of_not_both fun h => (linePhase_ne hl).1 h.1, ← hs]

/-- Under CLOSED-OUT, CLOSING goes on (R81, R82). -/
theorem Channel.follow_closing {c : Channel} (hs : c.settled = true) (hl : c.linePhase = none) (hp : c.phase = .closing) :
    c.follow = c := by
  rw [follow_settled hs, hl, phaseAfter_of_ne_fault (by simp [hp])]
  exact setPhase_closing hs hp

/-- Under CLOSED-OUT, FAULT stays (R81; log 48). -/
theorem Channel.follow_fault {c : Channel} (hs : c.settled = true) (hl : c.linePhase = none) (hp : c.phase = .fault) :
    c.follow = { c with closing := 0 } := by
  have ha : phaseAfter c.linePhase c.phase = .fault := by
    rw [hl]
    exact if_pos hp
  rw [follow_settled hs, ha, setPhase_of_not_both (by simp), ← hs, ← hp]

/-- Under CLOSED-OUT, any other phase gives way to CLOSING (R81, R82). -/
theorem Channel.follow_closes {c : Channel} (hs : c.settled = true) (hl : c.linePhase = none) (hc : c.phase ≠ .closing)
    (hf : c.phase ≠ .fault) : c.follow = { c with phase := .closing, closing := 0 } := by
  rw [follow_settled hs, hl, phaseAfter_of_ne_fault hf]
  exact (setPhase_of_not_both fun h => hc h.2).trans (by rw [← hs]; rfl)

/-! ### One line of a channel -/

@[simp] theorem Channel.setFilter_settled (c : Channel) (l : DoorLine) (f : LineFilter) :
    (c.setFilter l f).settled = c.settled := by cases l <;> rfl

@[simp] theorem Channel.setFilter_phase (c : Channel) (l : DoorLine) (f : LineFilter) :
    (c.setFilter l f).phase = c.phase := by cases l <;> rfl

@[simp] theorem Channel.filter_setFilter (c : Channel) (l : DoorLine) (f : LineFilter) : (c.setFilter l f).filter l = f := by
  cases l <;> rfl

@[simp] theorem Channel.setFilter_setFilter (c : Channel) (l : DoorLine) (f g : LineFilter) :
    (c.setFilter l f).setFilter l g = c.setFilter l g := by cases l <;> rfl

/-- When a filter owes an acceptance (R79). -/
theorem LineFilter.due_iff {f : LineFilter} {level : Bool} {time : Nat} :
    f.due level time = true ↔ level ≠ f.accepted ∧ time ≤ f.differ := by simp [LineFilter.due]

/-- A filter that has not run out owes none (R79; log 3). -/
theorem LineFilter.due_of_lt {f : LineFilter} {time : Nat} (h : f.differ < time) (level : Bool) :
    f.due level time = false := Bool.eq_false_iff.mpr fun hd => absurd (due_iff.mp hd).2 (Nat.not_le.mpr h)

/-- A door line is accepted (R79, R81). -/
theorem doorAccepted_of_due {s : State} {ch : Chan} {l : DoorLine} {c : Channel} (hc : s.channels[ch] = some c)
    (hd : (c.filter l).due ((s.levels.door[ch]).level l) s.cfg.filterTime = true) :
    doorAccepted ch l s = putChannel ch c (c.setFilter l (c.filter l).accept).follow s := by
  unfold doorAccepted
  rw [hc]
  exact if_pos hd

/-- One whose filter owes no acceptance is not (R79; log 3). -/
theorem doorAccepted_of_not_due {s : State} {ch : Chan} {l : DoorLine} {c : Channel} (hc : s.channels[ch] = some c)
    (hd : (c.filter l).due ((s.levels.door[ch]).level l) s.cfg.filterTime = false) : doorAccepted ch l s = s := by
  unfold doorAccepted
  rw [hc]
  exact if_neg (Bool.eq_false_iff.mp hd)

/-- A channel put back in its phase offers nothing (R86). -/
theorem putChannel_same_phase {old new : Channel} (h : new.phase = old.phase) (ch : Chan) (s : State) :
    putChannel ch old new s = s.setChannels (s.channels.set ch (some new)) := if_pos h

/-- One put back in another phase offers its DOOR (R86). -/
theorem putChannel_other_phase {old new : Channel} (h : new.phase ≠ old.phase) (ch : Chan) (s : State) :
    putChannel ch old new s = offer (.door ch) .plain (s.setChannels (s.channels.set ch (some new))) := if_neg h

/-- An accepted line of a channel that has not settled (R81, R84). -/
theorem doorAccepted_unsettled {s : State} {ch : Chan} {l : DoorLine} {c : Channel} (hc : s.channels[ch] = some c)
    (hs : c.settled = false) (hd : (c.filter l).due ((s.levels.door[ch]).level l) s.cfg.filterTime = true) :
    doorAccepted ch l s = s.setChannels (s.channels.set ch (some (c.setFilter l (c.filter l).accept))) := by
  rw [doorAccepted_of_due hc hd, Channel.follow_unsettled (by simpa using hs), putChannel_same_phase (by simp)]

/-! ### Settling (R84) -/

/-- Every line has stood at its accepted value for the filter time (R84). -/
theorem Channel.steady_iff {c : Channel} {d : DoorLevels} {time : Nat} :
    c.steady d time = true ↔ ∀ l, d.level l = (c.filter l).accepted ∧ time ≤ (c.filter l).still := by
  have hall : ∀ l, l ∈ [DoorLine.rel, .shut, .edge] := fun l => by cases l <;> simp
  unfold Channel.steady
  rw [List.all_eq_true]
  simp [hall]

/-- A channel that has not settled is to settle as its lines are steady (R84). -/
theorem settleDue_of_unsettled {s : State} {ch : Chan} {c : Channel} (hc : s.channels[ch] = some c)
    (hs : c.settled = false) : s.settleDue ch = c.steady s.levels.door[ch] s.cfg.filterTime := by
  unfold State.settleDue
  rw [hc]
  simp [hs]

/-- What an UNKNOWN channel becomes as it settles (R81, R84). -/
theorem Channel.setPhase_settling {c : Channel} (hp : c.phase = .unknown) : c.setPhase (phaseAfter c.linePhase c.phase) =
    { c with settled := true, closing := 0, phase := c.linePhase.getD .closing } := by
  rw [setPhase_of_not_both (by simp [hp]), phaseAfter_of_ne_fault (by simp [hp])]

/-- A channel settles where that is due (R84). -/
theorem channelSettled_of_due {s : State} {ch : Chan} {c : Channel} (hc : s.channels[ch] = some c)
    (hd : s.settleDue ch = true) :
    channelSettled ch s = putChannel ch c (c.setPhase (phaseAfter c.linePhase c.phase)) s := by
  unfold channelSettled
  rw [hc]
  exact if_pos hd

/-- Where it is not due nothing changes (R84). -/
theorem channelSettled_of_not_due {s : State} {ch : Chan} (hd : s.settleDue ch = false) : channelSettled ch s = s := by
  unfold channelSettled
  rw [hd]
  split <;> rfl

/-! ### The closing limit (R83) -/

/-- The closing timer of a CLOSING channel is at the limit (R83). -/
theorem closingLimit_reached {s : State} {ch : Chan} {c : Channel} (hc : s.channels[ch] = some c)
    (hp : c.phase = .closing) (hl : s.cfg.closingLimit ≤ c.closing) : closingLimit ch s =
      offer (.door ch) .plain (s.setChannels (s.channels.set ch (some
        { c with phase := .fault, closing := 0, settled := true, faults := c.faults + 1#16 }))) := by
  unfold closingLimit
  rw [hc]
  exact (if_pos ⟨hp, hl⟩).trans (putChannel_other_phase (by simp [hp, Channel.setPhase]) ch s)

/-- It is not, or the channel is in another phase (R83; log 3). -/
theorem closingLimit_not_reached {s : State} {ch : Chan} {c : Channel} (hc : s.channels[ch] = some c)
    (h : c.phase ≠ .closing ∨ c.closing < s.cfg.closingLimit) : closingLimit ch s = s := by
  unfold closingLimit
  rw [hc]
  refine if_neg fun ⟨hp, hl⟩ => ?_
  exact h.elim (absurd hp) fun hlt => absurd hl (Nat.not_le.mpr hlt)

/-- Settles O36: the accepted line by whether the channel has settled, settling, and the closing limit. -/
theorem doorLineAcceptedSetsPhase : Obligations.DoorLineAcceptedSetsPhase := by
  refine ⟨fun s ch l c d e hs hc hset hlev htime hd he => ?_, fun s ch l c hs hc => ⟨fun hset hlev htime => ?_, fun h => ?_⟩,
    fun s ch c e hc hset hp hst he => ?_, fun s ch c hs hc => ⟨fun hp hl => ?_, fun h => ?_⟩⟩
  · have hd : c.setFilter l (c.filter l).accept = d := hd.symm
    have hds : d.settled = true := by simpa [← hd] using hset
    have hdp : d.phase = c.phase := by simp [← hd]
    have he : d.follow = e := by
      rw [he]
      split
      · next p _ hl => exact Channel.follow_line hds hl
      · next hl hp => exact Channel.follow_closing hds hl (hdp.trans hp)
      · next hl hp => exact Channel.follow_fault hds hl (hdp.trans hp)
      · next hl hnc hnf =>
        exact Channel.follow_closes hds hl (fun hp => hnc (hdp.symm.trans hp)) fun hp => hnf (hdp.symm.trans hp)
    rw [exec_actClock (f := doorAccepted ch l) hs rfl, doorAccepted_of_due hc (LineFilter.due_iff.mpr ⟨hlev, htime⟩), hd, he]
    rfl
  · rw [exec_actClock (f := doorAccepted ch l) hs rfl,
      doorAccepted_unsettled hc hset (LineFilter.due_iff.mpr ⟨hlev, htime⟩)]
    rfl
  · have hn : (c.filter l).due ((s.levels.door[ch]).level l) s.cfg.filterTime = false :=
      Bool.eq_false_iff.mpr fun hd => by
        obtain ⟨hlev, htime⟩ := LineFilter.due_iff.mp hd
        exact h.elim hlev fun hlt => absurd htime (Nat.not_le.mpr hlt)
    rw [exec_actClock (f := doorAccepted ch l) hs rfl, doorAccepted_of_not_due hc hn]
  · have he : c.setPhase (phaseAfter c.linePhase c.phase) = e := by
      rw [he, Channel.setPhase_settling hp]
      cases c.linePhase <;> rfl
    have hdue : s.settleDue ch = true := by
      rw [settleDue_of_unsettled hc hset]
      exact Channel.steady_iff.mpr hst
    show Host.Outcome.next (refreshPins (channelSettled ch s)) = _
    rw [channelSettled_of_due hc hdue, he]
    rfl
  · rw [exec_actClock (f := closingLimit ch) hs rfl, closingLimit_reached hc hp hl]
  · rw [exec_actClock (f := closingLimit ch) hs rfl, closingLimit_not_reached hc h]

end Sys2Proof.Machine
end

