-- ==== Sys2Proof/Proofs/LineEdges.lean ====
section
/-! SUPPORT. An edge of a vehicle line: the acceptance that the line's filter owes, and the restart of the filter (R79, R84, R114,
R148; logs 10, 82). -/
namespace Sys2Proof.Machine

/-! ### The acceptance that a filter owes -/

/-- No channel settles in a station that is quiet, and a door line that owes no acceptance is left (R79, R84). -/
theorem lineAccepted_door {s : State} {ch : Chan} {l : DoorLine} {c : Channel} (hs : OnClock s) (ha : s.acting = true)
    (hc : s.channels[ch] = some c) (hd : (c.filter l).differ < s.cfg.filterTime) : lineAccepted (.door ch l) s = s := by
  show channelSettled ch (doorAccepted ch l s) = s
  rw [doorAccepted_of_not_due hc (LineFilter.due_of_lt hd _), channelSettled_of_not_due (settleDue_of_quiet ha hs.1 ch)]

theorem lineAccepted_coupler {s : State} (hd : s.couplerFilter.differ < s.cfg.filterTime) :
    lineAccepted .coupler s = s :=
  if_neg fun h => Bool.false_ne_true ((LineFilter.due_of_lt hd _).symm.trans h.2.2)

theorem lineAccepted_cabOn {s : State} (hd : s.cab.cabOn.differ < s.cfg.filterTime) : lineAccepted .cabOn s = s :=
  if_neg fun h => Bool.false_ne_true ((LineFilter.due_of_lt hd _).symm.trans h.2)

theorem lineAccepted_reverse {s : State} (hd : s.cab.reverse.differ < s.cfg.filterTime) : lineAccepted .reverse s = s :=
  if_neg fun h => Bool.false_ne_true ((LineFilter.due_of_lt hd _).symm.trans h.2)

/-- A key whose filter owes no acceptance is neither pressed nor released (R148). -/
theorem keyAccepted_of_lt {s : State} {k : Key} (hd : (s.cab.key k).differ < s.cfg.filterTime) (on : Bool)
    (effect : State → State) : keyAccepted k on effect s = s := by
  refine if_neg fun h => ?_
  have hn : s.keyDue k on = false := by simp [State.keyDue, LineFilter.due_of_lt hd]
  exact Bool.false_ne_true (hn.symm.trans h)

theorem lineAccepted_key {s : State} {k : Key} (hd : (s.cab.key k).differ < s.cfg.filterTime) :
    lineAccepted (.key k) s = s := by
  have hk : ∀ (on : Bool) (f : State → State), keyAccepted k on f s = s := keyAccepted_of_lt hd
  cases k with
  | nextL => exact (congrArg (keyReleaseAccepted .nextL) (hk true _)).trans (hk false _)
  | nextR => exact (congrArg (keyReleaseAccepted .nextR) (hk true _)).trans (hk false _)
  | ack => exact (congrArg (keyReleaseAccepted .ack) (hk true _)).trans (hk false _)

/-- A channel that settles as its line is accepted takes the phase that its lines call for, and offers its DOOR (R84, R86;
log 82). -/
theorem lineAccepted_settles {s : State} {ch : Chan} {l : DoorLine} {c d : Channel} (hc : s.channels[ch] = some c)
    (hset : c.settled = false) (hp : c.phase = .unknown)
    (hdue : (c.filter l).due ((s.levels.door[ch]).level l) s.cfg.filterTime = true)
    (hd : c.setFilter l (c.filter l).accept = d) (hst : d.steady s.levels.door[ch] s.cfg.filterTime = true) :
    lineAccepted (.door ch l) s = offer (.door ch) .plain (s.setChannels (s.channels.set ch (some
      { d with settled := true, closing := 0, phase := d.linePhase.getD .closing }))) := by
  have hds : d.settled = false := by simpa [← hd] using hset
  have hdp : d.phase = .unknown := by simpa [← hd] using hp
  have hcd : (s.setChannels (s.channels.set ch (some d))).channels[ch] = some d :=
    (getElem_set_fin ..).trans (if_pos rfl)
  have hleaves : d.linePhase.getD .closing ≠ d.phase := by
    rw [hdp]
    cases hl : d.linePhase with
    | none => decide
    | some p => exact (Channel.linePhase_ne hl).2
  show channelSettled ch (doorAccepted ch l s) = _
  rw [doorAccepted_unsettled hc hset hdue, hd,
    channelSettled_of_due hcd ((settleDue_of_unsettled hcd hds).trans hst), Channel.setPhase_settling hdp,
    putChannel_other_phase hleaves, State.setChannels_channels, Vector.set_set]
  rfl

/-! ### The edge -/

/-- An edge to the level that stands is none (R79). -/
theorem lineEdge_standing {s : State} {line : VehicleLine} {level : Bool} (h : s.levels.get line = level) :
    lineEdge line level s = s := if_pos h

/-- An edge comes after the acceptance that its line owes, and starts the line's filter anew (R79; log 82). -/
theorem lineEdge_changes {s t : State} {line : VehicleLine} {level : Bool} (h : s.levels.get line = !level)
    (hl : line ≠ .service) (ht : lineAccepted line s = t) :
    lineEdge line level s = filterEdge line (t.setLevels (t.levels.set line level)) := by
  subst ht
  unfold lineEdge
  rw [if_neg (by simp [h])]
  split
  · exact absurd rfl hl
  · rfl

/-- An edge of SERVICE that asserts it (R114; log 10). -/
theorem lineEdge_service {s : State} (h : s.levels.get .service = false) :
    lineEdge .service true s = s.setLevels { s.levels with service := true } := by
  unfold lineEdge
  rw [if_neg (by simp [h])]
  rfl

/-- The filter of a configured channel's line starts anew (R79). -/
theorem filterEdge_door {s : State} {ch : Chan} {c : Channel} (hc : s.channels[ch] = some c) (l : DoorLine) (x : Levels) :
    filterEdge (.door ch l) (s.setLevels x) = (s.setLevels x).setChannels (s.channels.set ch (some
      (c.setFilter l { c.filter l with differ := 0, still := 0 }))) :=
  congrArg (fun o : Option Channel => (s.setLevels x).setChannels (s.channels.set ch
    (o.map fun y : Channel => y.setFilter l (y.filter l).edge))) hc

theorem offer_levels (sub : Subject) (k : SendKind) (s : State) : (offer sub k s).levels = s.levels := by
  have e := congrArg State.levels (offer_beside sub k s)
  exact e

theorem offer_channels (sub : Subject) (k : SendKind) (s : State) : (offer sub k s).channels = s.channels := by
  have e := congrArg State.channels (offer_beside sub k s)
  exact e

/-- After an offer the queue of a station that acts and sends no control frame holds the subject (R13). -/
theorem queueHolds_of_offer {s : State} (ha : s.acting = true) (ho : s.lineFree) (sub : Subject) (k : SendKind) :
    queueHolds (offer sub k s).queue sub = true := by
  rw [offer_eq ha (fun c hc => absurd hc (ho c))]
  exact queueHolds_offer ..

/-- An edge at the moment at which its filter runs out, in a channel that settles at the acceptance (R84; log 82). -/
theorem lineEdge_settles {s : State} {ch : Chan} {l : DoorLine} {level : Bool} {g : Channel}
    (h : s.levels.get (.door ch l) = !level)
    (hg : lineAccepted (.door ch l) s = offer (.door ch) .plain (s.setChannels (s.channels.set ch (some g)))) :
    lineEdge (.door ch l) level s =
      ((offer (.door ch) .plain (s.setChannels (s.channels.set ch (some g)))).setLevels
        (s.levels.set (.door ch l) level)).setChannels (s.channels.set ch (some
          (g.setFilter l { g.filter l with differ := 0, still := 0 }))) := by
  generalize hu : offer (.door ch) .plain (s.setChannels (s.channels.set ch (some g))) = u at hg ⊢
  have hl : u.levels = s.levels := by rw [← hu, offer_levels, State.setChannels_levels]
  have hc : u.channels = s.channels.set ch (some g) := by rw [← hu, offer_channels, State.setChannels_channels]
  have hget : u.channels[ch] = some g := by rw [hc, getElem_set_fin, if_pos rfl]
  rw [lineEdge_changes h (by simp) hg, filterEdge_door hget, hl, hc, Vector.set_set]

/-- Settles O34: the acceptance that each line owes, and then the edge. -/
theorem lineEdgeRestartsFilter : Obligations.LineEdgeRestartsFilter := by
  intro s line level hs ha
  have hexec : exec (.vehicleLineEdge line level) s = .next (refreshPins (lineEdge line level s)) :=
    exec_actClock (f := lineEdge line level) hs rfl
  refine ⟨fun h => by rw [hexec, lineEdge_standing h], fun h => ⟨?_, ?_, ?_, ?_, ?_, ?_, ?_⟩⟩
  · rintro ch l c rfl hc hd
    rw [hexec, lineEdge_changes h (by simp) (lineAccepted_door hs ha hc hd), filterEdge_door hc]
  · rintro rfl hd
    rw [hexec, lineEdge_changes h (by simp) (lineAccepted_coupler hd)]
    rfl
  · rintro rfl - hd
    rw [hexec, lineEdge_changes h (by simp) (lineAccepted_cabOn hd)]
    rfl
  · rintro rfl - hd
    rw [hexec, lineEdge_changes h (by simp) (lineAccepted_reverse hd)]
    rfl
  · rintro k rfl - hd
    rw [hexec, lineEdge_changes h (by simp) (lineAccepted_key hd)]
    rfl
  · rintro rfl rfl
    rw [hexec, lineEdge_service h]
  · rintro ch l c d rfl hc hset hp hlev htime hd hst
    have hacc : c.setFilter l (c.filter l).accept = d := by rw [hd, hlev]; rfl
    have hne : (s.levels.door[ch]).level l ≠ (c.filter l).accepted := by
      rw [← hlev, show (s.levels.door[ch]).level l = !level from h]
      simp
    have hedge := lineEdge_settles h (lineAccepted_settles hc hset hp (LineFilter.due_iff.mpr ⟨hne, htime⟩) hacc hst)
    refine ⟨_, hexec.trans (by rw [hedge]), rfl, ?_, fun ho => ?_⟩
    · rw [refreshPins_channels, State.setChannels_channels, hd]
      cases Channel.linePhase _ <;> cases l <;> rfl
    · rw [refreshPins_queue, State.setChannels_queue, State.setLevels_queue]
      exact queueHolds_of_offer (by exact ha) (by exact ho) ..

end Sys2Proof.Machine
end

