-- ==== Sys2Proof/Proofs/SpotlightQueue.lean ====
section
/-! SUPPORT. The spotlight queue over a change of the door table, and what the steps of the Composer leave beside its screens
(R93, R146, R147). -/
namespace Sys2Proof.Machine

/-! ### What views and panes leave of the Composer -/

/-- The Composer beside what a change of views and panes brings up to date: the screens, the carry entries, the WANT list and the
refusal set are blanked. Two Composers that are equal so hold the same spotlight queue, counters and warning list. -/
def Composer.beyondViews (c : Composer) : Composer :=
  { c with left := Screen.reset, right := Screen.reset, carry := [], wantList := [], refusals := [] }

/-- Composers that are equal beside their views hold one spotlight queue, and have counted as many overflows (R146). -/
theorem spotlight_of_beyondViews {c d : Composer} (h : c.beyondViews = d.beyondViews) :
    c.spotlight = d.spotlight ∧ c.spotlightOverflows = d.spotlightOverflows := by
  have hq := congrArg Composer.spotlight h
  have ho := congrArg Composer.spotlightOverflows h
  exact ⟨hq, ho⟩

@[simp] theorem setScreen_beyondViews (side : Side) (x : Screen) (s : State) :
    (s.setScreen side x).comp.beyondViews = s.comp.beyondViews := by cases side <;> rfl

@[simp] theorem settlePanes_beyondViews (s : State) : (settlePanes s).comp.beyondViews = s.comp.beyondViews := by
  by_cases ha : s.cab.state = .active
  · rw [settlePanes_comp ha]
    rfl
  · rw [settlePanes_inactive ha]

@[simp] theorem judgePanes_beyondViews (s : State) : (judgePanes s).comp.beyondViews = s.comp.beyondViews := rfl

@[simp] theorem reresolve_beyondViews (s : State) : (reresolve s).comp.beyondViews = s.comp.beyondViews := by
  unfold reresolve
  split <;> rfl

@[simp] theorem showLayout_beyondViews (side : Side) (lay : ShownLayout) (s : State) :
    (showLayout side lay s).comp.beyondViews = s.comp.beyondViews := by
  unfold showLayout
  split
  · rfl
  · unfold layoutSwitch
    rw [settlePanes_beyondViews, judgePanes_beyondViews]
    cases side <;> rfl

@[simp] theorem showKind_beyondViews (side : Side) (k : ViewKind) (s : State) :
    (showKind side k s).comp.beyondViews = s.comp.beyondViews := by simp [showKind]

@[simp] theorem raise_beyondViews (side : Side) (k : ViewKind) (s : State) :
    (raise side k s).comp.beyondViews = s.comp.beyondViews := by
  unfold raise
  dsimp only
  repeat' split
  all_goals simp

@[simp] theorem lingerEnd_beyondViews (side : Side) (s : State) :
    (lingerEnd side s).comp.beyondViews = s.comp.beyondViews := by
  unfold lingerEnd
  split <;> simp

@[simp] theorem clear_beyondViews (side : Side) (k : ViewKind) (s : State) :
    (clear side k s).comp.beyondViews = s.comp.beyondViews := by
  unfold clear
  dsimp only
  repeat' split
  all_goals simp

@[simp] theorem followSpotDoor_beyondViews (side : Side) (s : State) :
    (followSpotDoor side s).comp.beyondViews = s.comp.beyondViews := by
  unfold followSpotDoor
  split <;> simp

@[simp] theorem judgeSide_beyondViews (side : Side) (s : State) :
    (judgeSide side s).comp.beyondViews = s.comp.beyondViews := by
  unfold judgeSide
  refine foldl_of_step (P := fun t : State => t.comp.beyondViews = s.comp.beyondViews) _ _ (fun t k ht => ?_)
    (foldl_of_step (P := fun t : State => t.comp.beyondViews = s.comp.beyondViews) _ _ (fun t k ht => ?_)
      (followSpotDoor_beyondViews side s))
  all_goals split <;> simp [ht]

/-- Views and panes brought up to date leave the spotlight queue, the counters and the warning list. -/
@[simp] theorem settleViews_beyondViews (s : State) : (settleViews s).comp.beyondViews = s.comp.beyondViews := by
  unfold settleViews judgeViews
  split <;> simp

/-! ### The phases of the door table (R88) -/

/-- In a door table without a door twice, a door's entry gives its phase. -/
theorem phaseIn_of_mem {ds : List DoorEntry} (hn : (ds.map (fun d => d.id)).Nodup) {d : DoorEntry} (hd : d ∈ ds) :
    phaseIn ds d.id = some d.phase := by
  induction ds with
  | nil => exact absurd hd List.not_mem_nil
  | cons x xs ih =>
    obtain ⟨hx, hn⟩ := List.nodup_cons.mp hn
    rcases List.mem_cons.mp hd with rfl | hd
    · simp [phaseIn]
    · have hne : x.id ≠ d.id := fun h => hx (List.mem_map.mpr ⟨d, hd, h.symm⟩)
      simpa [phaseIn, hne] using ih hn hd

/-- A door has a phase in the tables that list it. -/
theorem phaseIn_eq_none {ds : List DoorEntry} {x : DoorId} : phaseIn ds x = none ↔ x ∉ ds.map (fun d => d.id) := by
  simp [phaseIn]

/-- A phase set leaves which doors the table lists (R88). -/
theorem setPhase_ids (id : DoorId) (p : DoorPhase) (ds : List DoorEntry) :
    (setPhase id p ds).map (fun d => d.id) = ds.map (fun d => d.id) := by
  unfold setPhase
  rw [List.map_map]
  refine List.map_congr_left fun d _ => ?_
  show (if d.id = id then { d with phase := p } else d).id = d.id
  split <;> rfl

/-- A phase set gives a phase to the same doors (R88). -/
theorem phaseIn_setPhase_eq_none {id x : DoorId} {p : DoorPhase} {ds : List DoorEntry} :
    phaseIn (setPhase id p ds) x = none ↔ phaseIn ds x = none := by
  rw [phaseIn_eq_none, phaseIn_eq_none, setPhase_ids]

/-! ### The spotlight queue over a change of the door table (R146, R147) -/

/-- The door that alone is set to OBSTRUCTED is the one that becomes so (R146). -/
theorem becomeObstructed_setPhase {ds : List DoorEntry} {id : DoorId} {p : DoorPhase}
    (hn : (ds.map (fun d => d.id)).Nodup) (hp : phaseIn ds id = some p) (hne : p ≠ .obstructed) :
    becomeObstructed ds (setPhase id .obstructed ds) = [id] := by
  have hid : id ∈ ds.map (fun d => d.id) := by
    by_contra h
    rw [phaseIn_eq_none.mpr h] at hp
    cases hp
  have hdoor : (setPhase id .obstructed ds).filter
      (fun d => d.phase == .obstructed && phaseIn ds d.id != some .obstructed) =
        setPhase id .obstructed (ds.filter (fun d => d.id == id)) := by
    unfold setPhase
    rw [List.filter_map]
    refine congrArg _ (List.filter_congr fun d hd => Bool.eq_iff_iff.mpr ?_)
    by_cases h : d.id = id
    · simp [h, hp, hne]
    · simp [h, phaseIn_of_mem hn hd]
  have honce : (ds.filter (fun d => d.id == id)).map (fun d => d.id) = (ds.map (fun d => d.id)).filter (· == id) := by
    rw [List.filter_map]
    rfl
  unfold becomeObstructed
  rw [hdoor, setPhase_ids, honce, List.filter_beq, List.count_eq_one_of_mem hn hid]
  rfl

/-- No door becomes OBSTRUCTED in a door table that stays as it is (R146). -/
theorem becomeObstructed_same {ds : List DoorEntry} (hn : (ds.map (fun d => d.id)).Nodup) :
    becomeObstructed ds ds = [] := by
  unfold becomeObstructed
  rw [List.map_eq_nil_iff, List.filter_eq_nil_iff]
  intro d hd
  simp [phaseIn_of_mem hn hd]

/-- Every door of the queue is not ACKED and stands in the door table. -/
def Composer.SpotsStand (c : Composer) (ds : List DoorEntry) : Prop :=
  ∀ d ∈ c.spotlight, d.acked = false ∧ phaseIn ds d.door ≠ none

/-- Doors that are not ACKED stay in the queue while the door table lists them (R147). -/
theorem spotlight_stays {c : Composer} {old new : List DoorEntry} (h : c.SpotsStand new) :
    c.spotlight.filter (spotStays old new) = c.spotlight := by
  refine List.filter_eq_self.mpr fun d hd => ?_
  obtain ⟨hack, hin⟩ := h d hd
  obtain ⟨p, hp⟩ := Option.ne_none_iff_exists'.mp hin
  simp [spotStays, hp, hack]

/-- The doors that become OBSTRUCTED join such a queue (R146). -/
theorem spotlightChange_standing {c : Composer} {old new : List DoorEntry} (h : c.SpotsStand new) :
    spotlightChange old new c = (becomeObstructed old new).foldl spotJoin c := by
  unfold spotlightChange
  rw [spotlight_stays h]

/-- A door joins a queue with room that does not hold it (R146). -/
theorem spotJoin_room {c : Composer} {id : DoorId} (hn : ∀ d ∈ c.spotlight, d.door ≠ id) (hl : c.spotlight.length < 8) :
    spotJoin c id = { c with spotlight := c.spotlight ++ [{ door := id, acked := false }] } := by
  unfold spotJoin
  rw [if_neg (by simpa using hn), if_pos hl]

/-- It is counted where eight doors stand in the queue (R146). -/
theorem spotJoin_full {c : Composer} {id : DoorId} (hn : ∀ d ∈ c.spotlight, d.door ≠ id) (hl : 8 ≤ c.spotlight.length) :
    spotJoin c id = { c with spotlightOverflows := c.spotlightOverflows + 1#16 } := by
  unfold spotJoin
  rw [if_neg (by simpa using hn), if_neg (Nat.not_lt.mpr hl)]
  rfl

/-! ### A change of the tables that touches no stream and no cab record -/

/-- It is the Composer's alone (R45, R124, R133). -/
theorem changeTables_composerAlone {s : State} {t : Tables} (hs : t.slots = s.tables.slots)
    (hw : t.wants = s.tables.wants) (hr : t.cabRecord = s.tables.cabRecord) :
    changeTables t s = composerTables s.tables (s.setTables t) := by
  have heng : engineTables none s.tables (s.setTables t) = s.setTables t :=
    engineTables_quiet (s := s.setTables t) hs.symm hw.symm
  have hrec : s.tables.cabRecord = (s.setTables t).tables.cabRecord := hr.symm
  have hname : s.namesSelf = (s.setTables t).namesSelf := by
    unfold State.namesSelf
    rw [hrec]
    rfl
  unfold changeTables handTables
  rw [heng, hrec, hname, cabRecordChanged_same]

/-- What the Composer of an active cab makes of it: Cab Control stays, and the spotlight queue follows the door table (R146). -/
theorem composerTables_spotlight {s : State} (hc : s.isCab = true) (ha : s.cab.state = .active) (old : Tables) :
    (composerTables old s).cab = s.cab ∧ ∃ c : Composer, c.spotlight = s.comp.spotlight
      ∧ c.spotlightOverflows = s.comp.spotlightOverflows
      ∧ (composerTables old s).comp.beyondViews = (spotlightChange old.doors s.tables.doors c).beyondViews := by
  obtain ⟨x, hx, hxc, -, -⟩ := composerTables_active hc ha old
  refine ⟨by rw [hx, (settleViews_arranged (Arranged.refl x)).cab, hxc], ?_⟩
  have hi : (settleWarnings s).isActive = true := by
    show (s.cab.state == .active) = true
    simp [ha]
  unfold composerTables
  rw [if_pos hc]
  dsimp only
  rw [if_pos hi, settleViews_beyondViews, State.setComp_comp]
  refine ⟨_, ?_, ?_, rfl⟩ <;> rfl

/-- What a change of the tables makes of an active cab's spotlight queue, if it touches no stream and no cab record. -/
theorem changeTables_spotlight {s : State} {t : Tables} (hc : s.isCab = true) (ha : s.cab.state = .active)
    (hs : t.slots = s.tables.slots) (hw : t.wants = s.tables.wants) (hr : t.cabRecord = s.tables.cabRecord) :
    (changeTables t s).cab = s.cab ∧ ∃ c : Composer, c.spotlight = s.comp.spotlight
      ∧ c.spotlightOverflows = s.comp.spotlightOverflows
      ∧ (changeTables t s).comp.beyondViews = (spotlightChange s.tables.doors t.doors c).beyondViews := by
  rw [changeTables_composerAlone hs hw hr]
  exact composerTables_spotlight (s := s.setTables t) hc ha s.tables

/-! ### The DOOR heard -/

/-- The tables that an item leaves, if its sender has an entry with its tag, but for the roster and the foreign tags (R29). -/
theorem heardTables_kept {s : State} {a : Addr} {tag : Word} {e : RosterEntry} (he : s.tables.roster[a] = some e)
    (ht : e.tag = tag) : ∃ F ro, s.heardTables a tag = { s.tables with foreign := F, roster := ro } := by
  by_cases ha : a = s.addr
  · obtain ⟨F, hF, -⟩ := heardTables_eq s a tag
    exact ⟨F, s.tables.roster, hF.trans (if_pos ha)⟩
  · exact ⟨_, _, heardTables_same ha he ht⟩

/-- An item of a sender that keeps its entry leaves an active cab so, and its spotlight queue as it stands (R29, R147). -/
theorem heardSender_spotlight {s u : State} {a : Addr} {tag : Word} {e : RosterEntry} (hc : s.isCab = true)
    (ha : s.cab.state = .active) (he : s.tables.roster[a] = some e) (ht : e.tag = tag)
    (hn : (s.tables.doors.map (fun d => d.id)).Nodup) (hq : s.comp.SpotsStand s.tables.doors)
    (hu : changeTables (s.heardTables a tag) (s.frameEnded.tagged tag) = u) :
    u.isCab = true ∧ u.cab.state = .active ∧ u.tables.doors = s.tables.doors ∧ u.comp.spotlight = s.comp.spotlight
      ∧ u.comp.spotlightOverflows = s.comp.spotlightOverflows := by
  obtain ⟨F, ro, hT⟩ := heardTables_kept he ht
  obtain ⟨G, hv, -⟩ := tagged_eq s tag
  rw [hT, hv] at hu
  obtain ⟨hcab, c, hcq, hco, hcu⟩ := changeTables_spotlight (t := { s.tables with foreign := F, roster := ro })
    (s := s.frameEnded.setTables { s.tables with foreign := G }) hc ha rfl rfl rfl
  have hst : c.SpotsStand s.tables.doors := fun d hd => hq d (hcq ▸ hd)
  rw [State.setTables_tables, spotlightChange_standing hst, becomeObstructed_same hn, hu] at hcu
  obtain ⟨h1, h2⟩ := spotlight_of_beyondViews hcu
  refine ⟨?_, ?_, by rw [← hu, changeTables_tables], h1.trans hcq, h2.trans hco⟩
  · rw [← hu]
    exact (isCab_congr (cfg_of_beside (changeTables_beside _ _))).trans hc
  · rw [← hu, hcab]
    exact ha

/-- A DOOR with OBSTRUCTED for a door of another phase, at an active cab whose queue stands and does not hold the door. -/
theorem applyDoor_obstructed {u : State} {a : Addr} {ch : Chan} {p : DoorPhase} (hc : u.isCab = true)
    (ha : u.cab.state = .active) (hp : phaseIn u.tables.doors { addr := a, chan := ch } = some p) (hne : p ≠ .obstructed)
    (hn : (u.tables.doors.map (fun d => d.id)).Nodup) (hq : u.comp.SpotsStand u.tables.doors) :
    ∃ c : Composer, c.spotlight = u.comp.spotlight ∧ c.spotlightOverflows = u.comp.spotlightOverflows
      ∧ (applyDoor a (some (ch, .obstructed)) u).comp.beyondViews = (spotJoin c { addr := a, chan := ch }).beyondViews := by
  obtain ⟨-, c, hcq, hco, hcu⟩ := changeTables_spotlight (s := u)
    (t := { u.tables with doors := setPhase { addr := a, chan := ch } .obstructed u.tables.doors }) hc ha rfl rfl rfl
  have hst : c.SpotsStand (setPhase { addr := a, chan := ch } .obstructed u.tables.doors) := fun d hd =>
    (hq d (hcq ▸ hd)).imp_right (mt phaseIn_setPhase_eq_none.mp)
  rw [spotlightChange_standing hst, becomeObstructed_setPhase hn hp hne] at hcu
  exact ⟨c, hcq, hco, hcu⟩

/-- Settles O52: presence leaves the queue as it stands, and then the door joins it or is counted. -/
theorem obstructedDoorJoinsSpotlight : Obligations.ObstructedDoorJoinsSpotlight := by
  intro s rx f cb pb ch e id hs hr hf hadm hcont hid hroster htag _ hcab hact hphase hn hspots
  subst hid
  obtain ⟨p, hp, hne⟩ := hphase
  have hq : s.comp.SpotsStand s.tables.doors := fun d hd => (hspots d hd).imp_right And.right
  have hexec := exec_heardBy_tagged (k := .door) hs hr (by rw [hf]; rfl) hadm
  rw [hf, applyBody, hcont] at hexec
  generalize hu : changeTables (s.heardTables f.addr f.tag) (s.frameEnded.tagged f.tag) = u at hexec
  obtain ⟨huc, hua, hud, huq, huo⟩ := heardSender_spotlight hcab hact hroster htag hn hq hu
  have hqu : u.comp.SpotsStand u.tables.doors := fun d hd => by
    rw [hud]
    exact hq d (huq ▸ hd)
  obtain ⟨c, hcq, hco, hcu⟩ := applyDoor_obstructed huc hua (by rw [hud]; exact hp) hne (by rw [hud]; exact hn) hqu
  have hcs : c.spotlight = s.comp.spotlight := hcq.trans huq
  have habsent : ∀ d ∈ c.spotlight, d.door ≠ { addr := f.addr, chan := ch } := fun d hd => (hspots d (hcs ▸ hd)).2.1
  obtain ⟨hjq, hjo⟩ := spotlight_of_beyondViews hcu
  refine ⟨_, hexec, fun hl => ?_, fun hl => ?_⟩ <;> rw [refreshPins_comp, hjq, hjo]
  · rw [spotJoin_room habsent (by rw [hcs]; exact hl), hcs]
    exact ⟨rfl, hco.trans huo⟩
  · rw [spotJoin_full habsent (by rw [hcs]; exact hl)]
    exact ⟨hcs, congrArg (· + 1#16) (hco.trans huo)⟩

end Sys2Proof.Machine
end

