-- ==== Sys2Proof/Proofs/LensRecords.lean ====
section
/-! SUPPORT. What an offer leaves of the blocks of the lenses, and the changes of a lens record (R97, R102 to R105). -/
namespace Sys2Proof.Machine

/-! ### What an offer leaves -/

@[simp] theorem offer_lens (sub : Subject) (k : SendKind) (s : State) : (offer sub k s).lens = s.lens :=
  (measure_of_beside (offer_beside sub k s)).2.1

@[simp] theorem offer_store (sub : Subject) (k : SendKind) (s : State) : (offer sub k s).store = s.store :=
  (measure_of_beside (offer_beside sub k s)).1

@[simp] theorem offer_intake (sub : Subject) (k : SendKind) (s : State) : (offer sub k s).intake = s.intake :=
  (measure_of_beside (offer_beside sub k s)).2.2.2

@[simp] theorem offer_tables (sub : Subject) (k : SendKind) (s : State) : (offer sub k s).tables = s.tables :=
  tables_of_beside (offer_beside sub k s)

@[simp] theorem offer_confMem (sub : Subject) (k : SendKind) (s : State) : (offer sub k s).confMem = s.confMem := by
  have e := congrArg State.confMem (offer_beside sub k s)
  exact e

/-! ### A lens record put back (R105) -/

/-- The lens record that is put back is the input's, and no other lens record changes. -/
@[simp] theorem putLens_lens (i : Input) (old new : LensRecord) (s : State) :
    (putLens i old new s).lens = { s.lens with records := s.lens.records.set i (some new) } := by
  unfold putLens
  dsimp only
  split
  · rfl
  · rw [offer_lens]
    rfl

/-- Where grade, HELD and UNBASELINED stay, nothing is offered (R105). -/
theorem putLens_quiet {old new : LensRecord} (hg : new.grade = old.grade) (hh : new.held = old.held)
    (hu : new.unbaselined = old.unbaselined) (i : Input) (s : State) :
    putLens i old new s = s.setLens { s.lens with records := s.lens.records.set i (some new) } :=
  if_pos ⟨hg, hh, hu⟩

/-- Where one of them changes, the input's LENS is offered (R105). -/
theorem putLens_offers {old new : LensRecord}
    (h : ¬(new.grade = old.grade ∧ new.held = old.held ∧ new.unbaselined = old.unbaselined)) (i : Input) (s : State) :
    putLens i old new s
      = offer (.lens i) .plain (s.setLens { s.lens with records := s.lens.records.set i (some new) }) :=
  if_neg h

/-- A lens record that is put back changes nothing else, but for an offer (R105). -/
theorem putLens_cases (i : Input) (old new : LensRecord) (s : State) :
    putLens i old new s = s.setLens { s.lens with records := s.lens.records.set i (some new) }
    ∨ putLens i old new s
      = offer (.lens i) .plain (s.setLens { s.lens with records := s.lens.records.set i (some new) }) := by
  unfold putLens
  dsimp only
  split
  · exact .inl rfl
  · exact .inr rfl

/-- Putting a lens record back leaves the Baseline Store, the Camera Intake, the tables, the streams and the configuration
memory. -/
theorem putLens_rest (i : Input) (old new : LensRecord) (s : State) : (putLens i old new s).store = s.store
    ∧ (putLens i old new s).intake = s.intake ∧ (putLens i old new s).tables = s.tables
    ∧ (putLens i old new s).engine = s.engine ∧ (putLens i old new s).confMem = s.confMem := by
  rcases putLens_cases i old new s with h | h <;> rw [h]
  · exact ⟨rfl, rfl, rfl, rfl, rfl⟩
  · simp

/-- Changing the lens record of a populated input puts the changed record back. -/
theorem changeLens_of_record {i : Input} {r : LensRecord} {s : State} (hr : s.lens.records[i] = some r)
    (f : LensRecord → LensRecord) : changeLens i f s = putLens i r (f r) s := by
  unfold changeLens
  simp only [hr]

/-! ### Grade and HELD (R97, R102, R103) -/

/-- A grade that steps down from a grade above CLEAN is another one (R102). -/
theorem Grade.stepDown_ne {g : Grade} (h : g ≠ .clean) : g.stepDown ≠ g := by
  cases g with
  | clean => exact absurd rfl h
  | watch | soiled | obscured => exact Grade.noConfusion

/-- A confirmed rise to another grade (R102). -/
theorem gradeRise_due {s : State} {i : Input} {r : LensRecord} {g : Grade} (hr : s.lens.records[i] = some r)
    (hc : s.cfg.soiling.riseConfirm ≤ r.rise) (hp : r.peak = some g) (hg : g ≠ r.grade) :
    gradeRise i s = offer (.lens i) .plain (s.setLens { s.lens with
      records := s.lens.records.set i (some { r with grade := g, rise := 0, fall := 0, peak := none }) }) := by
  have hrise : (if r.riseDue s.cfg.soiling then r.riseGrade else r)
      = { r with grade := g, rise := 0, fall := 0, peak := none } := by
    rw [if_pos (show r.riseDue s.cfg.soiling = true from decide_eq_true hc), LensRecord.riseGrade, hp]
    rfl
  unfold gradeRise
  rw [changeLens_of_record hr, hrise, putLens_offers (fun h => hg h.1)]

/-- A confirmed fall from a grade above CLEAN (R102). -/
theorem gradeFall_due {s : State} {i : Input} {r : LensRecord} (hr : s.lens.records[i] = some r)
    (hc : s.cfg.soiling.fallConfirm ≤ r.fall) (hg : r.grade ≠ .clean) :
    gradeFall i s = offer (.lens i) .plain (s.setLens { s.lens with
      records := s.lens.records.set i (some { r with grade := r.grade.stepDown, fall := 0 }) }) := by
  have hfall : (if r.fallDue s.cfg.soiling then r.fallGrade else r) = r.fallGrade := if_pos (decide_eq_true hc)
  unfold gradeFall
  rw [changeLens_of_record hr, hfall, putLens_offers (fun h => Grade.stepDown_ne hg h.1)]
  rfl

/-- A quiet count of 10 where HELD is clear (R97, R103). -/
theorem quietFull_due {s : State} {i : Input} {r : LensRecord} (hr : s.lens.records[i] = some r) (hq : 10 ≤ r.quiet)
    (hh : r.held = false) : quietFull i s = offer (.lens i) .plain (s.setLens { s.lens with
      records := s.lens.records.set i (some { r with held := true }) }) := by
  have hdue : r.quietDue = true := by simp [LensRecord.quietDue, hq, hh]
  unfold quietFull
  rw [changeLens_of_record hr, if_pos hdue, putLens_offers (fun h => by simp [hh] at h)]

/-! ### The commands -/

/-- A due step answers its operation and the output lines (log 45). -/
theorem exec_actDue {c : Instr} {f : State → State} {s t : State} (h : exec c s = .next (actDue f s)) (hf : f s = t) :
    exec c s = .next (refreshPins t) := by rw [h, actDue, hf]

/-- A step of the clock at a moment of the clock answers what its operation gives, and the output lines. -/
theorem exec_actClock_to {c : Instr} {f : State → State} {s t : State} (hs : OnClock s)
    (h : exec c s = .next (actClock f s)) (hf : f s = t) : exec c s = .next (refreshPins t) := by
  rw [exec_actClock hs h, hf]

/-- Settles O42: each of the three counts has reached its limit, and the grade or HELD changes. -/
theorem gradeAndHeldMove : Obligations.GradeAndHeldMove := by
  refine ⟨fun s i r hr => ⟨fun g hc hp hg => ?_, fun g hc hg => ?_⟩, fun s i r hr hq hh => ?_⟩
  · exact exec_actDue rfl (gradeRise_due hr hc hp hg)
  · obtain ⟨hclean, rfl⟩ : r.grade ≠ .clean ∧ g = r.grade.stepDown := by
      rcases hg with ⟨h, rfl⟩ | ⟨h, rfl⟩ | ⟨h, rfl⟩ <;> rw [h] <;> exact ⟨Grade.noConfusion, rfl⟩
    exact exec_actDue rfl (gradeFall_due hr hc hclean)
  · exact exec_actDue rfl (quietFull_due hr hq hh)

end Sys2Proof.Machine
end

