-- ==== Sys2Proof/Proofs/EngineChoice.lean ====
section
/-! SUPPORT. The choice of the measurement engine at a pass boundary (R96, R108), the measurement period tick (R97), and the frames
that are handed for a probe and for a capture (R109, R117, R118). -/
namespace Sys2Proof.Machine

/-! ### What a choice can be -/

/-- The engine stays as it is where it takes nothing (R96). -/
theorem passBoundary_of_none {s : State} (h : engineTake s = none) : passBoundary s = s := by
  unfold passBoundary engineChoose
  rw [h]

/-- The engine is at work with the first work that does not end at once (R96). -/
theorem passBoundary_of_some {s t : State} (h : engineTake s = some (t, false)) : passBoundary s = t := by
  unfold passBoundary engineChoose
  rw [h]

/-- An engine at work chooses nothing (R96). -/
theorem passBoundary_at_work {s : State} (h : s.lens.engine ≠ .free) : passBoundary s = s :=
  passBoundary_of_none (if_neg h)

/-- The input with the lowest number that satisfies a condition (R96). -/
theorem find?_allInputs_eq_some : ∀ {p : Input → Bool} {i : Input}, p i = true → (∀ j : Input, j.val < i.val → p j = false) →
    allInputs.find? p = some i := by
  decide

/-- The lowest-numbered input that is owed a pass (R96). -/
theorem dueInput_eq_some {s : State} {i : Input} {r : LensRecord} (hr : s.lens.records[i] = some r) (hd : r.due = true)
    (hlow : ∀ j : Input, j.val < i.val → ∀ q, s.lens.records[j] = some q → q.due = false) : s.dueInput = some i := by
  refine find?_allInputs_eq_some (by simp only [hr, hd]) fun j hj => ?_
  split
  · next q hq => exact hlow j hj q hq
  · rfl

/-- No input is owed a pass (R96). -/
theorem dueInput_eq_none {s : State} (h : ∀ (j : Input) q, s.lens.records[j] = some q → q.due = false) :
    s.dueInput = none := by
  refine List.find?_eq_none.mpr fun j _ => ?_
  split
  · next q hq => simp [h j q hq]
  · exact Bool.false_ne_true

section
variable {s : State} {i : Input}

/-- A FREE engine takes the capture that waits for a LIVE input first (R96, R108). -/
theorem passBoundary_capture (he : s.lens.engine = .free) (hp : s.store.phase = .waiting) (hi : s.store.input = some i)
    (hl : s.inputLive i = true) : passBoundary s = setRequest (some (runRequest i))
      (setEngineState (.capture i) (s.setStore { s.store with phase := .measuring })) := by
  refine passBoundary_of_some ?_
  unfold engineTake
  simp only [he, hp, hi, hl, if_true]

/-- With no capture waiting it takes the probe that waits for a LIVE input (R96, R109). -/
theorem passBoundary_probe (he : s.lens.engine = .free) (hp : s.store.phase ≠ .waiting)
    (hw : s.lens.probeWaiting = some i) (hl : s.inputLive i = true) : passBoundary s = setRequest (some (singleRequest i))
      (setEngineState (.probe i) (s.setLens { s.lens with probeWaiting := none })) := by
  refine passBoundary_of_some ?_
  unfold engineTake
  rw [if_pos he]
  split
  · next h _ => exact absurd h hp
  · simp only [hw]
    exact if_pos hl

/-- With neither waiting it takes the rota pass of the lowest-numbered input that is owed one, here a LIVE one (R96, R98). -/
theorem passBoundary_rota (he : s.lens.engine = .free) (hp : s.store.phase ≠ .waiting) (hw : s.lens.probeWaiting = none)
    (hd : s.dueInput = some i) (hl : s.inputLive i = true) :
    passBoundary s = setRequest (some (singleRequest i)) (setEngineState (.rota i) s) := by
  refine passBoundary_of_some ?_
  unfold engineTake
  rw [if_pos he]
  split
  · next h _ => exact absurd h hp
  · simp only [hw, hd]
    exact if_pos hl

/-- With nothing waiting and no input owed a pass it stays FREE (R96). -/
theorem passBoundary_idle (he : s.lens.engine = .free) (hp : s.store.phase ≠ .waiting) (hw : s.lens.probeWaiting = none)
    (hd : s.dueInput = none) : passBoundary s = s := by
  refine passBoundary_of_none ?_
  unfold engineTake
  rw [if_pos he]
  split
  · next h _ => exact absurd h hp
  · simp only [hw, hd]

/-- An engine that is done with its work stays FREE where nothing waits and no input is owed a pass (R96). -/
theorem engineFree_idle (hp : s.store.phase ≠ .waiting) (hw : s.lens.probeWaiting = none)
    (hd : ∀ (j : Input) q, s.lens.records[j] = some q → q.due = false) : engineFree s = setEngineState .free s :=
  passBoundary_idle (s := setEngineState .free s) rfl hp hw (dueInput_eq_none hd)

end

/-! ### The measurement period tick (R97, R103) -/

/-- The lens records at a tick: a pass owed, a decisive pass of the period, and the quiet count (R97). -/
theorem period_eq (r : LensRecord) (live : Bool) : r.period live = { r with
    quiet := if r.decisive = false ∧ r.due = false ∧ r.quiet < 10 then r.quiet + 1 else r.quiet
    decisive := false, due := r.due || live } := by
  have hquiet : (if !r.decisive && !r.due then upTo 10 r.quiet else r.quiet)
      = if r.decisive = false ∧ r.due = false ∧ r.quiet < 10 then r.quiet + 1 else r.quiet := by
    cases hdec : r.decisive <;> cases hdue : r.due <;> simp [upTo]
  unfold LensRecord.period
  rw [hquiet]

/-- A vector of four is told by its values. -/
theorem vec4_eq_of_get {α : Type} {f : Fin 4 → α} {v : Vector α 4} (h : ∀ i : Fin 4, v[i] = f i) : vec4 f = v :=
  Vector.ext fun i hi => (vec4_get f ⟨i, hi⟩).trans (h ⟨i, hi⟩).symm

/-- A tick sets the records and the timer, and is a pass boundary for a FREE engine (R96, R97). -/
theorem periodTick_due {s : State} {recs : Vector (Option LensRecord) 4} (ha : s.acting = true)
    (ht : s.lens.periodTimer = 0) (hrecs : ∀ i : Input, recs[i] = (s.lens.records[i]).map fun r => r.period (s.inputLive i)) :
    periodTick s = passBoundary (s.setLens { s.lens with records := recs, periodTimer := s.cfg.soiling.period }) := by
  unfold periodTick
  rw [if_pos ⟨ha, ht⟩, vec4_eq_of_get hrecs]

/-- Settles O39: what the tick sets, and what the engine then takes. -/
theorem periodTickOwesPasses : Obligations.PeriodTickOwesPasses := by
  intro s recs hs ha ht hrecs
  have htick := periodTick_due (recs := recs) ha ht fun i => by simp only [hrecs, period_eq]
  refine ⟨fun he => exec_actClock_to (f := periodTick) hs rfl (htick.trans (passBoundary_at_work he)),
    fun i r he hp hw hr hd hl hlow => exec_actClock_to (f := periodTick) hs rfl (htick.trans ?_)⟩
  exact passBoundary_rota he hp hw (dueInput_eq_some hr hd hlow) hl

/-! ### A probe pass (R109, R110, R174) -/

/-- A probe that has been measured is answered, and the engine is done with it (R109). -/
theorem probePass_measured {s : State} {i : Input} {r : LensRecord} {frame : FrameLines} {k : Byte}
    (he : s.lens.engine = .probe i) (hf : s.lens.handed = some frame) (hr : s.lens.records[i] = some r)
    (hk : s.service = .answer k none) : probePass s =
      engineFree (s.setService (.answer k (some (replyFrame k .accepted (passBytes (s.passOf r frame)))))) := by
  have hanswer : answerProbe .accepted (passBytes (s.passOf r frame)) s
      = s.setService (.answer k (some (replyFrame k .accepted (passBytes (s.passOf r frame))))) := by
    unfold answerProbe
    rw [hk]
    rfl
  unfold probePass
  simp only [he, hf, hr, hanswer]

/-! ### A frame of a capture's run (R108, R117, R118) -/

/-- A run frame below the dark floor ends the capture (R117). -/
theorem captureFrame_dark {s : State} {i : Input} {frame : FrameLines} (he : s.lens.engine = .capture i)
    (hf : s.lens.handed = some frame) (hdark : brightnessOf (s.zoneMeans frame) < s.cfg.soiling.darkFloor) :
    captureFrame s = engineFree (setRequest none (finishOp .abortedDark s)) := by
  unfold captureFrame
  simp only [he, hf]
  exact if_pos hdark

/-- A run frame that is bright enough is added; the eighth starts the write (R117, R118). -/
theorem captureFrame_bright {s : State} {i : Input} {frame : FrameLines} (he : s.lens.engine = .capture i)
    (hf : s.lens.handed = some frame) (hbright : s.cfg.soiling.darkFloor ≤ brightnessOf (s.zoneMeans frame)) :
    captureFrame s = if s.store.held + 1 = 8 then
        engineFree (s.setStore (s.store.addFrame (s.zoneEnergies frame)).beginWriting)
      else (s.setStore (s.store.addFrame (s.zoneEnergies frame))).setLens { s.lens with handed := none } := by
  unfold captureFrame
  simp only [he, hf]
  exact if_neg (by omega)

/-- A vector of sixteen is told by its values. -/
theorem vec16_eq_of_get {α : Type} {f : Fin 16 → α} {v : Vector α 16} (h : ∀ i : Fin 16, v[i] = f i) : vec16 f = v :=
  Vector.ext fun i hi => (vec16_get f ⟨i, hi⟩).trans (h ⟨i, hi⟩).symm

/-- The frame's edge energies are added to the zone sums (R117). -/
theorem addFrame_eq {b : BaselineStore} {energies sums : Vector Nat 16}
    (h : ∀ z : Fin 16, sums[z] = b.sums[z] + energies[z]) :
    b.addFrame energies = { b with held := b.held + 1, sums := sums } := by
  unfold BaselineStore.addFrame
  rw [vec16_eq_of_get h]

/-- Settles O43: the probe's answer, and the run frame by its brightness and its place in the run. -/
theorem handedFrameMeasured : Obligations.HandedFrameMeasured := by
  refine ⟨fun s i r frame k he hf hr hk hp hw hd => ?_, fun s i frame sums he hf hp hw hd hsums => ?_⟩
  · exact exec_actDue rfl ((probePass_measured he hf hr hk).trans (engineFree_idle hp hw hd))
  have hadd := addFrame_eq (energies := s.zoneEnergies frame) hsums
  refine ⟨fun hb h7 => ?_, fun hb h7 => ?_, fun hdark => ?_⟩
  · refine exec_actDue (f := captureFrame) rfl ?_
    rw [captureFrame_bright he hf hb, if_neg (by omega), hadd]
  · refine exec_actDue (f := captureFrame) rfl ?_
    rw [captureFrame_bright he hf hb, if_pos (by omega), hadd, h7]
    exact engineFree_idle OpPhase.noConfusion hw hd
  · refine exec_actDue (f := captureFrame) rfl ?_
    rw [captureFrame_dark he hf hdark]
    exact engineFree_idle OpPhase.noConfusion hw hd

end Sys2Proof.Machine
end

