-- ==== Sys2Proof/Proofs/RotaPass.lean ====
section
/-! SUPPORT. A rota pass: what it makes of the lens record (R98, R101, R102), what it offers (R105), and what the engine takes at the
boundary (R96, R108). -/
namespace Sys2Proof.Machine

/-! ### The counts after a decisive pass (R102) -/

section
variable {r : LensRecord} {c : Soiling} {g : Grade}

/-- A raw grade above the grade (R102). -/
theorem judge_above (h : r.grade.rank < g.rank) (hc : r.rise < c.riseConfirm) : r.judge c g =
    { r with quiet := 0, decisive := true, held := false, rise := r.rise + 1, fall := 0, peak := peakAfter r.peak g } := by
  have hrise : Nat.min c.riseConfirm (r.rise + 1) = r.rise + 1 := Nat.min_eq_right hc
  unfold LensRecord.judge
  simp only [if_pos h, hrise]

/-- A raw grade equal to the grade (R102). -/
theorem judge_level (h : g = r.grade) : r.judge c g =
    { r with quiet := 0, decisive := true, held := false, rise := 0, fall := 0, peak := none } := by
  unfold LensRecord.judge
  rw [h]
  simp only [lt_irrefl, if_false]

/-- A raw grade below the grade (R102). -/
theorem judge_below (h : g.rank < r.grade.rank) (hc : r.fall < c.fallConfirm) : r.judge c g =
    { r with quiet := 0, decisive := true, held := false, rise := 0, fall := r.fall + 1, peak := none } := by
  have hfall : Nat.min c.fallConfirm (r.fall + 1) = r.fall + 1 := Nat.min_eq_right hc
  unfold LensRecord.judge
  simp only [if_neg (Nat.lt_asymm h), if_pos h, hfall]

/-- A decisive pass leaves grade and baseline, clears HELD and sets the quiet count to 0 (R97, R102, R103). -/
theorem judge_flags (r : LensRecord) (c : Soiling) (g : Grade) : (r.judge c g).grade = r.grade
    ∧ (r.judge c g).unbaselined = r.unbaselined ∧ (r.judge c g).baseline = r.baseline ∧ (r.judge c g).quiet = 0
    ∧ (r.judge c g).decisive = true ∧ (r.judge c g).held = false := by
  unfold LensRecord.judge
  dsimp only
  split
  · exact ⟨rfl, rfl, rfl, rfl, rfl, rfl⟩
  · split <;> exact ⟨rfl, rfl, rfl, rfl, rfl, rfl⟩

variable {p : Pass} {frame : FrameLines}

/-- The lens record after a decisive pass (R98, R101, R102). -/
theorem pass_decisive (h : p.verdict = .decisive g) :
    r.pass c p frame = { r.judge c g with due := false, previous := some frame, last := some p } := by
  unfold LensRecord.pass
  rw [h]

/-- The lens record after a pass that decides nothing (R98, R101). -/
theorem pass_undecided (h : ∀ g, p.verdict ≠ .decisive g) :
    r.pass c p frame = { r with due := false, previous := some frame, last := some p } := by
  unfold LensRecord.pass
  split
  · next g hg => exact absurd hg (h g)
  · rfl

/-- A pass leaves grade and baseline, and is owed no more (R98, R101). -/
theorem pass_flags (r : LensRecord) (c : Soiling) (p : Pass) (frame : FrameLines) : (r.pass c p frame).due = false
    ∧ (r.pass c p frame).previous = some frame ∧ (r.pass c p frame).last = some p ∧ (r.pass c p frame).grade = r.grade
    ∧ (r.pass c p frame).unbaselined = r.unbaselined ∧ (r.pass c p frame).baseline = r.baseline := by
  by_cases h : ∃ g, p.verdict = .decisive g
  · obtain ⟨g, hg⟩ := h
    obtain ⟨hgrade, hunb, hbase, -⟩ := judge_flags r c g
    rw [pass_decisive hg]
    exact ⟨rfl, rfl, rfl, hgrade, hunb, hbase⟩
  · rw [pass_undecided fun g hg => h ⟨g, hg⟩]
    exact ⟨rfl, rfl, rfl, rfl, rfl, rfl⟩

end

/-! ### The pass, and the boundary after it -/

section
variable {s : State} {i : Input} {r : LensRecord} {frame : FrameLines}

/-- A rota pass puts the lens record back and is a pass boundary (R96, R98). -/
theorem rotaPass_handed (he : s.lens.engine = .rota i) (hf : s.lens.handed = some frame)
    (hr : s.lens.records[i] = some r) :
    rotaPass s = engineFree (putLens i r (r.pass s.cfg.soiling (s.passOf r frame) frame) s) := by
  unfold rotaPass
  simp only [he, hf, changeLens_of_record hr]

end

/-- In u the engine chooses after a rota pass of input i in s: it is FREE, no pass is owed to i, and what else it chooses by stands
as it did (R96, R98). -/
structure RotaBoundary (s : State) (i : Input) (u : State) : Prop where
  free : u.lens.engine = .free
  handed : u.lens.handed = none
  probe : u.lens.probeWaiting = s.lens.probeWaiting
  store : u.store = s.store
  intake : u.intake = s.intake
  other : ∀ m : Input, m ≠ i → u.lens.records[m] = s.lens.records[m]
  own : ∀ x, u.lens.records[i] = some x → x.due = false

/-- A rota pass leads to such a pass boundary (R96, R98). -/
theorem rotaPass_boundary {s : State} {i : Input} {r : LensRecord} {frame : FrameLines} (he : s.lens.engine = .rota i)
    (hf : s.lens.handed = some frame) (hr : s.lens.records[i] = some r) :
    ∃ u, rotaPass s = passBoundary u ∧ RotaBoundary s i u := by
  have hdue := (pass_flags r s.cfg.soiling (s.passOf r frame) frame).1
  have hpass := rotaPass_handed he hf hr
  generalize r.pass s.cfg.soiling (s.passOf r frame) frame = q at hdue hpass
  obtain ⟨hstore, hintake, -⟩ := putLens_rest i r q s
  have hlens : (setEngineState .free (putLens i r q s)).lens = { s.lens with
      records := s.lens.records.set i (some q), engine := .free, handed := none } := by
    unfold setEngineState
    rw [putLens_lens]
    rfl
  refine ⟨_, hpass, by rw [hlens], by rw [hlens], by rw [hlens], hstore, hintake, fun m hm => ?_, fun x hx => ?_⟩
  · rw [hlens]
    exact (getElem_set_fin ..).trans (if_neg hm.symm)
  · rw [hlens] at hx
    obtain rfl := Option.some.inj (((getElem_set_fin ..).trans (if_pos rfl)).symm.trans hx)
    exact hdue

section
variable {s u : State} {i : Input}

theorem RotaBoundary.live (h : RotaBoundary s i u) (m : Input) : u.inputLive m = s.inputLive m := by
  unfold State.inputLive
  rw [h.intake]

/-- At the boundary an input other than the one that has had its pass is the lowest-numbered that is owed one (R96). -/
theorem RotaBoundary.dueInput_some (h : RotaBoundary s i u) {j : Input} {q : LensRecord} (hj : j ≠ i)
    (hq : s.lens.records[j] = some q) (hd : q.due = true)
    (hlow : ∀ m : Input, m.val < j.val → m ≠ i → ∀ x, s.lens.records[m] = some x → x.due = false) :
    u.dueInput = some j := by
  refine dueInput_eq_some ((h.other j hj).trans hq) hd fun m hm x hx => ?_
  by_cases hmi : m = i
  · exact h.own x (hmi ▸ hx)
  · exact hlow m hm hmi x ((h.other m hmi).symm.trans hx)

/-- At the boundary no input is owed a pass, if none but the one that has had its pass was (R96). -/
theorem RotaBoundary.dueInput_none (h : RotaBoundary s i u)
    (hd : ∀ m : Input, m ≠ i → ∀ x, s.lens.records[m] = some x → x.due = false) : u.dueInput = none := by
  refine dueInput_eq_none fun m x hx => ?_
  by_cases hmi : m = i
  · exact h.own x (hmi ▸ hx)
  · exact hd m hmi x ((h.other m hmi).symm.trans hx)

end

/-- From r on only the engine's parts have changed; the lens record of input i is q, and the baseline records stand. -/
structure Passed (r : State) (i : Input) (q : LensRecord) (s : State) : Prop where
  step : MeasureStep r s
  record : s.lens.records[i] = some q
  baselines : s.store.records = r.store.records

/-- The taking of work keeps a lens record that is owed no pass, and the baseline records (R96). -/
theorem passed_takesWork {r s t : State} {i : Input} {q : LensRecord} (hq : q.due = false) (h : Passed r i q s)
    (ht : TakesWork s t) : Passed r i q t := by
  refine ⟨h.step.trans ht.measureStep, ?_, ?_⟩
  · cases ht with
    | probeEnds =>
      rcases answerProbe_cases .notLive [] (s.setLens { s.lens with probeWaiting := none }) with he | ⟨v, he⟩ <;> rw [he]
      exacts [h.record, h.record]
    | rotaEnds j =>
      have hcleared : { q with due := false } = q := by rw [← hq]
      show (s.lens.records.set j ((s.lens.records[j]).map fun r => { r with due := false }))[i] = some q
      rw [getElem_set_fin]
      split
      · next hji => rw [hji, h.record, Option.map_some, hcleared]
      · exact h.record
    | capture | captureEnds | probe | rota => exact h.record
  · cases ht with
    | probeEnds =>
      rcases answerProbe_cases .notLive [] (s.setLens { s.lens with probeWaiting := none }) with he | ⟨v, he⟩ <;> rw [he]
      exacts [h.baselines, h.baselines]
    | capture | captureEnds | probe | rota | rotaEnds => exact h.baselines

/-- After a rota pass the lens record is that of the pass, whatever the engine then takes (R96, R98). -/
theorem rotaPass_passed {s : State} {i : Input} {r q : LensRecord} {frame : FrameLines} (he : s.lens.engine = .rota i)
    (hf : s.lens.handed = some frame) (hr : s.lens.records[i] = some r)
    (hq : q = r.pass s.cfg.soiling (s.passOf r frame) frame) : Passed (putLens i r q s) i q (rotaPass s) := by
  have hdue : q.due = false := hq ▸ (pass_flags r _ _ _).1
  rw [rotaPass_handed he hf hr, ← hq]
  refine engineFree_kept (fun _ _ h ht => passed_takesWork hdue h ht) ⟨setLens_measureStep _ _, ?_, rfl⟩
  show (putLens i r q s).lens.records[i] = some q
  rw [putLens_lens]
  exact (getElem_set_fin ..).trans (if_pos rfl)

/-- A rota pass offers the input's LENS where it clears HELD (R105). -/
theorem rotaPass_queue {s : State} {i : Input} {r q : LensRecord} {frame : FrameLines} (he : s.lens.engine = .rota i)
    (hf : s.lens.handed = some frame) (hr : s.lens.records[i] = some r)
    (hq : q = r.pass s.cfg.soiling (s.passOf r frame) frame) : (q.held = r.held → (rotaPass s).queue = s.queue)
      ∧ (s.acting = true → r.held = true → q.held = false → s.lineFree →
        queueHolds (rotaPass s).queue (.lens i) = true) := by
  obtain ⟨-, -, hqueue, -⟩ := (rotaPass_passed he hf hr hq).step.rest
  obtain ⟨-, -, -, hgrade, hunb, -⟩ := pass_flags r s.cfg.soiling (s.passOf r frame) frame
  rw [← hq] at hgrade hunb
  rw [hqueue]
  refine ⟨fun hheld => ?_, fun ha hset hclear hfree => ?_⟩
  · rw [putLens_quiet hgrade hheld hunb]
    rfl
  · rw [putLens_offers fun h => by simp [hset, hclear] at h]
    exact queueHolds_of_offer (by exact ha) (by exact hfree) ..

/-- What a decisive pass makes of the counts, the run peak and HELD (R97, R102, R103). -/
theorem pass_counts {r : LensRecord} {c : Soiling} {p : Pass} {frame : FrameLines} {g : Grade}
    (h : p.verdict = .decisive g) (hrise : r.rise < c.riseConfirm) (hfall : r.fall < c.fallConfirm) :
    (r.grade.rank < g.rank → (r.pass c p frame).rise = r.rise + 1 ∧ (r.pass c p frame).fall = 0
        ∧ (r.pass c p frame).peak = peakAfter r.peak g)
      ∧ (g = r.grade → (r.pass c p frame).rise = 0 ∧ (r.pass c p frame).fall = 0 ∧ (r.pass c p frame).peak = none)
      ∧ (g.rank < r.grade.rank → (r.pass c p frame).rise = 0 ∧ (r.pass c p frame).fall = r.fall + 1
        ∧ (r.pass c p frame).peak = none) := by
  rw [pass_decisive h]
  refine ⟨fun hg => ?_, fun hg => ?_, fun hg => ?_⟩
  · rw [judge_above hg hrise]
    exact ⟨rfl, rfl, rfl⟩
  · rw [judge_level hg]
    exact ⟨rfl, rfl, rfl⟩
  · rw [judge_below hg hfall]
    exact ⟨rfl, rfl, rfl⟩

/-- The run peak is the highest raw grade of the run (R102). -/
theorem peakAfter_some (p g : Grade) : peakAfter (some p) g = some (if p.rank < g.rank then g else p) :=
  (apply_ite some _ _ _).symm

/-- Settles O41: the pass keeps to its lens record, and then the engine chooses. -/
theorem rotaPassCounts : Obligations.RotaPassCounts := by
  refine ⟨fun s i r frame he hf hr hrise hfall ha => ?_, fun s i j r frame he hf hr => ?_⟩
  · generalize hq : r.pass s.cfg.soiling (s.passOf r frame) frame = q
    obtain ⟨hstep, hrecord, hbaselines⟩ := rotaPass_passed he hf hr hq.symm
    obtain ⟨hsame, hoffered⟩ := rotaPass_queue he hf hr hq.symm
    obtain ⟨-, hengine, -, htables, -, -, hmem⟩ := hstep.rest
    obtain ⟨hpstore, -, hptables, hpengine, hpmem⟩ := putLens_rest i r q s
    obtain ⟨hdue, hprevious, hlast, hgrade, hunb, hbase⟩ := pass_flags r s.cfg.soiling (s.passOf r frame) frame
    rw [hq] at hdue hprevious hlast hgrade hunb hbase
    refine ⟨refreshPins (rotaPass s), q, rfl, hrecord, hdue, hprevious, hlast, hgrade, hunb, hbase, fun g hg => ?_,
      fun hno => ?_, htables.trans hptables, hengine.trans hpengine, hbaselines.trans (by rw [hpstore]),
      hmem.trans hpmem, hsame, hoffered ha⟩
    · obtain ⟨-, -, -, hquiet, hdec, hheld⟩ := judge_flags r s.cfg.soiling g
      obtain ⟨habove, hlevel, hbelow⟩ := pass_counts (frame := frame) hg hrise hfall
      rw [hq] at habove hlevel hbelow
      obtain rfl := hq.symm.trans (pass_decisive hg)
      refine ⟨hquiet, hdec, hheld, fun hlt => ?_, hlevel, hbelow⟩
      obtain ⟨h1, h2, h3⟩ := habove hlt
      refine ⟨h1, h2, h3.trans ?_⟩
      cases r.peak with
      | none => rfl
      | some p => exact peakAfter_some p g
    · obtain rfl := hq.symm.trans (pass_undecided hno)
      exact ⟨rfl, rfl, rfl, rfl, rfl, rfl⟩
  · obtain ⟨u, hu, hb⟩ := rotaPass_boundary he hf hr
    have hexec {t : State} (ht : passBoundary u = t) : exec .rotaPass s = .next (refreshPins t) :=
      exec_actDue rfl (hu.trans ht)
    have hphase {ph : OpPhase} : s.store.phase ≠ ph → u.store.phase ≠ ph := hb.store ▸ id
    refine ⟨fun hp hi hl => ?_, fun hp hw hl => ?_, fun q hp hw hj hr hd hl hlow => ?_, fun hp hw hd => ?_⟩
    · refine ⟨_, hexec (passBoundary_capture hb.free (hb.store ▸ hp) (hb.store ▸ hi) ((hb.live j).trans hl)), rfl, rfl,
        ?_, hb.intake ▸ rfl⟩
      exact hb.store ▸ rfl
    · exact ⟨_, hexec (passBoundary_probe hb.free (hphase hp) (hb.probe.trans hw) ((hb.live j).trans hl)), rfl, rfl, rfl,
        hb.store, hb.intake ▸ rfl⟩
    · exact ⟨_, hexec (passBoundary_rota hb.free (hphase hp) (hb.probe.trans hw) (hb.dueInput_some hj hr hd hlow)
        ((hb.live j).trans hl)), rfl, rfl, hb.store, hb.intake ▸ rfl⟩
    · exact ⟨_, hexec (passBoundary_idle hb.free (hphase hp) (hb.probe.trans hw) (hb.dueInput_none hd)), hb.free,
        hb.handed, hb.store, hb.intake⟩

end Sys2Proof.Machine
end

