-- ==== Sys2Proof/Proofs/RecordWrite.lean ====
section
/-! SUPPORT. The write of a baseline record: what a write, and a write that is cut, leave in the configuration memory (R118, R120), and
how the operation ends (R104, R105, R115, R118, R119). -/
namespace Sys2Proof.Machine

/-! ### Bytes in the configuration memory -/

@[simp] theorem memReadBytes_length (m : List Host.Cell) (a n : Nat) : (memReadBytes m a n).length = n := by
  induction n generalizing a with
  | zero => rfl
  | succ n ih => exact congrArg (· + 1) (ih (a + 1))

/-- Byte k of the bytes read from an address on is the one at that address plus k. -/
theorem memReadBytes_getElem? (m : List Host.Cell) {n k : Nat} (h : k < n) (a : Nat) :
    (memReadBytes m a n)[k]? = some (memRead m (a + k)) := by
  induction n generalizing a k with
  | zero => exact absurd h (Nat.not_lt_zero k)
  | succ n ih =>
    cases k with
    | zero => rfl
    | succ k =>
      show (memReadBytes m (a + 1) n)[k]? = _
      rw [ih (Nat.lt_of_succ_lt_succ h), Nat.add_right_comm]
      rfl

/-- Byte k of the bytes written from an address on is read at that address plus k. -/
theorem memRead_memWriteBytes_inside {m : List Host.Cell} (h : Memory.wf m = true) {bs : List Byte} {k : Nat} {b : Byte}
    (hb : bs[k]? = some b) (a : Nat) : memRead (memWriteBytes m a bs) (a + k) = b := by
  obtain ⟨hk, -⟩ := List.getElem?_eq_some_iff.mp hb
  have hread := memReadBytes_getElem? (memWriteBytes m a bs) hk a
  rw [memReadBytes_memWriteBytes bs m a h, hb] at hread
  exact (Option.some.inj hread).symm

/-! ### A write that is cut (R118, R120; log 26) -/

@[simp] theorem tornBytes_length (m : List Host.Cell) (a count k : Nat) (bs : List Byte) :
    (tornBytes m a count k bs).length = bs.length := by
  induction bs generalizing k with
  | nil => rfl
  | cons b bs ih => exact congrArg (· + 1) (ih (k + 1))

/-- Each mixed byte takes the bits of its mask from the new byte, the others from the old one. -/
theorem tornBytes_getElem? (m : List Host.Cell) (a count : Nat) {bs : List Byte} {j : Nat} {b : Byte} (k : Nat)
    (hb : bs[j]? = some b) : (tornBytes m a count k bs)[j]? =
      some ((b &&& Config.tornMask count (k + j)) ||| (memRead m (a + (k + j)) &&& ~~~ Config.tornMask count (k + j))) := by
  induction bs generalizing j k with
  | nil => exact absurd hb (by simp)
  | cons c bs ih =>
    cases j with
    | zero =>
      obtain rfl := Option.some.inj hb
      rfl
    | succ j =>
      show (tornBytes m a count (k + 1) bs)[j]? = _
      rw [ih (k + 1) hb, Nat.add_right_comm]
      rfl

@[simp] theorem tornRecord_length (m : List Host.Cell) (a count : Nat) (new : List Byte) :
    (tornRecord m a count new).length = new.length := by
  unfold tornRecord
  dsimp only
  split
  · exact tornBytes_length ..
  · exact memReadBytes_length ..

/-- Each byte after a cut write is a mixture of the new and the old one, by some mask. -/
theorem tornRecord_getElem? (m : List Host.Cell) (a count : Nat) {new : List Byte} {k : Nat} {b : Byte}
    (hb : new[k]? = some b) : ∃ mask : Byte, (tornRecord m a count new)[k]?
      = some ((b &&& mask) ||| (memRead m (a + k) &&& ~~~mask)) := by
  unfold tornRecord
  dsimp only
  split
  · refine ⟨Config.tornMask count k, ?_⟩
    rw [tornBytes_getElem? m a count 0 hb, Nat.zero_add]
  · obtain ⟨hk, -⟩ := List.getElem?_eq_some_iff.mp hb
    refine ⟨0#8, (memReadBytes_getElem? m hk a).trans (congrArg some ?_)⟩
    rw [BitVec.and_zero, BitVec.zero_or, BitVec.not_zero, BitVec.and_allOnes]

/-- A write in progress that is cut leaves the mixed bytes at the record's place (R118, R120). -/
theorem tearWrite_writing {s : State} {i : Input} (hp : s.store.phase = .writing) (hi : s.store.input = some i) :
    tearWrite s = (s.setConfMem (memWriteBytes s.confMem (recordAddress i)
      (tornRecord s.confMem (recordAddress i) s.free s.store.writing))).setFree (s.free + 1) := by
  unfold tearWrite
  rw [hp, hi]

/-- What a cut write leaves in the configuration memory (R118, R120; log 26). -/
theorem tearWrite_memory {s : State} {i : Input} (hw : Memory.wf s.confMem = true) (hp : s.store.phase = .writing)
    (hi : s.store.input = some i) :
    (∀ a, a < recordAddress i ∨ recordAddress i + s.store.writing.length ≤ a →
        memRead (tearWrite s).confMem a = memRead s.confMem a)
      ∧ (∀ (k : Nat) (b : Byte), s.store.writing[k]? = some b → ∃ mask : Byte,
        memRead (tearWrite s).confMem (recordAddress i + k)
          = (b &&& mask) ||| (memRead s.confMem (recordAddress i + k) &&& ~~~mask))
      ∧ (memReadBytes (tearWrite s).confMem (recordAddress i) s.store.writing.length = s.store.writing
        ∨ memReadBytes (tearWrite s).confMem (recordAddress i) s.store.writing.length
            = memReadBytes s.confMem (recordAddress i) s.store.writing.length
        ∨ recordValid (memReadBytes (tearWrite s).confMem (recordAddress i) s.store.writing.length) = false) := by
  have hlen := tornRecord_length s.confMem (recordAddress i) s.free s.store.writing
  have hmem : (tearWrite s).confMem = memWriteBytes s.confMem (recordAddress i)
      (tornRecord s.confMem (recordAddress i) s.free s.store.writing) := by
    rw [tearWrite_writing hp hi]
    rfl
  rw [hmem]
  refine ⟨fun a ha => ?_, fun k b hb => ?_, ?_⟩
  · exact memRead_memWriteBytes_outside _ _ _ _ hw (by rw [hlen]; exact ha)
  · obtain ⟨mask, hmask⟩ := tornRecord_getElem? s.confMem (recordAddress i) s.free hb
    exact ⟨mask, memRead_memWriteBytes_inside hw hmask _⟩
  · have hback := memReadBytes_memWriteBytes (tornRecord s.confMem (recordAddress i) s.free s.store.writing) s.confMem
      (recordAddress i) hw
    rw [hlen] at hback
    rw [hback]
    exact tornRecord_cases ..

/-! ### The in-use baseline (R104) -/

section
variable {s : State} {i : Input}

/-- Changing a lens record changes Lens Watch and the outbound control queue only. -/
theorem changeLens_rest (i : Input) (f : LensRecord → LensRecord) (s : State) : (changeLens i f s).store = s.store
    ∧ (changeLens i f s).intake = s.intake ∧ (changeLens i f s).tables = s.tables
    ∧ (changeLens i f s).engine = s.engine ∧ (changeLens i f s).confMem = s.confMem := by
  unfold changeLens
  split
  · exact ⟨rfl, rfl, rfl, rfl, rfl⟩
  · exact putLens_rest ..

/-- A lens record that is changed is the input's, and no other lens record changes. -/
theorem changeLens_lens {r : LensRecord} (hr : s.lens.records[i] = some r) (f : LensRecord → LensRecord) :
    (changeLens i f s).lens = { s.lens with records := s.lens.records.set i (some (f r)) } := by
  rw [changeLens_of_record hr, putLens_lens]

/-- A change of a lens record does not touch whether the station acts, or a control frame on the line. -/
theorem changeLens_acting (i : Input) (f : LensRecord → LensRecord) (s : State) :
    (changeLens i f s).acting = s.acting ∧ (s.lineFree → (changeLens i f s).lineFree) := by
  have hput (old new : LensRecord) : (putLens i old new s).beside
      = (s.setLens { s.lens with records := s.lens.records.set i (some new) }).beside := by
    rcases putLens_cases i old new s with h | h <;> rw [h]
    exact offer_beside ..
  unfold changeLens
  split
  · exact ⟨rfl, id⟩
  · next r _ =>
    refine ⟨(acting_of_beside (hput r (f r))).trans rfl, fun hf c hc => ?_⟩
    rw [trunk_of_beside (hput r (f r)) hf] at hc
    exact hf c hc

/-! ### The write completes (R118, R119) -/

/-- The state in which a completed write has ended its operation with OK (R115, R118). -/
def writtenState (i : Input) (s : State) : State :=
  finishOp .ok (s.setConfMem (memWriteBytes s.confMem (recordAddress i) s.store.writing))

/-- That state with the record VALID, as for a CAPTURE (R111, R118). -/
def recordedState (i : Input) (s : State) : State :=
  (writtenState i s).setStore ((writtenState i s).store.setRecord i true (recordValues s.store.writing))

/-- The completion of a CAPTURE's write: the record is VALID and its values are in use (R104, R118). -/
theorem writeComplete_capture (hp : s.store.phase = .writing) (hi : s.store.input = some i) (hk : s.store.kind = .capture) :
    writeComplete s =
      offer (.lens i) .plain (useCaptured i (recordValues s.store.writing) (recordedState i s)) := by
  unfold writeComplete
  simp only [hp, hi, hk, beq_self_eq_true, if_true]
  rfl

/-- The completion of a CLEAR's write (R119). -/
theorem writeComplete_clear (hp : s.store.phase = .writing) (hi : s.store.input = some i) (hk : s.store.kind ≠ .capture) :
    writeComplete s = writtenState i s := by
  unfold writeComplete
  simp only [hp, hi, beq_eq_false_iff_ne.mpr hk, Bool.false_eq_true, if_false]
  rfl

/-! ### The write times out (R118, R119) -/

/-- The state in which a write that timed out has ended its operation with TIMEOUT (R115, R118). -/
def cutState (s : State) : State := finishOp .timeout (tearWrite s)

/-- The write of a CAPTURE times out: the record is INVALID and the default baseline in use (R104, R118). -/
theorem writeTimeout_capture {w : Nat} (hp : s.store.phase = .writing) (hi : s.store.input = some i)
    (ht : s.store.writeTimer = some w) (hw : 50000 ≤ w) (hk : s.store.kind = .capture) : writeTimeout s =
      useDefault i ((cutState s).setStore ((cutState s).store.setRecord i false (Vector.replicate 16 0))) := by
  unfold writeTimeout
  simp only [hp, hi, ht, hk, beq_self_eq_true, if_true]
  exact if_pos hw

/-- The write of a CLEAR times out (R119). -/
theorem writeTimeout_clear {w : Nat} (hp : s.store.phase = .writing) (hi : s.store.input = some i)
    (ht : s.store.writeTimer = some w) (hw : 50000 ≤ w) (hk : s.store.kind ≠ .capture) : writeTimeout s = cutState s := by
  unfold writeTimeout
  simp only [hp, hi, ht, beq_eq_false_iff_ne.mpr hk, Bool.false_eq_true, if_false]
  exact if_pos hw

/-- A cut write changes the configuration memory and the count of cut writes only. -/
theorem tearWrite_cases (s : State) : tearWrite s = s ∨ ∃ m n, tearWrite s = (s.setConfMem m).setFree n := by
  unfold tearWrite
  split
  · exact .inr ⟨_, _, rfl⟩
  · exact .inl rfl

/-- Past the configuration memory, a write that timed out has ended its operation and nothing more (R115). -/
theorem cutState_rest (s : State) : (cutState s).store = s.store.finish .timeout
    ∧ (cutState s).lens = s.lens ∧ (cutState s).tables = s.tables ∧ (cutState s).engine = s.engine
    ∧ (cutState s).intake = s.intake ∧ (cutState s).cfg = s.cfg := by
  unfold cutState finishOp
  rcases tearWrite_cases s with h | ⟨m, n, h⟩ <;> rw [h] <;> exact ⟨rfl, rfl, rfl, rfl, rfl, rfl⟩

end

/-! ### The commands -/

/-- What the completion of a write leaves, for a CAPTURE and for a CLEAR (R104, R105, R118, R119). -/
theorem writeComplete_ends {s : State} {i : Input} (hp : s.store.phase = .writing) (hi : s.store.input = some i) :
    ∃ recs, (writeComplete s).store = { s.store.finish .ok with records := recs }
      ∧ (writeComplete s).confMem = memWriteBytes s.confMem (recordAddress i) s.store.writing
      ∧ (s.store.kind = .capture → ∀ r, s.lens.records[i] = some r →
        recs = s.store.records.set i (some { valid := true, values := recordValues s.store.writing })
          ∧ (writeComplete s).lens = { s.lens with records := s.lens.records.set i (some { r with
              baseline := recordValues s.store.writing, unbaselined := false, rise := 0, fall := 0, peak := none }) }
          ∧ (s.acting = true → s.lineFree → queueHolds (writeComplete s).queue (.lens i) = true))
      ∧ (s.store.kind ≠ .capture → recs = s.store.records ∧ (writeComplete s).lens = s.lens
          ∧ (writeComplete s).queue = s.queue)
      ∧ (writeComplete s).tables = s.tables ∧ (writeComplete s).engine = s.engine
      ∧ (writeComplete s).intake = s.intake := by
  by_cases hk : s.store.kind = .capture
  · rw [writeComplete_capture hp hi hk, offer_store, offer_confMem, offer_lens, offer_tables, offer_engine_eq,
      offer_intake]
    unfold useCaptured
    generalize hf : (fun r : LensRecord =>
      { r.rebase (recordValues s.store.writing) false with rise := 0, fall := 0, peak := none }) = f
    obtain ⟨hstore, hintake, htables, hengine, hmem⟩ := changeLens_rest i f (recordedState i s)
    obtain ⟨hacting, hfree⟩ := changeLens_acting i f (recordedState i s)
    refine ⟨_, hstore, hmem, fun _ r hr => ⟨rfl, ?_, fun ha ho => ?_⟩, fun h => absurd hk h, htables, hengine, hintake⟩
    · rw [changeLens_lens (s := recordedState i s) hr, ← hf]
      rfl
    · exact queueHolds_of_offer (hacting.trans ha) (hfree ho) ..
  · rw [writeComplete_clear hp hi hk]
    exact ⟨_, rfl, rfl, fun h => absurd h hk, fun _ => ⟨rfl, rfl, rfl⟩, rfl, rfl, rfl⟩

/-- What a write that times out leaves, for a CAPTURE and for a CLEAR (R104, R118, R119). -/
theorem writeTimeout_ends {s : State} {i : Input} {w : Nat} (hp : s.store.phase = .writing) (hi : s.store.input = some i)
    (ht : s.store.writeTimer = some w) (hw : 50000 ≤ w) :
    ∃ recs, (writeTimeout s).store = { s.store.finish .timeout with records := recs }
      ∧ (writeTimeout s).confMem = (tearWrite s).confMem
      ∧ (s.store.kind = .capture → ∀ r, s.lens.records[i] = some r →
        recs = s.store.records.set i (some { valid := false, values := Vector.replicate 16 0 })
          ∧ (writeTimeout s).lens = { s.lens with records := s.lens.records.set i (some { r with
              baseline := s.cfg.soiling.baseline, unbaselined := true }) })
      ∧ (s.store.kind ≠ .capture → recs = s.store.records ∧ (writeTimeout s).lens = s.lens)
      ∧ (writeTimeout s).tables = s.tables ∧ (writeTimeout s).engine = s.engine
      ∧ (writeTimeout s).intake = s.intake := by
  obtain ⟨hcstore, hclens, hctables, hcengine, hcintake, hccfg⟩ := cutState_rest s
  by_cases hk : s.store.kind = .capture
  · rw [writeTimeout_capture hp hi ht hw hk]
    unfold useDefault
    generalize hu : (cutState s).setStore ((cutState s).store.setRecord i false (Vector.replicate 16 0)) = u
    obtain ⟨hstore, hintake, htables, hengine, hmem⟩ :=
      changeLens_rest i (fun r => r.rebase u.cfg.soiling.baseline true) u
    obtain rfl := hu
    refine ⟨_, hstore.trans ?_, hmem, fun _ r hr => ⟨rfl, ?_⟩, fun h => absurd hk h, htables.trans hctables,
      hengine.trans hcengine, hintake.trans hcintake⟩
    · rw [State.setStore_store, hcstore]
      rfl
    · rw [changeLens_lens (r := r) (by rw [State.setStore_lens, hclens]; exact hr), State.setStore_lens, hclens,
        State.setStore_cfg, hccfg]
      rfl
  · rw [writeTimeout_clear hp hi ht hw hk]
    exact ⟨_, hcstore, rfl, fun h => absurd h hk, fun _ => ⟨rfl, hclens⟩, hctables, hcengine, hcintake⟩

/-- Settles O44: the end of the operation, and the bytes in the configuration memory. -/
theorem recordWriteEnds : Obligations.RecordWriteEnds := by
  refine ⟨fun s i hs hw hp hi => ?_, fun s i w hs hw hp hi ht h50 => ?_⟩
  · obtain ⟨recs, hstore, hmem, hcapture, hclear, htables, hengine, hintake⟩ := writeComplete_ends hp hi
    refine ⟨_, exec_act (f := writeComplete) hs rfl, ?_⟩
    rw [refreshPins_store, refreshPins_confMem, hstore, hmem]
    exact ⟨rfl, rfl, rfl, rfl, rfl, rfl, memReadBytes_memWriteBytes _ _ _ hw,
      fun a ha => memRead_memWriteBytes_outside _ _ _ _ hw ha, memWriteBytes_wf _ _ _ hw, hcapture, hclear, htables,
      hengine, hintake⟩
  · obtain ⟨recs, hstore, hmem, hcapture, hclear, htables, hengine, hintake⟩ := writeTimeout_ends hp hi ht h50
    obtain ⟨houtside, hinside, hwhole⟩ := tearWrite_memory hw hp hi
    refine ⟨_, exec_actClock (f := writeTimeout) hs rfl, ?_⟩
    rw [refreshPins_store, refreshPins_confMem, hstore, hmem]
    refine ⟨rfl, rfl, rfl, rfl, houtside, hinside, hwhole, fun hk r hr => ?_, hclear, htables, hengine, hintake⟩
    obtain ⟨rfl, hlens⟩ := hcapture hk r hr
    exact ⟨⟨_, (getElem_set_fin ..).trans (if_pos rfl), rfl⟩, hlens⟩

end Sys2Proof.Machine
end

