-- ==== Sys2Proof/Proofs/ServiceRequests.lean ====
section
/-! SUPPORT. The requests of the service line: which of them are taken (R169 to R172), what the owner of each answers (R109, R110,
R116, R119), and how the content of STATUS begins (R173). -/
namespace Sys2Proof.Machine

/-! ### Which requests are taken -/

/-- A request that is sent while a reply is pending is lost (R170; log 33). -/
theorem requestCommand_pending {s : State} {k : Byte} {r : Option (List Byte)} (h : s.service = .answer k r)
    (q : RequestKind) (b : Byte) : requestCommand q b s = s := by
  unfold requestCommand
  rw [h]
  exact ite_self s

/-- A started station that has no reply pending takes a request (R170, R171). -/
theorem requestCommand_taken {s : State} (hb : s.boot.phase = .started) (hno : ∀ k r, s.service ≠ .answer k r)
    (q : RequestKind) (b : Byte) : requestCommand q b s = takeRequest q b s := by
  unfold requestCommand
  rw [if_pos hb]
  split
  · next k r h => exact absurd h (hno k r)
  · rfl

/-- An INERT station answers every request but STATUS with BAD_REQUEST (R169, R171). -/
theorem takeRequest_inert {s : State} {q : RequestKind} (h : s.trunk.state = .inert) (hq : q ≠ .status) (b : Byte) :
    takeRequest q b s = answerBad s :=
  if_pos ⟨h, hq⟩

/-- Any other station hands a request to its owner, and so does an INERT one with STATUS (R171). -/
theorem takeRequest_handed {s : State} {q : RequestKind} (h : s.trunk.state ≠ .inert ∨ q = .status) (b : Byte) :
    takeRequest q b s = handRequest q b s :=
  if_neg fun ⟨hi, hq⟩ => h.elim (absurd hi) fun he => absurd he hq

/-- A station that acts is not INERT (R169). -/
theorem not_inert_of_acting {s : State} (h : s.acting = true) : s.trunk.state ≠ .inert := fun hi =>
  absurd (h.symm.trans (acting_of_inert hi)) (by decide)

/-- In a settled station that acts a request with no reply pending is its owner's to answer (R171). -/
theorem exec_request {c : Instr} {q : RequestKind} {b : Byte} {s t : State} (hs : Settled s) (hb : s.boot.phase = .started)
    (hno : ∀ k r, s.service ≠ .answer k r) (h : s.trunk.state ≠ .inert ∨ q = .status)
    (hc : exec c s = .next (act (requestCommand q b) s)) (ht : handRequest q b s = t) :
    exec c s = .next (refreshPins t) := by
  rw [exec_act hs hc, requestCommand_taken hb hno, takeRequest_handed h, ht]

/-! ### The input that a request names -/

/-- The byte of an index below n is the only byte that is read as it. -/
theorem eq_byte_of_finOfByte {n : Nat} {b : Byte} {i : Fin n} (h : finOfByte n b = some i) : b = byte i.val := by
  unfold finOfByte at h
  split at h
  · obtain rfl := Option.some.inj h
    show b = BitVec.ofNat 8 b.toNat
    rw [BitVec.ofNat_toNat, BitVec.setWidth_eq]
  · cases h

/-- The byte of a populated input names it (R116, R119). -/
theorem populatedInput_byte {s : State} {i : Input} (h : s.cfg.cams[i] ≠ none) :
    s.populatedInput (byte i.val) = some i := by
  unfold State.populatedInput
  rw [finOfByte_byte (by decide)]
  exact if_pos (Option.isSome_iff_ne_none.mpr h)

/-- A byte that is not the byte of a populated input names none (R116, R119). -/
theorem populatedInput_none {s : State} {b : Byte} (h : ∀ i : Input, b = byte i.val → s.cfg.cams[i] = none) :
    s.populatedInput b = none := by
  unfold State.populatedInput
  split
  · next i hi =>
    have hnot : s.cfg.populated i = false := by
      unfold Settings.populated
      rw [h i (eq_byte_of_finOfByte hi)]
      rfl
    rw [hnot]
    rfl
  · rfl

/-! ### CAPTURE and CLEAR (R116, R119) -/

section
variable {s : State} {b : Byte}

theorem judgeOp_badCamera (h : ∀ i : Input, b = byte i.val → s.cfg.cams[i] = none) (live : Bool) :
    s.judgeOp b live = (.badCamera, none) := by
  unfold State.judgeOp
  rw [populatedInput_none h]

/-- The judging of a populated input, in the order of R171 (R116, R119). -/
theorem judgeOp_populated {i : Input} (h : s.cfg.cams[i] ≠ none) (live : Bool) : s.judgeOp (byte i.val) live =
    if s.store.unlocked = false then (.locked, none)
    else if s.store.busy = true then (.busy, none)
    else if live = true ∧ s.inputLive i = false then (.notLive, none)
    else (.accepted, some i) := by
  unfold State.judgeOp
  rw [populatedInput_byte h]
  simp only [Bool.not_eq_true', Bool.and_eq_true]

/-- A CAPTURE that is refused is answered so, and nothing else happens (R116). -/
theorem answerCapture_refused {st : ReplyStatus} (h : s.judgeOp b true = (st, none)) :
    answerCapture b s = answerWith 0x06#8 st [] s := by
  unfold answerCapture
  rw [h]
  rfl

/-- A CLEAR that is refused is answered so, and nothing else happens (R119). -/
theorem answerClear_refused {st : ReplyStatus} (h : s.judgeOp b false = (st, none)) :
    answerClear b s = answerWith 0x07#8 st [] s := by
  unfold answerClear
  rw [h]
  rfl

/-- A CAPTURE that is accepted waits for the engine, which chooses (R96, R116). -/
theorem answerCapture_accepted {i : Input} (h : s.judgeOp b true = (.accepted, some i)) : answerCapture b s =
    answerWith 0x06#8 .accepted [] (passBoundary (s.setStore (s.store.accept .capture i .waiting))) := by
  unfold answerCapture
  rw [h]
  rfl

/-- A CLEAR that is accepted begins the write of a record of zeros (R119). -/
theorem answerClear_accepted {i : Input} (h : s.judgeOp b false = (.accepted, some i)) :
    answerClear b s = answerWith 0x07#8 .accepted [] (acceptClear i s) := by
  unfold answerClear
  rw [h]
  rfl

/-- How a CAPTURE of a populated input is refused (R116, R171). -/
theorem judgeOp_capture_refused {i : Input} {st : ReplyStatus} (h : s.cfg.cams[i] ≠ none)
    (hst : st = if s.store.unlocked = false then ReplyStatus.locked else if s.store.busy = true then .busy
      else if s.inputLive i = false then .notLive else .accepted) (hne : st ≠ .accepted) :
    s.judgeOp (byte i.val) true = (st, none) := by
  rw [judgeOp_populated h]
  subst hst
  split
  · rfl
  · split
    · rfl
    · split
      · next hl => rw [if_pos hl.2]
      · next hu hb hl =>
        rw [if_neg hu, if_neg hb, if_neg fun h => hl ⟨rfl, h⟩] at hne
        exact absurd rfl hne

/-- How a CLEAR of a populated input is refused (R119, R172). -/
theorem judgeOp_clear_refused {i : Input} {st : ReplyStatus} (h : s.cfg.cams[i] ≠ none)
    (hst : st = if s.store.unlocked = false then ReplyStatus.locked else if s.store.busy = true then .busy
      else .accepted) (hne : st ≠ .accepted) : s.judgeOp (byte i.val) false = (st, none) := by
  rw [judgeOp_populated h]
  subst hst
  split
  · rfl
  · split
    · rfl
    · next hu hb =>
      rw [if_neg hu, if_neg hb] at hne
      exact absurd rfl hne

/-- When a CAPTURE or CLEAR of a populated input is accepted (R116, R119). -/
theorem judgeOp_accepted {i : Input} {live : Bool} (h : s.cfg.cams[i] ≠ none) (hu : s.store.unlocked = true)
    (hb : s.store.busy = false) (hl : live = true → s.inputLive i = true) :
    s.judgeOp (byte i.val) live = (.accepted, some i) := by
  rw [judgeOp_populated h, if_neg (by simp [hu]), if_neg (by simp [hb]), if_neg]
  rintro ⟨hlive, hdead⟩
  exact absurd ((hl hlive).symm.trans hdead) (by decide)

/-- The store as a CLEAR is accepted: the record is INVALID, and the write of a record of zeros begins (R115, R119). -/
def clearedStore (i : Input) (c : BaselineStore) : BaselineStore := { c with
  records := c.records.set i (some { valid := false, values := Vector.replicate 16 0 })
  unlocked := false, lifeTimer := none, busy := true, done := false, kind := .clear, input := some i
  phase := .writing, held := 0, sums := Vector.replicate 16 0, writeTimer := some 0, result := .none
  writing := recordBytes (Vector.replicate 16 0) }

/-- The acceptance of a CLEAR: the store's operation, and the default baseline in use (R104, R119). -/
theorem acceptClear_record {i : Input} {r : LensRecord} (hr : s.lens.records[i] = some r) : acceptClear i s =
    putLens i r (r.rebase s.cfg.soiling.baseline true) (s.setStore (clearedStore i s.store)) :=
  changeLens_of_record (s := s.setStore (clearedStore i s.store)) hr _

end

/-- Settles O46: the refusals in the order of R171, and what an accepted request begins. -/
theorem captureAndClearRequests : Obligations.CaptureAndClearRequests := by
  intro s b hs ha hno
  have hcapture {t : State} (ht : answerCapture b s = t) : exec (.capture b) s = .next (refreshPins t) :=
    exec_request (q := .capture) hs (started_of_acting ha) hno (.inl (not_inert_of_acting ha)) rfl ht
  have hclear {t : State} (ht : answerClear b s = t) : exec (.clear b) s = .next (refreshPins t) :=
    exec_request (q := .clear) hs (started_of_acting ha) hno (.inl (not_inert_of_acting ha)) rfl ht
  refine ⟨fun h => ⟨hcapture (answerCapture_refused (judgeOp_badCamera h true)),
    hclear (answerClear_refused (judgeOp_badCamera h false))⟩, fun i hi hc => ?_⟩
  subst hi
  refine ⟨fun st hst hne => hcapture (answerCapture_refused (judgeOp_capture_refused hc hst hne)),
    fun st hst hne => hclear (answerClear_refused (judgeOp_clear_refused hc hst hne)), fun hu hb hl he => ?_,
    fun hu hb hl he => ?_, fun r hu hb hr => ?_⟩
  · refine hcapture ((answerCapture_accepted (judgeOp_accepted hc hu hb fun _ => hl)).trans ?_)
    exact congrArg (answerWith 0x06#8 .accepted [])
      (passBoundary_at_work (s := s.setStore (s.store.accept .capture i .waiting)) he)
  · refine hcapture ((answerCapture_accepted (judgeOp_accepted hc hu hb fun _ => hl)).trans ?_)
    exact congrArg (answerWith 0x06#8 .accepted [])
      (passBoundary_capture (s := s.setStore (s.store.accept .capture i .waiting)) he rfl rfl hl)
  · obtain ⟨hstore, -, htables, hengine, hmem⟩ :=
      putLens_rest i r (r.rebase s.cfg.soiling.baseline true) (s.setStore (clearedStore i s.store))
    refine ⟨_, hclear ((answerClear_accepted (judgeOp_accepted hc hu hb nofun)).trans
      (congrArg (answerWith 0x07#8 .accepted []) (acceptClear_record hr))), hstore, putLens_lens .., rfl, htables, hmem,
      hengine, fun hd => ?_⟩
    show (putLens i r (r.rebase s.cfg.soiling.baseline true) (s.setStore (clearedStore i s.store))).queue = s.queue
    rw [putLens_quiet (old := r) (new := r.rebase s.cfg.soiling.baseline true) rfl rfl hd.symm]
    rfl

/-! ### LENS and PROBE (R109, R110) -/

/-- LENS of an input that has a lens record (R110). -/
theorem answerLens_record {s : State} {i : Input} {r : LensRecord} (hr : s.lens.records[i] = some r) :
    answerLens (byte i.val) s = answerWith 0x03#8 .accepted r.bytes s := by
  unfold answerLens
  rw [finOfByte_byte (by decide)]
  simp only [hr]
  rfl

/-- LENS of anything else (R110). -/
theorem answerLens_none {s : State} {b : Byte} (h : ∀ i : Input, b = byte i.val → s.lens.records[i] = none) :
    answerLens b s = answerWith 0x03#8 .badCamera [] s := by
  unfold answerLens
  cases hi : finOfByte 4 b with
  | none => rfl
  | some i =>
    simp only [h i (eq_byte_of_finOfByte hi)]
    rfl

/-- PROBE while the store is busy (R109). -/
theorem answerProbeRequest_busy {s : State} (h : s.store.busy = true) (b : Byte) :
    answerProbeRequest b s = answerWith 0x04#8 .busy [] s :=
  if_pos h

/-- PROBE of an input that is not LIVE, or of none (R109). -/
theorem answerProbeRequest_notLive {s : State} {b : Byte} (hb : s.store.busy = false)
    (h : ∀ i : Input, b = byte i.val → s.cfg.cams[i] = none ∨ s.inputLive i = false) :
    answerProbeRequest b s = answerWith 0x04#8 .notLive [] s := by
  unfold answerProbeRequest
  rw [if_neg (by simp [hb])]
  split
  · next i hi =>
    have hbyte : b = byte i.val ∧ s.cfg.cams[i] ≠ none := by
      unfold State.populatedInput at hi
      split at hi
      · next j hj =>
        split at hi
        · next hpop =>
          obtain rfl := Option.some.inj hi
          exact ⟨eq_byte_of_finOfByte hj, Option.isSome_iff_ne_none.mp hpop⟩
        · cases hi
      · cases hi
    rw [(h i hbyte.1).resolve_left hbyte.2]
    rfl
  · rfl

/-- PROBE of a LIVE input waits for the engine, which chooses (R96, R109). -/
theorem answerProbeRequest_waits {s : State} {i : Input} (hb : s.store.busy = false) (hc : s.cfg.cams[i] ≠ none)
    (hl : s.inputLive i = true) : answerProbeRequest (byte i.val) s = passBoundary
      ((s.setService (.answer 0x04#8 none)).setLens { s.lens with probeWaiting := some i }) := by
  unfold answerProbeRequest
  rw [if_neg (by simp [hb]), populatedInput_byte hc]
  exact if_pos hl

/-! ### The content of STATUS (R173) -/

/-- The content of STATUS begins with the station part. -/
theorem statusContent_take (s : State) : s.statusContent.take 8 = s.statusStation := by
  unfold State.statusContent
  dsimp only
  split
  · rfl
  · rfl

/-- The counters of R21 and the consecutive clash count are 17 bytes. -/
theorem statusContent_inert {s : State} (h : s.trunk.state = .inert) : s.statusContent.length = 25 := by
  unfold State.statusContent
  rw [if_pos h]
  rfl

/-- Settles O57: a reply pending, STATUS, an INERT station, and the other requests of one that is not. -/
theorem serviceRequests : Obligations.ServiceRequests := by
  intro s hs hb
  refine ⟨fun k r hk x c hc => ?_, fun hno => ⟨?_, fun hi x c hc => ?_, fun hi => ?_⟩, ?_, statusContent_inert⟩
  · have hlost {d : Instr} {q : RequestKind} {y : Byte} (h : exec d s = .next (act (requestCommand q y) s)) :
        exec d s = .next (refreshPins s) := by rw [exec_act hs h, requestCommand_pending hk]
    simp only [List.mem_cons, List.not_mem_nil, or_false] at hc
    rcases hc with rfl | rfl | rfl | rfl | rfl | rfl | rfl <;> exact hlost rfl
  · exact exec_request (q := .status) hs hb hno (.inr rfl) rfl rfl
  · have hbad {d : Instr} {q : RequestKind} {y : Byte} (hq : q ≠ .status)
        (h : exec d s = .next (act (requestCommand q y) s)) : exec d s = .next (refreshPins (answerBad s)) := by
      rw [exec_act hs h, requestCommand_taken hb hno, takeRequest_inert hi hq]
    simp only [List.mem_cons, List.not_mem_nil, or_false] at hc
    rcases hc with rfl | rfl | rfl | rfl | rfl | rfl <;> exact hbad RequestKind.noConfusion rfl
  · have hlens {y : Byte} {t : State} (ht : answerLens y s = t) : exec (.lens y) s = .next (refreshPins t) :=
      exec_request (q := .lens) hs hb hno (.inl hi) rfl ht
    have hprobe {y : Byte} {t : State} (ht : answerProbeRequest y s = t) : exec (.probe y) s = .next (refreshPins t) :=
      exec_request (q := .probe) hs hb hno (.inl hi) rfl ht
    refine ⟨exec_request (q := .roster) hs hb hno (.inl hi) rfl rfl, fun i r hr => hlens (answerLens_record hr),
      fun x h => hlens (answerLens_none h), fun x h => hprobe (answerProbeRequest_busy h x),
      fun x hfree h => hprobe (answerProbeRequest_notLive hfree h),
      fun i hfree hc hl => ⟨fun he => ?_, fun he hp => ?_⟩⟩
    · exact hprobe ((answerProbeRequest_waits hfree hc hl).trans (passBoundary_at_work he))
    · refine hprobe ((answerProbeRequest_waits hfree hc hl).trans ?_)
      exact passBoundary_probe he (fun h => by exact OpPhase.noConfusion (hp.symm.trans h)) rfl hl
  · rw [statusContent_take]
    unfold State.statusStation
    simp only [beq_iff_eq]
    rfl

end Sys2Proof.Machine
end

