-- ==== Sys2Proof/Proofs/Verdict.lean ====
section
/-! SUPPORT. The verdict of a pass (R100, R101), and the statistics of a frame that it is made from (R99). -/
namespace Sys2Proof.Machine

/-! ### Lists of numbers by their places -/

theorem sumNat_eq_sum (xs : List Nat) : sumNat xs = xs.sum := by
  induction xs with
  | nil => rfl
  | cons x xs ih => rw [List.sum_cons, ← ih, sumNat]

/-- h lines of w values each, by line and place. -/
def grid {α : Type} (h w : Nat) (f : Nat → Nat → α) : List (List α) :=
  (List.range h).map fun i => (List.range w).map (f i)

/-- A list is told by its values. -/
theorem eq_map_range {α : Type} {xs : List α} {n : Nat} {f : Nat → α} (hl : xs.length = n)
    (hf : ∀ (i : Nat) (x : α), xs[i]? = some x → f i = x) : xs = (List.range n).map f := by
  refine List.ext_getElem (by simp [hl]) fun i hi _ => ?_
  rw [List.getElem_map, List.getElem_range]
  exact (hf i xs[i] (List.getElem?_eq_getElem hi)).symm

/-- Lines of one length are such a grid. -/
theorem eq_grid {zone : List (List Nat)} {h w : Nat} {px : Nat → Nat → Nat} (hl : zone.length = h)
    (hw : ∀ row ∈ zone, row.length = w) (hpx : ∀ i j, px i j = (zone[i]?.getD [])[j]?.getD 0) : zone = grid h w px := by
  refine eq_map_range hl fun i row hrow => ?_
  refine (eq_map_range (hw row (List.mem_of_getElem? hrow)) fun j x hx => ?_).symm
  rw [hpx, hrow, Option.getD_some, hx, Option.getD_some]

theorem grid_flatten_length {α : Type} (h w : Nat) (f : Nat → Nat → α) : (grid h w f).flatten.length = h * w := by
  simp [grid, List.length_flatten, Function.comp_def]

theorem sumNat_grid (h w : Nat) (f : Nat → Nat → Nat) : sumNat (grid h w f).flatten =
    ((List.range h).map fun i => ((List.range w).map fun j => f i j).sum).sum := by
  rw [sumNat_eq_sum, List.sum_flatten, grid, List.map_map]
  rfl

/-- Each value with the one behind it. -/
theorem zipWith_tail_map_range {α β : Type} (g : α → α → β) (f : Nat → α) (n : Nat) :
    List.zipWith g ((List.range n).map f) ((List.range n).map f).tail
      = (List.range (n - 1)).map fun i => g (f i) (f (i + 1)) := by
  refine List.ext_getElem (by simp) fun i _ _ => ?_
  simp

/-- Lists of lists of the same lengths, value by value. -/
theorem zipWith_flatten_map {ι α : Type} (g : α → α → α) (F G : ι → List α) (xs : List ι)
    (h : ∀ x, (F x).length = (G x).length) : List.zipWith g (xs.map F).flatten (xs.map G).flatten
      = (xs.map fun x => List.zipWith g (F x) (G x)).flatten := by
  induction xs with
  | nil => rfl
  | cons x xs ih =>
    simp only [List.map_cons, List.flatten_cons]
    rw [List.zipWith_append (h x), ih]

theorem zipWith_map_range {α β : Type} (g : α → α → β) (f f' : Nat → α) (n : Nat) :
    List.zipWith g ((List.range n).map f) ((List.range n).map f') = (List.range n).map fun i => g (f i) (f' i) := by
  rw [List.zipWith_map, List.zipWith_self]

/-! ### The statistics of a zone (R99) -/

theorem absDiff_eq (a b : Nat) : absDiff a b = max a b - min a b := by
  unfold absDiff
  split <;> omega

/-- The differences to the right and below (R99). -/
theorem edgeDiffs_grid (h w : Nat) (f : Nat → Nat → Nat) : edgeDiffs (grid h w f) =
    (grid h (w - 1) fun i j => absDiff (f i j) (f i (j + 1))).flatten
      ++ (grid (h - 1) w fun i j => absDiff (f i j) (f (i + 1) j)).flatten := by
  unfold edgeDiffs grid
  rw [List.map_map, zipWith_tail_map_range]
  simp only [Function.comp_def, rightDiffs, diffs, zipWith_tail_map_range, zipWith_map_range]

/-- The differences to the same places of the frame before (R99). -/
theorem diffs_grid (h w : Nat) (f g : Nat → Nat → Nat) : diffs (grid h w f).flatten (grid h w g).flatten =
    (grid h w fun i j => absDiff (f i j) (g i j)).flatten := by
  unfold diffs grid
  rw [zipWith_flatten_map _ _ _ _ fun _ => by simp]
  simp only [zipWith_map_range]

/-- Mean brightness, edge energy and temporal difference of a zone (R99). -/
theorem zoneStatistics (h w : Nat) (px old : Nat → Nat → Nat) :
    zoneMean (grid h w px) = sumNat (grid h w px).flatten / (h * w)
      ∧ zoneEnergy (grid h w px) = 16 * (sumNat (grid h (w - 1) fun i j => absDiff (px i j) (px i (j + 1))).flatten
          + sumNat (grid (h - 1) w fun i j => absDiff (px i j) (px (i + 1) j)).flatten) / (h * (w - 1) + (h - 1) * w)
      ∧ zoneTemporal (grid h w px) (grid h w old)
          = sumNat (grid h w fun i j => absDiff (px i j) (old i j)).flatten / (h * w) := by
  refine ⟨?_, ?_, ?_⟩
  · rw [zoneMean, grid_flatten_length]
  · rw [zoneEnergy, edgeDiffs_grid, List.length_append, grid_flatten_length, grid_flatten_length, sumNat_eq_sum,
      List.sum_append, ← sumNat_eq_sum, ← sumNat_eq_sum]
  · rw [zoneTemporal, diffs_grid, grid_flatten_length]

/-! ### The pixels of a zone (R99) -/

theorem slice_length {α : Type} {lo hi : Nat} {xs : List α} (h : hi ≤ xs.length) :
    (slice lo hi xs).length = hi - lo := by
  unfold slice
  rw [List.length_take, List.length_drop]
  omega

theorem slice_getElem? {α : Type} {lo hi k : Nat} (h : k < hi - lo) (xs : List α) :
    (slice lo hi xs)[k]? = xs[lo + k]? := by
  unfold slice
  rw [List.getElem?_take_of_lt h, List.getElem?_drop]

theorem mem_of_mem_slice {α : Type} {lo hi : Nat} {xs : List α} {x : α} (h : x ∈ slice lo hi xs) : x ∈ xs :=
  List.mem_of_mem_drop (List.mem_of_mem_take h)

/-- The luma of a pixel is its upper 8 bits (R70). -/
theorem luma_eq (p : Pixel) : luma p = p.toNat / 256 := by
  unfold luma hiByte
  rw [BitVec.extractLsb'_toNat, Nat.shiftRight_eq_div_pow]
  have := p.isLt
  omega

/-- A quarter of the lines or pixels ends inside them. -/
theorem quarter_le {k : Nat} (h : k < 4) (n : Nat) : (k + 1) * n / 4 ≤ n := by
  have : (k + 1) * n ≤ 4 * n := Nat.mul_le_mul_right n h
  omega

/-- The lumas of a zone of a whole frame: how many lines and places, and each value (R99). -/
theorem zoneLumas_frame {lines pixels : Nat} {frame : FrameLines} (hl : frame.length = lines)
    (hp : ∀ l ∈ frame, l.length = pixels) (z : Fin 16) :
    (zoneLumas lines pixels frame z.val).length = (z.val / 4 + 1) * lines / 4 - z.val / 4 * lines / 4
      ∧ (∀ row ∈ zoneLumas lines pixels frame z.val,
        row.length = (z.val % 4 + 1) * pixels / 4 - z.val % 4 * pixels / 4)
      ∧ ∀ (i j : Nat) (px : List Pixel) (p : Pixel), i < (z.val / 4 + 1) * lines / 4 - z.val / 4 * lines / 4 →
        j < (z.val % 4 + 1) * pixels / 4 - z.val % 4 * pixels / 4 → frame[z.val / 4 * lines / 4 + i]? = some px →
        px[z.val % 4 * pixels / 4 + j]? = some p →
        ((zoneLumas lines pixels frame z.val)[i]?.getD [])[j]? = some (p.toNat / 256) := by
  have hrow : (z.val / 4 + 1) * lines / 4 ≤ frame.length := hl ▸ quarter_le (k := z.val / 4) (by omega) lines
  have hcol : (z.val % 4 + 1) * pixels / 4 ≤ pixels := quarter_le (by omega) pixels
  unfold zoneLumas
  dsimp only
  refine ⟨?_, fun row hrow => ?_, fun i j px p hi hj hpx hpp => ?_⟩
  · rw [List.length_map, slice_length hrow]
  · obtain ⟨l, hmem, rfl⟩ := List.mem_map.mp hrow
    rw [List.length_map, slice_length (by rw [hp l (mem_of_mem_slice hmem)]; exact hcol)]
  · rw [List.getElem?_map, slice_getElem? hi, hpx, Option.map_some, Option.getD_some, List.getElem?_map,
      slice_getElem? hj, hpp, Option.map_some, luma_eq]

/-! ### Brightness and contrast of a frame (R99) -/

theorem foldl_max_eq {xs : List Nat} {a m : Nat} (ha : a ≤ m) (hle : ∀ x ∈ xs, x ≤ m) (hm : m = a ∨ m ∈ xs) :
    xs.foldl Nat.max a = m := by
  induction xs generalizing a with
  | nil => exact (hm.resolve_right (List.not_mem_nil)).symm
  | cons x xs ih =>
    have hx : x ≤ m := hle x (by simp)
    refine ih (Nat.max_le.mpr ⟨ha, hx⟩) (fun y hy => hle y (by simp [hy])) ?_
    rcases hm with rfl | hm
    · exact .inl (Nat.max_eq_left hx).symm
    · rcases List.mem_cons.mp hm with rfl | hm
      · exact .inl (Nat.max_eq_right ha).symm
      · exact .inr hm

theorem foldl_min_eq {xs : List Nat} {a m : Nat} (ha : m ≤ a) (hle : ∀ x ∈ xs, m ≤ x) (hm : m = a ∨ m ∈ xs) :
    xs.foldl Nat.min a = m := by
  induction xs generalizing a with
  | nil => exact (hm.resolve_right (List.not_mem_nil)).symm
  | cons x xs ih =>
    have hx : m ≤ x := hle x (by simp)
    refine ih (Nat.le_min.mpr ⟨ha, hx⟩) (fun y hy => hle y (by simp [hy])) ?_
    rcases hm with rfl | hm
    · exact .inl (Nat.min_eq_left hx).symm
    · rcases List.mem_cons.mp hm with rfl | hm
      · exact .inl (Nat.min_eq_right ha).symm
      · exact .inr hm

/-- The highest of some numbers is the one that no other exceeds. -/
theorem highest_eq {xs : List Nat} {m : Nat} (hm : m ∈ xs) (hle : ∀ x ∈ xs, x ≤ m) : highest xs = m :=
  foldl_max_eq (Nat.zero_le m) hle (.inr hm)

/-- The lowest of some numbers is the one that exceeds no other. -/
theorem lowest_eq {xs : List Nat} {m : Nat} (hm : m ∈ xs) (hle : ∀ x ∈ xs, m ≤ x) : lowest xs = m := by
  cases xs with
  | nil => exact absurd hm List.not_mem_nil
  | cons x xs => exact foldl_min_eq (hle x (by simp)) (fun y hy => hle y (by simp [hy])) (List.mem_cons.mp hm)

/-- The values of a vector by index. -/
theorem toList_eq_map_finRange {α : Type} {n : Nat} (v : Vector α n) :
    v.toList = (List.finRange n).map fun z => v[z] :=
  List.ext_getElem (by simp) fun i _ _ => by simp

/-- Brightness and contrast of a frame by its zone means (R99). -/
theorem brightness_contrast {means : Vector Nat 16} {hi lo : Fin 16}
    (h : ∀ z : Fin 16, means[z] ≤ means[hi] ∧ means[lo] ≤ means[z]) :
    brightnessOf means = ((List.finRange 16).map fun z => means[z]).sum / 16
      ∧ contrastOf means = means[hi] - means[lo] := by
  have hmem (z : Fin 16) : means[z] ∈ (List.finRange 16).map fun z => means[z] :=
    List.mem_map.mpr ⟨z, List.mem_finRange z, rfl⟩
  have hall {P : Nat → Prop} (hP : ∀ z : Fin 16, P means[z]) : ∀ x ∈ (List.finRange 16).map fun z => means[z], P x := by
    intro x hx
    obtain ⟨z, -, rfl⟩ := List.mem_map.mp hx
    exact hP z
  unfold brightnessOf contrastOf
  rw [toList_eq_map_finRange, sumNat_eq_sum, highest_eq (hmem hi) (hall fun z => (h z).1),
    lowest_eq (hmem lo) (hall fun z => (h z).2)]
  exact ⟨rfl, rfl⟩

/-! ### The verdict (R100, R101) -/

/-- How many zones satisfy a condition. -/
theorem countZones_eq (p : Fin 16 → Bool) : countZones p = ((List.finRange 16).filter p).length := rfl

/-- The verdict of steps 4 to 6 (R100). -/
theorem scoredVerdict_eq (collapse contrast scored suspect : Nat) : scoredVerdict collapse contrast scored suspect =
    if scored < 8 then .indecisive .disturbed
    else if contrast < collapse then .decisive .obscured
    else if suspect ≤ 1 then .decisive .clean
    else if suspect ≤ 4 then .decisive .watch
    else if suspect ≤ 9 then .decisive .soiled
    else .decisive .obscured := by
  unfold scoredVerdict gradeOfCount
  simp only [apply_ite Verdict.decisive]

/-- Steps 4 to 6 give neither DARK nor NO_REFERENCE (R100). -/
theorem scoredVerdict_ne (collapse contrast scored suspect : Nat) :
    scoredVerdict collapse contrast scored suspect ≠ .dark
      ∧ scoredVerdict collapse contrast scored suspect ≠ .indecisive .noReference := by
  unfold scoredVerdict
  split
  · simp
  · split <;> simp

section
variable (s : State) (r : LensRecord) (frame : FrameLines)

/-- Every pass has the brightness, the contrast and the ratios of its frame (R99). -/
theorem passOf_statistics : (s.passOf r frame).brightness = brightnessOf (s.zoneMeans frame)
    ∧ (s.passOf r frame).contrast = contrastOf (s.zoneMeans frame)
    ∧ (s.passOf r frame).ratios = vec16 (fun z => zoneRatio (s.zoneEnergies frame)[z] r.baseline[z]) := by
  unfold State.passOf
  dsimp only
  split
  · exact ⟨rfl, rfl, rfl⟩
  · split <;> exact ⟨rfl, rfl, rfl⟩

variable {s r frame}

/-- A frame below the dark floor is DARK (R100; log 71). -/
theorem passOf_dark (h : brightnessOf (s.zoneMeans frame) < s.cfg.soiling.darkFloor) :
    (s.passOf r frame).verdict = .dark := by
  unfold State.passOf
  dsimp only
  rw [if_pos h]

/-- A brighter frame with no previous pass frame has no reference (R100). -/
theorem passOf_noReference (h : s.cfg.soiling.darkFloor ≤ brightnessOf (s.zoneMeans frame)) (hr : r.previous = none) :
    (s.passOf r frame).verdict = .indecisive .noReference := by
  unfold State.passOf
  dsimp only
  rw [if_neg (Nat.not_lt.mpr h), hr]

/-- A brighter frame with a previous pass frame is scored zone by zone (R100, R101; log 27). -/
theorem passOf_scored {before : FrameLines} (h : s.cfg.soiling.darkFloor ≤ brightnessOf (s.zoneMeans frame))
    (hr : r.previous = some before) : (s.passOf r frame).disturbed = s.disturbedZones frame before
      ∧ (s.passOf r frame).scored = countZones (fun z => !(s.passOf r frame).disturbed[z])
      ∧ (s.passOf r frame).suspect = countZones (fun z =>
          !(s.passOf r frame).disturbed[z] && decide ((s.passOf r frame).ratios[z] < s.cfg.soiling.suspect))
      ∧ (s.passOf r frame).verdict = scoredVerdict s.cfg.soiling.collapse (s.passOf r frame).contrast
          (s.passOf r frame).scored (s.passOf r frame).suspect := by
  unfold State.passOf
  dsimp only
  rw [if_neg (Nat.not_lt.mpr h), hr]
  exact ⟨rfl, rfl, rfl, rfl⟩

/-- When a pass is DARK, and when it has no reference (R100). -/
theorem passOf_unscored : ((s.passOf r frame).verdict = .dark
      ↔ brightnessOf (s.zoneMeans frame) < s.cfg.soiling.darkFloor)
    ∧ ((s.passOf r frame).verdict = .indecisive .noReference
      ↔ s.cfg.soiling.darkFloor ≤ brightnessOf (s.zoneMeans frame) ∧ r.previous = none) := by
  rcases Nat.lt_or_ge (brightnessOf (s.zoneMeans frame)) s.cfg.soiling.darkFloor with h | h
  · rw [passOf_dark h]
    simp [h]
  · cases hr : r.previous with
    | none =>
      rw [passOf_noReference h hr]
      simp [h]
    | some before =>
      obtain ⟨-, -, -, hv⟩ := passOf_scored h hr
      have hne := scoredVerdict_ne s.cfg.soiling.collapse (s.passOf r frame).contrast (s.passOf r frame).scored
        (s.passOf r frame).suspect
      rw [← hv] at hne
      simp [hne, h]

end

/-- Settles O40: the steps of the verdict, then the zones and their statistics. -/
theorem verdictOfPass : Obligations.VerdictOfPass := by
  refine ⟨fun s r frame p hp => ?_, fun lines pixels frame z zone top left h w hl hpx hzone ht hle hh hw => ?_,
    fun zone before px old h w hzl hbl hzw hbw hpx hold total gap htotal hgap => ?_,
    fun s frame z => ⟨vec16_get _ z, vec16_get _ z⟩, fun means hi lo h => brightness_contrast h⟩
  · subst hp
    obtain ⟨hb, hc, hratios⟩ := passOf_statistics s r frame
    obtain ⟨hdark, hnone⟩ := passOf_unscored (s := s) (r := r) (frame := frame)
    rw [hb]
    refine ⟨rfl, hc, fun z => ?_, hdark, hnone, fun before hbright hr => ?_⟩
    · rw [hratios]
      exact vec16_get _ z
    · obtain ⟨hdis, hscored, hsuspect, hv⟩ := passOf_scored hbright hr
      refine ⟨fun z => ?_, hscored.trans (countZones_eq _), hsuspect.trans (countZones_eq _), hv.trans (scoredVerdict_eq ..)⟩
      rw [hdis]
      exact vec16_get _ z
  · subst hzone hh hw ht hle
    exact zoneLumas_frame hl hpx z
  · obtain rfl : gap = absDiff := funext fun a => funext fun b => (hgap a b).trans (absDiff_eq a b).symm
    obtain rfl : total = fun a b f => sumNat (grid a b f).flatten :=
      funext fun a => funext fun b => funext fun f => (htotal a b f).trans (sumNat_grid a b f).symm
    rw [eq_grid hzl hzw hpx, eq_grid hbl hbw hold]
    exact zoneStatistics h w px old

end Sys2Proof.Machine
end

