-- ==== Sys2Proof/Proofs/UnlockSequence.lean ====
section
/-! SUPPORT. The UNLOCK sequence: the table of R113, its timers, and the deassertion of SERVICE (R112 to R114, R171; logs 64,
72). -/
namespace Sys2Proof.Machine

/-- What an UNLOCK step gives, row by row (R113): without SERVICE every step restarts (log 72), with it the step counts. -/
theorem unlockStep_rows (service : Bool) (step : Byte) (b : BaselineStore) : (unlockStep service step b).swap =
    if service = false then ({ b with progress := .none, stepTimer := none }, ReplyStatus.restarted)
    else if step = 0x01#8 then ({ b with progress := .step1, stepTimer := some 2000000 }, .accepted)
    else if step = 0x02#8 ∧ b.progress = .step1 then
      ({ b with progress := .step2, stepTimer := some 2000000 }, .accepted)
    else if step = 0x03#8 ∧ b.progress = .step2 then
      ({ b with progress := .none, stepTimer := none, unlocked := true, lifeTimer := some 30000000 }, .accepted)
    else ({ b with progress := .none, stepTimer := none }, .restarted) := by
  cases service with
  | false => rfl
  | true =>
    simp only [unlockStep, apply_ite Prod.swap]
    rfl

/-- The store takes the step of an UNLOCK, and the reply gives the outcome (R113, R171; log 64). -/
theorem answerUnlock_of_step {s : State} {step : Byte} {b : BaselineStore} {st : ReplyStatus}
    (h : (unlockStep s.levels.service step s.store).swap = (b, st)) :
    answerUnlock step s = (s.setStore b).setService (.answer 0x05#8 (some (replyFrame 0x05#8 st []))) := by
  unfold answerUnlock
  rw [Prod.swap_eq_iff_eq_swap.mp h]
  rfl

/-- The step timer runs out (R114). -/
theorem stepTimeout_of_zero {s : State} (h : s.store.stepTimer = some 0) :
    stepTimeout s = s.setStore { s.store with progress := .none, stepTimer := none } := if_pos h

/-- The unlocked life runs out (R112). -/
theorem lifeExpiry_of_zero {s : State} (h : s.store.lifeTimer = some 0) :
    lifeExpiry s = s.setStore { s.store with unlocked := false, lifeTimer := none } := if_pos h

/-- The deassertion of SERVICE ends an UNLOCK sequence that has begun, and leaves the lock state (R112, R114). -/
theorem serviceDeasserted_in_sequence {s : State} (ha : s.acting = true) (h : s.store.progress ≠ .none) :
    serviceDeasserted s = (s.setLevels { s.levels with service := false }).setStore
      { s.store with progress := .none, stepTimer := none } := if_pos ⟨ha, h⟩

/-- Settles O45: the table of R113, the two timers, and the deassertion. -/
theorem unlockSequenceAndTimers : Obligations.UnlockSequenceAndTimers := by
  refine ⟨fun s step b st hs ha hno hrow => ?_, fun s => ⟨fun hs h => ?_, fun hs h => ?_, fun hs ha hp => ?_⟩⟩
  · have hstep : (unlockStep s.levels.service step s.store).swap = (b, st) := (unlockStep_rows ..).trans hrow.symm
    exact exec_request (q := .unlock) hs (started_of_acting ha) hno (.inl (not_inert_of_acting ha)) rfl
      (answerUnlock_of_step hstep)
  · rw [exec_actClock (f := stepTimeout) hs rfl, stepTimeout_of_zero h]
  · rw [exec_actClock (f := lifeExpiry) hs rfl, lifeExpiry_of_zero h]
  · have hbegun : s.store.progress ≠ .none := by rcases hp with hp | hp <;> simp [hp]
    rw [exec_act (f := serviceDeasserted) hs rfl, serviceDeasserted_in_sequence ha hbegun]

end Sys2Proof.Machine
end

