-- ==== Sys2Proof/Proofs/ResetHold.lean ====
section
/-! SUPPORT. What a reset holds: the output lines, the registers, and the record that it cuts (R120, R167; logs 7, 26, 51, 56,
83). -/
namespace Sys2Proof.Machine

/-- Before the end of the start read FAULT is asserted, no picture is driven and the indication lines are deasserted
(R167; log 8). -/
theorem outputs_of_not_started {s : State} (h : s.boot.phase ≠ .started) : s.outputs = Pins.held := by
  have hacting : s.acting = false := by simp [State.acting, h]
  have hfault : s.faultLine = true := (faultLine_iff s).mpr (.inl h)
  have hpicture : s.screenPicture = .none := screenPicture_dark (.inr hacting)
  simp [State.outputs, State.lensLampLine, State.viewOkLine, State.layoutView, hfault, hpicture, Pins.held]

/-- No record is cut where none is being written (R120). -/
theorem tearWrite_not_writing {s : State} (h : s.store.phase ≠ .writing) : tearWrite s = s := by
  unfold tearWrite
  split
  · next hp _ => exact absurd hp h
  · rfl

/-- A held station has every register at its reset value but the reset flags, and drives the lines of a held station; local
time, the levels, the waiting commands and the memory as the cut write left it stay (R120, R167). -/
theorem refreshPins_holdState_tearWrite (power line since : Bool) (s : State) :
    refreshPins (holdState power line since (tearWrite s)) = { State.reset with
      boot := { State.reset.boot with
        powerOn := power, resetLine := line, powerSinceRead := since, startCause := startCauseOf since }
      now := s.now, levels := s.levels, confMem := (tearWrite s).confMem, free := (tearWrite s).free
      pending := s.pending } := by
  have hheld : (holdState power line since (tearWrite s)).boot.phase ≠ .started := by
    simp [holdState, State.reset]
  rw [refreshPins_eq, outputs_of_not_started hheld]
  rcases tearWrite_cases s with h | ⟨m, n, h⟩ <;> rw [h] <;> rfl

/-- The start read begins when a held station is released (R167). -/
theorem resetReleased_held {s : State} (h : s.boot.phase = .held) : resetReleased s =
    s.setBoot { s.boot with phase := .reading, powerOn := false, resetLine := false, readTimer := 0 } := if_pos h

/-- A station that no reset holds is not released (R167). -/
theorem resetReleased_not_held {s : State} (h : s.boot.phase ≠ .held) : resetReleased s = s := if_neg h

/-- Settles O54: each reset holds the station and cuts the record being written, and the release begins the start read. -/
theorem resetsHoldTheStation : Obligations.ResetsHoldTheStation := by
  intro s
  have hpower : exec .powerOnReset s = .next (refreshPins (holdState true s.boot.resetLine true (tearWrite s))) := rfl
  have hline : exec .resetLine s =
      .next (refreshPins (holdState s.boot.powerOn true s.boot.powerSinceRead (tearWrite s))) := rfl
  have hrelease : exec .resetReleased s = .next (refreshPins (resetReleased s)) := rfl
  rw [refreshPins_holdState_tearWrite] at hpower hline
  have hkept (h : s.store.phase ≠ .writing) : (tearWrite s).confMem = s.confMem :=
    congrArg State.confMem (tearWrite_not_writing h)
  refine ⟨⟨_, hpower, rfl, hkept, fun _ => tearWrite_memory⟩, ⟨_, hline, rfl, hkept, fun _ => tearWrite_memory⟩, rfl,
    fun h => ?_, fun h => ?_⟩
  · rw [hrelease, resetReleased_held h]
  · rw [hrelease, resetReleased_not_held h]

end Sys2Proof.Machine
end

