-- ==== Sys2Proof/Proofs/CabSwitch.lean ====
section
/-! SUPPORT. An accepted change of CAB_ON, by the cab state (R121, R122, R139; logs 51, 54, 62, 83). -/
namespace Sys2Proof.Machine

/-- A change of CAB_ON that is due at a CAB station is accepted and handed to Cab Control (R121, R122). -/
theorem cabOnAccepted_of_due {s : State} (hr : s.readsCab = true)
    (hdue : s.cab.cabOn.due s.levels.cabOn s.cfg.filterTime = true) : cabOnAccepted s =
      cabOnChange s.cab.cabOn.accept.accepted (s.setCab { s.cab with cabOn := s.cab.cabOn.accept }) := if_pos ⟨hr, hdue⟩

/-- A change between cab states other than ACTIVE leaves the Composer (R121). -/
theorem setCabState_outside_active {c : CabState} {s : State} (hc : c ≠ .active) (hs : s.cab.state ≠ .active) :
    setCabState c s = s.setCab { s.cab with state := c } := (if_neg hc).trans (if_neg hs)

/-- A change out of ACTIVE empties the Composer at once (R139; logs 51, 54, 62, 83). -/
theorem setCabState_from_active {c : CabState} {s : State} (hc : c ≠ .active) (hs : s.cab.state = .active) :
    setCabState c s = leaveActive (s.setCab { s.cab with state := c }) := (if_neg hc).trans (if_pos hs)

/-- CAB_ON in IDLE: TAKING, with a TAKE offered (R122). -/
theorem cabOnChange_on_idle {s : State} (h : s.cab.state = .idle) :
    cabOnChange true s = offer .cab .take (s.setCab { s.cab with state := .taking }) := by
  unfold cabOnChange
  rw [h]
  exact congrArg (offer .cab .take) (setCabState_outside_active (by simp) (by simp [h]))

/-- CAB_ON off in TAKING: IDLE, with the CAB entry withdrawn; no CAB frame is on the line (R14, R122). -/
theorem cabOnChange_off_taking {s : State} (ho : s.lineFree) (h : s.cab.state = .taking) :
    cabOnChange false s = (s.setCab { s.cab with state := .idle }).setQueue (queueRemove s.queue .cab) := by
  unfold cabOnChange
  rw [h]
  show withdraw .cab (setCabState .idle s) = _
  rw [setCabState_outside_active (by simp) (by simp [h]), withdraw_of_lineFree, State.setCab_queue]
  exact ho

/-- CAB_ON off in BLOCKED: IDLE, with nothing offered (R122). -/
theorem cabOnChange_off_blocked {s : State} (h : s.cab.state = .blocked) :
    cabOnChange false s = s.setCab { s.cab with state := .idle } := by
  unfold cabOnChange
  rw [h]
  exact setCabState_outside_active (by simp) (by simp [h])

/-- CAB_ON off in ACTIVE: IDLE, with the Composer emptied and a LEAVE offered (R122, R139). -/
theorem cabOnChange_off_active {s : State} (h : s.cab.state = .active) :
    cabOnChange false s = offer .cab .leave (leaveActive (s.setCab { s.cab with state := .idle })) := by
  unfold cabOnChange
  rw [h]
  exact congrArg (offer .cab .leave) (setCabState_from_active (by simp) h)

/-- Settles O47: the filter takes the new level, and Cab Control acts by the cab state. -/
theorem cabSwitchAccepted : Obligations.CabSwitchAccepted := by
  intro s on f hs ha hcab hlevel hacc htime hf ho
  have hdiffers : s.levels.cabOn ≠ s.cab.cabOn.accepted := by simp [hlevel, hacc]
  have hfilter : s.cab.cabOn.accept = f := by rw [LineFilter.accept_of_differs hdiffers, hlevel, hf]
  have hvalue : f.accepted = on := by rw [hf]
  have hchange : cabOnAccepted s = cabOnChange on (s.setCab { s.cab with cabOn := f }) := by
    rw [cabOnAccepted_of_due (by simp [State.readsCab, ha, hcab]) (LineFilter.due_iff.mpr ⟨hdiffers, htime⟩), hfilter,
      hvalue]
  refine ⟨?_, ?_, ?_, ?_⟩ <;> rintro rfl hst <;> refine exec_actClock_to hs rfl (hchange.trans ?_)
  · exact cabOnChange_on_idle hst
  · exact cabOnChange_off_taking ho hst
  · exact cabOnChange_off_blocked hst
  · exact cabOnChange_off_active hst

end Sys2Proof.Machine
end

