-- ==== Sys2Proof/Proofs/ScreenRecords.lean ====
section
/-! SUPPORT. What the steps of the Composer leave of a screen's record: its request list, its linger, its spotlight door and its
DRIVER layout (R137, R138, R142 to R145). -/
namespace Sys2Proof.Machine

/-! ### A screen beside its layout and its panes -/

/-- A screen beside its shown layout and its panes, which are blanked. Screens that are equal so hold the same request list,
linger, linger timer, spotlight door and DRIVER layout. -/
def Screen.record (x : Screen) : Screen := { x with layout := none, panes := [] }

/-- Screens of one record hold one request list (R138). -/
theorem list_of_record {x y : Screen} (h : x.record = y.record) : x.list = y.list := by
  have e := congrArg Screen.list h
  exact e

/-- Screens of one record stand in one linger (R143). -/
theorem linger_of_record {x y : Screen} (h : x.record = y.record) : x.linger = y.linger := by
  have e := congrArg Screen.linger h
  exact e

/-- Screens of one record have one spotlight door (R147). -/
theorem spotDoor_of_record {x y : Screen} (h : x.record = y.record) : x.spotDoor = y.spotDoor := by
  have e := congrArg Screen.spotDoor h
  exact e

/-- Screens of one record have one DRIVER layout (R137). -/
theorem driverLayout_of_record {x y : Screen} (h : x.record = y.record) : x.driverLayout = y.driverLayout := by
  have e := congrArg Screen.driverLayout h
  exact e

@[simp] theorem setScreen_screen (side : Side) (x : Screen) (s : State) : (s.setScreen side x).screen side = x :=
  screen_setScreen s.comp side x

theorem setScreen_screen_other {side sd : Side} (h : sd ≠ side) (x : Screen) (s : State) :
    (s.setScreen side x).screen sd = s.screen sd := by
  cases side <;> cases sd
  · exact absurd rfl h
  · rfl
  · rfl
  · exact absurd rfl h

@[simp] theorem setCab_screen (x : CabControl) (s : State) (side : Side) : (s.setCab x).screen side = s.screen side := rfl

@[simp] theorem refreshPins_screen (s : State) (side : Side) : (refreshPins s).screen side = s.screen side := rfl

/-! ### Panes and layouts -/

@[simp] theorem settlePanes_record (s : State) (sd : Side) :
    ((settlePanes s).screen sd).record = (s.screen sd).record := by
  by_cases ha : s.cab.state = .active
  · unfold State.screen
    rw [settlePanes_comp ha]
    cases sd <;> rfl
  · rw [settlePanes_inactive ha]

@[simp] theorem judgePanes_record (s : State) (sd : Side) :
    ((judgePanes s).screen sd).record = (s.screen sd).record := by cases sd <;> rfl

@[simp] theorem reresolve_record (s : State) (sd : Side) :
    ((reresolve s).screen sd).record = (s.screen sd).record := by
  unfold reresolve
  split
  · cases sd <;> rfl
  · rfl

/-- A layout switch changes the shown layout and the panes of its screen alone (R145). -/
@[simp] theorem showLayout_record (side : Side) (lay : ShownLayout) (s : State) (sd : Side) :
    ((showLayout side lay s).screen sd).record = (s.screen sd).record := by
  unfold showLayout
  split
  · rfl
  · unfold layoutSwitch
    rw [settlePanes_record, judgePanes_record]
    cases side <;> cases sd <;> rfl

/-! ### A kind is shown -/

/-- What showing a kind makes of its screen's record (R142, R144, R147; log 83). -/
theorem showKind_record (side : Side) (k : ViewKind) (s : State) : ((showKind side k s).screen side).record =
    ({ s.screen side with
        list := (s.screen side).list.map (fun e => { e with shown := e.kind == k })
        linger := none, lingerTimer := 0, spotDoor := s.spotDoorOn side } : Screen).record := by
  unfold showKind
  rw [showLayout_record, setScreen_screen]

theorem showKind_record_other {side sd : Side} (h : sd ≠ side) (k : ViewKind) (s : State) :
    ((showKind side k s).screen sd).record = (s.screen sd).record := by
  unfold showKind
  rw [showLayout_record, setScreen_screen_other h]

/-- Showing a kind marks its entry SHOWN and the others WAITING, in the order in which they stand (R142). -/
theorem showKind_list (side : Side) (k : ViewKind) (s : State) : ((showKind side k s).screen side).list =
    (s.screen side).list.map (fun e => { e with shown := e.kind == k }) := list_of_record (showKind_record side k s)

/-- Showing a kind ends a linger (R144). -/
theorem showKind_linger (side : Side) (k : ViewKind) (s : State) : ((showKind side k s).screen side).linger = none :=
  linger_of_record (showKind_record side k s)

/-- The spotlight door is then the first door of the queue on the side (R147). -/
theorem showKind_spotDoor (side : Side) (k : ViewKind) (s : State) :
    ((showKind side k s).screen side).spotDoor = s.spotDoorOn side := spotDoor_of_record (showKind_record side k s)

/-! ### Request lists -/

/-- A list holds a kind if an entry has it. -/
theorem listHolds_iff {l : List Request} {k : ViewKind} : listHolds l k = true ↔ ∃ e ∈ l, e.kind = k := by
  simp [listHolds]

/-- A list whose entries keep their kinds holds the same kinds. -/
theorem listHolds_show (l : List Request) (k j : ViewKind) :
    listHolds (l.map (fun e => { e with shown := e.kind == k })) j = listHolds l j := by
  simp [listHolds, Function.comp_def]

/-- A kind put into its place is held beside those that were (R138). -/
theorem listHolds_placeKind {t : ViewTable} {k j : ViewKind} {l : List Request} :
    listHolds (placeKind t k l) j = true ↔ j = k ∨ listHolds l j = true := by
  unfold placeKind
  rw [listHolds_iff, listHolds_iff]
  simp only [mem_insertBy, exists_eq_or_imp]
  exact or_congr_left eq_comm

/-- A kind taken out is the only one that goes. -/
theorem listHolds_filter {k j : ViewKind} {l : List Request} :
    listHolds (l.filter (fun e => e.kind != k)) j = true ↔ j ≠ k ∧ listHolds l j = true := by
  rw [listHolds_iff, listHolds_iff]
  simp only [List.mem_filter, bne_iff_ne]
  constructor
  · rintro ⟨e, ⟨he, hne⟩, rfl⟩
    exact ⟨hne, e, he, rfl⟩
  · rintro ⟨hne, e, he, rfl⟩
    exact ⟨e, ⟨he, hne⟩, rfl⟩

/-- The SHOWN kind of a list in which one kind that it holds has been marked SHOWN (R142). -/
theorem shownKind_show {l : List Request} {k : ViewKind} (h : listHolds l k = true) :
    shownKind (l.map (fun e => { e with shown := e.kind == k })) = some k := by
  obtain ⟨e, he, hk⟩ := listHolds_iff.mp h
  unfold shownKind
  rw [List.find?_map, Option.map_map, Option.map_eq_some_iff]
  obtain ⟨x, hx⟩ := Option.isSome_iff_exists.mp
    (List.find?_isSome (p := fun e : Request => e.kind == k).mpr ⟨e, he, by simpa using hk⟩)
  exact ⟨x, hx, by simpa using List.find?_some hx⟩

/-- An entry put into its place waits: the SHOWN kind stays (R142). -/
theorem shownKind_placeKind (t : ViewTable) (k : ViewKind) (l : List Request) :
    shownKind (placeKind t k l) = shownKind l := by
  unfold shownKind placeKind
  rw [find?_insertBy_other _ _ _ _ rfl]

end Sys2Proof.Machine
end

