-- ==== Sys2Proof/Proofs/ViewJudging.lean ====
section
/-! SUPPORT. How a view is raised and cleared, and what judging the conditions leaves in the request lists (R136, R138, R140 to
R144, R147; log 20). -/
namespace Sys2Proof.Machine

/-! ### Raising (R142) -/

/-- Does a screen give way to a kind that is raised (R142, R144): its SHOWN kind is preempted, or, while it lingers, the kind is
the lingering one or preempts it? -/
def Screen.yields (x : Screen) (t : ViewTable) (k : ViewKind) : Prop :=
  (∃ j, shownKind x.list = some j ∧ preempts t j k = true)
    ∨ (shownKind x.list = none ∧ ∃ j, x.linger = some j ∧ (j = k ∨ preempts t j k = true))

/-- The state with a kind put into a screen's list, WAITING (R142). -/
def State.placed (s : State) (side : Side) (k : ViewKind) : State :=
  s.setScreen side { s.screen side with list := placeKind s.cfg.views k (s.screen side).list }

/-- The effective mask of a kind (R136). -/
theorem preempts_iff {t : ViewTable} {j k : ViewKind} : preempts t j k = true ↔
    (t.get j).mask.getLsbD k.code = true ∧ (t.get k).rank < (t.get j).rank := by simp [preempts]

/-- A kind in the list is refreshed, which changes nothing (R140). -/
theorem raise_of_held {s : State} {side : Side} {k : ViewKind} (h : listHolds (s.screen side).list k = true) :
    raise side k s = s := if_pos h

/-- A kind that is not in the list joins it, and is shown where the screen yields to it (R142). -/
theorem raise_of_not_held {s : State} {side : Side} {k : ViewKind} (h : listHolds (s.screen side).list k = false) :
    ((s.screen side).yields s.cfg.views k → raise side k s = showKind side k (s.placed side k))
      ∧ (¬(s.screen side).yields s.cfg.views k → raise side k s = s.placed side k) := by
  unfold raise Screen.yields
  dsimp only
  rw [if_neg (by simp [h]), ← State.placed]
  cases shownKind (s.screen side).list with
  | some j => simp +contextual
  | none => cases (s.screen side).linger <;> simp +contextual

theorem listHolds_placed {s : State} {side : Side} {k j : ViewKind} :
    listHolds ((s.placed side k).screen side).list j = true ↔ j = k ∨ listHolds (s.screen side).list j = true := by
  unfold State.placed
  rw [setScreen_screen]
  exact listHolds_placeKind

/-- A raise puts its kind into its screen's list, and changes no other kind of any list (R138, R142). -/
theorem listHolds_raise {s : State} {side sd : Side} {k j : ViewKind} :
    listHolds ((raise side k s).screen sd).list j = true ↔
      listHolds (s.screen sd).list j = true ∨ (sd = side ∧ j = k) := by
  by_cases hk : listHolds (s.screen side).list k = true
  · rw [raise_of_held hk]
    refine ⟨.inl, ?_⟩
    rintro (h | ⟨rfl, rfl⟩)
    · exact h
    · exact hk
  · obtain ⟨hyes, hno⟩ := raise_of_not_held (Bool.eq_false_iff.mpr hk)
    have hplaced : listHolds ((s.placed side k).screen sd).list j = true ↔
        listHolds (s.screen sd).list j = true ∨ (sd = side ∧ j = k) := by
      by_cases hsd : sd = side
      · subst hsd
        rw [listHolds_placed, or_comm]
        simp
      · unfold State.placed
        rw [setScreen_screen_other hsd]
        simp [hsd]
    by_cases hy : (s.screen side).yields s.cfg.views k
    · rw [hyes hy, ← hplaced]
      by_cases hsd : sd = side
      · subst hsd
        rw [showKind_list, listHolds_show]
      · rw [list_of_record (showKind_record_other hsd k _)]
    · rw [hno hy, hplaced]

/-- Where the screen yields, the raised kind becomes SHOWN and a linger ends (R142, R144). -/
theorem raise_shows {s : State} {side : Side} {k : ViewKind} (h : listHolds (s.screen side).list k = false)
    (hy : (s.screen side).yields s.cfg.views k) :
    shownKind ((raise side k s).screen side).list = some k ∧ ((raise side k s).screen side).linger = none := by
  rw [(raise_of_not_held h).1 hy, showKind_list, showKind_linger]
  exact ⟨shownKind_show (listHolds_placed.mpr (.inl rfl)), rfl⟩

/-- Where it does not, the raised kind waits: the SHOWN kind and a linger stay (R142, R144). -/
theorem raise_waits {s : State} {side : Side} {k : ViewKind} (h : listHolds (s.screen side).list k = false)
    (hy : ¬(s.screen side).yields s.cfg.views k) :
    shownKind ((raise side k s).screen side).list = shownKind (s.screen side).list
      ∧ ((raise side k s).screen side).linger = (s.screen side).linger := by
  rw [(raise_of_not_held h).2 hy]
  unfold State.placed
  rw [setScreen_screen]
  exact ⟨shownKind_placeKind .., rfl⟩

/-- A screen that shows a kind yields to those that preempt it (R142). -/
theorem yields_of_shown {x : Screen} {t : ViewTable} {j k : ViewKind} (h : shownKind x.list = some j) :
    x.yields t k ↔ (t.get j).mask.getLsbD k.code = true ∧ (t.get k).rank < (t.get j).rank := by
  unfold Screen.yields
  simp [h, preempts_iff]

/-- A screen that lingers yields to the lingering kind and to those that preempt it (R144). -/
theorem yields_of_linger {x : Screen} {t : ViewTable} {j k : ViewKind} (h : shownKind x.list = none)
    (hl : x.linger = some j) : x.yields t k ↔
      j = k ∨ ((t.get j).mask.getLsbD k.code = true ∧ (t.get k).rank < (t.get j).rank) := by
  unfold Screen.yields
  simp [h, hl, preempts_iff]

/-! ### Clearing (R143) -/

theorem lingerEnd_of_cons {s : State} {side : Side} {e : Request} {rest : List Request}
    (h : (s.screen side).list = e :: rest) : lingerEnd side s = showKind side e.kind s := by
  unfold lingerEnd
  rw [h]

theorem lingerEnd_of_nil {s : State} {side : Side} (h : (s.screen side).list = []) : lingerEnd side s =
    s.setScreen side { s.screen side with linger := none, lingerTimer := 0 } := by
  unfold lingerEnd
  rw [h]

/-- The end of a linger leaves the kinds of every list (R144). -/
theorem listHolds_lingerEnd (side sd : Side) (s : State) (j : ViewKind) :
    listHolds ((lingerEnd side s).screen sd).list j = listHolds (s.screen sd).list j := by
  cases hl : (s.screen side).list with
  | nil =>
    rw [lingerEnd_of_nil hl]
    by_cases hsd : sd = side
    · subst hsd
      rw [setScreen_screen]
    · rw [setScreen_screen_other hsd]
  | cons e rest =>
    rw [lingerEnd_of_cons hl]
    by_cases hsd : sd = side
    · subst hsd
      rw [showKind_list, listHolds_show]
    · rw [list_of_record (showKind_record_other hsd _ _)]

/-- A screen whose list has lost a kind. -/
theorem listHolds_setScreen_filter {s : State} {side sd : Side} {x : Screen} {k j : ViewKind}
    (hx : x.list = (s.screen side).list.filter (fun e => e.kind != k)) :
    listHolds ((s.setScreen side x).screen sd).list j = true ↔
      listHolds (s.screen sd).list j = true ∧ ¬(sd = side ∧ j = k) := by
  by_cases hsd : sd = side
  · subst hsd
    rw [setScreen_screen, hx, listHolds_filter, and_comm]
    simp
  · rw [setScreen_screen_other hsd]
    simp [hsd]

/-- A clear takes its kind out of its screen's list, and changes no other kind of any list (R143). -/
theorem listHolds_clear {s : State} {side sd : Side} {k j : ViewKind} :
    listHolds ((clear side k s).screen sd).list j = true ↔
      listHolds (s.screen sd).list j = true ∧ ¬(sd = side ∧ j = k) := by
  unfold clear
  dsimp only
  split
  · split
    · split
      · rw [listHolds_lingerEnd]
        exact listHolds_setScreen_filter rfl
      · exact listHolds_setScreen_filter rfl
    · exact listHolds_setScreen_filter rfl
  · next hk =>
    refine (and_iff_left_of_imp ?_).symm
    rintro h ⟨rfl, rfl⟩
    exact hk h

/-! ### Conditions (R140, R141, R147) -/

/-- States with the same conditions: they differ in what the Composer's steps on views and panes change alone. -/
structure SameConditions (r s : State) : Prop where
  beside : s.beside = r.beside
  spotlight : s.comp.spotlight = r.comp.spotlight

theorem SameConditions.refl (s : State) : SameConditions s s := ⟨rfl, rfl⟩

theorem SameConditions.trans {r s t : State} (h : SameConditions r s) (h' : SameConditions s t) : SameConditions r t :=
  ⟨h'.beside.trans h.beside, h'.spotlight.trans h.spotlight⟩

/-- The doors on a side are read from what stands beside the Composer. -/
theorem doorsOn_beside (s : State) (side : Side) : s.doorsOn side = s.beside.doorsOn side := rfl

/-- The driver side of a door is read from what stands beside the Composer. -/
theorem doorSide_beside (s : State) (id : DoorId) : s.doorSide id = s.beside.doorSide id := rfl

theorem reverse_of_beside {r s : State} (h : s.beside = r.beside) : s.cab.reverse = r.cab.reverse := by
  have e := congrArg (fun x : State => x.cab.reverse) h
  exact e

theorem SameConditions.spotDoorOn {r s : State} (h : SameConditions r s) (side : Side) :
    s.spotDoorOn side = r.spotDoorOn side := by
  unfold State.spotDoorOn
  simp only [doorSide_beside s, doorSide_beside r, h.beside, h.spotlight]

/-- The condition of a kind is the same in them (R140). -/
theorem SameConditions.viewHolds {r s : State} (h : SameConditions r s) (side : Side) (k : ViewKind) :
    s.viewHolds side k = r.viewHolds side k := by
  cases k with
  | spotlight => exact congrArg Option.isSome (h.spotDoorOn side)
  | closing | release =>
    unfold State.viewHolds
    rw [doorsOn_beside s, doorsOn_beside r, h.beside]
  | reverse =>
    unfold State.viewHolds
    rw [reverse_of_beside h.beside, cfg_of_beside h.beside]
  | driver => rfl

theorem sameConditions_of {r s : State} (h : Keeps r s) (hc : s.comp.beyondViews = r.comp.beyondViews) :
    SameConditions r s := ⟨h.same, (spotlight_of_beyondViews hc).1⟩

theorem raise_conditions (side : Side) (k : ViewKind) (s : State) : SameConditions s (raise side k s) :=
  sameConditions_of (raise_keeps side k (.refl s)) (raise_beyondViews side k s)

theorem clear_conditions (side : Side) (k : ViewKind) (s : State) : SameConditions s (clear side k s) :=
  sameConditions_of (clear_keeps side k (.refl s)) (clear_beyondViews side k s)

theorem judgeSide_conditions (side : Side) (s : State) : SameConditions s (judgeSide side s) :=
  sameConditions_of (judgeSide_keeps side (.refl s)) (judgeSide_beyondViews side s)

theorem settleViews_conditions (s : State) : SameConditions s (settleViews s) :=
  sameConditions_of (settleViews_keeps (.refl s)) (settleViews_beyondViews s)

/-- SPOTLIGHT stands while a door of the queue is on the screen's side (R147). -/
theorem viewHolds_spotlight (s : State) (side : Side) : s.viewHolds side .spotlight = true ↔
    ∃ d ∈ s.comp.spotlight, (s.doorSide d.door).isOn side = true := by
  simp [State.viewHolds, State.spotDoorOn]

/-- CLOSING stands while a door on the side is CLOSING or in FAULT (R140). -/
theorem viewHolds_closing (s : State) (side : Side) : s.viewHolds side .closing = true ↔
    ∃ d ∈ s.doorsOn side, d.phase = .closing ∨ d.phase = .fault := by simp [State.viewHolds]

/-- RELEASE stands while a door on the side is RELEASED or OPENED (R140). -/
theorem viewHolds_release (s : State) (side : Side) : s.viewHolds side .release = true ↔
    ∃ d ∈ s.doorsOn side, d.phase = .released ∨ d.phase = .opened := by simp [State.viewHolds]

/-- REVERSE stands while its accepted value is on and the reverse screen choice names the screen (R141). -/
theorem viewHolds_reverse (s : State) (side : Side) : s.viewHolds side .reverse = true ↔
    s.cab.reverse.accepted = true ∧ s.cfg.views.choice.names side = true := by simp [State.viewHolds]

/-! ### Judging (R140) -/

/-- Raise on a screen those of some kinds whose condition holds. -/
def raiseStanding (side : Side) (ks : List ViewKind) (s : State) : State :=
  ks.foldl (fun t k => if t.viewHolds side k then raise side k t else t) s

/-- Clear on a screen those of some kinds whose condition does not hold. -/
def clearFallen (side : Side) (ks : List ViewKind) (s : State) : State :=
  ks.foldl (fun t k => if t.viewHolds side k then t else clear side k t) s

/-- Judging a screen raises and then clears (log 20). -/
theorem judgeSide_eq (side : Side) (s : State) : judgeSide side s =
    clearFallen side judgedKinds (raiseStanding side judgedKinds (followSpotDoor side s)) := rfl

theorem listHolds_raiseStanding {side sd : Side} {ks : List ViewKind} {s : State} {j : ViewKind} :
    listHolds ((raiseStanding side ks s).screen sd).list j = true ↔
      listHolds (s.screen sd).list j = true ∨ (sd = side ∧ j ∈ ks ∧ s.viewHolds side j = true) := by
  induction ks generalizing s with
  | nil => simp [raiseStanding]
  | cons k ks ih =>
    by_cases hk : s.viewHolds side k = true
    · have hstep : raiseStanding side (k :: ks) s = raiseStanding side ks (raise side k s) :=
        congrArg (raiseStanding side ks) (if_pos hk)
      rw [hstep, ih, listHolds_raise, (raise_conditions side k s).viewHolds, List.mem_cons]
      constructor
      · rintro ((h | ⟨rfl, rfl⟩) | ⟨hsd, hj, hv⟩)
        · exact .inl h
        · exact .inr ⟨rfl, .inl rfl, hk⟩
        · exact .inr ⟨hsd, .inr hj, hv⟩
      · rintro (h | ⟨rfl, rfl | hj, hv⟩)
        · exact .inl (.inl h)
        · exact .inl (.inr ⟨rfl, rfl⟩)
        · exact .inr ⟨rfl, hj, hv⟩
    · have hstep : raiseStanding side (k :: ks) s = raiseStanding side ks s :=
        congrArg (raiseStanding side ks) (if_neg hk)
      rw [hstep, ih, List.mem_cons]
      refine or_congr_right (and_congr_right fun _ => ⟨fun ⟨hj, hv⟩ => ⟨.inr hj, hv⟩, ?_⟩)
      rintro ⟨rfl | hj, hv⟩
      · exact absurd hv hk
      · exact ⟨hj, hv⟩

theorem listHolds_clearFallen {side sd : Side} {ks : List ViewKind} {s : State} {j : ViewKind} :
    listHolds ((clearFallen side ks s).screen sd).list j = true ↔
      listHolds (s.screen sd).list j = true ∧ (sd = side → j ∈ ks → s.viewHolds side j = true) := by
  induction ks generalizing s with
  | nil => simp [clearFallen]
  | cons k ks ih =>
    by_cases hk : s.viewHolds side k = true
    · have hstep : clearFallen side (k :: ks) s = clearFallen side ks s := congrArg (clearFallen side ks) (if_pos hk)
      rw [hstep, ih, List.mem_cons]
      refine and_congr_right fun _ => forall_congr' fun _ => ⟨fun h => ?_, fun h hj => h (.inr hj)⟩
      rintro (rfl | hj)
      · exact hk
      · exact h hj
    · have hstep : clearFallen side (k :: ks) s = clearFallen side ks (clear side k s) :=
        congrArg (clearFallen side ks) (if_neg hk)
      rw [hstep, ih, listHolds_clear, (clear_conditions side k s).viewHolds, List.mem_cons]
      constructor
      · rintro ⟨⟨h, hne⟩, hv⟩
        refine ⟨h, fun hsd hj => ?_⟩
        rcases hj with hj | hj
        · exact absurd ⟨hsd, hj⟩ hne
        · exact hv hsd hj
      · rintro ⟨h, hv⟩
        refine ⟨⟨h, ?_⟩, fun hsd hj => hv hsd (.inr hj)⟩
        rintro ⟨hsd, rfl⟩
        exact hk (hv hsd (.inl rfl))

theorem followSpotDoor_list (side sd : Side) (s : State) :
    ((followSpotDoor side s).screen sd).list = (s.screen sd).list := by
  unfold followSpotDoor
  split
  · cases side <;> cases sd <;> rfl
  · rfl

theorem followSpotDoor_conditions (side : Side) (s : State) : SameConditions s (followSpotDoor side s) :=
  sameConditions_of (followSpotDoor_keeps side (.refl s)) (followSpotDoor_beyondViews side s)

theorem raiseStanding_conditions (side : Side) (ks : List ViewKind) (s : State) :
    SameConditions s (raiseStanding side ks s) := by
  refine foldl_of_step (P := SameConditions s) _ _ (fun t k ht => ?_) (.refl s)
  split
  · exact ht.trans (raise_conditions side k t)
  · exact ht

/-- A judged screen's list holds exactly those judged kinds whose condition holds, and the other screen's list is as it was
(R140, R141, R147). -/
theorem listHolds_judgeSide {side sd : Side} {s : State} {j : ViewKind} (hj : j ∈ judgedKinds) :
    listHolds ((judgeSide side s).screen sd).list j = true ↔
      if sd = side then s.viewHolds side j = true else listHolds (s.screen sd).list j = true := by
  have hv : (raiseStanding side judgedKinds (followSpotDoor side s)).viewHolds side j = s.viewHolds side j :=
    ((followSpotDoor_conditions side s).trans (raiseStanding_conditions ..)).viewHolds side j
  rw [judgeSide_eq, listHolds_clearFallen, listHolds_raiseStanding, hv, followSpotDoor_list,
    (followSpotDoor_conditions side s).viewHolds]
  by_cases hsd : sd = side
  · simp only [hsd, hj, true_and, forall_true_left, if_true]
    exact ⟨And.right, fun h => ⟨.inr h, h⟩⟩
  · simp [hsd]

/-- Both lists then hold exactly those judged kinds whose condition holds (R140). -/
theorem listHolds_judgeViews {s : State} {side : Side} {j : ViewKind} (hj : j ∈ judgedKinds) :
    listHolds ((judgeViews s).screen side).list j = true ↔ s.viewHolds side j = true := by
  unfold judgeViews
  rw [listHolds_judgeSide hj, listHolds_judgeSide hj, (judgeSide_conditions .left s).viewHolds]
  cases side <;> simp

/-- Views settled while ACTIVE: each list holds exactly those judged kinds whose condition holds (R140). -/
theorem listHolds_settleViews {s : State} (ha : s.cab.state = .active) {side : Side} {j : ViewKind}
    (hj : j ∈ judgedKinds) :
    listHolds ((settleViews s).screen side).list j = true ↔ (settleViews s).viewHolds side j = true := by
  rw [(settleViews_conditions s).viewHolds, ← listHolds_judgeViews hj]
  unfold settleViews
  rw [if_pos ((isActive_iff s).mpr ha), list_of_record (y := (judgeViews s).screen side) (by simp)]

/-- Views are not settled outside ACTIVE (R139). -/
theorem settleViews_inactive {s : State} (ha : s.cab.state ≠ .active) : settleViews s = s :=
  if_neg (by simpa [State.isActive] using ha)

/-! ### REVERSE -/

/-- A change of REVERSE that is due at a CAB station is accepted, and the views are judged (R141). -/
theorem reverseAccepted_of_due {s : State} (hr : s.readsCab = true)
    (hdue : s.cab.reverse.due s.levels.reverse s.cfg.filterTime = true) : reverseAccepted s =
      settleViews (s.setCab { s.cab with reverse := s.cab.reverse.accept }) := if_pos ⟨hr, hdue⟩

/-- Settles O49: the accepted value enters the judging of both screens, and a raise goes by whether the screen yields. -/
theorem reverseJudgesViews : Obligations.ReverseJudgesViews := by
  refine ⟨fun s f hs ha hcab hdiffers htime hf => ?_, fun s side k => ⟨raise_of_held, fun hk => ?_⟩⟩
  · have haccept : reverseAccepted s = settleViews (s.setCab { s.cab with reverse := f }) := by
      rw [reverseAccepted_of_due (by simp [State.readsCab, ha, hcab]) (LineFilter.due_iff.mpr ⟨hdiffers, htime⟩),
        LineFilter.accept_of_differs hdiffers, hf]
    refine ⟨fun hst => exec_actClock_to hs rfl (haccept.trans (settleViews_inactive hst)), fun hst => ?_⟩
    generalize hx : s.setCab { s.cab with reverse := f } = x at haccept
    have hact : x.cab.state = .active := by rw [← hx]; exact hst
    have hon : (settleViews x).cab.reverse.accepted = s.levels.reverse := by
      rw [(settleViews_arranged (.refl x)).cab, ← hx, hf]
      rfl
    have hcfg : (settleViews x).cfg = s.cfg := by rw [cfg_of_beside (settleViews_conditions x).beside, ← hx]; rfl
    have hlist : ∀ side j, j ∈ judgedKinds → (listHolds ((settleViews x).screen side).list j = true ↔
        (settleViews x).viewHolds side j = true) := fun side j hj => listHolds_settleViews hact hj
    refine ⟨_, exec_actClock_to hs rfl haccept, (settleViews_conditions x).beside, ?_, ?_, fun side => ⟨?_, ?_, ?_, ?_⟩⟩
    · rw [refreshPins_cab, (settleViews_arranged (.refl x)).cab, hact]
    · rw [refreshPins_engine, (settleViews_closed (sameStreams_composer x) (.refl x)).engine, ← hx]
      rfl
    · rw [← hon, ← hcfg]
      exact (hlist side .reverse (by simp [judgedKinds])).trans (viewHolds_reverse _ side)
    · exact (hlist side .closing (by simp [judgedKinds])).trans (viewHolds_closing _ side)
    · exact (hlist side .release (by simp [judgedKinds])).trans (viewHolds_release _ side)
    · exact (hlist side .spotlight (by simp [judgedKinds])).trans (viewHolds_spotlight _ side)
  · refine ⟨listHolds_raise.mpr (.inr ⟨rfl, rfl⟩), fun j hj => ?_, fun j hnone hj => ?_⟩
    · split
      · next hy => exact (raise_shows hk ((yields_of_shown hj).mpr hy)).1
      · next hy => exact (raise_waits hk (mt (yields_of_shown hj).mp hy)).1.trans hj
    · rw [← yields_of_linger hnone hj]
      refine ⟨raise_shows hk, fun hy => ?_⟩
      rw [(raise_waits hk hy).1, (raise_waits hk hy).2]
      exact ⟨hnone, hj⟩

end Sys2Proof.Machine
end

