-- ==== Sys2Proof/Proofs/ComposerTimers.lean ====
section
/-! SUPPORT. What the Composer does when a linger timer is at 0, a carry entry has aged to 40, or a stale count is at 80 (R144,
R152 to R154, R161). -/
namespace Sys2Proof.Machine

/-! ### The WANT list settled (R153 to R155) -/

/-- Panes settled while ACTIVE offer a WANT exactly if the WANT list has changed; no control frame is on the line (R155). -/
theorem settlePanes_queue {s : State} (ha : s.cab.state = .active) (hact : s.acting = true) (ho : s.lineFree) :
    ((settlePanes s).comp.wantList = s.comp.wantList → (settlePanes s).queue = s.queue)
      ∧ ((settlePanes s).comp.wantList ≠ s.comp.wantList → queueHolds (settlePanes s).queue .want = true) := by
  have hlist : (settlePanes s).comp.wantList = s.comp.wanted := congrArg Composer.wantList (settlePanes_comp ha)
  have hsettle : settlePanes s = if s.comp.wanted = s.comp.wantList then s.setComp s.comp.settled
      else offer .want .plain (s.setComp s.comp.settled) := if_pos ((isActive_iff s).mpr ha)
  rw [hlist]
  refine ⟨fun h => ?_, fun h => ?_⟩
  · rw [hsettle, if_pos h]
    rfl
  · rw [hsettle, if_neg h]
    exact queueHolds_of_offer (s := s.setComp s.comp.settled) hact ho .want .plain

/-- Whether a carry entry is wanted does not depend on the carry entries (R154). -/
theorem keepsCarry_setCarry (c : Composer) (l : List CarryEntry) (e : CarryEntry) :
    ({ c with carry := l } : Composer).keepsCarry e = c.keepsCarry e := by
  unfold Composer.keepsCarry
  cases e.side <;> rfl

/-- The WANT list of a settled Composer is the one built anew from what it then holds (R153). -/
theorem settled_wantList (c : Composer) : c.settled.wantList = c.settled.buildWant := by
  unfold Composer.buildWant
  rw [nonCarry_settled]
  rfl

/-! ### The three limits -/

/-- The linger of an active screen whose timer is at 0 ends (R144). -/
theorem lingerExpiry_of_zero {s : State} {side : Side} (ha : s.cab.state = .active)
    (hl : (s.screen side).linger ≠ none) (ht : (s.screen side).lingerTimer = 0) :
    lingerExpiry side s = settlePanes (lingerEnd side s) :=
  if_pos ⟨(isActive_iff s).mpr ha, Option.isSome_iff_ne_none.mpr hl, ht⟩

/-- The carry entries of age 40 go, and the panes are settled (R154). -/
theorem carryExpiry_of_aged {s : State} (h : ∃ e ∈ s.comp.carry, 40 ≤ e.age) : carryExpiry s =
    settlePanes (s.setComp { s.comp with carry := s.comp.carry.filter (fun e => decide (e.age < 40)) }) :=
  if_pos (by simpa [State.carryDue] using h)

/-- The pane whose stale count is at 80 turns STALE, and the others stay (R161). -/
theorem staleAt_due {ps : List Pane} {k : Nat} {p : Pane} (hk : ps[k]? = some p) (hp : p.staleDue = true) :
    staleAt k ps = ps.set k { p with state := .stale } := by
  refine List.ext_getElem? fun j => ?_
  unfold staleAt
  rw [List.getElem?_mapIdx, List.getElem?_set]
  by_cases hj : k = j
  · subst hj
    have hlt : k < ps.length := (List.getElem?_eq_some_iff.mp hk).1
    rw [if_pos rfl, if_pos hlt, hk, Option.map_some, if_pos ⟨rfl, hp⟩]
  · cases ps[j]? <;> simp [hj, Ne.symm hj]

/-- Settles O50: the first entry is shown, the carry entries are kept by age and by want, and the pane turns STALE. -/
theorem composerTimers : Obligations.ComposerTimers := by
  refine ⟨fun s side e rest hs ha hl ht hlist => ?_, fun s => ⟨fun hact ha haged ho => ?_,
    fun side k p hk hb h80 hst => ?_⟩⟩
  · have hexec := exec_actClock_to (c := .lingerExpiry side) hs rfl (lingerExpiry_of_zero ha hl ht)
    rw [lingerEnd_of_cons hlist] at hexec
    have hrecord := settlePanes_record (showKind side e.kind s) side
    have hcab : (settlePanes (showKind side e.kind s)).cab = s.cab :=
      (settlePanes_arranged (showKind_arranged (.refl s) side e.kind)).cab
    have hclosed := sameStreams_composer s
    have heng : (settlePanes (showKind side e.kind s)).engine = s.engine :=
      (settlePanes_closed hclosed (showKind_closed hclosed (.refl s) side e.kind)).engine
    refine ⟨_, hexec, (settlePanes_keeps (showKind_keeps side e.kind (.refl s))).same, heng, hcab, ?_, ?_, ?_⟩
    · exact (linger_of_record hrecord).trans (showKind_linger ..)
    · exact (spotDoor_of_record hrecord).trans (showKind_spotDoor ..)
    · exact (list_of_record hrecord).trans ((showKind_list ..).trans (by rw [hlist]))
  · have hexec := exec_actDue (c := .carryEntryExpiry) (s := s) rfl (carryExpiry_of_aged haged)
    generalize hx : s.setComp { s.comp with carry := s.comp.carry.filter (fun e => decide (e.age < 40)) } = x at hexec
    have hxa : x.cab.state = .active := by rw [← hx]; exact ha
    have hcomp : (settlePanes x).comp = x.comp.settled := settlePanes_comp hxa
    have hbes : x.beside = s.beside := by rw [← hx]; rfl
    have hold : x.comp.wantList = s.comp.wantList := by rw [← hx]; rfl
    have hqueue := settlePanes_queue hxa ((acting_of_beside hbes).trans hact) (by rw [← hx]; exact ho)
    refine ⟨_, hexec, ?_, ?_, ?_, ?_, ?_, fun h => ?_, fun h => ?_⟩
    · exact (settlePanes_keeps (.refl x)).same.trans hbes
    · rw [refreshPins_cab, settlePanes_cab, ← hx]
      rfl
    · rw [refreshPins_engine, (settlePanes_closed (sameStreams_composer x) (.refl x)).engine, ← hx]
      rfl
    · rw [refreshPins_comp, hcomp]
      show x.comp.carry.filter x.comp.keepsCarry = _
      rw [← hx, State.setComp_comp, funext (keepsCarry_setCarry s.comp _), List.filter_filter]
      simp only [Bool.and_comm]
    · rw [refreshPins_comp, hcomp]
      exact settled_wantList _
    · rw [← hold] at h
      exact (hqueue.1 h).trans (by rw [← hx]; rfl)
    · rw [← hold] at h
      exact hqueue.2 h
  · have hdue : p.staleDue = true := by simp [Pane.staleDue, hb, h80, hst]
    refine exec_actDue rfl ?_
    unfold paneStale
    rw [staleAt_due hk hdue]

end Sys2Proof.Machine
end

