-- ==== Sys2Proof/Proofs/DriverKeys.lean ====
section
/-! SUPPORT. The driver keys: an accepted press of ACK, an accepted press of a NEXT key, and an accepted release (R148 to R150;
log 3). -/
namespace Sys2Proof.Machine

/-! ### A key is accepted (R148) -/

/-- A key's filter that has run out owes the key's level (R148). -/
theorem keyDue_of_differs {s : State} {k : Key} {on : Bool} (hr : s.readsCab = true) (hlevel : s.levels.key k = on)
    (hacc : (s.cab.key k).accepted = !on) (htime : s.cfg.filterTime ≤ (s.cab.key k).differ) : s.keyDue k on = true := by
  subst hlevel
  simp [State.keyDue, hr, LineFilter.due_iff, hacc, htime]

/-- The accepted value then follows the level (R148). -/
theorem LineFilter.accept_to {f : LineFilter} {on : Bool} (h : f.accepted = !on) :
    f.accept = { f with accepted := on, differ := 0 } := LineFilter.accept_of_differs (by simp [h])

/-- A press that is due is accepted, and has its effect (R148). -/
theorem keyAccepted_press {s : State} {k : Key} {f : LineFilter} (effect : State → State) (hr : s.readsCab = true)
    (hlevel : s.levels.key k = true) (hacc : (s.cab.key k).accepted = false)
    (htime : s.cfg.filterTime ≤ (s.cab.key k).differ) (hf : f = { s.cab.key k with accepted := true, differ := 0 }) :
    keyAccepted k true effect s = effect (s.setCab (s.cab.setKey k f)) := by
  unfold keyAccepted
  rw [if_pos (keyDue_of_differs hr hlevel hacc htime), LineFilter.accept_to (on := true) hacc, hf]
  rfl

/-- A release that is due is accepted, and has no other effect (R148). -/
theorem keyReleaseAccepted_of_due {s : State} {k : Key} (hr : s.readsCab = true) (hlevel : s.levels.key k = false)
    (hacc : (s.cab.key k).accepted = true) (htime : s.cfg.filterTime ≤ (s.cab.key k).differ) : keyReleaseAccepted k s =
      s.setCab (s.cab.setKey k { s.cab.key k with accepted := false, differ := 0 }) := by
  unfold keyReleaseAccepted keyAccepted
  rw [if_pos (keyDue_of_differs hr hlevel hacc htime), LineFilter.accept_to (on := false) hacc]
  rfl

/-- A release whose filter has not run out is not accepted (log 3). -/
theorem keyReleaseAccepted_of_lt {s : State} {k : Key} (h : (s.cab.key k).differ < s.cfg.filterTime) :
    keyReleaseAccepted k s = s := if_neg (by simp [State.keyDue, LineFilter.due_of_lt h])

/-! ### ACK (R149) -/

/-- A press of ACK outside ACTIVE, or with no spotlight door shown, has no effect (R149). -/
theorem ackPress_idle {s : State} (h : s.cab.state ≠ .active ∨ s.comp.ackDoor = none) : ackPress s = s := by
  unfold ackPress
  split
  · next ha => rw [h.resolve_left (not_not_intro ((isActive_iff s).mp ha))]
  · rfl

/-- It marks the door ACKED if that is OBSTRUCTED (R149). -/
theorem ackPress_obstructed {s : State} {d : SpotDoor} (ha : s.cab.state = .active) (hd : s.comp.ackDoor = some d)
    (hp : phaseIn s.tables.doors d.door = some .obstructed) : ackPress s = s.setComp { s.comp with
      spotlight := s.comp.spotlight.map (fun x => if x.door = d.door then { x with acked := true } else x) } := by
  unfold ackPress
  rw [if_pos ((isActive_iff s).mpr ha), hd]
  simp only [hp, if_true, beq_iff_eq]

/-- It takes the door out of the spotlight queue if that is not OBSTRUCTED (R149). -/
theorem ackPress_other {s : State} {d : SpotDoor} (ha : s.cab.state = .active) (hd : s.comp.ackDoor = some d)
    (hp : phaseIn s.tables.doors d.door ≠ some .obstructed) : ackPress s = settleViews (s.setComp { s.comp with
      spotlight := s.comp.spotlight.filter (fun x => x.door != d.door) }) := by
  unfold ackPress
  rw [if_pos ((isActive_iff s).mpr ha), hd]
  exact if_neg hp

/-! ### NEXT (R150) -/

/-- In a list in order, the first element that satisfies a condition is one that does, with none ahead of it that does. -/
theorem find?_of_pairwise {α : Type} {r : α → α → Prop} {p : α → Bool} {l : List α} {b : α} (hl : l.Pairwise r)
    (hb : b ∈ l) (hp : p b = true) (h : ∀ a ∈ l, r a b → p a = false) : l.find? p = some b := by
  induction l with
  | nil => exact absurd hb List.not_mem_nil
  | cons x xs ih =>
    obtain ⟨hx, hxs⟩ := List.pairwise_cons.mp hl
    rcases List.mem_cons.mp hb with rfl | hb
    · exact List.find?_cons_of_pos hp
    · rw [List.find?_cons, h x List.mem_cons_self (hx b hb)]
      exact ih hxs hb fun a ha => h a (List.mem_cons_of_mem x ha)

/-- How many steps in table order, wrapping from 15 to 0, lead from one layout index to another (R150). -/
def stepsTo (i j : Fin 16) : Nat := (j.val + 16 - i.val) % 16

/-- The other layout indexes, as a NEXT press takes them (R150). -/
def othersAfter (i : Fin 16) : List (Fin 16) := (indexesAfter i).filter (fun j => j != i)

theorem othersAfter_ordered (i : Fin 16) : (othersAfter i).Pairwise (fun a b => stepsTo i a < stepsTo i b) := by
  revert i
  decide

theorem mem_othersAfter {i j : Fin 16} : j ∈ othersAfter i ↔ j ≠ i := by
  have hj := mem_allAddrs j
  simp only [othersAfter, indexesAfter, List.mem_filter, List.mem_append, hj, true_and, decide_eq_true_eq, bne_iff_ne]
  exact and_iff_right (lt_or_ge i j)

theorem allAddrs_ordered : allAddrs.Pairwise (fun a b => a.val < b.val) := by decide

section
variable {s : State} {side : Side}

/-- From a table entry the DRIVER layout steps among the other entries, in table order and wrapping (R150). -/
theorem nextDriverLayout_of_index {i : Fin 16} (h : (s.screen side).driverLayout = .index i) :
    s.nextDriverLayout side = ((othersAfter i).find? (s.selectableOn side)).map .index := by
  unfold State.nextDriverLayout
  rw [h]
  rfl

/-- From a DRIVER layout that is no table entry it steps to the first entry (R150). -/
theorem nextDriverLayout_of_no_index (h : ∀ i, (s.screen side).driverLayout ≠ .index i) :
    s.nextDriverLayout side = (allAddrs.find? (s.selectableOn side)).map .index := by
  unfold State.nextDriverLayout
  cases hd : (s.screen side).driverLayout with
  | index i => exact absurd hd (h i)
  | spotlight => rfl
  | blank => rfl

/-- The next selectable entry allowed on the screen is the one that the fewest steps lead to (R150). -/
theorem nextDriverLayout_step {i j : Fin 16} (h : (s.screen side).driverLayout = .index i) (hij : i ≠ j)
    (hj : s.selectableOn side j = true)
    (hno : ∀ m, m ≠ i → stepsTo i m < stepsTo i j → s.selectableOn side m = false) :
    s.nextDriverLayout side = some (.index j) := by
  rw [nextDriverLayout_of_index h, find?_of_pairwise (othersAfter_ordered i) (mem_othersAfter.mpr hij.symm) hj
    fun m hm hlt => hno m (mem_othersAfter.mp hm) hlt]
  rfl

/-- The first selectable entry allowed on the screen is the lowest (R150). -/
theorem nextDriverLayout_first {j : Fin 16} (h : ∀ i, (s.screen side).driverLayout ≠ .index i)
    (hj : s.selectableOn side j = true) (hno : ∀ m : Fin 16, m.val < j.val → s.selectableOn side m = false) :
    s.nextDriverLayout side = some (.index j) := by
  rw [nextDriverLayout_of_no_index h, find?_of_pairwise allAddrs_ordered (mem_allAddrs j) hj fun m _ hlt => hno m hlt]
  rfl

/-- There is no other selectable entry (R150). -/
theorem nextDriverLayout_none_of_index {i : Fin 16} (h : (s.screen side).driverLayout = .index i)
    (hno : ∀ j, j ≠ i → s.selectableOn side j = false) : s.nextDriverLayout side = none := by
  rw [nextDriverLayout_of_index h, List.find?_eq_none.mpr fun m hm => by simp [hno m (mem_othersAfter.mp hm)]]
  rfl

/-- There is no selectable entry (R150). -/
theorem nextDriverLayout_none (h : ∀ i, (s.screen side).driverLayout ≠ .index i)
    (hno : ∀ j, s.selectableOn side j = false) : s.nextDriverLayout side = none := by
  rw [nextDriverLayout_of_no_index h, List.find?_eq_none.mpr fun m _ => by simp [hno m]]
  rfl

/-- A NEXT press outside ACTIVE, or on a screen that shows another view, has no effect (R150). -/
theorem nextPress_idle (h : s.cab.state ≠ .active ∨ shownKind (s.screen side).list ≠ some .driver) :
    nextPress side s = s := if_neg (by simpa [isActive_iff, imp_iff_not_or] using h)

/-- One with no entry to step to has none (R150). -/
theorem nextPress_none (h : s.nextDriverLayout side = none) : nextPress side s = s := by
  unfold nextPress
  rw [h, ite_self]

/-- Otherwise the DRIVER layout steps and is shown (R150). -/
theorem nextPress_some {lay : ShownLayout} (ha : s.cab.state = .active)
    (hd : shownKind (s.screen side).list = some .driver) (h : s.nextDriverLayout side = some lay) : nextPress side s =
      showLayout side lay (s.setScreen side { s.screen side with driverLayout := lay }) := by
  unfold nextPress
  rw [if_pos (by simp [isActive_iff, ha, hd]), h]

/-- What such a press leaves of the screen: the DRIVER layout alone has changed, and the request list stays (R150). -/
theorem nextPress_steps {lay : ShownLayout} (ha : s.cab.state = .active)
    (hd : shownKind (s.screen side).list = some .driver) (h : s.nextDriverLayout side = some lay) :
    ((nextPress side s).screen side).driverLayout = lay
      ∧ ((nextPress side s).screen side).list = (s.screen side).list := by
  have hrecord : ((nextPress side s).screen side).record =
      ({ s.screen side with driverLayout := lay } : Screen).record := by
    rw [nextPress_some ha hd h, showLayout_record, setScreen_screen]
  have hlist := list_of_record hrecord
  exact ⟨driverLayout_of_record hrecord, hlist⟩

end

/-! ### The keys (R148) -/

/-- A key's filter is beside the cab state. -/
@[simp] theorem setKey_state (c : CabControl) (k : Key) (f : LineFilter) : (c.setKey k f).state = c.state := by
  cases k <;> rfl

/-- Settles O51: each press has its effect behind the accepted value, and a release has none. -/
theorem keysAccepted : Obligations.KeysAccepted := by
  refine ⟨fun s f hs ha hcab hlevel hacc htime hf => ?_, fun s side key f hs ha hcab hkey hlevel hacc htime hf => ?_,
    fun s k hs ha hcab hlevel hacc => ⟨fun htime => ?_, fun htime => ?_⟩⟩
  · have hpress : ackAccepted s = ackPress (s.setCab { s.cab with ack := f }) :=
      keyAccepted_press (k := .ack) ackPress (by simp [State.readsCab, ha, hcab]) hlevel hacc htime hf
    refine ⟨fun hno => ?_, fun d hact hd => ⟨fun hp => ?_, fun hp => ?_⟩⟩
    · exact exec_actClock_to hs rfl (hpress.trans (ackPress_idle hno))
    · exact exec_actClock_to hs rfl (hpress.trans (ackPress_obstructed hact hd hp))
    · refine ⟨_, exec_actClock_to hs rfl (hpress.trans (ackPress_other hact hd hp)), ?_, ?_⟩
      · exact (settleViews_conditions _).beside
      · exact (settleViews_conditions _).spotlight
  · obtain rfl : key = nextKey side := by rw [hkey]; cases side <;> rfl
    have hpress : nextAccepted side s = nextPress side (s.setCab (s.cab.setKey (nextKey side) f)) :=
      keyAccepted_press (nextPress side) (by simp [State.readsCab, ha, hcab]) hlevel hacc htime hf
    generalize hx : s.setCab (s.cab.setKey (nextKey side) f) = x at hpress ⊢
    have hstate : x.cab.state = s.cab.state := by rw [← hx, State.setCab_cab, setKey_state]
    have hscreen : x.screen side = s.screen side := by rw [← hx, setCab_screen]
    have hsel : s.selectableOn side = x.selectableOn side := by rw [← hx]; rfl
    have hstep : ∀ j, s.cab.state = .active → shownKind (s.screen side).list = some .driver →
        x.nextDriverLayout side = some (.index j) → ∃ t, exec (.nextKeyPress side) s = .next t ∧ t.beside = x.beside
          ∧ (t.screen side).driverLayout = .index j ∧ (t.screen side).list = (s.screen side).list := by
      intro j hact hd hnext
      rw [← hscreen] at hd ⊢
      exact ⟨_, exec_actClock_to hs rfl hpress, (nextPress_keeps side (.refl x)).same,
        nextPress_steps (hstate.trans hact) hd hnext⟩
    have hstill : x.nextDriverLayout side = none → exec (.nextKeyPress side) s = .next (refreshPins x) := fun hnext =>
      exec_actClock_to hs rfl (hpress.trans (nextPress_none hnext))
    rw [hsel]
    refine ⟨fun hno => ?_, fun i j hact hd hi hij hj hno => ?_, fun i _ _ hi hno => ?_, fun j hact hd hi hj hno => ?_,
      fun _ _ hi hno => ?_⟩
    · exact exec_actClock_to hs rfl (hpress.trans (nextPress_idle (by rw [hstate, hscreen]; exact hno)))
    · exact hstep j hact hd (nextDriverLayout_step (by rw [hscreen, hi]) hij hj hno)
    · exact hstill (nextDriverLayout_none_of_index (by rw [hscreen, hi]) hno)
    · exact hstep j hact hd (nextDriverLayout_first (by rw [hscreen]; exact hi) hj hno)
    · exact hstill (nextDriverLayout_none (by rw [hscreen]; exact hi) hno)
  · exact exec_actClock_to hs rfl (keyReleaseAccepted_of_due (by simp [State.readsCab, ha, hcab]) hlevel hacc htime)
  · exact exec_actClock_to hs rfl (keyReleaseAccepted_of_lt htime)

end Sys2Proof.Machine
end

