-- ==== Sys2Proof/Proofs/PanePictures.lean ====
section
/-! SUPPORT. What a pane makes of a tile: the bands that a picture holds, the end of a picture, the bands and HOLD tiles of the
bound stream and of the candidate (R158 to R160). -/
namespace Sys2Proof.Machine

/-! ### The bands of a picture under assembly -/

/-- A band is lacking if no entry holds it (R159). -/
theorem band_isNone (a : Assembly) (k : Nat) : (a.band k).isNone = !a.bands.any (fun x => x.1 == k) := by
  unfold Assembly.band
  rw [Option.isNone_map, ← Option.not_isSome, List.isSome_find?]

theorem missing_eq (a : Assembly) (cls : SizeClass) : a.missing cls =
    ((List.range cls.bands).filter (fun k => !a.bands.any (fun x => x.1 == k))).length := by
  unfold Assembly.missing
  simp only [band_isNone]

/-- A picture that takes a band holds its payload, and of the other bands what it held (R159). -/
theorem band_hold (a : Assembly) (band : Nat) (payload : List Byte) (k : Nat) :
    (a.hold band payload).band k = if k = band then some payload else a.band k := by
  unfold Assembly.hold Assembly.band
  by_cases hk : k = band
  · simp [hk]
  · have hothers : ∀ x : Nat × List Byte, decide ((x.1 != band) = true ∧ (x.1 == k) = true) = (x.1 == k) := fun x => by
      by_cases hx : x.1 = k <;> simp [hx, hk]
    rw [if_neg hk, List.find?_cons_of_neg (by simpa using Ne.symm hk), List.find?_filter]
    simp only [hothers]

/-! ### The end of a picture -/

/-- The display picture that a pane makes of an ended picture: each band that it lacks is taken from the one before (R159). -/
def Pane.patchedPicture (p : Pane) (a : Assembly) (cls : SizeClass) : List (List Byte) :=
  (List.range cls.bands).map (fun k => (a.band k).getD ((p.display.getD []).getD k []))

theorem patchedPicture_length (p : Pane) (a : Assembly) (cls : SizeClass) : (p.patchedPicture a cls).length = cls.bands := by
  simp [Pane.patchedPicture]

theorem patchedPicture_held {a : Assembly} {cls : SizeClass} {k : Nat} {b : List Byte} (p : Pane) (hk : k < cls.bands)
    (hb : a.band k = some b) : (p.patchedPicture a cls)[k]? = some b := by
  simp [Pane.patchedPicture, hk, hb]

theorem patchedPicture_lacking {p : Pane} {a : Assembly} {cls : SizeClass} {k : Nat} {old : List (List Byte)} {b : List Byte}
    (hk : k < cls.bands) (hb : a.band k = none) (hd : p.display = some old) (ho : old[k]? = some b) :
    (p.patchedPicture a cls)[k]? = some b := by
  simp [Pane.patchedPicture, hk, hb, hd, ho]

/-- At most a quarter of the bands is missing, and there is a display picture to take them from (R159). -/
def Pane.canPatch (p : Pane) (a : Assembly) (cls : SizeClass) : Prop :=
  4 * a.missing cls ≤ cls.bands ∧ (a.missing cls = 0 ∨ p.display ≠ none)

theorem canPatch_iff (p : Pane) (a : Assembly) (cls : SizeClass) : p.canPatch a cls ↔
    a.missing cls ≤ cls.bands / 4 ∧ (a.missing cls = 0 ∨ p.display.isSome = true) := by
  have hquarter : 4 * a.missing cls ≤ cls.bands ↔ a.missing cls ≤ cls.bands / 4 := by omega
  unfold Pane.canPatch
  rw [hquarter, Option.isSome_iff_ne_none]

theorem endPicture_swaps {p : Pane} {a : Assembly} {cls : SizeClass} (h : p.canPatch a cls) : p.endPicture a cls =
    { pane := { p with assembly := none, display := some (p.patchedPicture a cls), stale := 0 }
      swaps := 1, patched := a.missing cls, discarded := 0 } := if_pos ((canPatch_iff p a cls).mp h)

theorem endPicture_discards {p : Pane} {a : Assembly} {cls : SizeClass} (h : ¬p.canPatch a cls) : p.endPicture a cls =
    { pane := { p with assembly := none }, swaps := 0, patched := 0, discarded := 1 } :=
  if_neg (mt (canPatch_iff p a cls).mpr h)

theorem endPicture_assembly (p : Pane) (a : Assembly) (cls : SizeClass) : (p.endPicture a cls).pane.assembly = none := by
  by_cases h : p.canPatch a cls
  · rw [endPicture_swaps h]
  · rw [endPicture_discards h]

/-! ### Which stream's tile a pane takes -/

theorem takeTile_bound_picture {p : Pane} {id : StreamId} {h : TileHeader} (payload : List Byte) (hc : p.candidate ≠ some id)
    (hp : h.picture = true) : p.takeTile id h payload = p.takeBand id.cls h payload := by
  rw [Pane.takeTile, if_neg hc, if_pos hp]

theorem takeTile_bound_hold {p : Pane} {id : StreamId} {h : TileHeader} (payload : List Byte) (hc : p.candidate ≠ some id)
    (hp : h.picture = false) : p.takeTile id h payload = p.takeHold := by
  rw [Pane.takeTile, if_neg hc, if_neg (by simp [hp])]

theorem takeTile_candidate_picture {p : Pane} {id : StreamId} {h : TileHeader} (payload : List Byte)
    (hc : p.candidate = some id) (hp : h.picture = true) :
    p.takeTile id h payload = p.takeCandidateBand id h payload := by
  rw [Pane.takeTile, if_pos hc, if_pos hp]

theorem takeTile_candidate_hold {p : Pane} {id : StreamId} {h : TileHeader} (payload : List Byte)
    (hc : p.candidate = some id) (hp : h.picture = false) : p.takeTile id h payload = p.takeCandidateHold := by
  rw [Pane.takeTile, if_pos hc, if_neg (by simp [hp])]

/-! ### A HOLD tile -/

theorem takeHold_open {p : Pane} {a : Assembly} (h : p.assembly = some a) :
    p.takeHold = { pane := { p with assembly := none }, swaps := 0, patched := 0, discarded := 1 } := by
  simp only [Pane.takeHold, h]

theorem takeHold_idle {p : Pane} (h : p.assembly = none) : p.takeHold = PaneStep.still p := by
  simp only [Pane.takeHold, h]

theorem takeCandidateHold_open {p : Pane} {a : Assembly} (h : p.candidatePicture = some a) :
    p.takeCandidateHold = { pane := { p with candidatePicture := none }, swaps := 0, patched := 0, discarded := 1 } := by
  simp only [Pane.takeCandidateHold, h]

theorem takeCandidateHold_idle {p : Pane} (h : p.candidatePicture = none) :
    p.takeCandidateHold = PaneStep.still p := by
  simp only [Pane.takeCandidateHold, h]

/-! ### A band of the bound stream -/

/-- The picture that holds a tile's band: the one open, or a new one of its sequence number (R159). -/
def Pane.holdBand (p : Pane) (h : TileHeader) (payload : List Byte) : Assembly :=
  match p.assembly with
  | some a => a.hold h.band payload
  | none => { seq := h.seq, bands := [(h.band, payload)] }

theorem holdBand_open {p : Pane} {a : Assembly} (ha : p.assembly = some a) (h : TileHeader) (payload : List Byte) :
    p.holdBand h payload = a.hold h.band payload := by
  simp only [Pane.holdBand, ha]

theorem holdBand_idle {p : Pane} (ha : p.assembly = none) (h : TileHeader) (payload : List Byte) :
    p.holdBand h payload = { seq := h.seq, bands := [(h.band, payload)] } := by
  simp only [Pane.holdBand, ha]

/-- The band is held in its picture; the last one ends it (R159; log 78). -/
def Pane.addBand (p : Pane) (cls : SizeClass) (h : TileHeader) (payload : List Byte) : PaneStep :=
  if h.last = true then p.endPicture (p.holdBand h payload) cls
  else PaneStep.still { p with assembly := some (p.holdBand h payload) }

/-- A band ends the picture of another number first, and is then held (R159). -/
theorem takeBand_eq_addBand (p : Pane) (cls : SizeClass) (h : TileHeader) (payload : List Byte) :
    p.takeBand cls h payload = (p.endOther cls h).after ((p.endOther cls h).pane.addBand cls h payload) := by
  have hlast : p.takeBand cls h payload =
      if h.last = true then
        (p.endOther cls h).after ((p.endOther cls h).pane.endPicture ((p.endOther cls h).pane.holdBand h payload) cls)
      else (p.endOther cls h).after
        (PaneStep.still { (p.endOther cls h).pane with assembly := some ((p.endOther cls h).pane.holdBand h payload) }) := rfl
  rw [hlast, Pane.addBand, apply_ite (p.endOther cls h).after]

theorem still_after (p : Pane) (x : PaneStep) : (PaneStep.still p).after x = x := by
  simp [PaneStep.after, PaneStep.still]

/-- With no picture of another number open, the band is held at once (R159). -/
theorem takeBand_same {p : Pane} {h : TileHeader} (cls : SizeClass) (payload : List Byte)
    (hs : ∀ a, p.assembly = some a → a.seq = h.seq) : p.takeBand cls h payload = p.addBand cls h payload := by
  have hfirst : p.endOther cls h = PaneStep.still p := by
    unfold Pane.endOther
    split
    · next a ha => exact if_pos (hs a ha)
    · rfl
  rw [takeBand_eq_addBand, hfirst, still_after]
  rfl

/-- A picture of another number is ended, and the band opens its own (R159). -/
theorem takeBand_other {p : Pane} {a : Assembly} {h : TileHeader} (cls : SizeClass) (payload : List Byte)
    (ha : p.assembly = some a) (hs : a.seq ≠ h.seq) :
    p.takeBand cls h payload = (p.endPicture a cls).after ((p.endPicture a cls).pane.addBand cls h payload) := by
  have hfirst : p.endOther cls h = p.endPicture a cls := by simp only [Pane.endOther, ha, if_neg hs]
  rw [takeBand_eq_addBand, hfirst]

/-! ### A band of the candidate -/

/-- The picture that a candidate's band opens: one of band 0 alone (R158). -/
def TileHeader.opens (h : TileHeader) (payload : List Byte) : Option Assembly :=
  if h.band = 0 then some { seq := h.seq, bands := [(0, payload)] } else none

theorem takeCandidateBand_idle {p : Pane} (id : StreamId) (h : TileHeader) (payload : List Byte)
    (hc : p.candidatePicture = none) :
    p.takeCandidateBand id h payload = PaneStep.still { p with candidatePicture := h.opens payload } := by
  simp only [Pane.takeCandidateBand, hc, TileHeader.opens]

/-- A tile of another number discards the candidate's picture (R158; log 23). -/
theorem takeCandidateBand_other {p : Pane} {a : Assembly} {h : TileHeader} (id : StreamId) (payload : List Byte)
    (hc : p.candidatePicture = some a) (hs : a.seq ≠ h.seq) : p.takeCandidateBand id h payload =
      { pane := { p with candidatePicture := h.opens payload }, swaps := 0, patched := 0, discarded := 1 } := by
  simp only [Pane.takeCandidateBand, hc, if_neg hs, TileHeader.opens]

/-- The candidate takes the pane over with its last missing band (R158). -/
theorem takeCandidateBand_complete {p : Pane} {a : Assembly} {id : StreamId} {h : TileHeader} {payload : List Byte}
    (hc : p.candidatePicture = some a) (hs : a.seq = h.seq) (hm : (a.hold h.band payload).missing id.cls = 0) :
    p.takeCandidateBand id h payload = p.takeOver id (a.hold h.band payload) := by
  simp only [Pane.takeCandidateBand, hc, if_pos hs, if_pos hm]

/-- The last band with one missing discards the candidate's picture (R158; log 78). -/
theorem takeCandidateBand_lacking {p : Pane} {a : Assembly} {id : StreamId} {h : TileHeader} {payload : List Byte}
    (hc : p.candidatePicture = some a) (hs : a.seq = h.seq) (hm : (a.hold h.band payload).missing id.cls ≠ 0) :
    p.takeCandidateBand id h payload =
      if h.last = true then { pane := { p with candidatePicture := none }, swaps := 0, patched := 0, discarded := 1 }
      else PaneStep.still { p with candidatePicture := some (a.hold h.band payload) } := by
  simp only [Pane.takeCandidateBand, hc, if_pos hs, if_neg hm]

end Sys2Proof.Machine
end

