-- ==== Sys2Proof/Proofs/PaneStreams.lean ====
section
/-! SUPPORT. Which stream a pane is bound to next, and which panes take a tile (R20, R156, R158). -/
namespace Sys2Proof.Machine

/-! ### The rank of streams -/

theorem rank_injective {x y : SizeClass} (h : x.rank = y.rank) : x = y := by
  revert h
  cases x <;> cases y <;> decide

/-- A stream does not rank above another: it has the lower class, or the same one and no lower number (R156). -/
def StreamId.atMost (y x : StreamId) : Prop := y.cls.rank < x.cls.rank ∨ (y.cls = x.cls ∧ x.num.val ≤ y.num.val)

theorem atMost_refl (x : StreamId) : x.atMost x := .inr ⟨rfl, le_refl _⟩

theorem atMost_trans {x y z : StreamId} (h : x.atMost y) (h' : y.atMost z) : x.atMost z := by
  rcases h with h | ⟨hc, hn⟩ <;> rcases h' with h' | ⟨hc', hn'⟩
  · exact .inl (h.trans h')
  · exact .inl (hc' ▸ h)
  · exact .inl (hc ▸ h')
  · exact .inr ⟨hc.trans hc', hn'.trans hn⟩

theorem atMost_of_above {x y : StreamId} (h : y.above x = true) : x.atMost y := by
  unfold StreamId.above at h
  split at h
  · next hc => exact .inr ⟨hc.symm, (of_decide_eq_true h).le⟩
  · exact .inl (of_decide_eq_true h)

theorem atMost_of_not_above {x y : StreamId} (h : ¬y.above x = true) : y.atMost x := by
  unfold StreamId.above at h
  split at h
  · next hc => exact .inr ⟨hc, not_lt.mp fun hn => h (decide_eq_true hn)⟩
  · next hc =>
    refine .inl (lt_of_le_of_ne (not_lt.mp fun hr => h (decide_eq_true hr)) fun he => hc (rank_injective he))

theorem atMost_rank {x y : StreamId} (h : y.atMost x) : y.cls.rank ≤ x.cls.rank := by
  rcases h with h | ⟨hc, -⟩
  · exact h.le
  · exact hc ▸ le_refl _

/-! ### The best of some streams -/

theorem bestStream_eq_none_iff (l : List StreamId) : bestStream l = none ↔ l = [] := by
  cases l with
  | nil => simp [bestStream]
  | cons x xs =>
    unfold bestStream
    split <;> simp

/-- The best stream is one of them, and none ranks above it (R156). -/
theorem bestStream_best {l : List StreamId} {x : StreamId} (h : bestStream l = some x) :
    x ∈ l ∧ ∀ y ∈ l, y.atMost x := by
  induction l generalizing x with
  | nil => cases h
  | cons z zs ih =>
    unfold bestStream at h
    split at h
    · next hn =>
      obtain rfl : z = x := Option.some.inj h
      obtain rfl := (bestStream_eq_none_iff zs).mp hn
      simpa using atMost_refl z
    · next w hw =>
      obtain ⟨hmem, hbest⟩ := ih hw
      by_cases hab : w.above z = true
      · obtain rfl : w = x := by simpa [hab] using h
        exact ⟨List.mem_cons_of_mem _ hmem, List.forall_mem_cons.mpr ⟨atMost_of_above hab, hbest⟩⟩
      · obtain rfl : z = x := by simpa [hab] using h
        exact ⟨List.mem_cons_self, List.forall_mem_cons.mpr
          ⟨atMost_refl z, fun y hy => atMost_trans (hbest y hy) (atMost_of_not_above hab)⟩⟩

/-! ### The choice of a candidate -/

/-- The available streams of the pane's camera at a class it accepts (R156). -/
theorem mem_eligible (p : Pane) (available : List StreamId) (x : StreamId) : x ∈ available.filter p.accepts ↔
    x ∈ available ∧ p.result = .cam { addr := x.addr, input := x.input } ∧ x.cls.rank ≤ p.cls.rank
      ∧ p.floor.rank ≤ x.cls.rank := by
  simp [Pane.accepts, and_assoc]

theorem choose_of_unbound {p : Pane} (h : p.bound = none) (eligible : List StreamId) :
    p.choose eligible = bestStream eligible := by
  simp only [Pane.choose, h]

/-- Above a PLAIN bound stream an eligible one of a higher class is chosen (R156). -/
theorem choose_above_plain {p : Pane} {b x : StreamId} {eligible : List StreamId} (hb : p.bound = some (b, .plain))
    (h : p.choose eligible = some x) : x ∈ eligible ∧ b.cls.rank < x.cls.rank := by
  simp only [Pane.choose, hb] at h
  split at h
  · cases h
  · next y hy =>
    split at h
    · cases h
    · next hr =>
      obtain rfl : y = x := Option.some.inj h
      exact ⟨(List.mem_filter.mp (bestStream_best hy).1).1, not_le.mp fun hle => hr ⟨trivial, hle⟩⟩

/-- There is no choice above a PLAIN bound stream exactly if no eligible one has a higher class (R156). -/
theorem choose_plain_eq_none_iff {p : Pane} {b : StreamId} {eligible : List StreamId} (hb : p.bound = some (b, .plain)) :
    p.choose eligible = none ↔ ∀ x ∈ eligible, x.cls.rank ≤ b.cls.rank := by
  refine ⟨fun h x hx => ?_, fun h => ?_⟩
  · by_cases hc : x.cls = b.cls
    · exact hc ▸ le_refl _
    · have hother : x ∈ eligible.filter (fun y => y.cls != b.cls) := List.mem_filter.mpr ⟨hx, by simpa using hc⟩
      simp only [Pane.choose, hb] at h
      split at h
      · next hn => exact absurd hother ((bestStream_eq_none_iff _).mp hn ▸ List.not_mem_nil)
      · next y hy =>
        split at h
        · next hr => exact (atMost_rank ((bestStream_best hy).2 x hother)).trans hr.2
        · cases h
  · cases hx : p.choose eligible with
    | none => rfl
    | some x =>
      obtain ⟨hmem, hlt⟩ := choose_above_plain hb hx
      exact absurd (h x hmem) (not_le.mpr hlt)

/-! ### A pane judged -/

theorem dropCandidate_eq (p : Pane) (available : List StreamId) :
    ∃ c a, p.dropCandidate available = { p with candidate := c, candidatePicture := a } := by
  unfold Pane.dropCandidate
  repeat' split
  all_goals exact ⟨_, _, rfl⟩

theorem setCandidate_eq (p : Pane) (c : Option StreamId) :
    ∃ a, p.setCandidate c = { p with candidate := c, candidatePicture := a } := by
  unfold Pane.setCandidate
  split
  · next h => exact ⟨p.candidatePicture, by rw [← h]⟩
  · exact ⟨none, rfl⟩

/-- A pane whose bound stream is available stays bound as it is, unless ENDED (R158). -/
theorem loseBound_of_stays {p : Pane} {available : List StreamId} (h : ∀ b m, p.bound = some (b, m) → b ∈ available) :
    p.loseBound available = p := by
  unfold Pane.loseBound
  split
  · rfl
  · next b m hb => exact if_pos (.inr (h b m hb))

theorem takeChoice_of_not_ended {p : Pane} (h : ∀ b, p.bound ≠ some (b, .ended)) (available : List StreamId) :
    p.takeChoice available = p.setCandidate (p.choose (available.filter p.accepts)) := by
  unfold Pane.takeChoice
  split
  · next b hb _ => exact absurd hb (h b)
  · rfl

/-- A pane that loses no bound stream has the choice among the eligible ones as its candidate (R156). -/
theorem judge_of_stays {p : Pane} {c : CamId} {available : List StreamId} (hc : p.result = .cam c)
    (hb : ∀ b m, p.bound = some (b, m) → m ≠ .ended ∧ b ∈ available) :
    ∃ a, p.judge available = { p with candidate := p.choose (available.filter p.accepts), candidatePicture := a } := by
  obtain ⟨c', a', hdrop⟩ := dropCandidate_eq p available
  obtain ⟨q, hq⟩ : ∃ q, q = { p with candidate := c', candidatePicture := a' } := ⟨_, rfl⟩
  have hbound : q.bound = p.bound := by rw [hq]
  have hchoice : q.choose (available.filter q.accepts) = p.choose (available.filter p.accepts) := by rw [hq]; rfl
  obtain ⟨a, ha⟩ := setCandidate_eq q (p.choose (available.filter p.accepts))
  refine ⟨a, ?_⟩
  rw [judge_of_cam hc, hdrop, ← hq, loseBound_of_stays fun b m h => (hb b m (hbound ▸ h)).2,
    takeChoice_of_not_ended fun b h => (hb b _ (hbound ▸ h)).1 rfl, hchoice, ha, hq]

/-- A pane without a candidate whose bound stream is lost, with none eligible, is unbound (R158). -/
theorem judge_of_lost {p : Pane} {c : CamId} {b : StreamId} {m : BindMark} {available : List StreamId}
    (hc : p.result = .cam c) (hb : p.bound = some (b, m)) (hm : m ≠ .ended) (ha : b ∉ available) (hcand : p.candidate = none)
    (hnone : available.filter p.accepts = []) : p.judge available = p.unbind := by
  have hdrop : p.dropCandidate available = p := by simp only [Pane.dropCandidate, hcand]
  have hlose : p.loseBound available = p.unbind := by simp [Pane.loseBound, hb, hm, ha, hcand]
  have hchoice : p.unbind.choose (available.filter p.unbind.accepts) = none :=
    (choose_of_unbound rfl _).trans ((bestStream_eq_none_iff _).mpr hnone)
  rw [judge_of_cam hc, hdrop, hlose, takeChoice_of_not_ended (fun _ => by simp [Pane.unbind]), hchoice]
  exact if_pos hcand

/-! ### The filter, and the panes that take a tile -/

/-- A pane takes the tiles of its candidate and of its bound stream unless ENDED (R156). -/
theorem listens_iff (p : Pane) (id : StreamId) : p.listens id = true ↔
    p.candidate = some id ∨ p.bound = some (id, .plain) ∨ p.bound = some (id, .carried) := by
  unfold Pane.listens Pane.streams
  rw [List.contains_iff_mem, List.mem_append, Option.mem_toList]
  refine or_congr_right ?_
  cases p.bound with
  | none => simp
  | some x =>
    obtain ⟨b, m⟩ := x
    cases m <;> simp [eq_comm]

theorem mem_tileFilter (s : State) (n : Slot) (id : StreamId) : id ∈ (s.tileFilter n).streams ↔
    ∃ side, ∃ p ∈ (s.screen side).panes, p.listens id = true := by
  have hset : id ∈ (s.tileFilter n).streams ↔ ∃ p ∈ s.comp.panes, p.listens id = true := by
    simp [State.tileFilter, Composer.boundStreams, Pane.listens]
  rw [hset]
  constructor
  · rintro ⟨p, hp, hl⟩
    rcases List.mem_append.mp hp with hp | hp
    · exact ⟨.left, p, hp, hl⟩
    · exact ⟨.right, p, hp, hl⟩
  · rintro ⟨side, p, hp, hl⟩
    cases side
    · exact ⟨p, List.mem_append_left _ hp, hl⟩
    · exact ⟨p, List.mem_append_right _ hp, hl⟩

/-- A pane over a tile that the filter passes: it takes the tile if it listens to its stream (R156). -/
def Pane.overTile (id : StreamId) (h : TileHeader) (payload : List Byte) (available : List StreamId) (p : Pane) : Pane :=
  if p.listens id = true then p.afterTile id h payload available else p

theorem takePaneTile_panes (id : StreamId) (h : TileHeader) (payload : List Byte) (available : List StreamId)
    (ps : List Pane) (c : Composer) :
    (takePaneTile id h payload c available ps).2 = ps.map (Pane.overTile id h payload available) := by
  induction ps generalizing c with
  | nil => rfl
  | cons p ps ih =>
    by_cases hp : p.listens id = true
    · rw [takePaneTile_listens hp, List.map_cons, Pane.overTile, if_pos hp, ih]
    · rw [takePaneTile_deaf hp, List.map_cons, Pane.overTile, if_neg hp, ih]

/-- A tile whose stream the filter does not hold changes nothing (R20). -/
theorem composerTile_blocked {f : TileFilter} {h : TileHeader} (payload : List Byte) (s : State)
    (hf : h.streamId ∉ f.streams) : composerTile f h payload s = s := if_neg (by simp [hf])

/-- Each pane over a tile that the filter passes, its state judged anew (R152, R158 to R160). -/
theorem composerTile_passed {s : State} {f : TileFilter} {h : TileHeader} (ha : s.cab.state = .active)
    (hf : h.streamId ∈ f.streams) (payload : List Byte) (side : Side) (k : Nat) (p : Pane)
    (hk : (s.screen side).panes[k]? = some p) : ∃ st, ((composerTile f h payload s).screen side).panes[k]? =
      some { p.overTile h.streamId h payload (availableStreams s.tables.slots) with state := st } := by
  obtain ⟨c, hc, hpanes⟩ : ∃ c : Composer, composerTile f h payload s = settlePanes (s.setComp c)
      ∧ (c.screen side).panes =
        (s.screen side).panes.map (Pane.overTile h.streamId h payload (availableStreams s.tables.slots)) := by
    refine ⟨_, if_pos (by simp [(isActive_iff s).mpr ha, hf]), ?_⟩
    cases side <;> exact takePaneTile_panes ..
  have hcomp : (settlePanes (s.setComp c)).comp = c.settled := settlePanes_comp (s := s.setComp c) ha
  refine ⟨paneStateOf c.refused (p.overTile h.streamId h payload (availableStreams s.tables.slots)), ?_⟩
  unfold State.screen
  rw [hc, hcomp, settled_panes, hpanes, List.getElem?_map, List.getElem?_map, hk]
  rfl

theorem afterTile_of_bound_stays {p : Pane} {id : StreamId} {h : TileHeader} {payload : List Byte}
    (hb : (p.takeTile id h payload).pane.bound = p.bound) (available : List StreamId) :
    p.afterTile id h payload available = (p.takeTile id h payload).pane := if_neg (by simp [hb])

/-! ### The obligation's parts -/

/-- A picture that can be patched ends with a swap, and with it on display (R159). -/
theorem picture_swapped {p : Pane} {a : Assembly} {cls : SizeClass} (h : p.canPatch a cls) :
    (p.endPicture a cls).swaps = 1 ∧ (p.endPicture a cls).patched = a.missing cls ∧ (p.endPicture a cls).discarded = 0
      ∧ (p.endPicture a cls).pane.assembly = none ∧ (p.endPicture a cls).pane.stale = 0
      ∧ (p.endPicture a cls).pane.bound = p.bound
      ∧ ∃ d, (p.endPicture a cls).pane.display = some d ∧ d.length = cls.bands
        ∧ ∀ k, k < cls.bands → (∀ b, a.band k = some b → d[k]? = some b)
          ∧ (∀ old b, a.band k = none → p.display = some old → old[k]? = some b → d[k]? = some b) := by
  rw [endPicture_swaps h]
  exact ⟨rfl, rfl, rfl, rfl, rfl, rfl, _, rfl, patchedPicture_length p a cls, fun k hk =>
    ⟨fun b hb => patchedPicture_held p hk hb, fun old b hb hd ho => patchedPicture_lacking hk hb hd ho⟩⟩

/-- The candidate with its last missing band becomes the PLAIN bound stream (R158). -/
theorem candidate_takes_over {p : Pane} {a : Assembly} {id : StreamId} {h : TileHeader} {payload : List Byte}
    (hc : p.candidate = some id) (hp : h.picture = true) (ha : p.candidatePicture = some a) (hs : a.seq = h.seq)
    (hm : (a.hold h.band payload).missing id.cls = 0) :
    ∃ d, p.takeTile id h payload =
        { pane := { p with display := some d, bound := some (id, .plain), assembly := none, stale := 0,
                           candidate := none, candidatePicture := none }, swaps := 1, patched := 0, discarded := 0 }
      ∧ d.length = id.cls.bands ∧ ∀ k b, k < id.cls.bands → (a.hold h.band payload).band k = some b → d[k]? = some b := by
  rw [takeTile_candidate_picture payload hc hp, takeCandidateBand_complete ha hs hm]
  exact ⟨_, rfl, by simp, fun k b hk hb => by simp [hk, hb]⟩

/-- A PICTURE tile of the bound stream (R159). -/
theorem boundBand_taken {p : Pane} {id : StreamId} {h : TileHeader} (payload : List Byte) (hc : p.candidate ≠ some id)
    (hp : h.picture = true) :
    (p.assembly = none → p.takeTile id h payload =
        if h.last = true then p.endPicture { seq := h.seq, bands := [(h.band, payload)] } id.cls
        else PaneStep.still { p with assembly := some { seq := h.seq, bands := [(h.band, payload)] } })
      ∧ (∀ a, p.assembly = some a → a.seq = h.seq → p.takeTile id h payload =
          if h.last = true then p.endPicture (a.hold h.band payload) id.cls
          else PaneStep.still { p with assembly := some (a.hold h.band payload) })
      ∧ (∀ a, p.assembly = some a → a.seq ≠ h.seq → p.takeTile id h payload = (p.endPicture a id.cls).after
          (if h.last = true then
            (p.endPicture a id.cls).pane.endPicture { seq := h.seq, bands := [(h.band, payload)] } id.cls
          else PaneStep.still { (p.endPicture a id.cls).pane with
            assembly := some { seq := h.seq, bands := [(h.band, payload)] } })) := by
  rw [takeTile_bound_picture payload hc hp]
  refine ⟨fun ha => ?_, fun a ha hs => ?_, fun a ha hs => ?_⟩
  · rw [takeBand_same _ payload (by simp [ha]), Pane.addBand, holdBand_idle ha]
  · rw [takeBand_same _ payload (by simpa [ha] using hs), Pane.addBand, holdBand_open ha]
  · rw [takeBand_other _ payload ha hs, Pane.addBand, holdBand_idle (endPicture_assembly ..)]

/-- A pane judged with no stream bound, and one with an available stream bound PLAIN (R156). -/
theorem judge_candidate {p : Pane} {c : CamId} (available : List StreamId) (hc : p.result = .cam c) :
    (p.bound = none → (p.judge available).bound = none
        ∧ (p.judge available).candidate = bestStream (available.filter p.accepts))
      ∧ (∀ b, p.bound = some (b, .plain) → b ∈ available → (p.judge available).bound = p.bound
        ∧ (p.judge available).display = p.display
        ∧ (p.judge available).candidate = p.choose (available.filter p.accepts)) := by
  refine ⟨fun hb => ?_, fun b hb ha => ?_⟩
  · obtain ⟨a, hj⟩ := judge_of_stays (available := available) hc (by simp [hb])
    rw [hj, choose_of_unbound hb]
    exact ⟨hb, rfl⟩
  · obtain ⟨a, hj⟩ := judge_of_stays (available := available) hc (by simpa [hb] using ha)
    rw [hj]
    exact ⟨rfl, rfl, rfl⟩

/-- Settles O53: pictures by the end of a picture and the branches of a tile, the candidate by the best of the eligible streams,
and the filter by the panes that listen. -/
theorem paneTakesStream : Obligations.PaneTakesStream := by
  refine ⟨fun p a cls => ⟨missing_eq a cls, fun hq hd => picture_swapped ⟨hq, hd⟩, endPicture_discards,
      fun id h payload hc hp ha hs hm => candidate_takes_over hc hp ha hs hm⟩,
    fun p id h payload hp => ⟨fun hc => ?_, fun hc => ?_⟩, fun p available fits hfits => ?_,
    fun p id h payload one hp hone hc => ?_, fun p id h payload opened hp hopened hc => ?_,
    fun s n id => ⟨rfl, by simp only [mem_tileFilter, listens_iff]⟩, fun s t f h payload ha ht => ?_⟩
  · rw [takeTile_bound_hold payload hc hp]
    exact ⟨fun a => takeHold_open, takeHold_idle⟩
  · rw [takeTile_candidate_hold payload hc hp]
    exact ⟨fun a => takeCandidateHold_open, takeCandidateHold_idle⟩
  · have heligible : ∀ x, x ∈ available.filter p.accepts ↔ fits x := fun x =>
      (mem_eligible p available x).trans (hfits x).symm
    refine ⟨fun hc => judge_of_not_cam hc available, fun c hc hb => ?_, fun c b hc hb hav => ?_,
      fun c b m hc hb hav hno hcand hm => ?_⟩
    · obtain ⟨hbound, hcand⟩ := (judge_candidate available hc).1 hb
      rw [hcand]
      simp only [← heligible]
      exact ⟨hbound, fun x => bestStream_best, (bestStream_eq_none_iff _).trans List.eq_nil_iff_forall_not_mem⟩
    · obtain ⟨hbound, hdisplay, hcand⟩ := (judge_candidate available hc).2 b hb hav
      rw [hcand]
      simp only [← heligible]
      exact ⟨hbound, hdisplay, fun x => choose_above_plain hb, choose_plain_eq_none_iff hb⟩
    · have hnone : available.filter p.accepts = [] :=
        List.eq_nil_iff_forall_not_mem.mpr fun x hx => hno x ((heligible x).mp hx)
      rw [judge_of_lost hc hb hm hav hcand hnone]
      exact ⟨rfl, rfl, rfl, hcand⟩
  · subst hone
    obtain ⟨hidle, hsame, hother⟩ := boundBand_taken payload hc hp
    refine ⟨hidle, fun a ha hs => ⟨rfl, band_hold a h.band payload, hsame a ha hs⟩, fun a x y ha hs hx hy => ?_⟩
    rw [hother a ha hs, ← hx, ← hy]
    split <;> rfl
  · have hopens : opened = h.opens payload := hopened
    rw [takeTile_candidate_picture payload hc hp, hopens]
    exact ⟨takeCandidateBand_idle id h payload, fun a => takeCandidateBand_other id payload,
      fun a => takeCandidateBand_lacking⟩
  · refine ⟨fun hf => ht.trans (composerTile_blocked payload s hf), fun hf side k p takes hk htakes => ?_⟩
    obtain ⟨st, hq⟩ := composerTile_passed ha hf payload side k p hk
    rw [← listens_iff] at htakes
    refine ⟨_, ht ▸ hq, fun hno => ?_, fun hyes hb => ?_⟩
    · rw [Pane.overTile, if_neg (mt htakes.mpr hno)]
    · rw [Pane.overTile, if_pos (htakes.mp hyes), afterTile_of_bound_stays hb]

end Sys2Proof.Machine
end

