-- ==== Sys2Proof/Proofs/ServiceCharacters.lean ====
section
/-! SUPPORT. The characters of the service line: what a byte does in each state of the Service Port (R170; logs 3, 37), the judging
of a whole frame (R171; log 64), and the end of a frame by a gap and of a reply by its last byte (R170). -/
namespace Sys2Proof.Machine

/-! ### A character in each state of the port (R170) -/

section
variable {s : State} {b : Byte} {stop : Bool}

/-- In HUNT only the start byte with its stop bit at 1 begins a frame (R170; log 37). -/
theorem serviceByte_hunt (hb : s.boot.phase = .started) (h : s.service = .hunt) :
    serviceByte b stop s = if stop = true ∧ b = 0x5A#8 then s.setService (.receive [] 0) else s := by
  unfold serviceByte
  rw [if_pos hb, h, ite_and]
  rfl

/-- In ANSWER every character is discarded (R170). -/
theorem serviceByte_answer {k : Byte} {r : Option (List Byte)} (h : s.service = .answer k r) :
    serviceByte b stop s = s := by
  unfold serviceByte
  rw [h]
  exact ite_self s

/-- In RECEIVE, within the gap, a stop bit at 0 ends the frame and any other byte belongs to it (R170; log 3). -/
theorem serviceByte_receive {bytes : List Byte} {gap : Nat} (hb : s.boot.phase = .started)
    (h : s.service = .receive bytes gap) (hgap : gap ≤ 20000) :
    serviceByte b stop s = if stop = true then receiveByte bytes b s else s.setService .hunt := by
  have hwithin : ¬ Config.byteGap ≤ gap := Nat.not_le_of_lt (Nat.lt_succ_of_le hgap)
  unfold serviceByte
  rw [if_pos hb, h]
  exact if_neg hwithin

end

/-! ### Collecting the bytes of a frame (R170) -/

/-- Until its length bytes are in, a frame goes on. -/
theorem receiveByte_before_length {bytes : List Byte} (h : bytes.length < 2) (b : Byte) (s : State) :
    receiveByte bytes b s = s.setService (.receive (bytes ++ [b]) 0) := by
  have hshort : (bytes ++ [b]).length < 3 := by
    rw [List.length_append]
    exact Nat.add_lt_add_right h 1
  exact if_pos hshort

section
variable {k hi lo : Byte} {rest : List Byte}

/-- A frame whose length bytes are in is ended where they say more than 16, and goes on until payload and check value are in
(R170). -/
theorem receiveByte_of_length {bytes : List Byte} {b : Byte} (h : bytes ++ [b] = k :: hi :: lo :: rest) (s : State) :
    receiveByte bytes b s =
      if 16 < (joinBytes hi lo).toNat then s.setService .hunt
      else if rest.length < (joinBytes hi lo).toNat + 2 then s.setService (.receive (k :: hi :: lo :: rest) 0)
      else judgeFrame (k :: hi :: lo :: rest) s := by
  have hlength : frameLength (k :: hi :: lo :: rest) = (joinBytes hi lo).toNat := rfl
  have hin : ¬ (k :: hi :: lo :: rest).length < 3 := Nat.not_lt_of_le (Nat.le_add_left 3 rest.length)
  have hopen : (k :: hi :: lo :: rest).length < (joinBytes hi lo).toNat + 5 ↔ rest.length < (joinBytes hi lo).toNat + 2 :=
    Nat.add_lt_add_iff_right (k := 3)
  unfold receiveByte
  simp only [h, hlength, if_neg hin, hopen]

/-! ### Judging a whole frame (R171) -/

/-- A frame whose check value does not match is answered with BAD_REQUEST (R171; log 64). -/
theorem judgeFrame_mismatch (s : State) (h : rest.drop (joinBytes hi lo).toNat
      ≠ wordBytes (crc16 (k :: hi :: lo :: rest.take (joinBytes hi lo).toNat))) :
    judgeFrame (k :: hi :: lo :: rest) s = answerBad s := by
  have hlength : frameLength (k :: hi :: lo :: rest) = (joinBytes hi lo).toNat := rfl
  unfold judgeFrame
  simp only [hlength, Nat.add_comm 3, List.drop_succ_cons, List.take_succ_cons]
  exact if_pos h

/-- A frame of a known kind whose check value matches and whose length is the kind's is taken as that request (R171; log 64). -/
theorem judgeFrame_request {q : RequestKind} (s : State) (hkind : requestOf k = some q)
    (hn : (joinBytes hi lo).toNat = q.length) (h : rest.drop (joinBytes hi lo).toNat
      = wordBytes (crc16 (k :: hi :: lo :: rest.take (joinBytes hi lo).toNat))) :
    judgeFrame (k :: hi :: lo :: rest) s = takeRequest q (imgByte rest 0) s := by
  have hlength : frameLength (k :: hi :: lo :: rest) = (joinBytes hi lo).toNat := rfl
  have hk : requestOf (imgByte (k :: hi :: lo :: rest) 0) = some q := hkind
  unfold judgeFrame
  simp only [hlength, Nat.add_comm 3, List.drop_succ_cons, List.take_succ_cons]
  rw [if_neg (not_not_intro h), hk]
  exact if_pos hn

end

/-- The byte that completes a frame of STATUS has it answered as that request is (R170, R171). -/
theorem receiveByte_status {bytes : List Byte} {b k hi lo : Byte} (hk : k = 0x01#8) (hn : (joinBytes hi lo).toNat = 0)
    (h : bytes ++ [b] = k :: hi :: lo :: wordBytes (crc16 [k, hi, lo])) (s : State) :
    receiveByte bytes b s = handRequest .status 0x00#8 s := by
  have hwhole : ¬ (wordBytes (crc16 [k, hi, lo])).length < 0 + 2 := Nat.lt_irrefl 2
  have hkind : requestOf k = some .status := if_pos hk
  rw [receiveByte_of_length h, hn, if_neg (Nat.not_lt_zero 16), if_neg hwhole,
    judgeFrame_request s hkind hn (by rw [hn, List.drop_zero, List.take_zero]), takeRequest_handed (.inr rfl)]
  rfl

/-! ### The gap and the end of a reply (R170) -/

/-- A gap of more than 20 ms ends the frame (R170; log 3). -/
theorem serviceGap_receive {s : State} {bytes : List Byte} {gap : Nat} (h : s.service = .receive bytes gap) :
    serviceGap s = if 20000 < gap then s.setService .hunt else s := by
  unfold serviceGap
  rw [h]
  rfl

/-- After the last byte of a reply the port is in HUNT (R170). -/
theorem replySent_answer {s : State} {k : Byte} {reply : List Byte} (h : s.service = .answer k (some reply)) :
    replySent s = s.setService .hunt := by
  unfold replySent
  rw [h]

/-- Settles O56: a byte in HUNT, in ANSWER and in RECEIVE, the gap between two bytes, and the end of a reply. -/
theorem serviceCharacters : Obligations.ServiceCharacters := by
  intro s b hs hb
  have hbyte {stop : Bool} {t : State} (ht : serviceByte b stop s = t) :
      exec (.serviceByte b stop) s = .next (refreshPins t) := by
    rw [exec_act (f := serviceByte b stop) hs rfl, ht]
  refine ⟨fun h stop => hbyte (serviceByte_hunt hb h), fun k r stop h => hbyte (serviceByte_answer h),
    fun bytes gap h hgap => ?_, fun u bytes gap hu _ h => ?_, fun k reply h => ?_⟩
  · have hreceive {t : State} (ht : receiveByte bytes b s = t) :
        exec (.serviceByte b true) s = .next (refreshPins t) :=
      hbyte ((serviceByte_receive hb h hgap).trans ht)
    refine ⟨hbyte (serviceByte_receive hb h hgap), fun hshort => hreceive (receiveByte_before_length hshort b s),
      fun k hi lo rest hframe => ?_⟩
    have hcollect := receiveByte_of_length hframe s
    refine ⟨fun hlong => ?_, fun hn hopen => ?_, fun hn hwhole hcheck => ?_, ?_⟩
    · rw [if_pos hlong] at hcollect
      exact hreceive hcollect
    · rw [if_neg (Nat.not_lt_of_le hn), if_pos hopen] at hcollect
      exact hreceive hcollect
    · rw [if_neg (Nat.not_lt_of_le hn), if_neg (Nat.not_lt_of_le hwhole.ge), judgeFrame_mismatch s hcheck] at hcollect
      exact hreceive hcollect
    · rintro hk rfl rfl rfl
      have hno : ∀ k r, s.service ≠ .answer k r := fun k r hk => PortState.noConfusion (h.symm.trans hk)
      have hstatus : exec .status s = .next (refreshPins (handRequest .status 0x00#8 s)) :=
        exec_request hs hb hno (.inr rfl) rfl rfl
      exact (hreceive (receiveByte_status hk rfl hframe s)).trans hstatus.symm
  · have hgap : exec .serviceByteTimeout u = .next (refreshPins (if 20000 < gap then u.setService .hunt else u)) := by
      rw [exec_actClock (f := serviceGap) hu rfl, serviceGap_receive h]
    refine ⟨fun hover => ?_, fun hwithin => ?_⟩
    · rw [hgap, if_pos hover]
    · rw [hgap, if_neg (Nat.not_lt_of_le hwithin)]
  · rw [exec_act (f := replySent) hs rfl, replySent_answer h]

end Sys2Proof.Machine
end

/-! SUPPORT. What every command answers, and which command a step runs (spec/opcode_table.json; spec/00 section 0.4). -/
namespace Sys2Proof.Machine

/-- Settles O3: every command ends with the output lines driven, and keeps the waiting commands as it keeps the forms. -/
theorem everyCommandAnswersNext : Obligations.EveryCommandAnswersNext := by
  intro c s
  obtain ⟨t, ht⟩ := exec_pins c s
  exact ⟨refreshPins t, ht, (exec_form ht).pending⟩

/-- Settles O1: the command at the front leaves the queue before it acts. -/
theorem stepTakesFrontCommand : Obligations.StepTakesFrontCommand := by
  intro c rest s h
  unfold step
  rw [h]

end Sys2Proof.Machine
